-- ==== Sys2Proof/Word.lean ====
section
/-!
DEFINITION. The plain value types of the block: bytes, 32-bit integers, TargetChip values and the real numbers of
spec/00_scope.md R10 to R12. Arithmetic on reals stands in Sys2Proof/Machine/Num.lean.
-/
namespace Sys2Proof

/-- A byte: 8 bits, bit 0 the least significant (R10). -/
abbrev Byte := BitVec 8

/-- `i32`: a 32-bit two's-complement integer, held as its bit pattern (R11). -/
abbrev I32 := BitVec 32

/-- A TargetChip operand: bit `k` set means chip `k`, 0 means `None` (R31, R115). -/
abbrev Chip := BitVec 5

/-- The 16-bit header of an operation: `op` in bits 15:8, `sub` in bits 7:0 (R91). -/
abbrev Header := BitVec 16

/-- The elementary functions that the default design equations use (R165). -/
inductive Elementary where
  | sin | cos | sinh | pow10 | sqrt
deriving DecidableEq, Repr

/-- A finite real number as it came about: an equal-tempered value `r * 2^(k/12)`, `r` times the real number `n` that came
from outside, or a result of arithmetic. Which number each stands for is `RealExpr.value`. DESIGN CHOICE, log 3. -/
inductive RealExpr where
  | base (r : Rat) (k : Fin 12)
  | given (r : Rat) (n : Nat)
  | pi
  | ln2
  | neg (a : RealExpr)
  | add (a b : RealExpr)
  | mul (a b : RealExpr)
  | div (a b : RealExpr)
  | apply (f : Elementary) (a : RealExpr)
deriving DecidableEq, Repr, Inhabited

/-- The real numbers of the block, extended with the three non-finite values of R12. A finite value is `r * 2^(k/12)`,
of which the rationals are `k = 0` and the others what FNUM_TABLE (R29) is made of, or an expression for any other real
number. DESIGN CHOICE, log 3; there is no negative zero (DEDUCED from R12, log 4). -/
inductive XReal where
  | nan
  | posInf
  | negInf
  | fin (r : Rat) (k : Fin 12)
  | expr (e : RealExpr)
deriving DecidableEq, Repr, Inhabited

/-- A rational as a real. -/
abbrev XReal.ofRat (r : Rat) : XReal := .fin r 0

/-- Whether a value is a real number (R12). -/
def XReal.isFinite : XReal → Bool
  | .fin _ _ | .expr _ => true
  | _ => false

/-- A finite value as an expression. -/
def XReal.toExpr : XReal → RealExpr
  | .fin r k => .base r k
  | .expr e => e
  | _ => .base 0 0

/-- Zero has the one form `fin 0 0`. -/
def XReal.canonical : XReal → Bool
  | .fin r k => r != 0 || k == 0
  | _ => true

end Sys2Proof
end

