-- ==== Sys2Proof/Config.lean ====
section
/-!
DEFINITION. The parameters that spec/00_scope.md R8 and R9 leave open, as plain data (the structure `Config`, carried in
State, log 6), and the free values: constants without a body, of which nothing can be proved.
-/
namespace Sys2Proof

/-- The board configuration of R8. -/
structure BoardConfig where
  csPins : Byte
  csBankHigh : Bool
  csDir : Byte
  csIdle : Byte
  csActiveLow : Bool
  icBankHigh : Bool
  icDir : Byte
  icValueLow : Byte
  icValueHigh : Byte
deriving DecidableEq, Repr

/-- The two numeric domains that R9 allows for `Num` (decision D2). -/
inductive NumMode where
  | exact
  | binary64
deriving DecidableEq, Repr

/-- Which design functions CEQ uses: the default equations of R166 to R173, or others (R165, decision D24). -/
inductive FilterSource where
  | cookbook
  | other
deriving DecidableEq, Repr

/-- The eight filter types (R165). -/
inductive FilterType where
  | lowpass | highpass | bandpass | bandstop | lowShelf | highShelf | peaking | allpass
deriving DecidableEq, Repr

/-- Header fields of a tone slot (R22). -/
inductive ToneField where
  | bo | lfo | alg
deriving DecidableEq, Repr

/-- Fields of an operator, in the order of R23. -/
inductive OpField where
  | sr | rr | dr | ar | sl | tl | ksl | dam | dvb | multi | dt | ws | fb | xof | ksr | eam | evb
deriving DecidableEq, Repr

/-- Fields of the chip registers that the setters of R259 to R283 write. -/
inductive RegField where
  | clke | alrst | analog | gain | seqSetting | seqVol | dirSv | size | voiceNum | voiceVol | fnum | block
  | keyOn | mute | egRst | toneNum | chVol | dirCv | vibrato | multInt | multFrac | dirMt | seqTime | masterVol
  | softReset | dadjt | muteItime | chvolItime | masterItime | lfoRst | drvSel | test
deriving DecidableEq, Repr

/-- One run of bits of a layout table: bits `src + width - 1` down to `src` of a field stand in byte (or register) `byte`
at bit position `pos` (R110, R111, R116). -/
structure Slice (α : Type) where
  field : α
  src : Nat
  width : Nat
  byte : Nat
  pos : Nat
deriving DecidableEq, Repr

/-- The parameters of R8 and R9 that are plain data. -/
structure Config where
  board : BoardConfig
  nreq : Nat
  num : NumMode
  resetSeq : Vector (List (Byte × Byte)) 5
  filters : FilterSource
  opLayout : List (Slice OpField)
  toneHdr : List (Slice ToneField)
  regLayout : List (Slice RegField)
deriving DecidableEq, Repr

/-- The six coefficients of a design equation in transfer-function form, before normalisation (R165(c)). -/
structure Design where
  b0 : XReal
  b1 : XReal
  b2 : XReal
  a0 : XReal
  a1 : XReal
  a2 : XReal
deriving DecidableEq, Repr, Inhabited

/-- FREE VALUE. The real numbers that come from outside as operands in the exact domain, by number: each can be any (R9,
R12; log 3). -/
opaque Config.givenReal : Nat → ℝ

/-- The elementary functions of R165 over the real numbers. -/
noncomputable def Elementary.value : Elementary → ℝ → ℝ
  | .sin => Real.sin
  | .cos => Real.cos
  | .sinh => Real.sinh
  | .pow10 => fun x => (10 : ℝ) ^ x
  | .sqrt => Real.sqrt

/-- The real number an expression stands for (R12, log 3). The arithmetic makes no quotient by zero (log 5) and no negative
square root (log 11); an operand that is one stands for 0. -/
noncomputable def RealExpr.value : RealExpr → ℝ
  | .base r k => (r : ℝ) * (2 : ℝ) ^ ((k.val : ℝ) / 12)
  | .given r n => (r : ℝ) * Config.givenReal n
  | .pi => Real.pi
  | .ln2 => Real.log 2
  | .neg a => -a.value
  | .add a b => a.value + b.value
  | .mul a b => a.value * b.value
  | .div a b => a.value / b.value
  | .apply f a => f.value a.value

/-- The real number a finite value stands for; 0 for the three others, which every claim treats apart (R12, log 3). -/
noncomputable def XReal.value : XReal → ℝ
  | .fin r k => (r : ℝ) * (2 : ℝ) ^ ((k.val : ℝ) / 12)
  | .expr e => e.value
  | _ => 0

/-- Two values are the same extended real, in whichever forms they are held (R12, log 3). -/
def XReal.Same (x y : XReal) : Prop := x = y ∨ (x.isFinite = true ∧ y.isFinite = true ∧ x.value = y.value)

/-- An extended real, without the form it is held in. It is what a free value may depend on, as equal operands give equal
results (R174). -/
abbrev Extended := Quot XReal.Same

/-- The extended real that a value is. -/
def XReal.number (x : XReal) : Extended := Quot.mk _ x

/-- FREE VALUE. The design functions where they are not the default equations: total and a function of the operands
(cutoff, then `q` or bandwidth, then gain), and nothing else is known (R165, D24; log 10). -/
opaque Config.filterDesign : NumMode → FilterType → Extended → Extended → Extended → Design

/-- FREE VALUE. Which of the binary64 values about the exact one an elementary function returns (U21; log 11). -/
opaque Config.nearby : Elementary → Extended → Fin 3

/-- FREE VALUE. An elementary function of an operand that is not finite, and a square root of a negative one (R175; log 11). -/
opaque Config.elementary : Elementary → Extended → XReal

/-- FREE VALUE. ATTACK_TIME[k] for `k >= 4`, in TIME_UNIT: a real, or none for `+inf` (R30, R137, D25; log 12). -/
opaque Config.attackTime : Nat → Option RealExpr

/-- FREE VALUE. ENV_TIME[k], in TIME_UNIT: any finite real, "envelope table has no infinities" (R30, D25; log 12). -/
opaque Config.envTime : Nat → RealExpr

/-- FREE VALUE. TIME_UNIT: how many seconds the unit of the time tables lasts (R9, R30, D25; log 12). -/
opaque Config.timeUnit : RealExpr

/-- FREE VALUE. A quotient by a value that is zero, which the spec gives no value (R175; log 5). -/
opaque Config.divByZero : Extended → XReal

end Sys2Proof
end

