-- ==== Sys2Proof/Syntax.lean ====
section
/-!
DEFINITION. The operations of the block, one constructor per row of spec/opcode_table.json (spec/30_encoding.md R93 to R95,
R100 to R103), and the command port they arrive on (R91).
-/
namespace Sys2Proof

/-- One operation with its operands. The last five are the commands of the output stream, which the bridge executes
(R100 to R103; log 25). -/
inductive Instr where
  /-- CALC_FNUM (R131). -/
  | calcFnum (freqHz : XReal) (block : Int)
  /-- CALC_FREQ (R132). -/
  | calcFreq (fnum : XReal) (block : Int)
  /-- KEY2FNUM (R133). -/
  | key2fnum (key : Int)
  /-- CONV_FMULT (R135). -/
  | convFmult (m : XReal)
  /-- CALC_ROF (R136). -/
  | calcRof (ksr : Bool) (block : Nat) (basicOctave : Nat) (fnum : XReal)
  /-- ATK_TIME (R137). -/
  | atkTime (rate : Int) (rof : Int)
  /-- ENV_TIME (R138). -/
  | envTime (rate : Int) (rof : Int)
  /-- CEQ_ENC (R161). -/
  | ceqEnc (v : XReal)
  /-- CEQ_DEC (R162). -/
  | ceqDec (w : I32)
  /-- CEQ_PACK (R163). -/
  | ceqPack (coefficients : List XReal)
  /-- FLT_LOWPASS (R166). -/
  | fltLowpass (cutoff : XReal) (q : XReal)
  /-- FLT_HIGHPASS (R167). -/
  | fltHighpass (cutoff : XReal) (q : XReal)
  /-- FLT_BANDPASS (R168). -/
  | fltBandpass (cutoff : XReal) (bandwidth : XReal)
  /-- FLT_BANDSTOP (R169). -/
  | fltBandstop (cutoff : XReal) (bandwidth : XReal)
  /-- FLT_LOWSHELF (R170). -/
  | fltLowshelf (cutoff : XReal) (q : XReal) (gain : XReal)
  /-- FLT_HIGHSHELF (R171). -/
  | fltHighshelf (cutoff : XReal) (q : XReal) (gain : XReal)
  /-- FLT_PEAKING (R172). -/
  | fltPeaking (cutoff : XReal) (bandwidth : XReal) (gain : XReal)
  /-- FLT_ALLPASS (R173). -/
  | fltAllpass (cutoff : XReal) (q : XReal)
  /-- TONE_SET.BO (R191). -/
  | toneSetBo (slot : Int) (value : Int)
  /-- TONE_SET.LFO (R191). -/
  | toneSetLfo (slot : Int) (value : Int)
  /-- TONE_SET.ALG (R191). -/
  | toneSetAlg (slot : Int) (value : Int)
  /-- OP_SET.SR (R192). -/
  | opSetSr (slot : Int) (k : Int) (value : Int)
  /-- OP_SET.RR (R192). -/
  | opSetRr (slot : Int) (k : Int) (value : Int)
  /-- OP_SET.DR (R192). -/
  | opSetDr (slot : Int) (k : Int) (value : Int)
  /-- OP_SET.AR (R192). -/
  | opSetAr (slot : Int) (k : Int) (value : Int)
  /-- OP_SET.SL (R192). -/
  | opSetSl (slot : Int) (k : Int) (value : Int)
  /-- OP_SET.TL (R192). -/
  | opSetTl (slot : Int) (k : Int) (value : Int)
  /-- OP_SET.KSL (R192). -/
  | opSetKsl (slot : Int) (k : Int) (value : Int)
  /-- OP_SET.DAM (R192). -/
  | opSetDam (slot : Int) (k : Int) (value : Int)
  /-- OP_SET.DVB (R192). -/
  | opSetDvb (slot : Int) (k : Int) (value : Int)
  /-- OP_SET.MULTI (R192). -/
  | opSetMulti (slot : Int) (k : Int) (value : Int)
  /-- OP_SET.DT (R192). -/
  | opSetDt (slot : Int) (k : Int) (value : Int)
  /-- OP_SET.WS (R192). -/
  | opSetWs (slot : Int) (k : Int) (value : Int)
  /-- OP_SET.FB (R192). -/
  | opSetFb (slot : Int) (k : Int) (value : Int)
  /-- OP_SET.XOF (R192). -/
  | opSetXof (slot : Int) (k : Int) (value : Bool)
  /-- OP_SET.KSR (R192). -/
  | opSetKsr (slot : Int) (k : Int) (value : Bool)
  /-- OP_SET.EAM (R192). -/
  | opSetEam (slot : Int) (k : Int) (value : Bool)
  /-- OP_SET.EVB (R192). -/
  | opSetEvb (slot : Int) (k : Int) (value : Bool)
  /-- TONE_GET.BO (R193). -/
  | toneGetBo (slot : Int)
  /-- TONE_GET.LFO (R193). -/
  | toneGetLfo (slot : Int)
  /-- TONE_GET.ALG (R193). -/
  | toneGetAlg (slot : Int)
  /-- OP_GET.SR (R194). -/
  | opGetSr (slot : Int) (k : Int)
  /-- OP_GET.RR (R194). -/
  | opGetRr (slot : Int) (k : Int)
  /-- OP_GET.DR (R194). -/
  | opGetDr (slot : Int) (k : Int)
  /-- OP_GET.AR (R194). -/
  | opGetAr (slot : Int) (k : Int)
  /-- OP_GET.SL (R194). -/
  | opGetSl (slot : Int) (k : Int)
  /-- OP_GET.TL (R194). -/
  | opGetTl (slot : Int) (k : Int)
  /-- OP_GET.KSL (R194). -/
  | opGetKsl (slot : Int) (k : Int)
  /-- OP_GET.DAM (R194). -/
  | opGetDam (slot : Int) (k : Int)
  /-- OP_GET.DVB (R194). -/
  | opGetDvb (slot : Int) (k : Int)
  /-- OP_GET.MULTI (R194). -/
  | opGetMulti (slot : Int) (k : Int)
  /-- OP_GET.DT (R194). -/
  | opGetDt (slot : Int) (k : Int)
  /-- OP_GET.WS (R194). -/
  | opGetWs (slot : Int) (k : Int)
  /-- OP_GET.FB (R194). -/
  | opGetFb (slot : Int) (k : Int)
  /-- OP_GET.XOF (R194). -/
  | opGetXof (slot : Int) (k : Int)
  /-- OP_GET.KSR (R194). -/
  | opGetKsr (slot : Int) (k : Int)
  /-- OP_GET.EAM (R194). -/
  | opGetEam (slot : Int) (k : Int)
  /-- OP_GET.EVB (R194). -/
  | opGetEvb (slot : Int) (k : Int)
  /-- OP_EXPORT (R195). -/
  | opExport (slot : Int) (k : Int) (buffer : List Byte) (offset : Int)
  /-- TONE_EXPORT (R196). -/
  | toneExport (slot : Int) (buffer : List Byte) (offset : Int)
  /-- COLL_EXPORT (R197). -/
  | collExport (buffer : List Byte) (offset : Int) (tone : Int)
  /-- Q_GPIO (R223). -/
  | qGpio (highBank : Bool) (value : Byte) (direction : Byte)
  /-- Q_SPI_WRITE (R225). -/
  | qSpiWrite (addr : Byte) (data : Byte)
  /-- Q_SPI_BURST (R226). -/
  | qSpiBurst (addr : Byte) (data : List Byte) (offset : Int) (count : Int)
  /-- FLUSH (R227). -/
  | flush
  /-- T_READ (R228). -/
  | tRead (addr : Byte)
  /-- HW_RESET (R229). -/
  | hwReset
  /-- DISPOSE (R233). -/
  | dispose
  /-- SET_TARGET (R231). -/
  | setTarget (chip : Chip)
  /-- WRITE (R251). -/
  | write (addr : Byte) (data : Byte)
  /-- BURST_WRITE (R252). -/
  | burstWrite (addr : Byte) (data : List Byte) (offset : Int) (count : Int)
  /-- READ (R253). -/
  | read (addr : Byte) (target : Chip)
  /-- WRITE_CONTENTS (R254). -/
  | writeContents (tone : Int)
  /-- SET_EQ (R255). -/
  | setEq (band : Int) (coeffs : List XReal)
  /-- SW_RESET (R257). -/
  | swReset
  /-- SET_CLKE (R259). -/
  | setClke (enable : Bool)
  /-- SET_ALRST (R260). -/
  | setAlrst (reset : Bool)
  /-- SET_APD (R261). -/
  | setApd (blocks : I32)
  /-- SET_GAIN (R262). -/
  | setGain (gain : I32)
  /-- SET_SEQ (R264). -/
  | setSeq (setting : I32)
  /-- SET_SEQVOL_SIZE (R265). -/
  | setSeqvolSize (volume : I32) (dirSv : Bool) (size : I32)
  /-- SET_VOICE_NUM (R266). -/
  | setVoiceNum (voice : I32)
  /-- SET_VOICE_VOL (R267). -/
  | setVoiceVol (volume : I32)
  /-- SET_FNUM_BLOCK (R268). -/
  | setFnumBlock (fnum : I32) (block : I32)
  /-- SET_TONE_CTRL (R269). -/
  | setToneCtrl (keyOn : Bool) (mute : Bool) (egReset : Bool) (tone : I32)
  /-- SET_CH_VOL (R270). -/
  | setChVol (volume : I32) (dirCv : Bool)
  /-- SET_VIB (R271). -/
  | setVib (depth : I32)
  /-- SET_FMULT (R273). -/
  | setFmult (integer : I32) (fraction : I32)
  /-- SET_MUTE_ITP (R274). -/
  | setMuteItp (dirMt : Bool)
  /-- SET_SEQ_TIME (R276). -/
  | setSeqTime (unit : I32)
  /-- SET_MASTER_VOL (R277). -/
  | setMasterVol (volume : I32)
  /-- SET_SOFTRESET (R278). -/
  | setSoftreset (value : I32)
  /-- SET_VOL_ITP (R279). -/
  | setVolItp (dadjt : Bool) (muteItime : I32) (chvolItime : I32) (masterItime : I32)
  /-- SET_LFO_RST (R280). -/
  | setLfoRst (reset : Bool)
  /-- SET_DRV_SEL (R281). -/
  | setDrvSel (select : Bool)
  /-- SET_TEST (R283). -/
  | setTest (value : I32)
  /-- REGGET (R258). -/
  | regget (sub : Byte) (target : Chip)
  /-- SEC_ENABLE (R301). -/
  | secEnable
  /-- SEC_DISABLE (R302). -/
  | secDisable
  /-- SEC_BEGIN (R303). -/
  | secBegin (target : Chip)
  /-- SEC_END (R304). -/
  | secEnd (ms : Nat)
  /-- GPIO_LOW (R100). -/
  | gpioLow (value : Byte) (direction : Byte)
  /-- GPIO_HIGH (R100). -/
  | gpioHigh (value : Byte) (direction : Byte)
  /-- SPI_WRITE (R101). -/
  | spiWrite (addr : Byte) (data : List Byte)
  /-- SPI_READ (R102). -/
  | spiRead (addr : Byte) (payload : List Byte)
  /-- STREAM_FLUSH (R103). -/
  | streamFlush
deriving DecidableEq, Repr

/-- The operand ports of the command port: each operand is a typed value on a port of its own (R91). Operands of one type
take the ports of that type in the order of the rule's Operands line; a port nobody drives holds 0, false, the empty
sequence or `None`, which are the defaults of R253, R303 and R304. DESIGN CHOICE, log 1. -/
structure Ports where
  z0 : Int := 0
  z1 : Int := 0
  z2 : Int := 0
  n0 : Nat := 0
  n1 : Nat := 0
  i0 : I32 := 0
  i1 : I32 := 0
  i2 : I32 := 0
  u0 : Byte := 0
  u1 : Byte := 0
  f0 : Bool := false
  f1 : Bool := false
  f2 : Bool := false
  r0 : XReal := .fin 0 0
  r1 : XReal := .fin 0 0
  r2 : XReal := .fin 0 0
  bytes : List Byte := []
  reals : List XReal := []
  chip : Chip := 0
deriving DecidableEq, Repr

/-- What a requester presents on the command port: a header and the operand ports (R91). -/
structure Command where
  header : Header
  ports : Ports := {}
deriving DecidableEq, Repr

end Sys2Proof
end

