-- ==== Sys2Proof/WellFormed.lean ====
section
/-!
DEFINITION. Which terms of `Instr` stand for an operation or a stream command of the spec: real operands in their one form
(log 3), and the stream commands in the forms of spec/30_encoding.md R101, R102 and R106. Integer operands need no check:
out-of-range values "can be presented and refused" (R91).
-/
namespace Sys2Proof

/-- Every check an operation's term must pass. -/
def Instr.wellFormed : Instr → Bool
  | .calcFnum freqHz _ => freqHz.canonical
  | .calcFreq fnum _ => fnum.canonical
  | .key2fnum _ => true
  | .convFmult m => m.canonical
  | .calcRof _ _ _ fnum => fnum.canonical
  | .atkTime _ _ => true
  | .envTime _ _ => true
  | .ceqEnc v => v.canonical
  | .ceqDec _ => true
  | .ceqPack coefficients => coefficients.all XReal.canonical
  | .fltLowpass cutoff q => cutoff.canonical && q.canonical
  | .fltHighpass cutoff q => cutoff.canonical && q.canonical
  | .fltBandpass cutoff bandwidth => cutoff.canonical && bandwidth.canonical
  | .fltBandstop cutoff bandwidth => cutoff.canonical && bandwidth.canonical
  | .fltLowshelf cutoff q gain => cutoff.canonical && q.canonical && gain.canonical
  | .fltHighshelf cutoff q gain => cutoff.canonical && q.canonical && gain.canonical
  | .fltPeaking cutoff bandwidth gain => cutoff.canonical && bandwidth.canonical && gain.canonical
  | .fltAllpass cutoff q => cutoff.canonical && q.canonical
  | .toneSetBo _ _ => true
  | .toneSetLfo _ _ => true
  | .toneSetAlg _ _ => true
  | .opSetSr _ _ _ => true
  | .opSetRr _ _ _ => true
  | .opSetDr _ _ _ => true
  | .opSetAr _ _ _ => true
  | .opSetSl _ _ _ => true
  | .opSetTl _ _ _ => true
  | .opSetKsl _ _ _ => true
  | .opSetDam _ _ _ => true
  | .opSetDvb _ _ _ => true
  | .opSetMulti _ _ _ => true
  | .opSetDt _ _ _ => true
  | .opSetWs _ _ _ => true
  | .opSetFb _ _ _ => true
  | .opSetXof _ _ _ => true
  | .opSetKsr _ _ _ => true
  | .opSetEam _ _ _ => true
  | .opSetEvb _ _ _ => true
  | .toneGetBo _ => true
  | .toneGetLfo _ => true
  | .toneGetAlg _ => true
  | .opGetSr _ _ => true
  | .opGetRr _ _ => true
  | .opGetDr _ _ => true
  | .opGetAr _ _ => true
  | .opGetSl _ _ => true
  | .opGetTl _ _ => true
  | .opGetKsl _ _ => true
  | .opGetDam _ _ => true
  | .opGetDvb _ _ => true
  | .opGetMulti _ _ => true
  | .opGetDt _ _ => true
  | .opGetWs _ _ => true
  | .opGetFb _ _ => true
  | .opGetXof _ _ => true
  | .opGetKsr _ _ => true
  | .opGetEam _ _ => true
  | .opGetEvb _ _ => true
  | .opExport _ _ _ _ => true
  | .toneExport _ _ _ => true
  | .collExport _ _ _ => true
  | .qGpio _ _ _ => true
  | .qSpiWrite _ _ => true
  | .qSpiBurst _ _ _ _ => true
  | .flush => true
  | .tRead _ => true
  | .hwReset => true
  | .dispose => true
  | .setTarget _ => true
  | .write _ _ => true
  | .burstWrite _ _ _ _ => true
  | .read _ _ => true
  | .writeContents _ => true
  | .setEq _ coeffs => coeffs.all XReal.canonical
  | .swReset => true
  | .setClke _ => true
  | .setAlrst _ => true
  | .setApd _ => true
  | .setGain _ => true
  | .setSeq _ => true
  | .setSeqvolSize _ _ _ => true
  | .setVoiceNum _ => true
  | .setVoiceVol _ => true
  | .setFnumBlock _ _ => true
  | .setToneCtrl _ _ _ _ => true
  | .setChVol _ _ => true
  | .setVib _ => true
  | .setFmult _ _ => true
  | .setMuteItp _ => true
  | .setSeqTime _ => true
  | .setMasterVol _ => true
  | .setSoftreset _ => true
  | .setVolItp _ _ _ _ => true
  | .setLfoRst _ => true
  | .setDrvSel _ => true
  | .setTest _ => true
  | .regget _ _ => true
  | .secEnable => true
  | .secDisable => true
  | .secBegin _ => true
  | .secEnd _ => true
  | .gpioLow _ _ => true
  | .gpioHigh _ _ => true
  | .spiWrite _ data => decide (1 ≤ data.length) && decide (data.length ≤ 65535)
  | .spiRead addr payload => addr.getLsbD 7 && (payload == [0])
  | .streamFlush => true

end Sys2Proof
end

