-- ==== Sys2Proof/Decode.lean ====
section
/-!
DEFINITION. Decoding the command port (spec/30_encoding.md R91 to R95) and the output stream (R100 to R103), rejecting by
name, and the encoders of both.
-/
namespace Sys2Proof

/-- Why a header or a stream is no operation. -/
inductive DecodeError where
  /-- The header selects no operation (R120). -/
  | undefinedHeader (h : Header)
  /-- The byte begins none of the five stream commands (R100 to R103). -/
  | undefinedStreamByte (b : Byte)
  /-- The stream ends before the command does. -/
  | truncated
deriving DecidableEq, Repr

/-- FREQ, `op` 01 to 07. -/
def freqRows : List (Header × (Ports → Instr)) := [
  (0x0100, fun p => .calcFnum p.r0 p.z0),
  (0x0200, fun p => .calcFreq p.r0 p.z0),
  (0x0300, fun p => .key2fnum p.z0),
  (0x0400, fun p => .convFmult p.r0),
  (0x0500, fun p => .calcRof p.f0 p.n0 p.n1 p.r0),
  (0x0600, fun p => .atkTime p.z0 p.z1),
  (0x0700, fun p => .envTime p.z0 p.z1)]

/-- CEQ, `op` 20 to 2F. -/
def filterRows : List (Header × (Ports → Instr)) := [
  (0x2000, fun p => .ceqEnc p.r0),
  (0x2100, fun p => .ceqDec p.i0),
  (0x2200, fun p => .ceqPack p.reals),
  (0x2800, fun p => .fltLowpass p.r0 p.r1),
  (0x2900, fun p => .fltHighpass p.r0 p.r1),
  (0x2A00, fun p => .fltBandpass p.r0 p.r1),
  (0x2B00, fun p => .fltBandstop p.r0 p.r1),
  (0x2C00, fun p => .fltLowshelf p.r0 p.r1 p.r2),
  (0x2D00, fun p => .fltHighshelf p.r0 p.r1 p.r2),
  (0x2E00, fun p => .fltPeaking p.r0 p.r1 p.r2),
  (0x2F00, fun p => .fltAllpass p.r0 p.r1)]

/-- TONE_SET and OP_SET: `sub` is the field id (R94). -/
def toneSetRows : List (Header × (Ports → Instr)) := [
  (0x4000, fun p => .toneSetBo p.z0 p.z1),
  (0x4001, fun p => .toneSetLfo p.z0 p.z1),
  (0x4002, fun p => .toneSetAlg p.z0 p.z1),
  (0x4100, fun p => .opSetSr p.z0 p.z1 p.z2),
  (0x4101, fun p => .opSetRr p.z0 p.z1 p.z2),
  (0x4102, fun p => .opSetDr p.z0 p.z1 p.z2),
  (0x4103, fun p => .opSetAr p.z0 p.z1 p.z2),
  (0x4104, fun p => .opSetSl p.z0 p.z1 p.z2),
  (0x4105, fun p => .opSetTl p.z0 p.z1 p.z2),
  (0x4106, fun p => .opSetKsl p.z0 p.z1 p.z2),
  (0x4107, fun p => .opSetDam p.z0 p.z1 p.z2),
  (0x4108, fun p => .opSetDvb p.z0 p.z1 p.z2),
  (0x4109, fun p => .opSetMulti p.z0 p.z1 p.z2),
  (0x410A, fun p => .opSetDt p.z0 p.z1 p.z2),
  (0x410B, fun p => .opSetWs p.z0 p.z1 p.z2),
  (0x410C, fun p => .opSetFb p.z0 p.z1 p.z2),
  (0x410D, fun p => .opSetXof p.z0 p.z1 p.f0),
  (0x410E, fun p => .opSetKsr p.z0 p.z1 p.f0),
  (0x410F, fun p => .opSetEam p.z0 p.z1 p.f0),
  (0x4110, fun p => .opSetEvb p.z0 p.z1 p.f0)]

/-- TONE_GET and OP_GET: `sub` is the field id (R94). -/
def toneGetRows : List (Header × (Ports → Instr)) := [
  (0x4200, fun p => .toneGetBo p.z0),
  (0x4201, fun p => .toneGetLfo p.z0),
  (0x4202, fun p => .toneGetAlg p.z0),
  (0x4300, fun p => .opGetSr p.z0 p.z1),
  (0x4301, fun p => .opGetRr p.z0 p.z1),
  (0x4302, fun p => .opGetDr p.z0 p.z1),
  (0x4303, fun p => .opGetAr p.z0 p.z1),
  (0x4304, fun p => .opGetSl p.z0 p.z1),
  (0x4305, fun p => .opGetTl p.z0 p.z1),
  (0x4306, fun p => .opGetKsl p.z0 p.z1),
  (0x4307, fun p => .opGetDam p.z0 p.z1),
  (0x4308, fun p => .opGetDvb p.z0 p.z1),
  (0x4309, fun p => .opGetMulti p.z0 p.z1),
  (0x430A, fun p => .opGetDt p.z0 p.z1),
  (0x430B, fun p => .opGetWs p.z0 p.z1),
  (0x430C, fun p => .opGetFb p.z0 p.z1),
  (0x430D, fun p => .opGetXof p.z0 p.z1),
  (0x430E, fun p => .opGetKsr p.z0 p.z1),
  (0x430F, fun p => .opGetEam p.z0 p.z1),
  (0x4310, fun p => .opGetEvb p.z0 p.z1)]

/-- The three tone exports. -/
def toneWriteRows : List (Header × (Ports → Instr)) := [
  (0x4400, fun p => .opExport p.z0 p.z1 p.bytes p.z2),
  (0x4500, fun p => .toneExport p.z0 p.bytes p.z1),
  (0x4600, fun p => .collExport p.bytes p.z0 p.z1)]

/-- FRAME transport, `op` 50 to 57. -/
def transportRows : List (Header × (Ports → Instr)) := [
  (0x5000, fun p => .qGpio p.f0 p.u0 p.u1),
  (0x5100, fun p => .qSpiWrite p.u0 p.u1),
  (0x5200, fun p => .qSpiBurst p.u0 p.bytes p.z0 p.z1),
  (0x5300, fun _ => .flush),
  (0x5400, fun p => .tRead p.u0),
  (0x5500, fun _ => .hwReset),
  (0x5600, fun _ => .dispose),
  (0x5700, fun p => .setTarget p.chip)]

/-- FRAME register driver, `op` 60 to 65. -/
def driverRows : List (Header × (Ports → Instr)) := [
  (0x6000, fun p => .write p.u0 p.u1),
  (0x6100, fun p => .burstWrite p.u0 p.bytes p.z0 p.z1),
  (0x6200, fun p => .read p.u0 p.chip),
  (0x6300, fun p => .writeContents p.z0),
  (0x6400, fun p => .setEq p.z0 p.reals),
  (0x6500, fun _ => .swReset)]

/-- REGSET, `op` 68: `sub` is the register address (R95). -/
def setterRows : List (Header × (Ports → Instr)) := [
  (0x6800, fun p => .setClke p.f0),
  (0x6801, fun p => .setAlrst p.f0),
  (0x6802, fun p => .setApd p.i0),
  (0x6803, fun p => .setGain p.i0),
  (0x6808, fun p => .setSeq p.i0),
  (0x6809, fun p => .setSeqvolSize p.i0 p.f0 p.i1),
  (0x680B, fun p => .setVoiceNum p.i0),
  (0x680C, fun p => .setVoiceVol p.i0),
  (0x680D, fun p => .setFnumBlock p.i0 p.i1),
  (0x680F, fun p => .setToneCtrl p.f0 p.f1 p.f2 p.i0),
  (0x6810, fun p => .setChVol p.i0 p.f0),
  (0x6811, fun p => .setVib p.i0),
  (0x6812, fun p => .setFmult p.i0 p.i1),
  (0x6814, fun p => .setMuteItp p.f0),
  (0x6817, fun p => .setSeqTime p.i0),
  (0x6819, fun p => .setMasterVol p.i0),
  (0x681A, fun p => .setSoftreset p.i0),
  (0x681B, fun p => .setVolItp p.f0 p.i0 p.i1 p.i2),
  (0x681C, fun p => .setLfoRst p.f0),
  (0x681D, fun p => .setDrvSel p.f0),
  (0x6850, fun p => .setTest p.i0)]

/-- FRAME section manager, `op` 70 to 73. -/
def sectionRows : List (Header × (Ports → Instr)) := [
  (0x7000, fun _ => .secEnable),
  (0x7100, fun _ => .secDisable),
  (0x7200, fun p => .secBegin p.chip),
  (0x7300, fun p => .secEnd p.n0)]

/-- The rows of R93 to R95 but REGGET, whose `sub` is any address. -/
def commandRows : List (Header × (Ports → Instr)) :=
  freqRows ++ filterRows ++ toneSetRows ++ toneGetRows ++ toneWriteRows ++ transportRows ++ driverRows ++ setterRows ++ sectionRows

/-- The operation a header and its operands select (R91 to R95). -/
def decodeCommand (c : Command) : Except DecodeError Instr :=
  if c.header >>> 8 = 0x69 then .ok (.regget (c.header.setWidth 8) c.ports.chip)
  else match commandRows.find? (fun row => row.1 == c.header) with
    | some row => .ok (row.2 c.ports)
    | none => .error (.undefinedHeader c.header)

/-- The two bytes of a length field, low byte first (R62(a), R106). -/
def lenField (n : Nat) : List Byte := [BitVec.ofNat 8 n, BitVec.ofNat 8 (n >>> 8)]

/-- What a length-prefixed SPI command carries: `lenLo, lenHi, addr` and LEN data bytes (R101, R102, R106). -/
def decodeSpi (make : Byte → List Byte → Instr) : List Byte → Except DecodeError (Instr × List Byte)
  | lo :: hi :: addr :: rest =>
    let n := lo.toNat + 256 * hi.toNat
    if n ≤ rest.length then .ok (make addr (rest.take n), rest.drop n) else .error .truncated
  | _ => .error .truncated

/-- What a GPIO-set command carries: value and direction (R100). -/
def decodeGpio (make : Byte → Byte → Instr) : List Byte → Except DecodeError (Instr × List Byte)
  | value :: direction :: rest => .ok (make value direction, rest)
  | _ => .error .truncated

/-- The first command of a stream, and the bytes after it (R100 to R103). -/
def decodeStream : List Byte → Except DecodeError (Instr × List Byte)
  | [] => .error .truncated
  | b :: rest =>
    if b = 0x80 then decodeGpio .gpioLow rest
    else if b = 0x82 then decodeGpio .gpioHigh rest
    else if b = 0x11 then decodeSpi .spiWrite rest
    else if b = 0x31 then decodeSpi .spiRead rest
    else if b = 0x87 then .ok (.streamFlush, rest)
    else .error (.undefinedStreamByte b)

/-- The form an operation takes outside: a command on the port, or bytes of the stream. -/
inductive Encoded where
  | command (c : Command)
  | stream (bytes : List Byte)
deriving DecidableEq, Repr

/-- The encoding of an operation: its header and its operands' ports (R91 to R95), or its bytes (R100 to R103). -/
def encode : Instr → Encoded
  | .calcFnum freqHz block => .command ⟨0x0100, { r0 := freqHz, z0 := block }⟩
  | .calcFreq fnum block => .command ⟨0x0200, { r0 := fnum, z0 := block }⟩
  | .key2fnum key => .command ⟨0x0300, { z0 := key }⟩
  | .convFmult m => .command ⟨0x0400, { r0 := m }⟩
  | .calcRof ksr block basicOctave fnum => .command ⟨0x0500, { f0 := ksr, n0 := block, n1 := basicOctave, r0 := fnum }⟩
  | .atkTime rate rof => .command ⟨0x0600, { z0 := rate, z1 := rof }⟩
  | .envTime rate rof => .command ⟨0x0700, { z0 := rate, z1 := rof }⟩
  | .ceqEnc v => .command ⟨0x2000, { r0 := v }⟩
  | .ceqDec w => .command ⟨0x2100, { i0 := w }⟩
  | .ceqPack coefficients => .command ⟨0x2200, { reals := coefficients }⟩
  | .fltLowpass cutoff q => .command ⟨0x2800, { r0 := cutoff, r1 := q }⟩
  | .fltHighpass cutoff q => .command ⟨0x2900, { r0 := cutoff, r1 := q }⟩
  | .fltBandpass cutoff bandwidth => .command ⟨0x2A00, { r0 := cutoff, r1 := bandwidth }⟩
  | .fltBandstop cutoff bandwidth => .command ⟨0x2B00, { r0 := cutoff, r1 := bandwidth }⟩
  | .fltLowshelf cutoff q gain => .command ⟨0x2C00, { r0 := cutoff, r1 := q, r2 := gain }⟩
  | .fltHighshelf cutoff q gain => .command ⟨0x2D00, { r0 := cutoff, r1 := q, r2 := gain }⟩
  | .fltPeaking cutoff bandwidth gain => .command ⟨0x2E00, { r0 := cutoff, r1 := bandwidth, r2 := gain }⟩
  | .fltAllpass cutoff q => .command ⟨0x2F00, { r0 := cutoff, r1 := q }⟩
  | .toneSetBo slot value => .command ⟨0x4000, { z0 := slot, z1 := value }⟩
  | .toneSetLfo slot value => .command ⟨0x4001, { z0 := slot, z1 := value }⟩
  | .toneSetAlg slot value => .command ⟨0x4002, { z0 := slot, z1 := value }⟩
  | .opSetSr slot k value => .command ⟨0x4100, { z0 := slot, z1 := k, z2 := value }⟩
  | .opSetRr slot k value => .command ⟨0x4101, { z0 := slot, z1 := k, z2 := value }⟩
  | .opSetDr slot k value => .command ⟨0x4102, { z0 := slot, z1 := k, z2 := value }⟩
  | .opSetAr slot k value => .command ⟨0x4103, { z0 := slot, z1 := k, z2 := value }⟩
  | .opSetSl slot k value => .command ⟨0x4104, { z0 := slot, z1 := k, z2 := value }⟩
  | .opSetTl slot k value => .command ⟨0x4105, { z0 := slot, z1 := k, z2 := value }⟩
  | .opSetKsl slot k value => .command ⟨0x4106, { z0 := slot, z1 := k, z2 := value }⟩
  | .opSetDam slot k value => .command ⟨0x4107, { z0 := slot, z1 := k, z2 := value }⟩
  | .opSetDvb slot k value => .command ⟨0x4108, { z0 := slot, z1 := k, z2 := value }⟩
  | .opSetMulti slot k value => .command ⟨0x4109, { z0 := slot, z1 := k, z2 := value }⟩
  | .opSetDt slot k value => .command ⟨0x410A, { z0 := slot, z1 := k, z2 := value }⟩
  | .opSetWs slot k value => .command ⟨0x410B, { z0 := slot, z1 := k, z2 := value }⟩
  | .opSetFb slot k value => .command ⟨0x410C, { z0 := slot, z1 := k, z2 := value }⟩
  | .opSetXof slot k value => .command ⟨0x410D, { z0 := slot, z1 := k, f0 := value }⟩
  | .opSetKsr slot k value => .command ⟨0x410E, { z0 := slot, z1 := k, f0 := value }⟩
  | .opSetEam slot k value => .command ⟨0x410F, { z0 := slot, z1 := k, f0 := value }⟩
  | .opSetEvb slot k value => .command ⟨0x4110, { z0 := slot, z1 := k, f0 := value }⟩
  | .toneGetBo slot => .command ⟨0x4200, { z0 := slot }⟩
  | .toneGetLfo slot => .command ⟨0x4201, { z0 := slot }⟩
  | .toneGetAlg slot => .command ⟨0x4202, { z0 := slot }⟩
  | .opGetSr slot k => .command ⟨0x4300, { z0 := slot, z1 := k }⟩
  | .opGetRr slot k => .command ⟨0x4301, { z0 := slot, z1 := k }⟩
  | .opGetDr slot k => .command ⟨0x4302, { z0 := slot, z1 := k }⟩
  | .opGetAr slot k => .command ⟨0x4303, { z0 := slot, z1 := k }⟩
  | .opGetSl slot k => .command ⟨0x4304, { z0 := slot, z1 := k }⟩
  | .opGetTl slot k => .command ⟨0x4305, { z0 := slot, z1 := k }⟩
  | .opGetKsl slot k => .command ⟨0x4306, { z0 := slot, z1 := k }⟩
  | .opGetDam slot k => .command ⟨0x4307, { z0 := slot, z1 := k }⟩
  | .opGetDvb slot k => .command ⟨0x4308, { z0 := slot, z1 := k }⟩
  | .opGetMulti slot k => .command ⟨0x4309, { z0 := slot, z1 := k }⟩
  | .opGetDt slot k => .command ⟨0x430A, { z0 := slot, z1 := k }⟩
  | .opGetWs slot k => .command ⟨0x430B, { z0 := slot, z1 := k }⟩
  | .opGetFb slot k => .command ⟨0x430C, { z0 := slot, z1 := k }⟩
  | .opGetXof slot k => .command ⟨0x430D, { z0 := slot, z1 := k }⟩
  | .opGetKsr slot k => .command ⟨0x430E, { z0 := slot, z1 := k }⟩
  | .opGetEam slot k => .command ⟨0x430F, { z0 := slot, z1 := k }⟩
  | .opGetEvb slot k => .command ⟨0x4310, { z0 := slot, z1 := k }⟩
  | .opExport slot k buffer offset => .command ⟨0x4400, { z0 := slot, z1 := k, bytes := buffer, z2 := offset }⟩
  | .toneExport slot buffer offset => .command ⟨0x4500, { z0 := slot, bytes := buffer, z1 := offset }⟩
  | .collExport buffer offset tone => .command ⟨0x4600, { bytes := buffer, z0 := offset, z1 := tone }⟩
  | .qGpio highBank value direction => .command ⟨0x5000, { f0 := highBank, u0 := value, u1 := direction }⟩
  | .qSpiWrite addr data => .command ⟨0x5100, { u0 := addr, u1 := data }⟩
  | .qSpiBurst addr data offset count => .command ⟨0x5200, { u0 := addr, bytes := data, z0 := offset, z1 := count }⟩
  | .flush => .command ⟨0x5300, {}⟩
  | .tRead addr => .command ⟨0x5400, { u0 := addr }⟩
  | .hwReset => .command ⟨0x5500, {}⟩
  | .dispose => .command ⟨0x5600, {}⟩
  | .setTarget chip => .command ⟨0x5700, { chip := chip }⟩
  | .write addr data => .command ⟨0x6000, { u0 := addr, u1 := data }⟩
  | .burstWrite addr data offset count => .command ⟨0x6100, { u0 := addr, bytes := data, z0 := offset, z1 := count }⟩
  | .read addr target => .command ⟨0x6200, { u0 := addr, chip := target }⟩
  | .writeContents tone => .command ⟨0x6300, { z0 := tone }⟩
  | .setEq band coeffs => .command ⟨0x6400, { z0 := band, reals := coeffs }⟩
  | .swReset => .command ⟨0x6500, {}⟩
  | .setClke enable => .command ⟨0x6800, { f0 := enable }⟩
  | .setAlrst reset => .command ⟨0x6801, { f0 := reset }⟩
  | .setApd blocks => .command ⟨0x6802, { i0 := blocks }⟩
  | .setGain gain => .command ⟨0x6803, { i0 := gain }⟩
  | .setSeq setting => .command ⟨0x6808, { i0 := setting }⟩
  | .setSeqvolSize volume dirSv size => .command ⟨0x6809, { i0 := volume, f0 := dirSv, i1 := size }⟩
  | .setVoiceNum voice => .command ⟨0x680B, { i0 := voice }⟩
  | .setVoiceVol volume => .command ⟨0x680C, { i0 := volume }⟩
  | .setFnumBlock fnum block => .command ⟨0x680D, { i0 := fnum, i1 := block }⟩
  | .setToneCtrl keyOn mute egReset tone => .command ⟨0x680F, { f0 := keyOn, f1 := mute, f2 := egReset, i0 := tone }⟩
  | .setChVol volume dirCv => .command ⟨0x6810, { i0 := volume, f0 := dirCv }⟩
  | .setVib depth => .command ⟨0x6811, { i0 := depth }⟩
  | .setFmult integer fraction => .command ⟨0x6812, { i0 := integer, i1 := fraction }⟩
  | .setMuteItp dirMt => .command ⟨0x6814, { f0 := dirMt }⟩
  | .setSeqTime unit => .command ⟨0x6817, { i0 := unit }⟩
  | .setMasterVol volume => .command ⟨0x6819, { i0 := volume }⟩
  | .setSoftreset value => .command ⟨0x681A, { i0 := value }⟩
  | .setVolItp dadjt muteItime chvolItime masterItime => .command ⟨0x681B, { f0 := dadjt, i0 := muteItime, i1 := chvolItime, i2 := masterItime }⟩
  | .setLfoRst reset => .command ⟨0x681C, { f0 := reset }⟩
  | .setDrvSel select => .command ⟨0x681D, { f0 := select }⟩
  | .setTest value => .command ⟨0x6850, { i0 := value }⟩
  | .regget sub target => .command ⟨0x6900 ||| sub.setWidth 16, { chip := target }⟩
  | .secEnable => .command ⟨0x7000, {}⟩
  | .secDisable => .command ⟨0x7100, {}⟩
  | .secBegin target => .command ⟨0x7200, { chip := target }⟩
  | .secEnd ms => .command ⟨0x7300, { n0 := ms }⟩
  | .gpioLow value direction => .stream [0x80, value, direction]
  | .gpioHigh value direction => .stream [0x82, value, direction]
  | .spiWrite addr data => .stream ([0x11] ++ lenField data.length ++ [addr] ++ data)
  | .spiRead addr payload => .stream ([0x31] ++ lenField payload.length ++ [addr] ++ payload)
  | .streamFlush => .stream [0x87]

/-- The decoder on either form; of a stream, its first command. -/
def decode : Encoded → Except DecodeError Instr
  | .command c => decodeCommand c
  | .stream bytes => (decodeStream bytes).map Prod.fst

/-- How many bytes follow the first byte of a stream command whose further bits are all 0 (a length of 0). -/
def zeroTail (b : Byte) : Nat :=
  if b = 0x80 ∨ b = 0x82 then 2 else if b = 0x11 ∨ b = 0x31 then 3 else 0

/-- A row of the opcode table given by its bits `w`: 16 bits are a header with every operand port at 0, 8 bits are the first
byte of a stream command whose further bytes are 0. -/
def encodedTableWord (nbits w : Nat) : Option Encoded :=
  if nbits = 16 then some (.command ⟨BitVec.ofNat 16 w, {}⟩)
  else if nbits = 8 then
    let b : Byte := BitVec.ofNat 8 w
    some (.stream (b :: List.replicate (zeroTail b) 0))
  else none

/-- The instruction the decoder reads from a row of the opcode table. -/
def decodeTableWord (nbits w : Nat) : Option Instr :=
  match encodedTableWord nbits w with
  | none => none
  | some e => (decode e).toOption

end Sys2Proof
end

