-- ==== Sys2Proof/Machine/Interval.lean ====
section
/-!
DEFINITION. Enclosures of the reals that are given by expressions (spec/00_scope.md R12, spec/41_filter.md R165): interval
arithmetic in multiples of `2^-1280`, every bound rounded outward. They serve to evaluate what a rule makes of such a real.
-/
namespace Sys2Proof

/-- The bound 1: bounds are multiples of `1 / unitBound`. -/
@[irreducible] def unitBound : Int := 2 ^ 1280

/-- An interval from `lo / unitBound` to `hi / unitBound`. -/
structure Ival where
  lo : Int
  hi : Int
deriving DecidableEq, Repr

/-- `a / b` rounded up, for `0 < b`. -/
def ceilDiv (a b : Int) : Int := -((-a) / b)

namespace Ival

/-- A rational. -/
def ofRat (q : Rat) : Ival := ⟨q.num * unitBound / q.den, ceilDiv (q.num * unitBound) q.den⟩

/-- `-a`. -/
def neg (a : Ival) : Ival := ⟨-a.hi, -a.lo⟩

/-- `a + b`. -/
def add (a b : Ival) : Ival := ⟨a.lo + b.lo, a.hi + b.hi⟩

/-- `a - b`. -/
def sub (a b : Ival) : Ival := a.add b.neg

/-- The hull of four bounds. -/
def hull4 (f : Int → Int) (g : Int → Int) (w x y z : Int) : Ival :=
  ⟨f (min (min w x) (min y z)), g (max (max w x) (max y z))⟩

/-- `a * b`. -/
def mul (a b : Ival) : Ival :=
  hull4 (· / unitBound) (ceilDiv · unitBound) (a.lo * b.lo) (a.lo * b.hi) (a.hi * b.lo) (a.hi * b.hi)

/-- `a / n` for `0 < n`. -/
def divNat (a : Ival) (n : Nat) : Ival := ⟨a.lo / n, ceilDiv a.hi n⟩

/-- `1 / b`, where `b` has one sign. -/
def inv (b : Ival) : Option Ival :=
  if 0 < b.lo then some ⟨unitBound * unitBound / b.hi, ceilDiv (unitBound * unitBound) b.lo⟩
  else if b.hi < 0 then some (neg ⟨unitBound * unitBound / (-b.lo), ceilDiv (unitBound * unitBound) (-b.hi)⟩)
  else none

/-- 1. -/
def one : Ival := ⟨unitBound, unitBound⟩

/-- 0. -/
def zero : Ival := ⟨0, 0⟩

/-- Whether every number of the interval is at most 1024 in magnitude. -/
def small (a : Ival) : Bool := decide (-1024 * unitBound ≤ a.lo) && decide (a.hi ≤ 1024 * unitBound)

end Ival

/-- A rectangle of complex numbers. -/
structure Box where
  re : Ival
  im : Ival

namespace Box

/-- `a * b`. -/
def mul (a b : Box) : Box :=
  ⟨(a.re.mul b.re).sub (a.im.mul b.im), (a.re.mul b.im).add (a.im.mul b.re)⟩

/-- `1 + z * a / n`. -/
def hornerStep (z a : Box) (n : Nat) : Box :=
  let p := z.mul a
  ⟨Ival.one.add (p.re.divNat n), p.im.divNat n⟩

/-- The exponential series from its term `n - k` on, by Horner's rule; every tail of it is below 3 for `|z| <= 1`. -/
def expTail (z : Box) : Nat → Box → Box
  | 0, a => a
  | n + 1, a => expTail z n (hornerStep z a (n + 1))

/-- `a^(2^n)`. -/
def squares : Nat → Box → Box
  | 0, a => a
  | n + 1, a => squares n (a.mul a)

/-- `e^z` for `|re z|, |im z| <= 1024`: `e^(z / 2^20)` by its series, squared 20 times. -/
def exp (z : Box) : Box :=
  let t : Box := ⟨z.re.divNat (2 ^ 20), z.im.divNat (2 ^ 20)⟩
  let tail : Ival := ⟨-3 * unitBound, 3 * unitBound⟩
  squares 20 (expTail t 100 ⟨tail, tail⟩)

end Box

/-- The floor of pi in multiples of `1 / unitBound`. -/
def piBound : Int :=
  0x3243f6a8885a308d313198a2e03707344a4093822299f31d0082efa98ec4e6c89452821e638d01377be5466cf34e90c6cc0ac29b7c97c50dd3f84d5b5b54709179216d5d98979fb1bd1310ba698dfb5ac2ffd72dbd01adfb7b8e1afed6a267e96ba7c9045f12c7f9924a19947b3916cf70801f2e2858efc16636920d871574e69a458fea3f4933d7e0d95748f728eb658718bcd5882154aee7b54a41dc25a59b5

/-- The floor of the natural logarithm of 2. -/
def ln2Bound : Int :=
  0xb17217f7d1cf79abc9e3b39803f2f6af40f343267298b62d8a0d175b8baafa2be7b876206debac98559552fb4afa1b10ed2eae35c138214427573b291169b8253e96ca16224ae8c51acbda11317c387eb9ea9bc3b136603b256fa0ec7657f74b72ce87b19d6548caf5dfa6bd38303248655fa1872f20e3a2da2d97c50f3fd5c607f4ca11fb5bfb90610d30f88fe551a2ee569d6dfc1efa157d2e23de1400b396

/-- The floor of the natural logarithm of 10. -/
def ln10Bound : Int :=
  0x24d763776aaa2b05ba95b58ae0b4c28a38a3fb3e76977e43a0f187a0807c0b5ca58bc0b5ec6a0417331c32f00b17c35a0b1889061042f8b6bee3de2100b945b59e0b3e28a2a324479d96a9b0ec360c7efbd9b3ac12acf1be94586ed2748671eef299ecd6c8d8142163a4cda3511e2713d6c22c15f57b7883d1a7a963a4c17a607891e3f2ab4ebba627356d0b9a89c586691fb2c9a5e31753f6c74a3a95f53f703

/-- The greatest `m` with `m^2 <= n`, one bit after the other. -/
def sqrtBits (n acc : Nat) : Nat → Nat
  | 0 => acc
  | b + 1 => sqrtBits n (if (acc + 2 ^ b) ^ 2 ≤ n then acc + 2 ^ b else acc) b

/-- The integer square root. -/
def sqrtNat (n : Nat) : Nat := sqrtBits n 0 (n.log2 / 2 + 1)

namespace Ival

/-- The interval about a constant that is known to its last 64 bits. -/
def about (v : Int) : Ival := ⟨v - 2 ^ 64, v + 2 ^ 64⟩

/-- `e^a`. -/
def exp (a : Ival) : Option Ival := if a.small then some (Box.exp ⟨a, zero⟩).re else none

/-- `sqrt a`. -/
def sqrt (a : Ival) : Option Ival :=
  if a.lo < 0 then none
  else some ⟨sqrtNat (a.lo * unitBound).toNat, sqrtNat (a.hi * unitBound).toNat + 1⟩

/-- An elementary function of an interval. -/
def apply (f : Elementary) (a : Ival) : Option Ival :=
  match f with
  | .sin => if a.small then some (Box.exp ⟨zero, a⟩).im else none
  | .cos => if a.small then some (Box.exp ⟨zero, a⟩).re else none
  | .sinh => do
    let up ← exp a
    let down ← exp a.neg
    return (up.sub down).divNat 2
  | .pow10 => exp (a.mul (about ln10Bound))
  | .sqrt => a.sqrt

end Ival

end Sys2Proof
end

