-- ==== Sys2Proof/Machine/Num.lean ====
section
/-!
DEFINITION. Arithmetic on the reals of spec/00_scope.md R12 in both domains that `Num` allows (R9, decision D2): exact, and
IEEE 754 binary64 with round-to-nearest-even after each operation. A value `r * 2^(k/12)` is computed with; any other real is
an expression; whatever a rule makes of one, a floor or a comparison, it makes of the real number it stands for.
-/
namespace Sys2Proof

/-- `2^z` for an integer `z`. -/
def ratTwoPow (z : Int) : Rat :=
  if 0 ≤ z then mkRat (2 ^ z.toNat) 1 else mkRat 1 (2 ^ (-z).toNat)

/-- `r * 2^(k/12)` in its one form. -/
def XReal.mk12 (r : Rat) (k : Fin 12) : XReal := if r = 0 then .fin 0 0 else .fin r k

/-- `c * 2^(z/12)` for an integer `z`: the exact value of an equal-tempered interval (R29). -/
def XReal.temper (c : Rat) (z : Int) : XReal :=
  .mk12 (c * ratTwoPow (z / 12)) (Fin.ofNat 12 (z % 12).toNat)

/-- The twelfth power of a magnitude, as a fraction of naturals: it orders the magnitudes. -/
def pow12Num (r : Rat) (k : Fin 12) : Nat := r.num.natAbs ^ 12 * 2 ^ k.val

/-- The denominator that goes with `pow12Num`. -/
def pow12Den (r : Rat) : Nat := r.den ^ 12

/-- Whether the magnitude of `r * 2^(k/12)` is below that of `r' * 2^(k'/12)`. -/
def magLt (r : Rat) (k : Fin 12) (r' : Rat) (k' : Fin 12) : Bool :=
  decide (pow12Num r k * pow12Den r' < pow12Num r' k' * pow12Den r)

/-- The order of the finite reals. -/
def finLt (r : Rat) (k : Fin 12) (r' : Rat) (k' : Fin 12) : Bool :=
  if r.num < 0 then (if r'.num < 0 then magLt r' k' r k else true)
  else if r'.num < 0 then false else magLt r k r' k'

/-- One bit of the twelfth root after the other, from the highest. -/
def root12Bits (n acc : Nat) : Nat → Nat
  | 0 => acc
  | b + 1 => root12Bits n (if (acc + 2 ^ b) ^ 12 ≤ n then acc + 2 ^ b else acc) b

/-- The greatest `m` with `m^12 <= n`. -/
def root12 (n : Nat) : Nat := root12Bits n 0 (n.log2 / 12 + 1)

/-- `floor` of the magnitude of `r * 2^(k/12)`. -/
def floorMag (r : Rat) (k : Fin 12) : Nat :=
  if k = 0 then r.num.natAbs / r.den else root12 (pow12Num r k / pow12Den r)

/-! ### Decisions about expressions -/

/-- The floors of the multiples of every real number. There is one such function, so that nothing is chosen here (R12). -/
structure RealFloor where
  floors : RealExpr → Rat → Int
  exact : ∀ e c, floors e c = ⌊e.value * c⌋

theorem realFloor_exists : Nonempty RealFloor := ⟨⟨fun e c => ⌊e.value * c⌋, fun _ _ => rfl⟩⟩

/-- The one value of `RealFloor`. Real numbers are not computed with: all that is known of it, and all there is to know, is
what its type says (log 3). -/
def realFloor [Nonempty RealFloor] (u : Unit) : RealFloor := realFloor u
partial_fixpoint

/-- Bounds of the real of an expression; none where the interval arithmetic gives none. They serve to evaluate `floorMul`. -/
def RealExpr.enclose : RealExpr → Option Ival
  | .base r k =>
    if k = 0 then some (.ofRat r)
    else
      let m : Int := floorMag (r * unitBound) k
      some (if r.num < 0 then ⟨-(m + 1), -m⟩ else ⟨m, m + 1⟩)
  | .given _ _ => none
  | .pi => some (.about piBound)
  | .ln2 => some (.about ln2Bound)
  | .neg a => a.enclose.map Ival.neg
  | .add a b => a.enclose.bind fun i => b.enclose.map fun j => i.add j
  | .mul a b => a.enclose.bind fun i => b.enclose.map fun j => i.mul j
  | .div a b => a.enclose.bind fun i => b.enclose.bind fun j => j.inv.map fun t => i.mul t
  | .apply f a => a.enclose.bind (Ival.apply f)

/-- A bound as a rational. -/
def boundValue (b : Int) : Rat := mkRat b unitBound.toNat

/-- `floor(e * c)` by the one function that it is. -/
def RealExpr.floorOf (e : RealExpr) (c : Rat) : Int := (@realFloor realFloor_exists ()).floors e c

/-- `floor(e * c)`, exactly (R12): from the bounds of `e` where they give one answer. -/
def RealExpr.floorMul (e : RealExpr) (c : Rat) : Int :=
  match e.enclose with
  | none => e.floorOf c
  | some i =>
    let a := (boundValue i.lo * c).floor
    if a = (boundValue i.hi * c).floor then a else e.floorOf c

/-- Whether the real is negative. -/
def RealExpr.isNeg (e : RealExpr) : Bool := decide (e.floorMul 1 < 0)

/-- Whether the real is zero. -/
def RealExpr.isZero (e : RealExpr) : Bool := e.floorMul 1 == 0 && e.floorMul (-1) == 0

/-- `c` with the sign of the real. -/
def RealExpr.signed (e : RealExpr) (c : Rat) : Rat := if e.isNeg then -c else c

/-- `abs(e) * c` rounded up. -/
def RealExpr.ceilMag (e : RealExpr) (c : Rat) : Nat := (-e.floorMul (-e.signed c)).toNat

/-- `rne(abs(e) * c)` (R12). -/
def RealExpr.rneMul (e : RealExpr) (c : Rat) : Nat :=
  let d := e.signed c
  let below := (e.floorMul d).toNat
  let twice := (e.floorMul (2 * d)).toNat
  if twice = 2 * below then below
  else if e.floorMul (-(2 * d)) = -twice then below + below % 2
  else below + 1

/-! ### Finite values -/

/-- Whether a value is negative. -/
def XReal.isNeg : XReal → Bool
  | .fin r _ => decide (r.num < 0)
  | .expr e => e.isNeg
  | x => x == .negInf

/-- Whether a value is zero. -/
def XReal.isZero : XReal → Bool
  | .fin r _ => r == 0
  | .expr e => e.isZero
  | _ => false

/-- `<` of R12: false where an operand is NaN. -/
def XReal.lt : XReal → XReal → Bool
  | .nan, _ => false
  | _, .nan => false
  | .posInf, _ => false
  | .negInf, .negInf => false
  | .negInf, _ => true
  | .fin _ _, .posInf => true
  | .fin _ _, .negInf => false
  | .expr _, .posInf => true
  | .expr _, .negInf => false
  | .fin r k, .fin r' k' => finLt r k r' k'
  | .expr e, .fin r k =>
    if k = 0 then decide (e.floorMul r.den < r.num) else decide ((RealExpr.add e (.neg (.base r k))).floorMul 1 < 0)
  | .fin r k, .expr e =>
    if k = 0 then decide (e.floorMul (-r.den) < -r.num) else decide ((RealExpr.add (.base r k) (.neg e)).floorMul 1 < 0)
  | .expr e, .expr e' => decide ((RealExpr.add e (.neg e')).floorMul 1 < 0)

/-- `<=` of R12: false where an operand is NaN. -/
def XReal.le (a b : XReal) : Bool := a != .nan && b != .nan && !XReal.lt b a

/-- Infinity with a sign. -/
def XReal.inf (negative : Bool) : XReal := if negative then .negInf else .posInf

/-- Negation. -/
def XReal.neg : XReal → XReal
  | .nan => .nan
  | .posInf => .negInf
  | .negInf => .posInf
  | .fin r k => .fin (-r) k
  | .expr (.given r n) => .expr (.given (-r) n)
  | .expr e => .expr (.neg e)

/-- Whether an infinity times this finite value is negative; no value where it is zero. -/
def infTimes (negative : Bool) (x : XReal) : XReal := if x.isZero then .nan else .inf (negative != x.isNeg)

/-- `q` times a real from outside. -/
def XReal.scale (q r : Rat) (n : Nat) : XReal := if q * r = 0 then .fin 0 0 else .expr (.given (q * r) n)

/-- The product of finite values of which one is an expression. -/
def XReal.mulExpr : XReal → XReal → XReal
  | .fin q 0, .expr (.given r n) => .scale q r n
  | .expr (.given r n), .fin q 0 => .scale q r n
  | a, b =>
    if a = .fin 0 0 ∨ b = .fin 0 0 then .fin 0 0
    else if a = .fin 1 0 then b
    else if b = .fin 1 0 then a
    else .expr (.mul a.toExpr b.toExpr)

/-- The exact product. -/
def XReal.mul : XReal → XReal → XReal
  | .nan, _ => .nan
  | _, .nan => .nan
  | .posInf, .posInf => .posInf
  | .posInf, .negInf => .negInf
  | .negInf, .posInf => .negInf
  | .negInf, .negInf => .posInf
  | .posInf, x => infTimes false x
  | .negInf, x => infTimes true x
  | x, .posInf => infTimes false x
  | x, .negInf => infTimes true x
  | .fin r k, .fin r' k' =>
    if k.val + k'.val < 12 then .mk12 (r * r') (k + k') else .mk12 (r * r' * 2) (k + k')
  | a, b => .mulExpr a b

/-- The quotient of finite values of which one is an expression, by one that is not zero. -/
def XReal.divExpr : XReal → XReal → XReal
  | .expr (.given r n), .fin q 0 => .scale q⁻¹ r n
  | a, b => if b = .fin 1 0 then a else if a = b then .fin 1 0 else .expr (.div a.toExpr b.toExpr)

/-- The exact quotient; a quotient by zero is a free value (log 5). -/
def XReal.div : XReal → XReal → XReal
  | .nan, _ => .nan
  | _, .nan => .nan
  | .posInf, .posInf => .nan
  | .posInf, .negInf => .nan
  | .negInf, .posInf => .nan
  | .negInf, .negInf => .nan
  | .posInf, x => if x.isZero then Config.divByZero (XReal.number .posInf) else .inf x.isNeg
  | .negInf, x => if x.isZero then Config.divByZero (XReal.number .negInf) else .inf !x.isNeg
  | _, .posInf => .fin 0 0
  | _, .negInf => .fin 0 0
  | .fin r k, .fin r' k' =>
    if r' = 0 then Config.divByZero (XReal.fin r k).number
    else if k'.val ≤ k.val then .mk12 (r / r') (k - k') else .mk12 (r / r' / 2) (k - k')
  | a, b => if b.isZero then Config.divByZero a.number else .divExpr a b

/-- The exact sum. -/
def XReal.add : XReal → XReal → XReal
  | .nan, _ => .nan
  | _, .nan => .nan
  | .posInf, .negInf => .nan
  | .negInf, .posInf => .nan
  | .posInf, _ => .posInf
  | .negInf, _ => .negInf
  | _, .posInf => .posInf
  | _, .negInf => .negInf
  | .fin r k, .fin r' k' =>
    if r = 0 then .mk12 r' k'
    else if r' = 0 then .mk12 r k
    else if k = k' then .mk12 (r + r') k
    else .expr (.add (.base r k) (.base r' k'))
  | a, b => if a = .fin 0 0 then b else if b = .fin 0 0 then a else .expr (.add a.toExpr b.toExpr)

/-- `rne` of the magnitude of `r * 2^(k/12)`: to the nearest integer, a tie to the even one (R12). Only a rational can tie. -/
def rneMag (r : Rat) (k : Fin 12) : Nat :=
  let below := floorMag r k
  if floorMag (2 * r) k = 2 * below then below
  else if k = 0 ∧ 2 * r.num.natAbs = (2 * below + 1) * r.den then below + below % 2
  else below + 1

/-- `floor(abs(x) * c)` of a finite value (R12). -/
def XReal.floorMag (x : XReal) (c : Rat) : Nat :=
  match x with
  | .fin r k => Sys2Proof.floorMag (r * c) k
  | .expr e => (e.floorMul (e.signed c)).toNat
  | _ => 0

/-- `rne(abs(x) * c)` of a finite value (R12). -/
def XReal.rneMag (x : XReal) (c : Rat) : Nat :=
  match x with
  | .fin r k => Sys2Proof.rneMag (r * c) k
  | .expr e => e.rneMul c
  | _ => 0

/-- `rne` as an integer; it is 0 for the values that are not finite, and no rule rounds one. -/
def XReal.rneInt (x : XReal) : Int := if x.isNeg then -(x.rneMag 1 : Int) else x.rneMag 1

/-- `rne` (R12). -/
def XReal.rne (x : XReal) : XReal := if x.isFinite then .ofRat x.rneInt else x

/-! ### Binary64 -/

/-- The exponent `e` of a non-zero magnitude: `2^e <= |x| < 2^(e+1)`. -/
def exponentOf (r : Rat) (k : Fin 12) : Int :=
  let e : Int := (r.num.natAbs.log2 : Int) - r.den.log2
  if 1 ≤ floorMag (r * ratTwoPow (-(e + 1))) k then e + 1
  else if 1 ≤ floorMag (r * ratTwoPow (-e)) k then e
  else e - 1

/-- The exponent of the unit in the last place of a magnitude that is not zero. -/
def XReal.unitExponent : XReal → Int
  | .fin r k => max (exponentOf r k) (-1022) - 52
  | x =>
    let m := x.floorMag (ratTwoPow 1022)
    if m = 0 then -1074 else (m.log2 : Int) - 1074

/-- `m` units with a sign, infinity where binary64 has no number so large. -/
def fromUnits (negative : Bool) (m : Nat) (unit : Int) : XReal :=
  let mag : Rat := (m : Rat) * ratTwoPow unit
  if ratTwoPow 1024 ≤ mag then .inf negative else .ofRat (if negative then -mag else mag)

/-- The binary64 value nearest a finite real, ties to even, with gradual underflow and overflow to infinity. -/
def round64 (x : XReal) : XReal :=
  if x.isZero then .fin 0 0
  else fromUnits x.isNeg (x.rneMag (ratTwoPow (-x.unitExponent))) x.unitExponent

/-- The binary64 value next to a real from below (`up = false`) or from above. -/
def directed64 (up : Bool) (e : RealExpr) : XReal :=
  let x := XReal.expr e
  if x.isZero then .fin 0 0
  else
    let c := ratTwoPow (-x.unitExponent)
    fromUnits x.isNeg (if up = x.isNeg then x.floorMag c else e.ceilMag c) x.unitExponent

/-- What a result becomes in the chosen domain (R9, D2; log 3). -/
def NumMode.rnd (m : NumMode) (x : XReal) : XReal := if m = .binary64 ∧ x.isFinite then round64 x else x

/-- The operations that the pseudocode writes, each rounded in its turn (D2). -/
def NumMode.mul (m : NumMode) (a b : XReal) : XReal := m.rnd (a.mul b)
/-- See `NumMode.mul`. -/
def NumMode.div (m : NumMode) (a b : XReal) : XReal := m.rnd (a.div b)
/-- See `NumMode.mul`. -/
def NumMode.add (m : NumMode) (a b : XReal) : XReal := m.rnd (a.add b)
/-- See `NumMode.mul`. -/
def NumMode.sub (m : NumMode) (a b : XReal) : XReal := m.rnd (a.add b.neg)
/-- `2^z` (R12). -/
def NumMode.twoPow (m : NumMode) (z : Int) : XReal := m.rnd (.ofRat (ratTwoPow z))

/-! ### Elementary functions -/

/-- An elementary function of a finite real, exactly; the rules take a square root of `10^(gain / 40)` alone. -/
def applyExact (f : Elementary) (x : XReal) : XReal :=
  if x = .fin 0 0 then .fin (if f = .cos ∨ f = .pow10 then 1 else 0) 0
  else if f = .sqrt ∧ x = .fin 1 0 then x
  else .expr (.apply f x.toExpr)

/-- An elementary function of a finite real in binary64. The square root is rounded to nearest (D2); of another function it is
the value next to the exact one from below, the nearest, or the one next to it from above, and the exact one where it is a
binary64 value (U21; log 11). -/
def elementary64 (choice : Fin 3) (f : Elementary) (x : XReal) : XReal :=
  let v := applyExact f x
  match (if f = .sqrt then 1 else choice) with
  | 0 => directed64 false v.toExpr
  | 1 => round64 v
  | 2 => directed64 true v.toExpr

/-- An elementary function (R165): in the exact domain its real value, in binary64 a value about it (log 11). -/
def NumMode.apply (m : NumMode) (f : Elementary) (x : XReal) : XReal :=
  if x.isFinite = false ∨ (f = .sqrt ∧ x.isNeg = true) then m.rnd (Config.elementary f x.number)
  else match m with
    | .exact => applyExact f x
    | .binary64 => elementary64 (Config.nearby f x.number) f x

end Sys2Proof
end

