-- ==== Sys2Proof/Machine/Layout.lean ====
section
/-!
DEFINITION. Bit layouts: packing and unpacking fields by a layout table, the chip-address map of spec/43_transport.md R230,
FNUM_TABLE of spec/10_state.md R29, the default values of the parameters of spec/00_scope.md R8 and R9, and what the spec
requires of the parameters.
-/
namespace Sys2Proof

/-- The bits one slice contributes to its byte: mask, then shift (R116). -/
def Slice.bits {α : Type} (sl : Slice α) (value : Nat) : Byte :=
  BitVec.ofNat 8 (((value >>> sl.src) % 2 ^ sl.width) <<< sl.pos)

/-- Byte `j` of a layout, fields by `value`; bits without a field are 0 (R116, R122). -/
def packByte {α : Type} (layout : List (Slice α)) (value : α → Nat) (j : Nat) : Byte :=
  layout.foldl (fun b sl => if sl.byte = j then b ||| sl.bits (value sl.field) else b) 0

/-- The fields of byte `j` of a layout, in the layout's order: `(v >> p) & (2^w - 1)` (R258). -/
def unpackByte {α : Type} (layout : List (Slice α)) (j : Nat) (v : Byte) : List Nat :=
  (layout.filter (fun sl => sl.byte == j)).map fun sl => (v.toNat >>> sl.pos) % 2 ^ sl.width

/-- Default OPLAYOUT (R110). PRESUMED, log 14; AR's place is the source's. -/
def defaultOpLayout : List (Slice OpField) := [
  ⟨.sr, 0, 4, 0, 4⟩, ⟨.xof, 0, 1, 0, 3⟩, ⟨.ksr, 0, 1, 0, 0⟩,
  ⟨.rr, 0, 4, 1, 4⟩, ⟨.dr, 0, 4, 1, 0⟩,
  ⟨.ar, 0, 4, 2, 4⟩, ⟨.sl, 0, 4, 2, 0⟩,
  ⟨.tl, 0, 6, 3, 2⟩, ⟨.ksl, 0, 2, 3, 0⟩,
  ⟨.dam, 0, 2, 4, 5⟩, ⟨.eam, 0, 1, 4, 4⟩, ⟨.dvb, 0, 2, 4, 1⟩, ⟨.evb, 0, 1, 4, 0⟩,
  ⟨.multi, 0, 4, 5, 4⟩, ⟨.dt, 0, 3, 5, 0⟩,
  ⟨.ws, 0, 5, 6, 3⟩, ⟨.fb, 0, 3, 6, 0⟩]

/-- Default TONEHDR (R111). PRESUMED, log 14. -/
def defaultToneHdr : List (Slice ToneField) := [⟨.bo, 0, 2, 0, 0⟩, ⟨.lfo, 0, 2, 1, 6⟩, ⟨.alg, 0, 3, 1, 0⟩]

/-- The field positions that are no parameter: registers 00 to 03, and the full bytes 08, 1A and 50 (R259 to R264, R278,
R283, R284; the tuple REGGET returns for them is log 16). -/
def fixedRegLayout : List (Slice RegField) := [
  ⟨.clke, 0, 1, 0x00, 0⟩, ⟨.alrst, 0, 1, 0x01, 7⟩, ⟨.analog, 0, 4, 0x02, 0⟩, ⟨.gain, 0, 2, 0x03, 0⟩,
  ⟨.seqSetting, 0, 8, 0x08, 0⟩, ⟨.softReset, 0, 8, 0x1A, 0⟩, ⟨.test, 0, 8, 0x50, 0⟩]

/-- Default REGLAYOUT (R265 to R271, R273, R274, R276, R277, R279 to R281). PRESUMED, log 15. -/
def defaultRegLayout : List (Slice RegField) := [
  ⟨.seqVol, 0, 5, 0x09, 3⟩, ⟨.dirSv, 0, 1, 0x09, 2⟩, ⟨.size, 8, 1, 0x09, 0⟩, ⟨.size, 0, 8, 0x0A, 0⟩,
  ⟨.voiceNum, 0, 4, 0x0B, 0⟩, ⟨.voiceVol, 0, 5, 0x0C, 2⟩,
  ⟨.fnum, 7, 3, 0x0D, 3⟩, ⟨.block, 0, 3, 0x0D, 0⟩, ⟨.fnum, 0, 7, 0x0E, 0⟩,
  ⟨.keyOn, 0, 1, 0x0F, 6⟩, ⟨.mute, 0, 1, 0x0F, 5⟩, ⟨.egRst, 0, 1, 0x0F, 4⟩, ⟨.toneNum, 0, 4, 0x0F, 0⟩,
  ⟨.chVol, 0, 5, 0x10, 2⟩, ⟨.dirCv, 0, 1, 0x10, 0⟩, ⟨.vibrato, 0, 3, 0x11, 0⟩,
  ⟨.multInt, 0, 2, 0x12, 3⟩, ⟨.multFrac, 6, 3, 0x12, 0⟩, ⟨.multFrac, 0, 6, 0x13, 1⟩,
  ⟨.dirMt, 0, 1, 0x14, 0⟩, ⟨.seqTime, 7, 7, 0x17, 0⟩, ⟨.seqTime, 0, 7, 0x18, 0⟩,
  ⟨.masterVol, 0, 6, 0x19, 2⟩,
  ⟨.dadjt, 0, 1, 0x1B, 6⟩, ⟨.muteItime, 0, 2, 0x1B, 4⟩, ⟨.chvolItime, 0, 2, 0x1B, 2⟩, ⟨.masterItime, 0, 2, 0x1B, 0⟩,
  ⟨.lfoRst, 0, 1, 0x1C, 0⟩, ⟨.drvSel, 0, 1, 0x1D, 0⟩]

/-- Default RESET_SEQ, "informative" (R257). PRESUMED, log 13. -/
def defaultResetSeq : Vector (List (Byte × Byte)) 5 := #v[
  [(0x1D, 0x00), (0x02, 0x0E)],
  [(0x00, 0x01), (0x01, 0x00), (0x1A, 0xA3)],
  [(0x1A, 0x00)],
  [(0x02, 0x04), (0x02, 0x00)],
  [(0x19, 0xF0), (0x1B, 0x3F), (0x14, 0x00), (0x03, 0x01), (0x08, 0xF6), (0x08, 0x00), (0x09, 0xF8), (0x0A, 0x00),
    (0x17, 0x40), (0x18, 0x00)]]

/-- The example board of spec/95_test_vectors.md V40. DESIGN CHOICE, log 7. -/
def exampleBoard : BoardConfig where
  csPins := 0x18
  csBankHigh := false
  csDir := 0x1B
  csIdle := 0x18
  csActiveLow := true
  icBankHigh := true
  icDir := 0xFF
  icValueLow := 0x00
  icValueHigh := 0xFF

/-- The parameters `State.reset` takes. DESIGN CHOICE, log 7 to 10, 13 to 15. -/
def Config.default : Config where
  board := exampleBoard
  nreq := 2
  num := .binary64
  resetSeq := defaultResetSeq
  filters := .cookbook
  opLayout := defaultOpLayout
  toneHdr := defaultToneHdr
  regLayout := defaultRegLayout

/-- `popcount` of a byte (R11). -/
def popcount (b : Byte) : Nat := ((List.range 8).filter fun p => b.getLsbD p).length

/-- The positions of the chip-select pins, ascending (R230). -/
def pinsOf (csPins : Byte) : List Nat := (List.range 8).filter fun p => csPins.getLsbD p

/-- The value a partial map gives a key. -/
def mapLookup (m : List (Chip × Byte)) (k : Chip) : Option Byte := (m.find? fun e => e.1 == k).map Prod.snd

/-- A map with one entry more, its keys rising; an entry already there stays ("register ... if not already present", R230). -/
def mapInsert (k : Chip) (v : Byte) : List (Chip × Byte) → List (Chip × Byte)
  | [] => [(k, v)]
  | e :: m => if k < e.1 then (k, v) :: e :: m else if e.1 = k then e :: m else e :: mapInsert k v m

/-- `csmap` (R230): `None`, every chip, every pair of chips. -/
def buildCsmap (csPins : Byte) : List (Chip × Byte) :=
  let chips := (pinsOf csPins).zipIdx
  let pairs := chips.flatMap fun a => chips.map fun b => (a, b)
  pairs.foldl (fun m ab =>
      let ((pa, i), (pb, j)) := ab
      mapInsert (BitVec.ofNat 5 (1 <<< i) ||| BitVec.ofNat 5 (1 <<< j))
        (BitVec.ofNat 8 (1 <<< pa) ||| BitVec.ofNat 8 (1 <<< pb)) m)
    [(0, 0)]

/-- FNUM_TABLE[i] of R29, `1024 * 440 * 2^((i-21)/12) / 375`, exactly or as the nearest binary64. -/
def fnumEntry (m : NumMode) (i : Nat) : XReal := m.rnd (.temper (1024 * 440 / 375) ((i : Int) - 21))

/-- FNUM_TABLE, "built once at process start" (R29). -/
def buildFnumTable (m : NumMode) : Vector XReal 12 := Vector.ofFn fun i => fnumEntry m i.val

/-- A well-formed board (R8). -/
def BoardConfig.wf (b : BoardConfig) : Bool :=
  decide (popcount b.csPins ≤ 5) &&
    (if b.csActiveLow then b.csIdle &&& b.csPins == b.csPins else b.csIdle &&& b.csPins == 0)

/-- How many bits an operator field has (R23). -/
def OpField.width : OpField → Nat
  | .tl => 6
  | .ws => 5
  | .sr | .rr | .dr | .ar | .sl | .multi => 4
  | .dt | .fb => 3
  | .ksl | .dam | .dvb => 2
  | .xof | .ksr | .eam | .evb => 1

/-- How many bits a header field has (R22). -/
def ToneField.width : ToneField → Nat
  | .bo | .lfo => 2
  | .alg => 3

/-- Slices that fit their byte and do not overlap, in bytes `0` to `n - 1` (D22). -/
def layoutFits {α : Type} (n : Nat) (layout : List (Slice α)) : Bool :=
  layout.all (fun sl => decide (sl.byte < n) && decide (sl.pos + sl.width ≤ 8)) &&
    (List.range n).all fun j => (List.range 8).all fun p =>
      decide ((layout.filter fun sl => sl.byte == j && decide (sl.pos ≤ p) && decide (p < sl.pos + sl.width)).length ≤ 1)

/-- Every bit of a field of `w` bits has one place in the layout. -/
def layoutCovers {α : Type} [DecidableEq α] (layout : List (Slice α)) (f : α) (w : Nat) : Bool :=
  (List.range w).all fun bit =>
    (layout.filter fun sl => sl.field == f && decide (sl.src ≤ bit) && decide (bit < sl.src + sl.width)).length == 1

/-- All operator fields, in the order of R23. -/
def OpField.all : List OpField :=
  [.sr, .rr, .dr, .ar, .sl, .tl, .ksl, .dam, .dvb, .multi, .dt, .ws, .fb, .xof, .ksr, .eam, .evb]

/-- What the spec requires of the parameters: R8, D18, D22, and REGLAYOUT leaves the fixed registers alone (R284). -/
def Config.wf (c : Config) : Bool :=
  c.board.wf && decide (1 ≤ c.nreq) &&
    c.resetSeq.toList.any (fun l => l.contains (0x1A, 0xA3)) &&
    layoutFits 7 c.opLayout && OpField.all.all (fun f => layoutCovers c.opLayout f f.width) &&
    c.opLayout.contains ⟨.ar, 0, 4, 2, 4⟩ &&
    layoutFits 2 c.toneHdr && [ToneField.bo, .lfo, .alg].all (fun f => layoutCovers c.toneHdr f f.width) &&
    layoutFits 256 c.regLayout &&
    c.regLayout.all (fun sl => fixedRegLayout.all fun fx => sl.byte != fx.byte)

end Sys2Proof
end

