-- ==== Sys2Proof/Machine/State.lean ====
section
/-!
DEFINITION. The state of the block (spec/10_state.md R20), of the bridge as far as the spec gives it (spec/60_exceptions.md
R347), the model's own fields for operations in progress and for the inputs from outside, and the state after reset (R46).
-/
namespace Sys2Proof.Machine

/-- The status an operation ends with (R320). -/
inductive Status where
  | ok
  | rangeError
  | invalidOperation
  | communicationError
deriving DecidableEq, Repr

/-- A typed result value (R92). A list of field values is the second result of REGGET (R258). -/
inductive Value where
  | int (v : Int)
  | word (v : I32)
  | byte (v : Byte)
  | flag (v : Bool)
  | real (v : XReal)
  | bytes (v : List Byte)
  | fields (v : List Nat)
deriving DecidableEq, Repr

/-- What an operation returns: a status, and values where the status is OK (R92). -/
structure Response where
  status : Status
  values : List Value
deriving DecidableEq, Repr

/-- An operator of a tone slot (R23). -/
structure Operator where
  sr : Nat := 0
  rr : Nat := 0
  dr : Nat := 0
  ar : Nat := 0
  sl : Nat := 0
  tl : Nat := 0
  ksl : Nat := 0
  dam : Nat := 0
  dvb : Nat := 0
  multi : Nat := 0
  dt : Nat := 0
  ws : Nat := 0
  fb : Nat := 0
  xof : Bool := false
  ksr : Bool := false
  eam : Bool := false
  evb : Bool := false
deriving DecidableEq, Repr

/-- A tone slot: three header fields and four operators (R21, R22). -/
structure ToneSlot where
  bo : Nat := 0
  lfo : Nat := 0
  alg : Nat := 0
  op : Vector Operator 4 := Vector.replicate 4 {}
deriving DecidableEq, Repr

/-- An event of the trace (R15). -/
inductive Event where
  | tx (bytes : List Byte)
  | delay (ms : Nat)
  | rxPurge
  | rxTake (b0 b1 : Byte)
deriving DecidableEq, Repr

/-- One atomic step of a multi-step operation (R310). -/
inductive Atom where
  /-- A `drv_write` with its auto-flush (R250). -/
  | drvWrite (addr data : Byte)
  /-- SEC_BEGIN's check that the caller does not own the section (R303). -/
  | enterCheck
  /-- SEC_BEGIN's guarded acquire together with the target switch (R303). -/
  | acquire (target : Chip)
  /-- SEC_END's check, flush and delay (R304). -/
  | leaveFlush (ms : Nat)
  /-- `release` (R305). -/
  | release
  /-- One level of HW_RESET: GPIO command, flush, delay (R229). -/
  | pinLevel (high : Bool) (ms : Nat)
  /-- First step of T_READ: the checks and the first flush (R228). -/
  | readFlush
  /-- Second step of T_READ: purge, read frame, second flush (R228). -/
  | readIssue (addr : Byte)
  /-- Third step of T_READ: the take, guarded by two bytes in the queue (R228); it returns the byte. -/
  | readTake
  /-- The same take for REGGET, which returns the byte and the fields of register `sub` (R258). -/
  | regTake (sub : Byte)
deriving DecidableEq, Repr

/-- The transient position inside a multi-step operation (R27): the atomic steps still to do, whether the operation guards
its section (R306), whether it has passed its acquire step, the status it will report and the values it will return. -/
structure Task where
  steps : List Atom
  guarded : Bool := false
  acquired : Bool := false
  verdict : Status := .ok
  values : List Value := []
deriving DecidableEq, Repr

/-- What a requester asks for: one operation, or a SECTION issued as one unit (R125, R306). -/
inductive Request where
  | op (c : Command)
  | unit (target : Chip) (ms : Nat) (body : List Command)
deriving DecidableEq, Repr

/-- A SECTION in progress: the commands still to issue, and whether its SEC_BEGIN has passed its acquire step (R306). -/
structure SectionUnit where
  rest : List Command
  acquired : Bool := false
deriving DecidableEq, Repr

/-- A requester (R6, R348): what it has still to ask for, the SECTION and the operation it is inside, and the last result
returned to it. -/
structure Requester where
  inbox : List Request := []
  unit : Option SectionUnit := none
  task : Option Task := none
  response : Option Response := none
deriving DecidableEq, Repr

/-- An 8-bit GPIO bank of the bridge: levels and directions (R100, R347). -/
structure Bank where
  value : Byte := 0
  dir : Byte := 0
deriving DecidableEq, Repr

/-- A transfer on the bridge's SPI port: the levels of both banks during it, whether it was a read, and its bytes (R101,
R102). -/
structure SpiTransfer where
  low : Byte
  high : Byte
  isRead : Bool
  addr : Byte
  data : List Byte
deriving DecidableEq, Repr

/-- The bridge (R347): its GPIO banks, the bytes delivered to it and not yet executed (R44), and the SPI transfers made. -/
structure Bridge where
  low : Bank := {}
  high : Bank := {}
  stream : List Byte := []
  spi : List SpiTransfer := []
deriving DecidableEq, Repr

/-- One turn: which agent moves, with the choices the environment makes in it (R43, R310; log 17, 18). -/
inductive Turn where
  /-- A step of requester `q`; `accept` is the environment's decision about a bulk write made in it. -/
  | requester (q : Nat) (accept : Bool)
  /-- The bridge executes its next command; `reply` is what it puts into the receive queue if that is an SPI read. -/
  | bridge (reply : List Byte)
  /-- The environment appends bytes to the receive queue. -/
  | environment (bytes : List Byte)
deriving DecidableEq, Repr

/-- The whole state. -/
structure State where
  /-- The parameters of R8 and R9; no step changes them (log 6). -/
  cfg : Config
  /-- The tone parameter file (R21). -/
  x : Vector ToneSlot 16
  /-- FNUM_TABLE (R29). -/
  fnumTable : Vector XReal 12
  /-- `csmap` (R31). -/
  csmap : List (Chip × Byte)
  /-- `target` (R32). -/
  target : Chip
  /-- `target_pins` (R32). -/
  targetPins : Byte
  /-- `section_mode` (R33). -/
  sectionMode : Bool
  /-- `entered` (R34). -/
  entered : Nat
  /-- `owner` (R35). -/
  owner : Option Nat
  /-- `saved_target` (R36). -/
  savedTarget : Option Chip
  /-- `wbuf` (R37). -/
  wbuf : List Byte
  /-- `disposed` (R38). -/
  disposed : Bool
  /-- `rxq` (R39). -/
  rxq : List Byte
  /-- `trace` (R40). -/
  trace : List Event
  /-- The requesters (R348). -/
  reqs : List Requester
  /-- The bridge (R347). -/
  bridge : Bridge
  /-- The requester whose turn it is (log 18). -/
  cur : Nat
  /-- FREE VALUE: the environment's decision about the bulk write of this turn (R43; log 18). -/
  accept : Bool
  /-- FREE VALUE: the bytes the bridge answers to an SPI read in this turn (R232; log 18, 27). -/
  reply : List Byte
  /-- FREE VALUE: the turns to come (R310; log 17). -/
  turns : List Turn
deriving DecidableEq, Repr

/-- Why the machine stops with a fault. The block itself has no faults: its errors are statuses (R320). -/
inductive Fault where
  /-- Raised by `release` when `saved_target` has no entry in `csmap`, which is false in every reachable state (R32, R305).
  Safe (log 33). -/
  | targetNotMapped
deriving DecidableEq, Repr

/-- Why a step has no meaning. -/
inductive Refusal where
  /-- Raised by an arm of `exec` whose instruction has no meaning yet. Safe. -/
  | notModelled (mnemonic : String)
  /-- Raised when a requester presents a header that selects no operation: "a model should treat such a header as refused"
  (R120); the spec's block reports InvalidOperation and changes no state. Safe (log 2). -/
  | undefinedHeader (h : Header)
  /-- Raised when the bridge meets a byte that begins none of the five stream commands (R347: "the block uses no other
  command"). Safe (log 29). -/
  | undefinedStreamByte (b : Byte)
deriving DecidableEq, Repr

/-- The state after reset on given parameters (R46, R360). -/
def State.resetWith (c : Config) : State where
  cfg := c
  x := Vector.replicate 16 {}
  fnumTable := buildFnumTable c.num
  csmap := buildCsmap c.board.csPins
  target := 0
  targetPins := 0
  sectionMode := false
  entered := 0
  owner := none
  savedTarget := none
  wbuf := []
  disposed := false
  rxq := []
  trace := []
  reqs := List.replicate c.nreq {}
  bridge := {}
  cur := 0
  accept := true
  reply := []
  turns := []

/-- The state after reset on the default parameters (R360; log 6 to 10, 13 to 15). -/
def State.reset : State := State.resetWith Config.default

end Sys2Proof.Machine
end

