-- ==== Sys2Proof/Machine/Flags.lean ====
section
/-!
DEFINITION. The block has no flags register (spec/10_state.md R28): the only condition an operation sets is its status byte
(spec/60_exceptions.md R320). Its codes, and the conditions that the operations test.
-/
namespace Sys2Proof.Machine

/-- The status byte (R320). -/
def statusCode : Status → Byte
  | .ok => 0x00
  | .rangeError => 0x01
  | .invalidOperation => 0x02
  | .communicationError => 0x03

/-- The status of a refusal, where the spec gives one (R120). -/
def refusalStatus : Refusal → Option Status
  | .undefinedHeader _ => some .invalidOperation
  | _ => none

/-- "No chip-select target configured" (R221). -/
def noTarget (s : State) : Bool := s.targetPins == 0

/-- A read needs exactly one chip-select bit (R228). -/
def oneChipSelected (s : State) : Bool := popcount s.targetPins == 1

/-- The caller is the recorded owner of the section (R303, R253, R257). -/
def callerOwns (s : State) : Bool := s.sectionMode && s.owner == some s.cur

/-- SEC_END's refusal: section mode is enabled and the caller is not the owner (R304). -/
def callerNotOwner (s : State) : Bool := s.sectionMode && s.owner != some s.cur

/-- The guard of the acquire step (R303). -/
def lockFree (s : State) : Bool := !s.sectionMode || s.owner == none

end Sys2Proof.Machine
end

