-- ==== Sys2Proof/Machine/Operands.lean ====
section
/-!
DEFINITION. Operand checks and operand forms: ranges, slices, export buffers (spec/42_tone.md R198), masked register fields
(spec/44_register.md R256), reals in the chosen domain.
-/
namespace Sys2Proof.Machine

/-- `lo <= v <= hi`. -/
def inRange (v lo hi : Int) : Bool := decide (lo ≤ v) && decide (v ≤ hi)

/-- A run of `n` bytes at `offset` fits a sequence of `len` bytes (R198, R226). -/
def runFits (offset : Int) (n len : Nat) : Bool := decide (0 ≤ offset) && decide (offset + n ≤ len)

/-- `buffer` with `run` written from `offset` on (R198). -/
def overwrite (buffer : List Byte) (offset : Nat) (run : List Byte) : List Byte :=
  buffer.take offset ++ run ++ buffer.drop (offset + run.length)

/-- A legal burst: `1 <= count <= 65535` and the slice inside `bytes` (R226). -/
def burstOk (bytes : List Byte) (offset count : Int) : Bool :=
  inRange count 1 65535 && decide (0 ≤ offset) && decide (offset + count ≤ bytes.length)

/-- `bytes[offset .. offset+count)` (R10). -/
def sliceOf (bytes : List Byte) (offset count : Int) : List Byte := (bytes.drop offset.toNat).take count.toNat

/-- A real operand as the chosen domain holds it (U21; log 35). -/
def realOperand (s : State) (v : XReal) : XReal := s.cfg.num.rnd v

/-- `bool` operands convert as `false -> 0`, `true -> 1` (R11). -/
def flagBit (b : Bool) : I32 := if b then 1 else 0

/-- All register fields: the fixed ones and REGLAYOUT (R284). -/
def regLayout (s : State) : List (Slice RegField) := fixedRegLayout ++ s.cfg.regLayout

/-- The operand a setter gives a field; a field it has no operand for is 0. -/
def fieldOperand (args : List (RegField × I32)) (f : RegField) : Nat :=
  match args.find? fun a => a.1 == f with
  | some a => a.2.toNat
  | none => 0

/-- The data byte of register `addr`: each operand masked on its two's-complement pattern, then shifted (R116, R256). -/
def regByte (s : State) (addr : Byte) (args : List (RegField × I32)) : Byte :=
  packByte (regLayout s) (fieldOperand args) addr.toNat

/-- `unpack(a, v)` (R258): the fields of register `a`, none for an address without a layout. -/
def unpackReg (s : State) (a v : Byte) : List Nat := unpackByte (regLayout s) a.toNat v

/-- The field of an operator as a number; a flag is 0 or 1 (R23). -/
def Operator.number (o : Operator) : OpField → Nat
  | .sr => o.sr
  | .rr => o.rr
  | .dr => o.dr
  | .ar => o.ar
  | .sl => o.sl
  | .tl => o.tl
  | .ksl => o.ksl
  | .dam => o.dam
  | .dvb => o.dvb
  | .multi => o.multi
  | .dt => o.dt
  | .ws => o.ws
  | .fb => o.fb
  | .xof => o.xof.toNat
  | .ksr => o.ksr.toNat
  | .eam => o.eam.toNat
  | .evb => o.evb.toNat

/-- The header field of a slot (R22). -/
def ToneSlot.number (t : ToneSlot) : ToneField → Nat
  | .bo => t.bo
  | .lfo => t.lfo
  | .alg => t.alg

/-- The tone slot of an index operand, if it is in 0 to 15 (R21). -/
def slotIndex (t : Int) : Option (Fin 16) := if h : 0 ≤ t ∧ t ≤ 15 then some ⟨t.toNat, by omega⟩ else none

/-- The operator of an index operand, if it is in 0 to 3 (R21). -/
def opIndex (k : Int) : Option (Fin 4) := if h : 0 ≤ k ∧ k ≤ 3 then some ⟨k.toNat, by omega⟩ else none

end Sys2Proof.Machine
end

