-- ==== Sys2Proof/Machine/Ops.lean ====
section
/-!
DEFINITION. The shared operations: answering an operation (an error status among the answers: the block's only exceptions,
spec/60_exceptions.md R320), the Transport (spec/43_transport.md), the section lock (spec/45_section.md), the atomic steps of
multi-step operations (R310), fetching a requester's next operation, and what the bridge and the environment do.
-/
namespace Sys2Proof.Machine

/-- How one atomic step ends: it is done, it ends its operation with an error, it holds (R16), or it is a fault. -/
inductive Run where
  | done (s : State)
  | raise (e : Status) (s : State)
  | hold
  | fault (f : Fault)

/-- One step after another; what is not done stops there (R16). -/
def Run.andThen (r : Run) (f : State → Run) : Run :=
  match r with
  | .done s => f s
  | other => other

/-! ### Requesters and their results -/

/-- The requester whose turn it is. -/
def me (s : State) : Option Requester := s.reqs[s.cur]?

/-- The operation in progress of that requester. -/
def myTask (s : State) : Option Task := (me s).bind Requester.task

/-- A change of that requester. -/
def updateMe (f : Requester → Requester) (s : State) : State := { s with reqs := s.reqs.modify s.cur f }

/-- A change of its operation in progress. -/
def updateTask (f : Task → Task) (s : State) : State := updateMe (fun r => { r with task := r.task.map f }) s

/-- The operation ends: its status is returned, with its values where the status is OK (R92, R320). TAKING AN ERROR IS THIS:
"the block has no trap mechanism: no handler, no vector, no saved context, no mode change". -/
def respond (e : Status) (values : List Value) (s : State) : State :=
  updateMe (fun r => { r with task := none, response := some ⟨e, if e = .ok then values else []⟩ }) s

/-- The end of an operation that computes a result and changes nothing (R130, R160). -/
def answer (r : Except Status (List Value)) (s : State) : Host.Outcome State Fault Refusal :=
  match r with
  | .ok values => .next (respond .ok values s)
  | .error e => .next (respond e [] s)

/-- The end of a single-step operation that returns no value. -/
def complete (s : State) : Run → Host.Outcome State Fault Refusal
  | .done s' => .next (respond .ok [] s')
  | .raise e s' => .next (respond e [] s')
  | .hold => .next s
  | .fault f => .fault f

/-! ### Transport -/

/-- `emit` (R14). -/
def emit (bytes : List Byte) (s : State) : State := { s with wbuf := s.wbuf ++ bytes }

/-- `trace` (R15). -/
def record (e : Event) (s : State) : State := { s with trace := s.trace ++ [e] }

/-- A wait of `ms` milliseconds; a delay of 0 records no event (R15, R304). -/
def recordDelay (ms : Nat) (s : State) : State := if ms = 0 then s else record (.delay ms) s

/-- Bytes reach the bridge (R44). -/
def deliver (bytes : List Byte) (s : State) : State :=
  { s with bridge := { s.bridge with stream := s.bridge.stream ++ bytes } }

/-- FLUSH (R227), the environment deciding whether the bulk write succeeds. -/
def flush (s : State) : Run :=
  if s.disposed then .raise .communicationError s
  else
    let out := s.wbuf ++ [0x87]
    if s.accept then .done (deliver out (record (.tx out) { s with wbuf := [] }))
    else .raise .communicationError { s with wbuf := out }

/-- The opcode of a GPIO-set command (R100). -/
def gpioOp (high : Bool) : Byte := if high then 0x82 else 0x80

/-- `cs_value` (R224). -/
def csValue (b : BoardConfig) (pins : Byte) : Byte := if b.csActiveLow then b.csIdle &&& ~~~pins else b.csIdle ||| pins

/-- CS_EN (R104, R224). -/
def csEnable (s : State) : List Byte :=
  [gpioOp s.cfg.board.csBankHigh, csValue s.cfg.board s.targetPins, s.cfg.board.csDir]

/-- CS_DIS (R104, R224). -/
def csDisable (s : State) : List Byte := [gpioOp s.cfg.board.csBankHigh, s.cfg.board.csIdle, s.cfg.board.csDir]

/-- A write frame: CS_EN, the SPI write of R101, CS_DIS (R104, R106). -/
def writeFrame (addr : Byte) (data : List Byte) (s : State) : List Byte :=
  csEnable s ++ ([0x11] ++ lenField data.length ++ [addr] ++ data) ++ csDisable s

/-- A read frame: CS_EN, the SPI read of R102, CS_DIS. -/
def readFrame (addr : Byte) (s : State) : List Byte :=
  csEnable s ++ [0x31, 0x01, 0x00, addr ||| 0x80, 0x00] ++ csDisable s

/-- The checks of an SPI queue operation, then the frame (R220, R225, R226). -/
def queueWrite (addr : Byte) (data : List Byte) (s : State) : Run :=
  if s.disposed then .raise .communicationError s
  else if noTarget s then .raise .communicationError s
  else .done (emit (writeFrame addr data s) s)

/-- Q_SPI_BURST, the slice checked first (R226). -/
def queueBurst (addr : Byte) (bytes : List Byte) (offset count : Int) (s : State) : Run :=
  if burstOk bytes offset count then queueWrite addr (sliceOf bytes offset count) s else .raise .rangeError s

/-- The auto-flush of the Register Driver (R250). -/
def autoFlush (s : State) : Run := if s.sectionMode then .done s else flush s

/-- `drv_write` (R250). -/
def drvWrite (addr data : Byte) (s : State) : Run := (queueWrite addr [data] s).andThen autoFlush

/-- `drv_burst` (R250). -/
def drvBurst (addr : Byte) (bytes : List Byte) (offset count : Int) (s : State) : Run :=
  (queueBurst addr bytes offset count s).andThen autoFlush

/-- A level of the reset pin: its GPIO command, a flush, a delay (R229). -/
def pinLevel (high : Bool) (ms : Nat) (s : State) : Run :=
  let b := s.cfg.board
  (flush (emit [gpioOp b.icBankHigh, if high then b.icValueHigh else b.icValueLow, b.icDir] s)).andThen
    fun s' => .done (recordDelay ms s')

/-! ### Chip addressing and the section lock -/

/-- The target switched to a chip of `csmap` (R231). -/
def switchTarget (chip : Chip) (pins : Byte) (s : State) : State := { s with target := chip, targetPins := pins }

/-- SEC_BEGIN's first check (R303). -/
def enterCheck (s : State) : Run := if callerOwns s then .raise .invalidOperation s else .done s

/-- The lock taken, if section mode is enabled (R303). -/
def takeLock (s : State) : State :=
  if s.sectionMode then { s with entered := s.entered + 1, owner := some s.cur } else s

/-- A guarded operation notes that it has passed its acquire step, and so does a SECTION whose SEC_BEGIN this is (R306). -/
def markAcquired (s : State) : State :=
  updateMe (fun r =>
    if (r.task.map Task.guarded).getD false then { r with task := r.task.map fun t => { t with acquired := true } }
    else { r with unit := r.unit.map fun u => { u with acquired := true } }) s

/-- The target switch of SEC_BEGIN (R303): the former target is saved before the new one is looked up. -/
def enterTarget (chip : Chip) (s : State) : Run :=
  if chip = 0 then .done s
  else
    let saved := { s with savedTarget := some s.target }
    match mapLookup s.csmap chip with
    | none => .raise .rangeError saved
    | some pins => .done (switchTarget chip pins saved)

/-- SEC_BEGIN's acquire step (R303, R310): it holds while another requester has the lock. -/
def acquire (chip : Chip) (s : State) : Run :=
  if lockFree s then enterTarget chip (markAcquired (takeLock s)) else .hold

/-- The saved target restored, if there is one (R305). -/
def restoreTarget (s : State) : Run :=
  match s.savedTarget with
  | none => .done s
  | some chip =>
    match mapLookup s.csmap chip with
    | none => .fault .targetNotMapped
    | some pins => .done { switchTarget chip pins s with savedTarget := none }

/-- The lock given back, if section mode is enabled (R305). -/
def dropLock (s : State) : State := if s.sectionMode then { s with owner := none } else s

/-- `release` (R305). -/
def release (s : State) : Run :=
  (restoreTarget s).andThen fun s' => .done (updateTask (fun t => { t with acquired := false }) (dropLock s'))

/-- SEC_END's check, flush and delay (R304). -/
def leaveFlush (ms : Nat) (s : State) : Run :=
  if callerNotOwner s then .raise .invalidOperation s
  else (flush s).andThen fun s' => .done (recordDelay ms s')

/-! ### The read sequence -/

/-- First step of T_READ (R228). -/
def readFlush (s : State) : Run :=
  if s.disposed then .raise .communicationError s
  else if noTarget s then .raise .communicationError s
  else if oneChipSelected s then flush s
  else .raise .invalidOperation s

/-- Second step of T_READ (R228). -/
def readIssue (addr : Byte) (s : State) : Run :=
  let purged := record .rxPurge { s with rxq := [] }
  flush (emit (readFrame addr purged) purged)

/-- Third step of T_READ: it holds until two bytes are there, and keeps what `result` makes of the second (R228, R258). -/
def readTake (result : Byte → List Value) (s : State) : Run :=
  match s.rxq with
  | b0 :: b1 :: rest =>
    .done (updateTask (fun t => { t with values := result b1 }) (record (.rxTake b0 b1) { s with rxq := rest }))
  | _ => .hold

/-! ### Multi-step operations -/

/-- One atomic step (R310). -/
def runAtom : Atom → State → Run
  | .drvWrite addr data, s => drvWrite addr data s
  | .enterCheck, s => enterCheck s
  | .acquire target, s => acquire target s
  | .leaveFlush ms, s => leaveFlush ms s
  | .release, s => release s
  | .pinLevel high ms, s => pinLevel high ms s
  | .readFlush, s => readFlush s
  | .readIssue addr, s => readIssue addr s
  | .readTake, s => readTake (fun b => [.byte b]) s
  | .regTake sub, s => readTake (fun b => [.byte b, .fields (unpackReg s sub b)]) s

/-- The operation has no step left: it reports its verdict (R320). -/
def finishTask (s : State) : State :=
  match myTask s with
  | some t => respond t.verdict t.values s
  | none => s

/-- An atomic step ended with an error: a guarded operation that has passed its acquire step releases first, in a step of its
own (R306; log 21); any other reports the error. -/
def abortTask (e : Status) (s : State) : State :=
  match myTask s with
  | some t => if t.acquired then updateTask (fun t => { t with steps := [.release], verdict := e }) s else respond e [] s
  | none => s

/-- What an atomic step's end makes of the operation; `rest` are the steps after it. A step that holds changes nothing
(R16, R332). -/
def settle (s : State) (rest : List Atom) : Run → Host.Outcome State Fault Refusal
  | .done s' => .next (if rest = [] then finishTask s' else updateTask (fun t => { t with steps := rest }) s')
  | .raise e s' => .next (abortTask e s')
  | .hold => .next s
  | .fault f => .fault f

/-- The next atomic step of the operation in progress. -/
def advance (s : State) : Host.Outcome State Fault Refusal :=
  match myTask s with
  | some t =>
    match t.steps with
    | a :: rest => settle s rest (runAtom a s)
    | [] => .next (finishTask s)
  | none => .next s

/-- The operation in progress becomes `t`. -/
def beginTask (t : Task) (s : State) : State := updateMe (fun r => { r with task := some t, response := none }) s

/-- A multi-step operation starts with its first atomic step. -/
def start (t : Task) (s : State) : Host.Outcome State Fault Refusal := advance (beginTask t s)

/-! ### Requests, SECTION units, the bridge and the environment -/

/-- SEC_BEGIN as a command (R125). -/
def secBeginCommand (target : Chip) : Command := { header := 0x7200, ports := { chip := target } }

/-- SEC_END as a command (R125). -/
def secEndCommand (ms : Nat) : Command := { header := 0x7300, ports := { n0 := ms } }

/-- The command a requester presents next, and the requester after presenting it. A SECTION expands to SEC_BEGIN, its body
and SEC_END (R125). -/
def fetch (r : Requester) : Option (Command × Requester) :=
  match r.unit with
  | some u =>
    match u.rest with
    | c :: cs => some (c, { r with unit := some { u with rest := cs }, response := none })
    | [] => none
  | none =>
    match r.inbox with
    | .op c :: rs => some (c, { r with inbox := rs, response := none })
    | .unit target ms body :: rs =>
      some (secBeginCommand target, { r with inbox := rs, unit := some { rest := body ++ [secEndCommand ms] }, response := none })
    | [] => none

/-- The requester presents a command: it stands as `r` while the command runs. -/
def present (r : Requester) (s : State) : State := updateMe (fun _ => r) s

/-- After each step of a requester inside a SECTION (R125, R306): an error ends the SECTION there, with `release` if its
SEC_BEGIN has passed its acquire step; the end of its SEC_END ends it. A body that itself gives the lock up leaves the mark, so
that a later error releases again, whoever has the lock then (DESIGN CHOICE, log 39). -/
def closeUnit (r : Requester) : Requester :=
  match r.unit, r.task, r.response with
  | some u, none, some resp =>
    if resp.status = .ok then (if u.rest = [] then { r with unit := none } else r)
    else if u.acquired then
      { r with unit := none, response := none, task := some { steps := [.release], verdict := resp.status } }
    else { r with unit := none }
  | _, _, _ => r

/-- The environment appends to the receive queue (R43). -/
def receive (bytes : List Byte) (s : State) : State := { s with rxq := s.rxq ++ bytes }

/-- The bridge sets a GPIO bank (R100). -/
def setBank (high : Bool) (bank : Bank) (s : State) : State :=
  { s with bridge := if high then { s.bridge with high := bank } else { s.bridge with low := bank } }

/-- The bridge makes an SPI transfer under the pin levels it drives (R101, R102). -/
def spiTransfer (isRead : Bool) (addr : Byte) (data : List Byte) (s : State) : State :=
  { s with bridge := { s.bridge with
      spi := s.bridge.spi ++ [⟨s.bridge.low.value, s.bridge.high.value, isRead, addr, data⟩] } }

/-- The stream a command was taken from. -/
def consumeStream (rest : List Byte) (s : State) : State := { s with bridge := { s.bridge with stream := rest } }

end Sys2Proof.Machine
end

