-- ==== Sys2Proof/Machine/Filter.lean ====
section
/-!
DEFINITION. The CEQ unit (spec/41_filter.md): the fixed-point encoder and decoder of coefficients, and the eight filter
designers with the default equations of R166 to R173.
-/
namespace Sys2Proof.Machine

/-- `floor(abs(v) * 2^20)` of a finite real (R161). -/
def coefMagnitude (v : XReal) : Nat := v.floorMag 1048576

/-- `to_register_format` (R161): sign in bit 23, magnitude in bits 22:0. -/
def encodeCoef (v : XReal) : Except Status I32 :=
  if XReal.lt (.ofRat (-8)) v && XReal.lt v (.ofRat 8) then
    let mag := coefMagnitude v
    .ok (BitVec.ofNat 32 (mag + if v.isNeg = true ∧ 0 < mag then 0x800000 else 0))
  else .error .rangeError

/-- `to_double` (R162): bits 31:24 are ignored. -/
def decodeCoef (w : I32) : XReal :=
  let mag : Nat := w.toNat % 0x800000
  .ofRat (if w.getLsbD 23 then -(mkRat mag 1048576) else mkRat mag 1048576)

/-- The three bytes of a coefficient word, high byte first (R62(b), R114). -/
def coefBytes (w : I32) : List Byte :=
  [BitVec.ofNat 8 (w.toNat >>> 16), BitVec.ofNat 8 (w.toNat >>> 8), BitVec.ofNat 8 w.toNat]

/-- Each coefficient encoded, the first illegal one reported (R163). -/
def encodeCoefs : List XReal → Except Status (List Byte)
  | [] => .ok []
  | v :: vs =>
    match encodeCoef v with
    | .error e => .error e
    | .ok w =>
      match encodeCoefs vs with
      | .error e => .error e
      | .ok bytes => .ok (coefBytes w ++ bytes)

/-- The band block (R114, R163): the length first, then the coefficients in order. -/
def packBand (coefs : List XReal) : Except Status (List Byte) :=
  if coefs.length = 5 then encodeCoefs coefs else .error .rangeError

/-- The validation of R165(b): `cutoff`, then `q` or `bandwidth`; `gain` is not checked. -/
def filterOk (cutoff shape : XReal) : Bool :=
  XReal.le (.ofRat 0) cutoff && XReal.le cutoff (.ofRat 24000) && XReal.le (.ofRat 0) shape

/-- `(B0/A0, B1/A0, B2/A0, -A1/A0, -A2/A0)` (R165(c)). -/
def normalise (m : NumMode) (d : Design) : List XReal :=
  [m.div d.b0 d.a0, m.div d.b1 d.a0, m.div d.b2 d.a0, m.div d.a1.neg d.a0, m.div d.a2.neg d.a0]

/-- `w0 = 2 * pi * cutoff / 48000` (R165). -/
def angle (m : NumMode) (cutoff : XReal) : XReal :=
  m.div (m.mul (m.mul (.ofRat 2) (m.rnd (.expr .pi))) cutoff) (.ofRat 48000)

/-- `c = cos(w0)` (R165). -/
def cosTerm (m : NumMode) (cutoff : XReal) : XReal := m.apply .cos (angle m cutoff)

/-- `s = sin(w0)` (R165). -/
def sinTerm (m : NumMode) (cutoff : XReal) : XReal := m.apply .sin (angle m cutoff)

/-- `alphaQ = s / (2 * q)` (R165). -/
def alphaQ (m : NumMode) (cutoff q : XReal) : XReal := m.div (sinTerm m cutoff) (m.mul (.ofRat 2) q)

/-- `alphaBW = s * sinh((ln 2 / 2) * bandwidth * w0 / s)` (R165). -/
def alphaBW (m : NumMode) (cutoff bandwidth : XReal) : XReal :=
  let half := m.div (m.rnd (.expr .ln2)) (.ofRat 2)
  let arg := m.div (m.mul (m.mul half bandwidth) (angle m cutoff)) (sinTerm m cutoff)
  m.mul (sinTerm m cutoff) (m.apply .sinh arg)

/-- `A = 10^(gain / 40)` (R165). -/
def gainFactor (m : NumMode) (gain : XReal) : XReal := m.apply .pow10 (m.div gain (.ofRat 40))

/-- `r = 2 * sqrt(A) * alphaQ` (R170, R171). -/
def shelfTerm (m : NumMode) (a alpha : XReal) : XReal := m.mul (m.mul (.ofRat 2) (m.apply .sqrt a)) alpha

/-- `1 + alpha`, `-2c`, `1 - alpha`: the denominator of all designs but the shelves. -/
def resonance (m : NumMode) (c alpha : XReal) (b0 b1 b2 : XReal) : Design :=
  ⟨b0, b1, b2, m.add (.ofRat 1) alpha, m.mul (.ofRat (-2)) c, m.sub (.ofRat 1) alpha⟩

/-- The shelves of R170 (`up = false`) and R171 (`up = true`), with `t = (A-1)c` added or subtracted. -/
def shelf (m : NumMode) (up : Bool) (a c r : XReal) : Design :=
  let one := XReal.ofRat 1
  let p := m.add a one
  let n := m.sub a one
  let near := m.sub p (m.mul n c)
  let far := m.add p (m.mul n c)
  let x := m.sub n (m.mul p c)
  let y := m.add n (m.mul p c)
  if up then
    ⟨m.mul a (m.add far r), m.mul (m.mul (.ofRat (-2)) a) y, m.mul a (m.sub far r),
      m.add near r, m.mul (.ofRat 2) x, m.sub near r⟩
  else
    ⟨m.mul a (m.add near r), m.mul (m.mul (.ofRat 2) a) x, m.mul a (m.sub near r),
      m.add far r, m.mul (.ofRat (-2)) y, m.sub far r⟩

/-- The default design equations (R166 to R173): the Audio-EQ-Cookbook, PRESUMED (log 10). -/
def cookbook (m : NumMode) (t : FilterType) (cutoff shape gain : XReal) : Design :=
  let c := cosTerm m cutoff
  let one := XReal.ofRat 1
  match t with
  | .lowpass =>
    let up := m.sub one c
    resonance m c (alphaQ m cutoff shape) (m.div up (.ofRat 2)) up (m.div up (.ofRat 2))
  | .highpass =>
    let up := m.add one c
    resonance m c (alphaQ m cutoff shape) (m.div up (.ofRat 2)) up.neg (m.div up (.ofRat 2))
  | .bandpass =>
    let a := alphaBW m cutoff shape
    resonance m c a a (.ofRat 0) a.neg
  | .bandstop => resonance m c (alphaBW m cutoff shape) one (m.mul (.ofRat (-2)) c) one
  | .lowShelf => shelf m false (gainFactor m gain) c (shelfTerm m (gainFactor m gain) (alphaQ m cutoff shape))
  | .highShelf => shelf m true (gainFactor m gain) c (shelfTerm m (gainFactor m gain) (alphaQ m cutoff shape))
  | .peaking =>
    let a := alphaBW m cutoff shape
    let raised := m.mul a (gainFactor m gain)
    let lowered := m.div a (gainFactor m gain)
    resonance m c lowered (m.add one raised) (m.mul (.ofRat (-2)) c) (m.sub one raised)
  | .allpass =>
    let a := alphaQ m cutoff shape
    resonance m c a (m.sub one a) (m.mul (.ofRat (-2)) c) (m.add one a)

/-- FilterDesign (R165): the default equations, or a free value, a function of the operands as extended reals (R174;
log 10). -/
def design (cfg : Config) (t : FilterType) (cutoff shape gain : XReal) : Design :=
  match cfg.filters with
  | .cookbook => cookbook cfg.num t cutoff shape gain
  | .other => Config.filterDesign cfg.num t cutoff.number shape.number gain.number

/-- A design operation (R165): validation, then the normalised result, which is not range-checked. -/
def runDesign (t : FilterType) (cutoff shape gain : XReal) (s : State) : Except Status (List Value) :=
  let c := realOperand s cutoff
  let q := realOperand s shape
  if filterOk c q then .ok ((normalise s.cfg.num (design s.cfg t c q (realOperand s gain))).map .real)
  else .error .rangeError

/-- CEQ_ENC (R161). -/
def execCeqEnc (v : XReal) (s : State) : Host.Outcome State Fault Refusal :=
  answer ((encodeCoef (realOperand s v)).map fun w => [.word w]) s

/-- CEQ_DEC (R162). -/
def execCeqDec (w : I32) (s : State) : Host.Outcome State Fault Refusal := answer (.ok [.real (decodeCoef w)]) s

/-- CEQ_PACK (R163). -/
def execCeqPack (coefs : List XReal) (s : State) : Host.Outcome State Fault Refusal :=
  answer ((packBand (coefs.map (realOperand s))).map fun b => [.bytes b]) s

/-- FLT_LOWPASS (R166). -/
def execFltLowpass (cutoff q : XReal) (s : State) : Host.Outcome State Fault Refusal :=
  answer (runDesign .lowpass cutoff q (.ofRat 0) s) s

/-- FLT_HIGHPASS (R167). -/
def execFltHighpass (cutoff q : XReal) (s : State) : Host.Outcome State Fault Refusal :=
  answer (runDesign .highpass cutoff q (.ofRat 0) s) s

/-- FLT_BANDPASS (R168). -/
def execFltBandpass (cutoff bandwidth : XReal) (s : State) : Host.Outcome State Fault Refusal :=
  answer (runDesign .bandpass cutoff bandwidth (.ofRat 0) s) s

/-- FLT_BANDSTOP (R169). -/
def execFltBandstop (cutoff bandwidth : XReal) (s : State) : Host.Outcome State Fault Refusal :=
  answer (runDesign .bandstop cutoff bandwidth (.ofRat 0) s) s

/-- FLT_LOWSHELF (R170). -/
def execFltLowshelf (cutoff q gain : XReal) (s : State) : Host.Outcome State Fault Refusal :=
  answer (runDesign .lowShelf cutoff q gain s) s

/-- FLT_HIGHSHELF (R171). -/
def execFltHighshelf (cutoff q gain : XReal) (s : State) : Host.Outcome State Fault Refusal :=
  answer (runDesign .highShelf cutoff q gain s) s

/-- FLT_PEAKING (R172). -/
def execFltPeaking (cutoff bandwidth gain : XReal) (s : State) : Host.Outcome State Fault Refusal :=
  answer (runDesign .peaking cutoff bandwidth gain s) s

/-- FLT_ALLPASS (R173). -/
def execFltAllpass (cutoff q : XReal) (s : State) : Host.Outcome State Fault Refusal :=
  answer (runDesign .allpass cutoff q (.ofRat 0) s) s

end Sys2Proof.Machine
end

