-- ==== Sys2Proof/Machine/Tone.lean ====
section
/-!
DEFINITION. The TONE unit (spec/42_tone.md): assignment and read of the tone parameter file, and the three exports.
-/
namespace Sys2Proof.Machine

/-- The upper bound of a header field (R22). -/
def ToneField.top : ToneField → Int
  | .bo => 3
  | .lfo => 3
  | .alg => 7

/-- The upper bound of a numeric operator field (R23); a flag has none, 1 is its number when set. -/
def OpField.top : OpField → Int
  | .tl => 63
  | .ws => 31
  | .sr | .rr | .dr | .ar | .sl | .multi => 15
  | .dt | .fb => 7
  | .ksl | .dam | .dvb => 3
  | .xof | .ksr | .eam | .evb => 1

/-- One slot changed. -/
def setSlot (t : Fin 16) (f : ToneSlot → ToneSlot) (s : State) : State := { s with x := s.x.set t (f s.x[t]) }

/-- One operator changed. -/
def setOperator (t : Fin 16) (k : Fin 4) (f : Operator → Operator) (s : State) : State :=
  setSlot t (fun slot => { slot with op := slot.op.set k (f slot.op[k]) }) s

/-- TONE_SET (R191): the slot index, then the value; out of range nothing changes. -/
def toneSet (t value : Int) (field : ToneField) (put : Nat → ToneSlot → ToneSlot) (s : State) :
    Host.Outcome State Fault Refusal :=
  match slotIndex t with
  | some i =>
    if inRange value 0 (ToneField.top field) then .next (respond .ok [] (setSlot i (put value.toNat) s))
    else .next (respond .rangeError [] s)
  | none => .next (respond .rangeError [] s)

/-- OP_SET of a numeric field (R192): the indices, then the value; out of range nothing changes. -/
def opSetNumber (t k value : Int) (field : OpField) (put : Nat → Operator → Operator) (s : State) :
    Host.Outcome State Fault Refusal :=
  match slotIndex t, opIndex k with
  | some i, some j =>
    if inRange value 0 (OpField.top field) then .next (respond .ok [] (setOperator i j (put value.toNat) s))
    else .next (respond .rangeError [] s)
  | _, _ => .next (respond .rangeError [] s)

/-- OP_SET of a flag (R192): a flag operand cannot be out of range. -/
def opSetFlag (t k : Int) (put : Operator → Operator) (s : State) : Host.Outcome State Fault Refusal :=
  match slotIndex t, opIndex k with
  | some i, some j => .next (respond .ok [] (setOperator i j put s))
  | _, _ => .next (respond .rangeError [] s)

/-- TONE_GET (R193). -/
def toneGet (t : Int) (get : ToneSlot → Nat) (s : State) : Host.Outcome State Fault Refusal :=
  match slotIndex t with
  | some i => .next (respond .ok [.int (get s.x[i])] s)
  | none => .next (respond .rangeError [] s)

/-- OP_GET (R194). -/
def opGet (t k : Int) (get : Operator → Value) (s : State) : Host.Outcome State Fault Refusal :=
  match slotIndex t, opIndex k with
  | some i, some j => .next (respond .ok [get (s.x[i].op[j])] s)
  | _, _ => .next (respond .rangeError [] s)

/-- The 7 bytes of an operator under OPLAYOUT (R110, R195). -/
def operatorBytes (c : Config) (o : Operator) : List Byte := (List.range 7).map (packByte c.opLayout o.number)

/-- The 30 bytes of a tone slot under TONEHDR and OPLAYOUT (R111, R196). -/
def toneBytes (c : Config) (t : ToneSlot) : List Byte :=
  (List.range 2).map (packByte c.toneHdr t.number) ++ t.op.toList.flatMap (operatorBytes c)

/-- The footer of the tone blob (R112). -/
def blobFooter : List Byte := [0x80, 0x03, 0x81, 0x80]

/-- The tone blob of slots 0 to `tone` (R112, R197). -/
def toneBlob (c : Config) (x : Vector ToneSlot 16) (tone : Nat) : List Byte :=
  [BitVec.ofNat 8 (0x80 + (tone + 1))] ++ (x.toList.take (tone + 1)).flatMap (toneBytes c) ++ blobFooter

/-- An export buffer (R198): the bounds before any write. -/
def writeRun (buffer : List Byte) (offset : Int) (run : List Byte) (s : State) : Host.Outcome State Fault Refusal :=
  if runFits offset run.length buffer.length then
    .next (respond .ok [.bytes (overwrite buffer offset.toNat run)] s)
  else .next (respond .rangeError [] s)

/-- TONE_SET.BO (R191). -/
def execToneSetBo (t value : Int) (s : State) : Host.Outcome State Fault Refusal :=
  toneSet t value .bo (fun v slot => { slot with bo := v }) s

/-- TONE_SET.LFO (R191). -/
def execToneSetLfo (t value : Int) (s : State) : Host.Outcome State Fault Refusal :=
  toneSet t value .lfo (fun v slot => { slot with lfo := v }) s

/-- TONE_SET.ALG (R191). -/
def execToneSetAlg (t value : Int) (s : State) : Host.Outcome State Fault Refusal :=
  toneSet t value .alg (fun v slot => { slot with alg := v }) s

/-- OP_SET.SR (R192). -/
def execOpSetSr (t k value : Int) (s : State) : Host.Outcome State Fault Refusal :=
  opSetNumber t k value .sr (fun v o => { o with sr := v }) s

/-- OP_SET.RR (R192). -/
def execOpSetRr (t k value : Int) (s : State) : Host.Outcome State Fault Refusal :=
  opSetNumber t k value .rr (fun v o => { o with rr := v }) s

/-- OP_SET.DR (R192). -/
def execOpSetDr (t k value : Int) (s : State) : Host.Outcome State Fault Refusal :=
  opSetNumber t k value .dr (fun v o => { o with dr := v }) s

/-- OP_SET.AR (R192). -/
def execOpSetAr (t k value : Int) (s : State) : Host.Outcome State Fault Refusal :=
  opSetNumber t k value .ar (fun v o => { o with ar := v }) s

/-- OP_SET.SL (R192). -/
def execOpSetSl (t k value : Int) (s : State) : Host.Outcome State Fault Refusal :=
  opSetNumber t k value .sl (fun v o => { o with sl := v }) s

/-- OP_SET.TL (R192). -/
def execOpSetTl (t k value : Int) (s : State) : Host.Outcome State Fault Refusal :=
  opSetNumber t k value .tl (fun v o => { o with tl := v }) s

/-- OP_SET.KSL (R192). -/
def execOpSetKsl (t k value : Int) (s : State) : Host.Outcome State Fault Refusal :=
  opSetNumber t k value .ksl (fun v o => { o with ksl := v }) s

/-- OP_SET.DAM (R192). -/
def execOpSetDam (t k value : Int) (s : State) : Host.Outcome State Fault Refusal :=
  opSetNumber t k value .dam (fun v o => { o with dam := v }) s

/-- OP_SET.DVB (R192). -/
def execOpSetDvb (t k value : Int) (s : State) : Host.Outcome State Fault Refusal :=
  opSetNumber t k value .dvb (fun v o => { o with dvb := v }) s

/-- OP_SET.MULTI (R192). -/
def execOpSetMulti (t k value : Int) (s : State) : Host.Outcome State Fault Refusal :=
  opSetNumber t k value .multi (fun v o => { o with multi := v }) s

/-- OP_SET.DT (R192). -/
def execOpSetDt (t k value : Int) (s : State) : Host.Outcome State Fault Refusal :=
  opSetNumber t k value .dt (fun v o => { o with dt := v }) s

/-- OP_SET.WS (R192). -/
def execOpSetWs (t k value : Int) (s : State) : Host.Outcome State Fault Refusal :=
  opSetNumber t k value .ws (fun v o => { o with ws := v }) s

/-- OP_SET.FB (R192). -/
def execOpSetFb (t k value : Int) (s : State) : Host.Outcome State Fault Refusal :=
  opSetNumber t k value .fb (fun v o => { o with fb := v }) s

/-- OP_SET.XOF (R192). -/
def execOpSetXof (t k : Int) (value : Bool) (s : State) : Host.Outcome State Fault Refusal :=
  opSetFlag t k (fun o => { o with xof := value }) s

/-- OP_SET.KSR (R192). -/
def execOpSetKsr (t k : Int) (value : Bool) (s : State) : Host.Outcome State Fault Refusal :=
  opSetFlag t k (fun o => { o with ksr := value }) s

/-- OP_SET.EAM (R192). -/
def execOpSetEam (t k : Int) (value : Bool) (s : State) : Host.Outcome State Fault Refusal :=
  opSetFlag t k (fun o => { o with eam := value }) s

/-- OP_SET.EVB (R192). -/
def execOpSetEvb (t k : Int) (value : Bool) (s : State) : Host.Outcome State Fault Refusal :=
  opSetFlag t k (fun o => { o with evb := value }) s

/-- TONE_GET.BO (R193). -/
def execToneGetBo (t : Int) (s : State) : Host.Outcome State Fault Refusal := toneGet t (fun slot => slot.bo) s

/-- TONE_GET.LFO (R193). -/
def execToneGetLfo (t : Int) (s : State) : Host.Outcome State Fault Refusal := toneGet t (fun slot => slot.lfo) s

/-- TONE_GET.ALG (R193). -/
def execToneGetAlg (t : Int) (s : State) : Host.Outcome State Fault Refusal := toneGet t (fun slot => slot.alg) s

/-- OP_GET.SR (R194). -/
def execOpGetSr (t k : Int) (s : State) : Host.Outcome State Fault Refusal := opGet t k (fun o => .int o.sr) s

/-- OP_GET.RR (R194). -/
def execOpGetRr (t k : Int) (s : State) : Host.Outcome State Fault Refusal := opGet t k (fun o => .int o.rr) s

/-- OP_GET.DR (R194). -/
def execOpGetDr (t k : Int) (s : State) : Host.Outcome State Fault Refusal := opGet t k (fun o => .int o.dr) s

/-- OP_GET.AR (R194). -/
def execOpGetAr (t k : Int) (s : State) : Host.Outcome State Fault Refusal := opGet t k (fun o => .int o.ar) s

/-- OP_GET.SL (R194). -/
def execOpGetSl (t k : Int) (s : State) : Host.Outcome State Fault Refusal := opGet t k (fun o => .int o.sl) s

/-- OP_GET.TL (R194). -/
def execOpGetTl (t k : Int) (s : State) : Host.Outcome State Fault Refusal := opGet t k (fun o => .int o.tl) s

/-- OP_GET.KSL (R194). -/
def execOpGetKsl (t k : Int) (s : State) : Host.Outcome State Fault Refusal := opGet t k (fun o => .int o.ksl) s

/-- OP_GET.DAM (R194). -/
def execOpGetDam (t k : Int) (s : State) : Host.Outcome State Fault Refusal := opGet t k (fun o => .int o.dam) s

/-- OP_GET.DVB (R194). -/
def execOpGetDvb (t k : Int) (s : State) : Host.Outcome State Fault Refusal := opGet t k (fun o => .int o.dvb) s

/-- OP_GET.MULTI (R194). -/
def execOpGetMulti (t k : Int) (s : State) : Host.Outcome State Fault Refusal := opGet t k (fun o => .int o.multi) s

/-- OP_GET.DT (R194). -/
def execOpGetDt (t k : Int) (s : State) : Host.Outcome State Fault Refusal := opGet t k (fun o => .int o.dt) s

/-- OP_GET.WS (R194). -/
def execOpGetWs (t k : Int) (s : State) : Host.Outcome State Fault Refusal := opGet t k (fun o => .int o.ws) s

/-- OP_GET.FB (R194). -/
def execOpGetFb (t k : Int) (s : State) : Host.Outcome State Fault Refusal := opGet t k (fun o => .int o.fb) s

/-- OP_GET.XOF (R194). -/
def execOpGetXof (t k : Int) (s : State) : Host.Outcome State Fault Refusal := opGet t k (fun o => .flag o.xof) s

/-- OP_GET.KSR (R194). -/
def execOpGetKsr (t k : Int) (s : State) : Host.Outcome State Fault Refusal := opGet t k (fun o => .flag o.ksr) s

/-- OP_GET.EAM (R194). -/
def execOpGetEam (t k : Int) (s : State) : Host.Outcome State Fault Refusal := opGet t k (fun o => .flag o.eam) s

/-- OP_GET.EVB (R194). -/
def execOpGetEvb (t k : Int) (s : State) : Host.Outcome State Fault Refusal := opGet t k (fun o => .flag o.evb) s

/-- OP_EXPORT (R195). -/
def execOpExport (t k : Int) (buffer : List Byte) (offset : Int) (s : State) : Host.Outcome State Fault Refusal :=
  match slotIndex t, opIndex k with
  | some i, some j => writeRun buffer offset (operatorBytes s.cfg (s.x[i].op[j])) s
  | _, _ => .next (respond .rangeError [] s)

/-- TONE_EXPORT (R196). -/
def execToneExport (t : Int) (buffer : List Byte) (offset : Int) (s : State) : Host.Outcome State Fault Refusal :=
  match slotIndex t with
  | some i => writeRun buffer offset (toneBytes s.cfg s.x[i]) s
  | none => .next (respond .rangeError [] s)

/-- COLL_EXPORT (R197). -/
def execCollExport (buffer : List Byte) (offset tone : Int) (s : State) : Host.Outcome State Fault Refusal :=
  match slotIndex tone with
  | some i => writeRun buffer offset (toneBlob s.cfg s.x i.val) s
  | none => .next (respond .rangeError [] s)

end Sys2Proof.Machine
end

