-- ==== Sys2Proof/Machine/Transport.lean ====
section
/-!
DEFINITION. The Transport and the Chip Addressor (spec/43_transport.md).
-/
namespace Sys2Proof.Machine

/-- Q_GPIO (R223): it neither flushes nor looks at the target. -/
def execQGpio (highBank : Bool) (value direction : Byte) (s : State) : Host.Outcome State Fault Refusal :=
  complete s (if s.disposed then .raise .communicationError s else .done (emit [gpioOp highBank, value, direction] s))

/-- Q_SPI_WRITE (R225). -/
def execQSpiWrite (addr data : Byte) (s : State) : Host.Outcome State Fault Refusal :=
  complete s (queueWrite addr [data] s)

/-- Q_SPI_BURST (R226). -/
def execQSpiBurst (addr : Byte) (bytes : List Byte) (offset count : Int) (s : State) : Host.Outcome State Fault Refusal :=
  complete s (queueBurst addr bytes offset count s)

/-- FLUSH (R227). -/
def execFlush (s : State) : Host.Outcome State Fault Refusal := complete s (flush s)

/-- The three steps of T_READ (R228, R310). -/
def readSteps (addr : Byte) (take : Atom) : List Atom := [.readFlush, .readIssue addr, take]

/-- T_READ (R228): it does not touch the section lock. -/
def execTRead (addr : Byte) (s : State) : Host.Outcome State Fault Refusal := start { steps := readSteps addr .readTake } s

/-- HW_RESET (R229): low, high, low, with 2 ms after the first two; a disposed transport ends it first. -/
def execHwReset (s : State) : Host.Outcome State Fault Refusal :=
  if s.disposed then .next (respond .communicationError [] s)
  else start { steps := [.pinLevel false 2, .pinLevel true 2, .pinLevel false 0] } s

/-- DISPOSE (R233): always OK; queued bytes are discarded, bytes already delivered to the bridge are not (DESIGN CHOICE,
log 40). -/
def execDispose (s : State) : Host.Outcome State Fault Refusal :=
  .next (respond .ok [] { s with disposed := true, wbuf := [] })

/-- SET_TARGET (R231): the combination is checked first, then `disposed`. -/
def execSetTarget (chip : Chip) (s : State) : Host.Outcome State Fault Refusal :=
  complete s (match mapLookup s.csmap chip with
    | none => .raise .rangeError s
    | some pins => if s.disposed then .raise .communicationError s else .done (switchTarget chip pins s))

end Sys2Proof.Machine
end

