-- ==== Sys2Proof/Machine/Driver.lean ====
section
/-!
DEFINITION. The Register Driver (spec/44_register.md): raw access, composite writes, reads, the software reset and the
21 setters.
-/
namespace Sys2Proof.Machine

/-- WRITE (R251). -/
def execWrite (addr data : Byte) (s : State) : Host.Outcome State Fault Refusal := complete s (drvWrite addr data s)

/-- BURST_WRITE (R252). -/
def execBurstWrite (addr : Byte) (bytes : List Byte) (offset count : Int) (s : State) : Host.Outcome State Fault Refusal :=
  complete s (drvBurst addr bytes offset count s)

/-- The steps of READ (R253, R310): an internal section around T_READ. Its own first check is SEC_BEGIN's (log 37). -/
def readSection (addr : Byte) (target : Chip) (take : Atom) : Task :=
  { steps := [.enterCheck, .acquire target] ++ readSteps addr take ++ [.leaveFlush 0, .release], guarded := true }

/-- READ (R253). -/
def execRead (addr : Byte) (target : Chip) (s : State) : Host.Outcome State Fault Refusal :=
  start (readSection addr target .readTake) s

/-- REGGET (R258). -/
def execRegget (sub : Byte) (target : Chip) (s : State) : Host.Outcome State Fault Refusal :=
  start (readSection sub target (.regTake sub)) s

/-- WRITE_CONTENTS (R254): the tone number, then one burst of the blob to register 07. -/
def execWriteContents (tone : Int) (s : State) : Host.Outcome State Fault Refusal :=
  complete s (match slotIndex tone with
    | none => .raise .rangeError s
    | some i =>
      let blob := toneBlob s.cfg s.x i.val
      drvBurst 0x07 blob 0 blob.length s)

/-- SET_EQ (R255): band, length, coefficients, then one burst of 15 bytes to register 20 + band. -/
def execSetEq (band : Int) (coefs : List XReal) (s : State) : Host.Outcome State Fault Refusal :=
  complete s (
    if inRange band 0 2 then
      match packBand (coefs.map (realOperand s)) with
      | .error e => .raise e s
      | .ok block => drvBurst (0x20 + BitVec.ofInt 8 band) block 0 15 s
    else .raise .rangeError s)

/-- The settle delays of the five sections (R257). -/
def resetDelays : List Nat := [1, 1, 30, 21, 0]

/-- One of the five sections of SW_RESET (R257). -/
def resetSection (writes : List (Byte × Byte)) (ms : Nat) : List Atom :=
  [.enterCheck, .acquire 0] ++ writes.map (fun w => .drvWrite w.1 w.2) ++ [.leaveFlush ms, .release]

/-- All steps of SW_RESET (R257). Its own first check is that of the first SEC_BEGIN (log 37). -/
def resetSteps (c : Config) : List Atom :=
  (c.resetSeq.toList.zip resetDelays).flatMap fun e => resetSection e.1 e.2

/-- SW_RESET (R257). -/
def execSwReset (s : State) : Host.Outcome State Fault Refusal :=
  start { steps := resetSteps s.cfg, guarded := true } s

/-- A single-register setter: one `drv_write` (R284). -/
def setReg (addr : Byte) (args : List (RegField × I32)) (s : State) : Host.Outcome State Fault Refusal :=
  complete s (drvWrite addr (regByte s addr args) s)

/-- A two-register setter: two `drv_write` steps, lower address first (R272, R310). -/
def setRegPair (addr addr' : Byte) (args : List (RegField × I32)) (s : State) : Host.Outcome State Fault Refusal :=
  start { steps := [.drvWrite addr (regByte s addr args), .drvWrite addr' (regByte s addr' args)] } s

/-- SET_CLKE (R259). -/
def execSetClke (enable : Bool) (s : State) : Host.Outcome State Fault Refusal :=
  setReg 0x00 [(.clke, flagBit enable)] s

/-- SET_ALRST (R260). -/
def execSetAlrst (reset : Bool) (s : State) : Host.Outcome State Fault Refusal :=
  setReg 0x01 [(.alrst, flagBit reset)] s

/-- SET_APD (R261). -/
def execSetApd (blocks : I32) (s : State) : Host.Outcome State Fault Refusal := setReg 0x02 [(.analog, blocks)] s

/-- SET_GAIN (R262). -/
def execSetGain (gain : I32) (s : State) : Host.Outcome State Fault Refusal := setReg 0x03 [(.gain, gain)] s

/-- SET_SEQ (R264). -/
def execSetSeq (setting : I32) (s : State) : Host.Outcome State Fault Refusal := setReg 0x08 [(.seqSetting, setting)] s

/-- SET_SEQVOL_SIZE (R265). -/
def execSetSeqvolSize (volume : I32) (dirSv : Bool) (size : I32) (s : State) : Host.Outcome State Fault Refusal :=
  setRegPair 0x09 0x0A [(.seqVol, volume), (.dirSv, flagBit dirSv), (.size, size)] s

/-- SET_VOICE_NUM (R266). -/
def execSetVoiceNum (voice : I32) (s : State) : Host.Outcome State Fault Refusal := setReg 0x0B [(.voiceNum, voice)] s

/-- SET_VOICE_VOL (R267). -/
def execSetVoiceVol (volume : I32) (s : State) : Host.Outcome State Fault Refusal := setReg 0x0C [(.voiceVol, volume)] s

/-- SET_FNUM_BLOCK (R268). -/
def execSetFnumBlock (fnum block : I32) (s : State) : Host.Outcome State Fault Refusal :=
  setRegPair 0x0D 0x0E [(.fnum, fnum), (.block, block)] s

/-- SET_TONE_CTRL (R269). -/
def execSetToneCtrl (keyOn mute egReset : Bool) (tone : I32) (s : State) : Host.Outcome State Fault Refusal :=
  setReg 0x0F [(.keyOn, flagBit keyOn), (.mute, flagBit mute), (.egRst, flagBit egReset), (.toneNum, tone)] s

/-- SET_CH_VOL (R270). -/
def execSetChVol (volume : I32) (dirCv : Bool) (s : State) : Host.Outcome State Fault Refusal :=
  setReg 0x10 [(.chVol, volume), (.dirCv, flagBit dirCv)] s

/-- SET_VIB (R271). -/
def execSetVib (depth : I32) (s : State) : Host.Outcome State Fault Refusal := setReg 0x11 [(.vibrato, depth)] s

/-- SET_FMULT (R273). -/
def execSetFmult (integer fraction : I32) (s : State) : Host.Outcome State Fault Refusal :=
  setRegPair 0x12 0x13 [(.multInt, integer), (.multFrac, fraction)] s

/-- SET_MUTE_ITP (R274). -/
def execSetMuteItp (dirMt : Bool) (s : State) : Host.Outcome State Fault Refusal := setReg 0x14 [(.dirMt, flagBit dirMt)] s

/-- SET_SEQ_TIME (R276). -/
def execSetSeqTime (unit : I32) (s : State) : Host.Outcome State Fault Refusal := setRegPair 0x17 0x18 [(.seqTime, unit)] s

/-- SET_MASTER_VOL (R277). -/
def execSetMasterVol (volume : I32) (s : State) : Host.Outcome State Fault Refusal := setReg 0x19 [(.masterVol, volume)] s

/-- SET_SOFTRESET (R278). -/
def execSetSoftreset (value : I32) (s : State) : Host.Outcome State Fault Refusal := setReg 0x1A [(.softReset, value)] s

/-- SET_VOL_ITP (R279). -/
def execSetVolItp (dadjt : Bool) (muteItime chvolItime masterItime : I32) (s : State) : Host.Outcome State Fault Refusal :=
  setReg 0x1B [(.dadjt, flagBit dadjt), (.muteItime, muteItime), (.chvolItime, chvolItime), (.masterItime, masterItime)] s

/-- SET_LFO_RST (R280). -/
def execSetLfoRst (reset : Bool) (s : State) : Host.Outcome State Fault Refusal := setReg 0x1C [(.lfoRst, flagBit reset)] s

/-- SET_DRV_SEL (R281). -/
def execSetDrvSel (select : Bool) (s : State) : Host.Outcome State Fault Refusal := setReg 0x1D [(.drvSel, flagBit select)] s

/-- SET_TEST (R283). -/
def execSetTest (value : I32) (s : State) : Host.Outcome State Fault Refusal := setReg 0x50 [(.test, value)] s

end Sys2Proof.Machine
end

