-- ==== Sys2Proof/Machine/Freq.lean ====
section
/-!
DEFINITION. The FREQ unit (spec/40_freq.md): MIDI key to FNUM and BLOCK, frequency multiplier, rate offset, envelope times.
-/
namespace Sys2Proof.Machine

/-- `calc_fnum` (R131): `2^(13 - block) * freq_hz / 375.0`, left to right (D2). -/
def calcFnum (m : NumMode) (freqHz : XReal) (block : Int) : XReal :=
  m.div (m.mul (m.twoPow (13 - block)) freqHz) (.ofRat 375)

/-- `calc_frequency` (R132): `375.0 * 2^(block - 13) * fnum`, left to right (D2). -/
def calcFreq (m : NumMode) (fnum : XReal) (block : Int) : XReal :=
  m.mul (m.mul (.ofRat 375) (m.twoPow (block - 13))) fnum

/-- `block` before the clamp, from -2 to 8 (R133). -/
def rawBlock (key : Nat) : Int := (key / 12 : Nat) - 2

/-- `clamp(v, 0, 6)` (R133). -/
def clampBlock (b : Int) : Int := min (max b 0) 6

/-- `fnum` of a legal key, with its ceiling of 1023 (R133). -/
def keyFnum (m : NumMode) (table : Vector XReal 12) (key : Nat) : XReal :=
  let raw := rawBlock key
  let v := m.mul (table[key % 12]'(Nat.mod_lt _ (by decide))) (m.twoPow (raw - clampBlock raw))
  if XReal.lt (.ofRat 1023) v then .ofRat 1023 else v

/-- `correction`: the frequency of `fnum` over that of `rne(fnum)` (R133). -/
def keyCorrection (m : NumMode) (fnum : XReal) (block : Int) : XReal :=
  m.div (calcFreq m fnum block) (calcFreq m fnum.rne block)

/-- `get_fnum_and_block` (R133). -/
def keyToFnum (m : NumMode) (table : Vector XReal 12) (key : Int) : Except Status (List Value) :=
  if inRange key 0 127 then
    let block := clampBlock (rawBlock key.toNat)
    let fnum := keyFnum m table key.toNat
    .ok [.real fnum, .int block, .real (keyCorrection m fnum block)]
  else .error .rangeError

/-- The step of 1/512 nearest a legal multiplier, at most 2047 (R135). -/
def multSteps (m : XReal) : Nat := min (m.rneMag 512) 2047

/-- `convert_for_frequency_multiplier` (R135). -/
def convFmult (m : XReal) : Except Status (List Value) :=
  if XReal.le (.ofRat 0) m && XReal.lt m (.ofRat 4) then
    .ok [.int (multSteps m / 512 : Nat), .int (multSteps m % 512 : Nat)]
  else .error .rangeError

/-- `calc_rof` (R136). -/
def calcRof (ksr : Bool) (block basicOctave : Nat) (fnum : XReal) : Nat :=
  if ksr then (block + basicOctave) * 2 + (if XReal.le (.ofRat 512) fnum then 1 else 0)
  else (block + basicOctave) / 2

/-- ATTACK_TIME (R30): the first four entries are `+inf`, each of the others is a real or `+inf` (R137) and otherwise free
(log 12). -/
def attackTime (k : Nat) : XReal :=
  if k < 4 then .posInf
  else match Config.attackTime k with
    | none => .posInf
    | some e => .expr e

/-- ENV_TIME (R30): finite, otherwise free values (log 12). -/
def envelopeTime (k : Nat) : XReal := .expr (Config.envTime k)

/-- A time in seconds, from TIME_UNIT (R30; log 12). -/
def inSeconds (time : XReal) : XReal := time.mul (.expr Config.timeUnit)

/-- A time table read at `min(rate * 4 + rof, 64)` (R137, R138). -/
def timeEntry (rate rof : Int) : Except Status Nat :=
  if inRange rate 0 15 && inRange rof 0 15 then .ok (min (rate.toNat * 4 + rof.toNat) 64) else .error .rangeError

/-- CALC_FNUM (R131). -/
def execCalcFnum (freqHz : XReal) (block : Int) (s : State) : Host.Outcome State Fault Refusal :=
  answer (.ok [.real (calcFnum s.cfg.num (realOperand s freqHz) block)]) s

/-- CALC_FREQ (R132). -/
def execCalcFreq (fnum : XReal) (block : Int) (s : State) : Host.Outcome State Fault Refusal :=
  answer (.ok [.real (calcFreq s.cfg.num (realOperand s fnum) block)]) s

/-- KEY2FNUM (R133). -/
def execKey2fnum (key : Int) (s : State) : Host.Outcome State Fault Refusal :=
  answer (keyToFnum s.cfg.num s.fnumTable key) s

/-- CONV_FMULT (R135). -/
def execConvFmult (m : XReal) (s : State) : Host.Outcome State Fault Refusal :=
  answer (convFmult (realOperand s m)) s

/-- CALC_ROF (R136). -/
def execCalcRof (ksr : Bool) (block basicOctave : Nat) (fnum : XReal) (s : State) : Host.Outcome State Fault Refusal :=
  answer (.ok [.int (calcRof ksr block basicOctave (realOperand s fnum))]) s

/-- ATK_TIME (R137). -/
def execAtkTime (rate rof : Int) (s : State) : Host.Outcome State Fault Refusal :=
  answer ((timeEntry rate rof).map fun k => [.real (attackTime k)]) s

/-- ENV_TIME (R138). -/
def execEnvTime (rate rof : Int) (s : State) : Host.Outcome State Fault Refusal :=
  answer ((timeEntry rate rof).map fun k => [.real (envelopeTime k)]) s

end Sys2Proof.Machine
end

