-- ==== Sys2Proof/Machine/Sections.lean ====
section
/-!
DEFINITION. The Section Manager's operations (spec/45_section.md).
-/
namespace Sys2Proof.Machine

/-- SEC_ENABLE (R301). -/
def execSecEnable (s : State) : Host.Outcome State Fault Refusal := .next (respond .ok [] { s with sectionMode := true })

/-- SEC_DISABLE (R302): it force-releases the lock, and neither flushes nor restores the target. -/
def execSecDisable (s : State) : Host.Outcome State Fault Refusal :=
  .next (respond .ok [] { s with sectionMode := false, owner := none })

/-- SEC_BEGIN (R303): its check, then the guarded acquire with the target switch (R310). -/
def execSecBegin (target : Chip) (s : State) : Host.Outcome State Fault Refusal :=
  start { steps := [.enterCheck, .acquire target] } s

/-- SEC_END (R304): check, flush and delay, then `release` (R310). -/
def execSecEnd (ms : Nat) (s : State) : Host.Outcome State Fault Refusal :=
  start { steps := [.leaveFlush ms, .release] } s

end Sys2Proof.Machine
end

