-- ==== Sys2Proof/Machine/Stream.lean ====
section
/-!
DEFINITION. The five commands of the output stream as the bridge executes them (spec/30_encoding.md R100 to R103,
spec/60_exceptions.md R347; log 25).
-/
namespace Sys2Proof.Machine

/-- GPIO_LOW (R100): sets the low 8-bit bank. -/
def execGpioLow (value direction : Byte) (s : State) : Host.Outcome State Fault Refusal :=
  .next (setBank false ⟨value, direction⟩ s)

/-- GPIO_HIGH (R100): sets the high 8-bit bank. -/
def execGpioHigh (value direction : Byte) (s : State) : Host.Outcome State Fault Refusal :=
  .next (setBank true ⟨value, direction⟩ s)

/-- SPI_WRITE (R101): the address and data bytes go out on the SPI port. -/
def execSpiWrite (addr : Byte) (data : List Byte) (s : State) : Host.Outcome State Fault Refusal :=
  .next (spiTransfer false addr data s)

/-- SPI_READ (R102): the bridge clocks a read and puts the reply, a free value, into the receive queue (R105, R232). -/
def execSpiRead (addr : Byte) (payload : List Byte) (s : State) : Host.Outcome State Fault Refusal :=
  .next (receive s.reply (spiTransfer true addr payload s))

/-- STREAM_FLUSH (R103): "flush/immediate-execute"; every earlier command has been executed, so nothing is left to do
(log 28). -/
def execStreamFlush (s : State) : Host.Outcome State Fault Refusal := .next s

end Sys2Proof.Machine
end

