-- ==== Sys2Proof/Machine/Dispatch.lean ====
section
/-!
DEFINITION. One arm per operation: the meaning it calls.
-/
namespace Sys2Proof.Machine

open Sys2Proof

def exec (i : Instr) (s : State) : Host.Outcome State Fault Refusal :=
  match i with
  | .calcFnum freqHz block => Sys2Proof.Machine.execCalcFnum freqHz block s
  | .calcFreq fnum block => Sys2Proof.Machine.execCalcFreq fnum block s
  | .key2fnum key => Sys2Proof.Machine.execKey2fnum key s
  | .convFmult m => Sys2Proof.Machine.execConvFmult m s
  | .calcRof ksr block basicOctave fnum => Sys2Proof.Machine.execCalcRof ksr block basicOctave fnum s
  | .atkTime rate rof => Sys2Proof.Machine.execAtkTime rate rof s
  | .envTime rate rof => Sys2Proof.Machine.execEnvTime rate rof s
  | .ceqEnc v => Sys2Proof.Machine.execCeqEnc v s
  | .ceqDec w => Sys2Proof.Machine.execCeqDec w s
  | .ceqPack coefficients => Sys2Proof.Machine.execCeqPack coefficients s
  | .fltLowpass cutoff q => Sys2Proof.Machine.execFltLowpass cutoff q s
  | .fltHighpass cutoff q => Sys2Proof.Machine.execFltHighpass cutoff q s
  | .fltBandpass cutoff bandwidth => Sys2Proof.Machine.execFltBandpass cutoff bandwidth s
  | .fltBandstop cutoff bandwidth => Sys2Proof.Machine.execFltBandstop cutoff bandwidth s
  | .fltLowshelf cutoff q gain => Sys2Proof.Machine.execFltLowshelf cutoff q gain s
  | .fltHighshelf cutoff q gain => Sys2Proof.Machine.execFltHighshelf cutoff q gain s
  | .fltPeaking cutoff bandwidth gain => Sys2Proof.Machine.execFltPeaking cutoff bandwidth gain s
  | .fltAllpass cutoff q => Sys2Proof.Machine.execFltAllpass cutoff q s
  | .toneSetBo slot value => Sys2Proof.Machine.execToneSetBo slot value s
  | .toneSetLfo slot value => Sys2Proof.Machine.execToneSetLfo slot value s
  | .toneSetAlg slot value => Sys2Proof.Machine.execToneSetAlg slot value s
  | .opSetSr slot k value => Sys2Proof.Machine.execOpSetSr slot k value s
  | .opSetRr slot k value => Sys2Proof.Machine.execOpSetRr slot k value s
  | .opSetDr slot k value => Sys2Proof.Machine.execOpSetDr slot k value s
  | .opSetAr slot k value => Sys2Proof.Machine.execOpSetAr slot k value s
  | .opSetSl slot k value => Sys2Proof.Machine.execOpSetSl slot k value s
  | .opSetTl slot k value => Sys2Proof.Machine.execOpSetTl slot k value s
  | .opSetKsl slot k value => Sys2Proof.Machine.execOpSetKsl slot k value s
  | .opSetDam slot k value => Sys2Proof.Machine.execOpSetDam slot k value s
  | .opSetDvb slot k value => Sys2Proof.Machine.execOpSetDvb slot k value s
  | .opSetMulti slot k value => Sys2Proof.Machine.execOpSetMulti slot k value s
  | .opSetDt slot k value => Sys2Proof.Machine.execOpSetDt slot k value s
  | .opSetWs slot k value => Sys2Proof.Machine.execOpSetWs slot k value s
  | .opSetFb slot k value => Sys2Proof.Machine.execOpSetFb slot k value s
  | .opSetXof slot k value => Sys2Proof.Machine.execOpSetXof slot k value s
  | .opSetKsr slot k value => Sys2Proof.Machine.execOpSetKsr slot k value s
  | .opSetEam slot k value => Sys2Proof.Machine.execOpSetEam slot k value s
  | .opSetEvb slot k value => Sys2Proof.Machine.execOpSetEvb slot k value s
  | .toneGetBo slot => Sys2Proof.Machine.execToneGetBo slot s
  | .toneGetLfo slot => Sys2Proof.Machine.execToneGetLfo slot s
  | .toneGetAlg slot => Sys2Proof.Machine.execToneGetAlg slot s
  | .opGetSr slot k => Sys2Proof.Machine.execOpGetSr slot k s
  | .opGetRr slot k => Sys2Proof.Machine.execOpGetRr slot k s
  | .opGetDr slot k => Sys2Proof.Machine.execOpGetDr slot k s
  | .opGetAr slot k => Sys2Proof.Machine.execOpGetAr slot k s
  | .opGetSl slot k => Sys2Proof.Machine.execOpGetSl slot k s
  | .opGetTl slot k => Sys2Proof.Machine.execOpGetTl slot k s
  | .opGetKsl slot k => Sys2Proof.Machine.execOpGetKsl slot k s
  | .opGetDam slot k => Sys2Proof.Machine.execOpGetDam slot k s
  | .opGetDvb slot k => Sys2Proof.Machine.execOpGetDvb slot k s
  | .opGetMulti slot k => Sys2Proof.Machine.execOpGetMulti slot k s
  | .opGetDt slot k => Sys2Proof.Machine.execOpGetDt slot k s
  | .opGetWs slot k => Sys2Proof.Machine.execOpGetWs slot k s
  | .opGetFb slot k => Sys2Proof.Machine.execOpGetFb slot k s
  | .opGetXof slot k => Sys2Proof.Machine.execOpGetXof slot k s
  | .opGetKsr slot k => Sys2Proof.Machine.execOpGetKsr slot k s
  | .opGetEam slot k => Sys2Proof.Machine.execOpGetEam slot k s
  | .opGetEvb slot k => Sys2Proof.Machine.execOpGetEvb slot k s
  | .opExport slot k buffer offset => Sys2Proof.Machine.execOpExport slot k buffer offset s
  | .toneExport slot buffer offset => Sys2Proof.Machine.execToneExport slot buffer offset s
  | .collExport buffer offset tone => Sys2Proof.Machine.execCollExport buffer offset tone s
  | .qGpio highBank value direction => Sys2Proof.Machine.execQGpio highBank value direction s
  | .qSpiWrite addr data => Sys2Proof.Machine.execQSpiWrite addr data s
  | .qSpiBurst addr data offset count => Sys2Proof.Machine.execQSpiBurst addr data offset count s
  | .flush => Sys2Proof.Machine.execFlush s
  | .tRead addr => Sys2Proof.Machine.execTRead addr s
  | .hwReset => Sys2Proof.Machine.execHwReset s
  | .dispose => Sys2Proof.Machine.execDispose s
  | .setTarget chip => Sys2Proof.Machine.execSetTarget chip s
  | .write addr data => Sys2Proof.Machine.execWrite addr data s
  | .burstWrite addr data offset count => Sys2Proof.Machine.execBurstWrite addr data offset count s
  | .read addr target => Sys2Proof.Machine.execRead addr target s
  | .writeContents tone => Sys2Proof.Machine.execWriteContents tone s
  | .setEq band coeffs => Sys2Proof.Machine.execSetEq band coeffs s
  | .swReset => Sys2Proof.Machine.execSwReset s
  | .setClke enable => Sys2Proof.Machine.execSetClke enable s
  | .setAlrst reset => Sys2Proof.Machine.execSetAlrst reset s
  | .setApd blocks => Sys2Proof.Machine.execSetApd blocks s
  | .setGain gain => Sys2Proof.Machine.execSetGain gain s
  | .setSeq setting => Sys2Proof.Machine.execSetSeq setting s
  | .setSeqvolSize volume dirSv size => Sys2Proof.Machine.execSetSeqvolSize volume dirSv size s
  | .setVoiceNum voice => Sys2Proof.Machine.execSetVoiceNum voice s
  | .setVoiceVol volume => Sys2Proof.Machine.execSetVoiceVol volume s
  | .setFnumBlock fnum block => Sys2Proof.Machine.execSetFnumBlock fnum block s
  | .setToneCtrl keyOn mute egReset tone => Sys2Proof.Machine.execSetToneCtrl keyOn mute egReset tone s
  | .setChVol volume dirCv => Sys2Proof.Machine.execSetChVol volume dirCv s
  | .setVib depth => Sys2Proof.Machine.execSetVib depth s
  | .setFmult integer fraction => Sys2Proof.Machine.execSetFmult integer fraction s
  | .setMuteItp dirMt => Sys2Proof.Machine.execSetMuteItp dirMt s
  | .setSeqTime unit => Sys2Proof.Machine.execSetSeqTime unit s
  | .setMasterVol volume => Sys2Proof.Machine.execSetMasterVol volume s
  | .setSoftreset value => Sys2Proof.Machine.execSetSoftreset value s
  | .setVolItp dadjt muteItime chvolItime masterItime => Sys2Proof.Machine.execSetVolItp dadjt muteItime chvolItime masterItime s
  | .setLfoRst reset => Sys2Proof.Machine.execSetLfoRst reset s
  | .setDrvSel select => Sys2Proof.Machine.execSetDrvSel select s
  | .setTest value => Sys2Proof.Machine.execSetTest value s
  | .regget sub target => Sys2Proof.Machine.execRegget sub target s
  | .secEnable => Sys2Proof.Machine.execSecEnable s
  | .secDisable => Sys2Proof.Machine.execSecDisable s
  | .secBegin target => Sys2Proof.Machine.execSecBegin target s
  | .secEnd ms => Sys2Proof.Machine.execSecEnd ms s
  | .gpioLow value direction => Sys2Proof.Machine.execGpioLow value direction s
  | .gpioHigh value direction => Sys2Proof.Machine.execGpioHigh value direction s
  | .spiWrite addr data => Sys2Proof.Machine.execSpiWrite addr data s
  | .spiRead addr payload => Sys2Proof.Machine.execSpiRead addr payload s
  | .streamFlush => Sys2Proof.Machine.execStreamFlush s

end Sys2Proof.Machine
end

