-- ==== Sys2Proof/Machine/Step.lean ====
section
/-!
DEFINITION. One turn of one agent (spec/45_section.md R310): a requester's next atomic step, the bridge's next command, or
what the environment appends. With no turn to come nothing moves (log 17).
-/
namespace Sys2Proof.Machine

/-- What a step does after the operation's own effect: the SECTION the requester is inside may end (R306). -/
def afterOperation : Host.Outcome State Fault Refusal → Host.Outcome State Fault Refusal
  | .next s => .next (updateMe closeUnit s)
  | other => other

/-- A requester's turn: the next atomic step of its operation in progress, or the next operation it asks for. A requester
with neither has no step (log 38). -/
def requesterTurn (s : State) : Host.Outcome State Fault Refusal :=
  match me s with
  | none => .next s
  | some r =>
    match r.task with
    | some _ => afterOperation (advance s)
    | none =>
      match fetch r with
      | none => .next s
      | some (c, r') =>
        match decodeCommand c with
        | .ok i => afterOperation (exec i (present r' s))
        | .error _ => .refused (.undefinedHeader c.header)

/-- The bridge's turn: the next command of the delivered stream, if a whole one is there (R44). What was delivered before a
DISPOSE is still executed after it (R350; DESIGN CHOICE, log 40). -/
def bridgeTurn (s : State) : Host.Outcome State Fault Refusal :=
  match decodeStream s.bridge.stream with
  | .ok (i, rest) => exec i (consumeStream rest s)
  | .error (.undefinedStreamByte b) => .refused (.undefinedStreamByte b)
  | .error _ => .next s

/-- One step of the machine. -/
def step (s : State) : Host.Outcome State Fault Refusal :=
  match s.turns with
  | [] => .next s
  | .requester q accept :: rest => requesterTurn { s with turns := rest, cur := q, accept := accept }
  | .bridge reply :: rest => bridgeTurn { s with turns := rest, reply := reply }
  | .environment bytes :: rest => .next (receive bytes { s with turns := rest })

/-- The state whose next step takes the encoded instruction: a command is what requester 0 asks for first, stream bytes are
what the bridge executes first. -/
def State.withEncoded (s : State) : Encoded → State
  | .command c =>
    let first : Requester := s.reqs.headD {}
    { s with
      reqs := { first with inbox := .op c :: first.inbox, unit := none, task := none } :: s.reqs.tail
      turns := .requester 0 true :: s.turns }
  | .stream bytes =>
    { s with
      bridge := { s.bridge with stream := bytes ++ s.bridge.stream }
      turns := .bridge [] :: s.turns }

/-- The state with a row of the opcode table stored where the next step fetches (log 19). -/
def State.withFetchWord (s : State) (nbits w : Nat) : State :=
  match encodedTableWord nbits w with
  | some e => s.withEncoded e
  | none => s

end Sys2Proof.Machine
end

