-- ==== Sys2Proof/Safety.lean ====
section
/-!
DEFINITION. The terms that claims are stated in: the block's own state as one record, what an operation leaves behind when
it ends, uninterrupted runs of a multi-step operation, families of operations by field, the values of the reals, and the
invariants of spec/10_state.md R45.
-/
namespace Sys2Proof

/-! ### The reals -/

/-- A real number lies in an interval. -/
def Ival.Has (i : Ival) (x : ℝ) : Prop := (i.lo : ℝ) ≤ x * unitBound ∧ x * unitBound ≤ i.hi

/-- `w` is the binary64 value nearest `x`: ties to even, gradual underflow, infinity from half a unit below `2^1024` on (R9,
D2). -/
def NearestBinary64 (x : ℝ) (w : XReal) : Prop :=
  (x = 0 → w = .ofRat 0) ∧
  ((2 : ℝ) ^ (1024 : ℤ) - 2 ^ (970 : ℤ) ≤ |x| → w = if x < 0 then .negInf else .posInf) ∧
  (x ≠ 0 → |x| < (2 : ℝ) ^ (1024 : ℤ) - 2 ^ (970 : ℤ) → ∃ e m : ℤ,
    -1022 ≤ e ∧ ((2 : ℝ) ^ e ≤ |x| ∨ e = -1022) ∧ |x| < (2 : ℝ) ^ (e + 1) ∧
    w = .ofRat (m * ratTwoPow (e - 52)) ∧ |m * (2 : ℝ) ^ (e - 52) - x| ≤ (2 : ℝ) ^ (e - 53) ∧
    (|m * (2 : ℝ) ^ (e - 52) - x| = (2 : ℝ) ^ (e - 53) → Even m))

/-- `w` is the binary64 value nearest `x`, or the one next to `x` from below or from above, and `x` itself where that is one; an
infinity from `2^1024` on, and where the value next to `x` would be `2^1024` (U21). -/
def NeighbourBinary64 (x : ℝ) (w : XReal) : Prop :=
  (x = 0 → w = .ofRat 0) ∧
  ((2 : ℝ) ^ (1024 : ℤ) ≤ |x| → w = if x < 0 then .negInf else .posInf) ∧
  (x ≠ 0 → |x| < (2 : ℝ) ^ (1024 : ℤ) → ∃ e m : ℤ,
    -1022 ≤ e ∧ ((2 : ℝ) ^ e ≤ |x| ∨ e = -1022) ∧ |x| < (2 : ℝ) ^ (e + 1) ∧
    |m * (2 : ℝ) ^ (e - 52) - x| < (2 : ℝ) ^ (e - 52) ∧
    (w = .ofRat (m * ratTwoPow (e - 52)) ∨
      (|m * (2 : ℝ) ^ (e - 52)| = (2 : ℝ) ^ (1024 : ℤ) ∧ w = if x < 0 then .negInf else .posInf)))

/-- What the real result `x` of an operation becomes in the chosen domain (R9, D2). -/
def Represents (m : NumMode) (x : ℝ) (w : XReal) : Prop :=
  match m with
  | .exact => w.isFinite = true ∧ w.value = x
  | .binary64 => NearestBinary64 x w

/-- `w` is the product of `a` and `b` in the chosen domain, by the arithmetic of the reals extended with NaN and the
infinities (R12). -/
def IsProduct (m : NumMode) (a b w : XReal) : Prop :=
  (a = .nan ∨ b = .nan → w = .nan) ∧
  (a.isFinite = true → b.isFinite = true → Represents m (a.value * b.value) w) ∧
  (∀ n, a = .inf n → b.isFinite = true →
    (b.value = 0 → w = .nan) ∧ (0 < b.value → w = .inf n) ∧ (b.value < 0 → w = .inf !n)) ∧
  (∀ n, b = .inf n → a.isFinite = true →
    (a.value = 0 → w = .nan) ∧ (0 < a.value → w = .inf n) ∧ (a.value < 0 → w = .inf !n)) ∧
  ∀ n n', a = .inf n → b = .inf n' → w = .inf (n != n')

/-- `w` is the quotient of `a` by the positive rational `q` in the chosen domain (R12). -/
def IsQuotient (m : NumMode) (a : XReal) (q : Rat) (w : XReal) : Prop :=
  (a.isFinite = true → Represents m (a.value / q) w) ∧ (a.isFinite = false → w = a)

/-- The design equations of R166 to R173 over the real numbers, `alpha` being `alphaQ` or `alphaBW`, and `A` the gain
factor. -/
noncomputable def FilterType.equations (f : FilterType) (c alpha A : ℝ) : Vector ℝ 6 :=
  let r := 2 * √A * alpha
  match f with
  | .lowpass => #v[(1 - c) / 2, 1 - c, (1 - c) / 2, 1 + alpha, -2 * c, 1 - alpha]
  | .highpass => #v[(1 + c) / 2, -(1 + c), (1 + c) / 2, 1 + alpha, -2 * c, 1 - alpha]
  | .bandpass => #v[alpha, 0, -alpha, 1 + alpha, -2 * c, 1 - alpha]
  | .bandstop => #v[1, -2 * c, 1, 1 + alpha, -2 * c, 1 - alpha]
  | .lowShelf => #v[A * ((A + 1) - (A - 1) * c + r), 2 * A * ((A - 1) - (A + 1) * c), A * ((A + 1) - (A - 1) * c - r),
      (A + 1) + (A - 1) * c + r, -2 * ((A - 1) + (A + 1) * c), (A + 1) + (A - 1) * c - r]
  | .highShelf => #v[A * ((A + 1) + (A - 1) * c + r), -2 * A * ((A - 1) + (A + 1) * c), A * ((A + 1) + (A - 1) * c - r),
      (A + 1) - (A - 1) * c + r, 2 * ((A - 1) - (A + 1) * c), (A + 1) - (A - 1) * c - r]
  | .peaking => #v[1 + alpha * A, -2 * c, 1 - alpha * A, 1 + alpha / A, -2 * c, 1 - alpha / A]
  | .allpass => #v[1 - alpha, -2 * c, 1 + alpha, 1 + alpha, -2 * c, 1 - alpha]

/-- The validation of R165 (b) over the real numbers: `0 <= cutoff <= 24000` and `q` or `bandwidth` not negative, infinity
being allowed for the latter. -/
def LegalDesign (cutoff shape : XReal) : Prop :=
  (cutoff.isFinite = true ∧ 0 ≤ cutoff.value ∧ cutoff.value ≤ 24000) ∧
    (shape = .posInf ∨ (shape.isFinite = true ∧ 0 ≤ shape.value))

/-- Whether the operand beside the cutoff is a bandwidth, not a `q` (R166 to R173). -/
def FilterType.hasBandwidth : FilterType → Bool
  | .bandpass | .bandstop | .peaking => true
  | _ => false

/-! ### Operations -/

/-- The bytes of a stream command; none for an operation of the command port. -/
def Instr.streamBytes (i : Instr) : List Byte :=
  match encode i with
  | .stream bytes => bytes
  | .command _ => []

/-- Whether an operation is one of the five stream commands (R100 to R103). -/
def Instr.isStream (i : Instr) : Bool :=
  match encode i with
  | .stream _ => true
  | .command _ => false

/-- A byte string made of whole, well-formed stream commands (R45(d)). -/
def WholeCommands (bytes : List Byte) : Prop :=
  ∃ commands : List Instr,
    (∀ i ∈ commands, i.isStream = true ∧ i.wellFormed = true) ∧ bytes = commands.flatMap Instr.streamBytes

/-- TONE_SET by field (R191). -/
def toneSetInstr : ToneField → Int → Int → Instr
  | .bo, t, v => .toneSetBo t v
  | .lfo, t, v => .toneSetLfo t v
  | .alg, t, v => .toneSetAlg t v

/-- TONE_GET by field (R193). -/
def toneGetInstr : ToneField → Int → Instr
  | .bo, t => .toneGetBo t
  | .lfo, t => .toneGetLfo t
  | .alg, t => .toneGetAlg t

/-- OP_SET by field (R192); a flag is set by any number but 0. -/
def opSetInstr : OpField → Int → Int → Int → Instr
  | .sr, t, k, v => .opSetSr t k v
  | .rr, t, k, v => .opSetRr t k v
  | .dr, t, k, v => .opSetDr t k v
  | .ar, t, k, v => .opSetAr t k v
  | .sl, t, k, v => .opSetSl t k v
  | .tl, t, k, v => .opSetTl t k v
  | .ksl, t, k, v => .opSetKsl t k v
  | .dam, t, k, v => .opSetDam t k v
  | .dvb, t, k, v => .opSetDvb t k v
  | .multi, t, k, v => .opSetMulti t k v
  | .dt, t, k, v => .opSetDt t k v
  | .ws, t, k, v => .opSetWs t k v
  | .fb, t, k, v => .opSetFb t k v
  | .xof, t, k, v => .opSetXof t k (v != 0)
  | .ksr, t, k, v => .opSetKsr t k (v != 0)
  | .eam, t, k, v => .opSetEam t k (v != 0)
  | .evb, t, k, v => .opSetEvb t k (v != 0)

/-- OP_GET by field (R194). -/
def opGetInstr : OpField → Int → Int → Instr
  | .sr, t, k => .opGetSr t k
  | .rr, t, k => .opGetRr t k
  | .dr, t, k => .opGetDr t k
  | .ar, t, k => .opGetAr t k
  | .sl, t, k => .opGetSl t k
  | .tl, t, k => .opGetTl t k
  | .ksl, t, k => .opGetKsl t k
  | .dam, t, k => .opGetDam t k
  | .dvb, t, k => .opGetDvb t k
  | .multi, t, k => .opGetMulti t k
  | .dt, t, k => .opGetDt t k
  | .ws, t, k => .opGetWs t k
  | .fb, t, k => .opGetFb t k
  | .xof, t, k => .opGetXof t k
  | .ksr, t, k => .opGetKsr t k
  | .eam, t, k => .opGetEam t k
  | .evb, t, k => .opGetEvb t k

/-- The four flags among the operator fields (R23). -/
def OpField.isFlag : OpField → Bool
  | .xof | .ksr | .eam | .evb => true
  | _ => false

/-- The eight design operations by filter type; a filter without a gain operand ignores it (R166 to R173). -/
def filterInstr : FilterType → XReal → XReal → XReal → Instr
  | .lowpass, c, q, _ => .fltLowpass c q
  | .highpass, c, q, _ => .fltHighpass c q
  | .bandpass, c, q, _ => .fltBandpass c q
  | .bandstop, c, q, _ => .fltBandstop c q
  | .lowShelf, c, q, g => .fltLowshelf c q g
  | .highShelf, c, q, g => .fltHighshelf c q g
  | .peaking, c, q, g => .fltPeaking c q g
  | .allpass, c, q, _ => .fltAllpass c q

/-- The three filters that take a gain (R170 to R172). -/
def FilterType.hasGain : FilterType → Bool
  | .lowShelf | .highShelf | .peaking => true
  | _ => false

/-- The setters that write two registers, with the addresses in the order of the writes (R265, R268, R273, R276). -/
def Instr.registerPair : Instr → Option (Byte × Byte)
  | .setSeqvolSize _ _ _ => some (0x09, 0x0A)
  | .setFnumBlock _ _ => some (0x0D, 0x0E)
  | .setFmult _ _ => some (0x12, 0x13)
  | .setSeqTime _ => some (0x17, 0x18)
  | _ => none

/-- The assignments, which alone write the tone parameter file (R24). -/
def Instr.assignsTone (i : Instr) : Prop :=
  (∃ f t v, i = toneSetInstr f t v) ∨ ∃ f t k v, i = opSetInstr f t k v

end Sys2Proof

namespace Sys2Proof.Machine

/-- The block's own state: the thirteen rows of the table of R20. -/
structure Block where
  x : Vector ToneSlot 16
  fnumTable : Vector XReal 12
  csmap : List (Chip × Byte)
  target : Chip
  targetPins : Byte
  sectionMode : Bool
  entered : Nat
  owner : Option Nat
  savedTarget : Option Chip
  wbuf : List Byte
  disposed : Bool
  rxq : List Byte
  trace : List Event
deriving DecidableEq, Repr

/-- The block's part of a state. -/
def State.block (s : State) : Block where
  x := s.x
  fnumTable := s.fnumTable
  csmap := s.csmap
  target := s.target
  targetPins := s.targetPins
  sectionMode := s.sectionMode
  entered := s.entered
  owner := s.owner
  savedTarget := s.savedTarget
  wbuf := s.wbuf
  disposed := s.disposed
  rxq := s.rxq
  trace := s.trace

/-- The operation that the requester of the turn issued in `s` has ended in `t`: its status and values are returned to that
requester, the block is `b`, the bytes `sent` have reached the bridge, and nothing else has changed. -/
def Ends (s t : State) (e : Status) (values : List Value) (b : Block) (sent : List Byte) : Prop :=
  t.block = b ∧
  t.bridge = { s.bridge with stream := s.bridge.stream ++ sent } ∧
  t.cfg = s.cfg ∧ t.turns = s.turns ∧ t.cur = s.cur ∧ t.accept = s.accept ∧ t.reply = s.reply ∧
  (∀ q, q ≠ s.cur → t.reqs[q]? = s.reqs[q]?) ∧
  ∀ r, s.reqs[s.cur]? = some r → ∃ r', t.reqs[s.cur]? = some r' ∧ r'.inbox = r.inbox ∧
    r'.unit.map SectionUnit.rest = r.unit.map SectionUnit.rest ∧ r'.task = none ∧ r'.response = some ⟨e, values⟩

/-- `exec i` ends in this one step, as `Ends` says. -/
def EndsAtOnce (i : Instr) (s : State) (e : Status) (values : List Value) (b : Block) (sent : List Byte) : Prop :=
  ∃ t, exec i s = .next t ∧ Ends s t e values b sent

/-- The operation in progress advanced by `n` steps, with no step of another agent between them. -/
def advances : Nat → State → Host.Outcome State Fault Refusal
  | 0, s => .next s
  | n + 1, s =>
    match advance s with
    | .next s' => advances n s'
    | other => other

/-- `exec i` and `n` further steps end the operation, as `Ends` says. -/
def EndsAfter (n : Nat) (i : Instr) (s : State) (e : Status) (values : List Value) (b : Block) (sent : List Byte) : Prop :=
  ∃ t t', exec i s = .next t ∧ advances n t = .next t' ∧ Ends s t' e values b sent

/-- The block after a frame is queued and, with section mode disabled, flushed at once (R250). -/
def written (frame : List Byte) (s : State) : Block :=
  if s.sectionMode then { s.block with wbuf := s.wbuf ++ frame }
  else { s.block with wbuf := [], trace := s.trace ++ [.tx (s.wbuf ++ frame ++ [0x87])] }

/-- The bytes that reach the bridge with it. -/
def sentBy (frame : List Byte) (s : State) : List Byte := if s.sectionMode then [] else s.wbuf ++ frame ++ [0x87]

/-- A write can take place: the transport is alive, a target is selected, and where the write is flushed at once the
environment accepts the transfer (R220, R221, R227). -/
def CanWrite (s : State) : Prop :=
  s.disposed = false ∧ s.targetPins ≠ 0 ∧ (s.sectionMode = false → s.accept = true)

/-- What OP_GET returns for a field: "a flag reads as `bool`" (R194). -/
def Operator.reading (o : Operator) (f : OpField) : Value :=
  if f.isFlag then .flag (o.number f != 0) else .int (o.number f)

/-- A setter's write of one register: one drv_write of `byte` to `addr` (R250, R284). -/
def SetsRegister (i : Instr) (addr byte : Byte) (s : State) : Prop :=
  EndsAtOnce i s .ok [] (written (writeFrame addr [byte] s) s) (sentBy (writeFrame addr [byte] s) s)

/-- A setter's writes of two registers: two drv_writes, the first address first, as two steps (R272, R310). -/
def SetsRegisterPair (i : Instr) (addr byte addr' byte' : Byte) (s : State) : Prop :=
  let first := writeFrame addr [byte] s
  let second := writeFrame addr' [byte'] s
  EndsAfter 1 i s .ok []
    (if s.sectionMode then { s.block with wbuf := s.wbuf ++ first ++ second }
     else { s.block with
       wbuf := [], trace := s.trace ++ [.tx (s.wbuf ++ first ++ [0x87]), .tx (second ++ [0x87])] })
    (if s.sectionMode then [] else s.wbuf ++ first ++ [0x87] ++ (second ++ [0x87]))

/-- `buffer'` is `buffer` with `run` written from `offset` on, and nothing else changed (R198). -/
def Overwritten (buffer buffer' : List Byte) (offset : Nat) (run : List Byte) : Prop :=
  buffer'.length = buffer.length ∧ (∀ j < run.length, buffer'[offset + j]? = run[j]?) ∧
    ∀ j, j < offset ∨ offset + run.length ≤ j → buffer'[j]? = buffer[j]?

/-- The bytes an event sends to the bridge (R15, R44). -/
def Event.payload : Event → List Byte
  | .tx bytes => bytes
  | _ => []

/-- The frames of a list of single-byte writes (R101, R104). -/
def frames (s : State) (writes : List (Byte × Byte)) : List Byte := writes.flatMap fun w => writeFrame w.1 [w.2] s

/-- The bulk writes of a section that makes the given register writes and ends with a flush, where `pending` was queued
before: one under section mode, one for each write and one more with it disabled (R257). -/
def sectionEvents (s : State) (pending : List Byte) : List (Byte × Byte) → List Event
  | [] => [.tx (pending ++ [0x87])]
  | w :: ws =>
    if s.sectionMode then [.tx (pending ++ frames s (w :: ws) ++ [0x87])]
    else .tx (pending ++ writeFrame w.1 [w.2] s ++ [0x87]) :: sectionEvents s [] ws

/-- The event of a delay; none for 0 ms (R15). -/
def delayEvents (ms : Nat) : List Event := if ms = 0 then [] else [.delay ms]

/-- The events of SW_RESET's sections, each with its delay (R257). -/
def resetEvents (s : State) : List Byte → List (List (Byte × Byte) × Nat) → List Event
  | _, [] => []
  | pending, (writes, ms) :: more =>
    sectionEvents s pending writes ++ delayEvents ms ++ resetEvents s [] more

/-- Every tone field is in its legal range (R22, R23, R24). -/
def TonesInRange (x : Vector ToneSlot 16) : Prop :=
  ∀ t : Fin 16, (∀ f : ToneField, (x[t].number f : Int) ≤ ToneField.top f) ∧
    ∀ (k : Fin 4) (f : OpField), ((x[t].op[k]).number f : Int) ≤ OpField.top f

/-- The invariants of R45, with the tables and the requesters that no step changes. -/
structure Inv (s : State) : Prop where
  /-- R45(a). -/
  tones : TonesInRange s.x
  /-- R29: the table is read-only after reset. -/
  table : s.fnumTable = buildFnumTable s.cfg.num
  /-- R31: the map is read-only after reset. -/
  map : s.csmap = buildCsmap s.cfg.board.csPins
  /-- R45(b). -/
  target : mapLookup s.csmap s.target = some s.targetPins
  /-- R305: the saved target can be restored. -/
  saved : ∀ chip, s.savedTarget = some chip → (mapLookup s.csmap chip).isSome = true
  /-- R45(c). -/
  lock : s.sectionMode = false → s.owner = none
  /-- R348: there are `NREQ` requesters. -/
  requesters : s.reqs.length = s.cfg.nreq
  /-- R35: the owner is one of them. -/
  holder : ∀ q, s.owner = some q → q < s.cfg.nreq
  /-- R45(d). -/
  buffer : WholeCommands s.wbuf
  /-- R44, R71: so is what has been delivered and not yet executed. -/
  stream : WholeCommands s.bridge.stream

end Sys2Proof.Machine
end

