-- ==== Sys2Proof/Certificates/Slice0/Obligations.lean ====
section
/-!
DEFINITION. The statements for the provers. Their terms (`Ends`, `EndsAtOnce`, `EndsAfter`, `Block`, `CanWrite`, `written`,
`Inv` and the families of operations by field) stand in Sys2Proof/Safety.lean. A statement that rests on a choice of the
model names its log entry.
-/

open Sys2Proof Sys2Proof.Machine

/-! ### Encodings -/

/-- Decoding what is encoded gives the operation back: of a command the whole, of a stream its first command, whatever
follows it (R91 to R95, R100 to R103, R106; the lanes of the operand ports are log 1). The spec marks its decisions D1, D4,
D6 here. -/
def Obligations.EncodeThenDecode : Prop :=
  ∀ i : Instr, i.wellFormed = true →
    match encode i with
    | .command c => decodeCommand c = .ok i
    | .stream bytes => ∀ rest, decodeStream (bytes ++ rest) = .ok (i, rest)

/-- A few words of R93 to R95 and R100 to R103, written out (the lanes of the operand ports are log 1). The spec marks its
decisions D1, D4, D6 here. -/
def Obligations.KnownWordsDecode : Prop :=
  decodeCommand ⟨0x0300, { z0 := 69 }⟩ = .ok (.key2fnum 69) ∧
  decodeCommand ⟨0x2100, { i0 := 0x900000 }⟩ = .ok (.ceqDec 0x900000) ∧
  decodeCommand ⟨0x4103, { z0 := 0, z1 := 0, z2 := 15 }⟩ = .ok (.opSetAr 0 0 15) ∧
  decodeCommand ⟨0x5700, { chip := 3 }⟩ = .ok (.setTarget 3) ∧
  decodeCommand ⟨0x6819, { i0 := 60 }⟩ = .ok (.setMasterVol 60) ∧
  decodeCommand ⟨0x6904, { chip := 1 }⟩ = .ok (.regget 0x04 1) ∧
  decodeCommand ⟨0x7300, { n0 := 1 }⟩ = .ok (.secEnd 1) ∧
  decodeStream [0x80, 0x18, 0x1B, 0x87] = .ok (.gpioLow 0x18 0x1B, [0x87]) ∧
  decodeStream [0x11, 0x01, 0x00, 0x19, 0xF0, 0x80] = .ok (.spiWrite 0x19 [0xF0], [0x80]) ∧
  decodeStream [0x31, 0x01, 0x00, 0x84, 0x00] = .ok (.spiRead 0x84 [0x00], [])

/-- The headers that select an operation are those of R93 with R94 and R95, REGGET taking every `sub`; a turn that presents
another header is refused, and the refusal carries the status R120 gives (log 2). The codes of the statuses are those of
R320. The spec marks its decisions D1, D3 here. -/
def Obligations.AcceptedHeaders : Prop :=
  (∀ c : Command, (∃ i, decodeCommand c = .ok i) ↔
    c.header.extractLsb' 8 8 = 0x69#8 ∨ c.header ∈ ([
      0x0100, 0x0200, 0x0300, 0x0400, 0x0500, 0x0600, 0x0700,
      0x2000, 0x2100, 0x2200, 0x2800, 0x2900, 0x2A00, 0x2B00, 0x2C00, 0x2D00, 0x2E00, 0x2F00,
      0x4000, 0x4001, 0x4002,
      0x4100, 0x4101, 0x4102, 0x4103, 0x4104, 0x4105, 0x4106, 0x4107, 0x4108, 0x4109, 0x410A, 0x410B, 0x410C, 0x410D,
      0x410E, 0x410F, 0x4110,
      0x4200, 0x4201, 0x4202,
      0x4300, 0x4301, 0x4302, 0x4303, 0x4304, 0x4305, 0x4306, 0x4307, 0x4308, 0x4309, 0x430A, 0x430B, 0x430C, 0x430D,
      0x430E, 0x430F, 0x4310,
      0x4400, 0x4500, 0x4600,
      0x5000, 0x5100, 0x5200, 0x5300, 0x5400, 0x5500, 0x5600, 0x5700,
      0x6000, 0x6100, 0x6200, 0x6300, 0x6400, 0x6500,
      0x6800, 0x6801, 0x6802, 0x6803, 0x6808, 0x6809, 0x680B, 0x680C, 0x680D, 0x680F, 0x6810, 0x6811, 0x6812, 0x6814,
      0x6817, 0x6819, 0x681A, 0x681B, 0x681C, 0x681D, 0x6850,
      0x7000, 0x7100, 0x7200, 0x7300] : List Header)) ∧
  (∀ (s : State) (q : Nat) (accept : Bool) (rest : List Turn) (r r' : Requester) (c : Command),
    s.turns = .requester q accept :: rest → s.reqs[q]? = some r → r.task = none → fetch r = some (c, r') →
    (∀ i, decodeCommand c ≠ .ok i) →
    step s = .refused (.undefinedHeader c.header) ∧
      refusalStatus (.undefinedHeader c.header) = some .invalidOperation) ∧
  statusCode .ok = 0x00 ∧ statusCode .rangeError = 0x01 ∧ statusCode .invalidOperation = 0x02 ∧
  statusCode .communicationError = 0x03

/-- The bytes of the five stream commands (R100, R101, R103) and the length field (R106). The spec marks its decisions D4,
D6, D33 here. -/
def Obligations.StreamCommandBytes : Prop :=
  (∀ value direction, encode (.gpioLow value direction) = .stream [0x80, value, direction]) ∧
  (∀ value direction, encode (.gpioHigh value direction) = .stream [0x82, value, direction]) ∧
  (∀ addr data, (Instr.spiWrite addr data).wellFormed = true → ∃ lo hi : Byte,
    encode (.spiWrite addr data) = .stream ([0x11, lo, hi, addr] ++ data) ∧
      lo.toNat = data.length % 256 ∧ hi.toNat = data.length / 256 ∧ lo.toNat + 256 * hi.toNat = data.length) ∧
  (∀ addr payload, (Instr.spiRead addr payload).wellFormed = true →
    encode (.spiRead addr payload) = .stream [0x31, 0x01, 0x00, addr, 0x00] ∧ addr ||| 0x80 = addr) ∧
  encode .streamFlush = .stream [0x87]

/-- The frames an SPI operation queues: chip-select enable, the SPI command, chip-select disable, with the bytes the board
configuration gives (R104, R224), for every target and every board. The spec marks its decisions D4, D5, D6, D33 here. -/
def Obligations.FrameBytes : Prop :=
  ∀ (s : State) (addr : Byte) (data : List Byte), data.length ≤ 65535 →
    let b := s.cfg.board
    let bank : Byte := if b.csBankHigh then 0x82 else 0x80
    let selected : Byte := if b.csActiveLow then b.csIdle &&& ~~~s.targetPins else b.csIdle ||| s.targetPins
    (∃ lo hi : Byte, lo.toNat + 256 * hi.toNat = data.length ∧
      writeFrame addr data s =
        [bank, selected, b.csDir] ++ [0x11, lo, hi, addr] ++ data ++ [bank, b.csIdle, b.csDir]) ∧
    (writeFrame addr data s).length = 10 + data.length ∧
    readFrame addr s =
      [bank, selected, b.csDir] ++ [0x31, 0x01, 0x00, addr ||| 0x80, 0x00] ++ [bank, b.csIdle, b.csDir] ∧
    (readFrame addr s).length = 11 ∧ readFrame (addr ||| 0x80) s = readFrame addr s

/-! ### The step -/

/-- A step runs the decoded operation. A requester's turn presents the first operation of its inbox and is `exec` of that
operation, after which a SECTION the requester is inside may close; the bridge's turn takes the first command of the
delivered stream and is `exec` of it, after a DISPOSE too, which is the model's choice (log 17 to 19, 25, 31, 40). The spec
marks its decisions D41, D52 here. -/
def Obligations.StepRunsDecoded : Prop :=
  (∀ (s : State) (q : Nat) (accept : Bool) (rest : List Turn) (r r' : Requester) (c : Command) (i : Instr),
    s.turns = .requester q accept :: rest → s.reqs[q]? = some r → r.task = none → fetch r = some (c, r') →
    decodeCommand c = .ok i →
    step s = afterOperation (exec i (present r' { s with turns := rest, cur := q, accept := accept }))) ∧
  (∀ (r : Requester) (c : Command) (more : List Request), r.unit = none → r.inbox = .op c :: more →
    fetch r = some (c, { r with inbox := more, response := none })) ∧
  (∀ s : State, afterOperation (.next s) = .next (updateMe closeUnit s)) ∧
  (∀ r : Requester, r.unit = none → closeUnit r = r) ∧
  (∀ (s : State) (reply : List Byte) (rest : List Turn) (i : Instr) (left : List Byte),
    s.turns = .bridge reply :: rest → decodeStream s.bridge.stream = .ok (i, left) →
    step s = exec i (consumeStream left { s with turns := rest, reply := reply }))

/-- A requester with an operation in progress takes that operation's next atomic step; the environment appends to the receive
queue; with no turn to come, nothing moves (log 17, 20, 38). The spec marks its decision D52 here. -/
def Obligations.StepContinues : Prop :=
  (∀ (s : State) (q : Nat) (accept : Bool) (rest : List Turn) (r : Requester) (t : Task),
    s.turns = .requester q accept :: rest → s.reqs[q]? = some r → r.task = some t →
    step s = afterOperation (advance { s with turns := rest, cur := q, accept := accept })) ∧
  (∀ (s : State) (bytes : List Byte) (rest : List Turn), s.turns = .environment bytes :: rest →
    step s = .next { s with turns := rest, rxq := s.rxq ++ bytes }) ∧
  (∀ s : State, s.turns = [] → step s = .next s)

/-! ### Reset -/

/-- The reset values of R46, on every board and every choice of the parameters. The receive queue and the chips' registers,
which R46 leaves unspecified, are not stated. The spec marks its decisions D10, D39 here. -/
def Obligations.ResetValues : Prop :=
  ∀ c : Config, let s := State.resetWith c
    (∀ t : Fin 16, (∀ f, s.x[t].number f = 0) ∧ ∀ (k : Fin 4) (f : OpField), (s.x[t].op[k]).number f = 0) ∧
    s.fnumTable = buildFnumTable c.num ∧ s.csmap = buildCsmap c.board.csPins ∧
    s.sectionMode = false ∧ s.target = 0 ∧ s.targetPins = 0 ∧ s.entered = 0 ∧ s.owner = none ∧ s.savedTarget = none ∧
    s.wbuf = [] ∧ s.disposed = false ∧ s.trace = []

/-- Every state after reset meets the invariants, and `State.reset` is one of them. The spec marks its decisions D10, D30
here. -/
def Obligations.ResetMeetsInv : Prop := (∀ c : Config, Inv (State.resetWith c)) ∧ Inv State.reset

/-- FNUM_TABLE: `1024 * 440 * 2^((i-21)/12) / 375` for `i` in 0 to 11, in the exact domain this number, in binary64 the value
nearest it (R29; the domains are log 3). The spec marks its decision D2 here. -/
def Obligations.FnumTableValues : Prop :=
  ∀ (c : Config) (i : Fin 12),
    Represents c.num (1024 * 440 * (2 : ℝ) ^ (((i.val : ℝ) - 21) / 12) / 375) ((State.resetWith c).fnumTable[i])

/-- The chip map in every legal configuration: `None` to 0, each chip and each pair of chips to the union of their pins,
nothing else (R230, R234). The spec marks its decision D9 here. -/
def Obligations.ChipMap : Prop :=
  ∀ pins : Byte, popcount pins ≤ 5 →
    mapLookup (buildCsmap pins) 0 = some 0 ∧
    (∀ i j p p', (pinsOf pins)[i]? = some p → (pinsOf pins)[j]? = some p' →
      mapLookup (buildCsmap pins) (BitVec.ofNat 5 (2 ^ i) ||| BitVec.ofNat 5 (2 ^ j)) =
        some (BitVec.ofNat 8 (2 ^ p) ||| BitVec.ofNat 8 (2 ^ p'))) ∧
    (∀ chip v, mapLookup (buildCsmap pins) chip = some v → chip = 0 ∨ ∃ i j, i < (pinsOf pins).length ∧
      j < (pinsOf pins).length ∧ chip = BitVec.ofNat 5 (2 ^ i) ||| BitVec.ofNat 5 (2 ^ j)) ∧
    (buildCsmap pins).length = 1 + (pinsOf pins).length + (pinsOf pins).length * ((pinsOf pins).length - 1) / 2

/-! ### The whole machine -/

/-- Every step of every agent keeps the invariants of R45, which the spec marks as its inference. The spec marks its decision
D30 here. -/
def Obligations.StepKeepsInv : Prop := ∀ s s' : State, Inv s → step s = .next s' → Inv s'

/-- No step from a state that meets the invariants is a fault: the saved target can always be restored (R32, R305). -/
def Obligations.StepNeverFaults : Prop := ∀ (s : State) (f : Fault), Inv s → step s ≠ .fault f

/-- What no step undoes: the trace is append-only (R40), `disposed` is never cleared (R38), `entered` never falls (R34), the
tables and the parameters stay (R29, R31; log 6), and so does the number of requesters (R348). The spec marks its decisions
D15, D39 here. -/
def Obligations.HistoryOnlyGrows : Prop :=
  ∀ s s' : State, step s = .next s' →
    (∃ events, s'.trace = s.trace ++ events) ∧ (s.disposed = true → s'.disposed = true) ∧ s.entered ≤ s'.entered ∧
    s'.fnumTable = s.fnumTable ∧ s'.csmap = s.csmap ∧ s'.cfg = s.cfg ∧ s'.reqs.length = s.reqs.length

/-- A turn of a requester leaves every other requester as it was: a status goes to the requester that issued the operation
and to nobody else (R331). A turn of the bridge or of the environment leaves all of them. The spec marks its decisions D35,
D52 here. -/
def Obligations.StatusGoesToTheIssuer : Prop :=
  (∀ (s s' : State) (q : Nat) (accept : Bool) (rest : List Turn), s.turns = .requester q accept :: rest →
    step s = .next s' → ∀ p, p ≠ q → s'.reqs[p]? = s.reqs[p]?) ∧
  (∀ (s s' : State) (reply : List Byte) (rest : List Turn), s.turns = .bridge reply :: rest →
    step s = .next s' → s'.reqs = s.reqs ∧ s'.block = { s.block with rxq := s'.rxq }) ∧
  (∀ (s s' : State) (bytes : List Byte) (rest : List Turn), s.turns = .environment bytes :: rest →
    step s = .next s' → s'.reqs = s.reqs ∧ s'.block = { s.block with rxq := s.rxq ++ bytes })

/-- The bytes that reach the bridge in a requester's turn are the payloads of the events it records, in trace order (R71,
R44). That a DISPOSE, too, leaves what was delivered before is the model's choice (log 40). The spec marks its decision D39
here. -/
def Obligations.BridgeStreamFollowsTrace : Prop :=
  ∀ (s s' : State) (q : Nat) (accept : Bool) (rest : List Turn), s.turns = .requester q accept :: rest →
    step s = .next s' → ∃ events, s'.trace = s.trace ++ events ∧
      s'.bridge = { s.bridge with stream := s.bridge.stream ++ events.flatMap Event.payload }

/-- Only TONE_SET and OP_SET write the tone parameter file (R24), only SEC_ENABLE and SEC_DISABLE change section mode (R33),
and only DISPOSE sets `disposed` (R38), whether as an operation or as a later step of one. -/
def Obligations.OnlyTheirWritersWrite : Prop :=
  (∀ (i : Instr) (s t : State), exec i s = .next t →
    (¬ i.assignsTone → t.x = s.x) ∧ (i ≠ .secEnable → i ≠ .secDisable → t.sectionMode = s.sectionMode) ∧
    (i ≠ .dispose → t.disposed = s.disposed)) ∧
  (∀ s t : State, advance s = .next t → t.x = s.x ∧ t.sectionMode = s.sectionMode ∧ t.disposed = s.disposed)

/-- A FREQ, CEQ or TONE operation (`op` below 50) depends on nothing but its operands, the parameters, the tables and the
tone file, and touches nothing but the tone file: from two states that agree on those it ends the same way, whatever the
transport, the section lock and the trace hold (R130, R160, R190). -/
def Obligations.ComputationsIgnoreTransport : Prop :=
  ∀ (i : Instr) (c : Command) (s s' : State), encode i = .command c → c.header.toNat < 0x5000 →
    s.cfg = s'.cfg → s.x = s'.x → s.fnumTable = s'.fnumTable →
    ∃ e values x', EndsAtOnce i s e values { s.block with x := x' } [] ∧
      EndsAtOnce i s' e values { s'.block with x := x' } []

/-! ### FREQ -/

/-- In the binary64 domain every finite result becomes the binary64 value nearest it, at most half a unit in the last place
away, a tie going to the even one, with gradual underflow and overflow to infinity; other results stay, and so does every
result in the exact domain (R9, R12; log 3). The spec marks its decision D2 here. -/
def Obligations.BinaryRounding : Prop :=
  (∀ v : XReal, v.isFinite = true → NearestBinary64 v.value (NumMode.binary64.rnd v)) ∧
  (∀ v : XReal, v.isFinite = false → NumMode.binary64.rnd v = v) ∧ ∀ v : XReal, NumMode.exact.rnd v = v

/-- What a rule makes of a finite real is exact on its value: every floor, every comparison, and whether it is zero, however the
value came about; the enclosures that serve to evaluate them hold it (R12; the form of the reals is log 3). In binary64 an
elementary function is the value nearest its exact one or next to it, so that `10^x` underflows and overflows as binary64 does
(R165, U21; log 11), and a square root is rounded to nearest. The spec marks its decisions D2, D24 here. -/
def Obligations.EnclosuresHold : Prop :=
  (∀ (e : RealExpr) (i : Ival), e.enclose = some i → i.Has e.value) ∧
  (∀ (e : RealExpr) (c : Rat), e.floorMul c = ⌊e.value * c⌋) ∧
  (∀ x y : XReal, x.isFinite = true → y.isFinite = true →
    (XReal.lt x y = true ↔ x.value < y.value) ∧ (XReal.le x y = true ↔ x.value ≤ y.value) ∧
    (x.isZero = true ↔ x.value = 0) ∧ (x.isNeg = true ↔ x.value < 0)) ∧
  (∀ (f : Elementary) (q : Rat), f ≠ .sqrt → NeighbourBinary64 (f.value q) (NumMode.binary64.apply f (.ofRat q))) ∧
  ∀ q : Rat, 0 ≤ q → NearestBinary64 √q (NumMode.binary64.apply .sqrt (.ofRat q))

/-- CALC_FNUM and CALC_FREQ end OK on every operand, with the formulas of R131 and R132 computed from left to right, NaN and
the infinities by real arithmetic, each product and quotient exact or rounded as the domain says; in the exact domain they are
inverse to each other (R131, R132; the domains are log 3, an operand of binary64 is log 35). The spec marks its decisions D2,
D27 here. -/
def Obligations.FrequencyFormulas : Prop :=
  ∀ (s : State) (v : XReal) (block : Int),
    let m := s.cfg.num
    let x := realOperand s v
    (∃ power product w, EndsAtOnce (.calcFnum v block) s .ok [.real w] s.block [] ∧
      Represents m ((2 : ℝ) ^ (13 - block)) power ∧ IsProduct m power x product ∧ IsQuotient m product 375 w ∧
      (v = .nan → w = .nan) ∧
      (m = .exact → v.isFinite = true → w.isFinite = true ∧ w.value = (2 : ℝ) ^ (13 - block) * v.value / 375 ∧
        ∃ u, EndsAtOnce (.calcFreq w block) s .ok [.real u] s.block [] ∧ u.value = v.value ∧
          ((∃ r k, v = .fin r k) → v.canonical = true → u = v))) ∧
    (∃ power product w, EndsAtOnce (.calcFreq v block) s .ok [.real w] s.block [] ∧
      Represents m ((2 : ℝ) ^ (block - 13)) power ∧ IsProduct m (.ofRat 375) power product ∧ IsProduct m product x w ∧
      (v = .nan → w = .nan) ∧
      (m = .exact → v.isFinite = true → w.isFinite = true ∧ w.value = 375 * (2 : ℝ) ^ (block - 13) * v.value))

/-- KEY2FNUM on a legal key ends OK with the block of R133; `fnum` is the table entry times the power of two that compensates
the clamp, at most 1023, and `correction` is the frequency of `fnum` over that of `fnum` rounded to the nearest integer, each
operation exact or rounded as the domain says. Any other key is a RangeError (R133; the domains are log 3, 36). The spec marks
its decisions D2, D26 here. -/
def Obligations.KeyToFnum : Prop :=
  ∀ (s : State) (key : Int), s.fnumTable = buildFnumTable s.cfg.num →
    (0 ≤ key → key ≤ 127 → let m := s.cfg.num
      let raw := key / 12 - 2
      let block := min (max raw 0) 6
      ∃ fnum correction, EndsAtOnce (.key2fnum key) s .ok [.real fnum, .int block, .real correction] s.block [] ∧
        fnum.isFinite = true ∧ correction.isFinite = true ∧
        (∃ entry scaled, Represents m (1024 * 440 * (2 : ℝ) ^ (((key % 12 : Int) - 21 : ℝ) / 12) / 375) entry ∧
          Represents m (entry.value * (2 : ℝ) ^ (raw - block)) scaled ∧ fnum.value = min 1023 scaled.value) ∧
        ∃ n : Nat, 89 ≤ n ∧ n ≤ 1023 ∧ |fnum.value - n| < 1 / 2 ∧
          (∃ factor ideal achieved, Represents m (375 * (2 : ℝ) ^ (block - 13)) factor ∧
            Represents m (factor.value * fnum.value) ideal ∧ Represents m (factor.value * n) achieved ∧
            Represents m (ideal.value / achieved.value) correction) ∧
          (m = .exact → correction.value = fnum.value / n)) ∧
    (key < 0 ∨ 127 < key → EndsAtOnce (.key2fnum key) s .rangeError [] s.block [])

/-- The produced pitch is one octave below the key's equal-tempered pitch for every key whose `fnum` is not clamped, those
whose block is clamped among them (R134), in the exact domain (log 3). The spec marks its decision D2 here. -/
def Obligations.PitchIsOneOctaveLow : Prop :=
  ∀ (s : State) (key : Int), s.fnumTable = buildFnumTable s.cfg.num → s.cfg.num = .exact → 0 ≤ key → key ≤ 114 →
    let block := min (max (key / 12 - 2) 0) 6
    ∃ fnum correction pitch,
      EndsAtOnce (.key2fnum key) s .ok [.real fnum, .int block, .real correction] s.block [] ∧
      EndsAtOnce (.calcFreq fnum block) s .ok [.real pitch] s.block [] ∧
      pitch.value = 440 * (2 : ℝ) ^ (((key : ℝ) - 69) / 12) / 2

/-- CONV_FMULT: for `0 <= m < 4` the step of 1/512 nearest `m`, a tie to the even step, saturated at 2047, split into integer
and fraction; any other operand, NaN and the infinities among them, is a RangeError (R135; the comparisons and the rounding
are exact on the real value, R12). The spec marks its decision D19 here. -/
def Obligations.FrequencyMultiplier : Prop :=
  ∀ (s : State) (m : XReal), let x := (realOperand s m).value
    ((realOperand s m).isFinite = true →
      (0 ≤ x → x < 4 → ∃ q : Nat, q ≤ 2047 ∧
        EndsAtOnce (.convFmult m) s .ok [.int ((q / 512 : Nat) : Int), .int ((q % 512 : Nat) : Int)] s.block [] ∧
        (|512 * x - q| < 1 / 2 ∨ (|512 * x - q| = 1 / 2 ∧ q % 2 = 0) ∨ (q = 2047 ∧ 2047.5 ≤ 512 * x))) ∧
      (x < 0 ∨ 4 ≤ x → EndsAtOnce (.convFmult m) s .rangeError [] s.block [])) ∧
    ((realOperand s m).isFinite = false → EndsAtOnce (.convFmult m) s .rangeError [] s.block [])

/-- CALC_ROF: the formula of R136 on every operand; the comparison is on the real `fnum`, and NaN gives 0. The spec
marks its decision D27 here. -/
def Obligations.RateOffset : Prop :=
  ∀ (s : State) (ksr : Bool) (block octave : Nat) (fnum : XReal),
    ∃ high : Nat,
      EndsAtOnce (.calcRof ksr block octave fnum) s .ok
        [.int ((if ksr then (block + octave) * 2 + high else (block + octave) / 2 : Nat) : Int)] s.block [] ∧
      ((realOperand s fnum).isFinite = true → high = if 512 ≤ (realOperand s fnum).value then 1 else 0) ∧
      (realOperand s fnum = .posInf → high = 1) ∧ (realOperand s fnum = .negInf → high = 0) ∧
      (realOperand s fnum = .nan → high = 0)

/-- ATK_TIME and ENV_TIME read one entry of one table each, at `min(rate*4 + rof, 64)`; the first four attack entries are
infinite, every other one is a real or `+inf`, and every envelope entry is a real; an operand outside 0 to 15 is a RangeError
(R137, R138, R30; the entries are log 12). -/
def Obligations.EnvelopeTimes : Prop :=
  ∃ (attack : Nat → XReal) (envelope : Nat → XReal),
    (∀ k < 4, attack k = .posInf) ∧ (∀ k, (attack k).isFinite = true ∨ attack k = .posInf) ∧
    (∀ k, (envelope k).isFinite = true) ∧
    ∀ (s : State) (rate rof : Int),
      (∃ p, encode (.atkTime rate rof) = .command ⟨0x0600, p⟩) ∧ (∃ p, encode (.envTime rate rof) = .command ⟨0x0700, p⟩) ∧
      (0 ≤ rate ∧ rate ≤ 15 ∧ 0 ≤ rof ∧ rof ≤ 15 →
        EndsAtOnce (.atkTime rate rof) s .ok [.real (attack (min (rate * 4 + rof) 64).toNat)] s.block [] ∧
        EndsAtOnce (.envTime rate rof) s .ok [.real (envelope (min (rate * 4 + rof) 64).toNat)] s.block []) ∧
      (¬ (0 ≤ rate ∧ rate ≤ 15 ∧ 0 ≤ rof ∧ rof ≤ 15) →
        EndsAtOnce (.atkTime rate rof) s .rangeError [] s.block [] ∧
        EndsAtOnce (.envTime rate rof) s .rangeError [] s.block [])

/-! ### CEQ -/

/-- CEQ_ENC: sign and magnitude of a value inside (-8, 8), the magnitude truncated, no negative zero; any other value is a
RangeError (R161, R113, R12). CEQ_DEC: `mag / 2^20` with the sign of bit 23, bits
31:24 ignored, one zero (R162). The spec marks its decisions D20, D21 here. -/
def Obligations.CoefficientCodec : Prop :=
  (∀ (s : State) (v : XReal), let x := (realOperand s v).value
    ((realOperand s v).isFinite = true →
      (-8 < x → x < 8 → ∃ w : I32, EndsAtOnce (.ceqEnc v) s .ok [.word w] s.block [] ∧ w.toNat < 2 ^ 24 ∧
        w.toNat % 2 ^ 23 = ⌊|x| * 2 ^ 20⌋₊ ∧ (w.getLsbD 23 = true ↔ x < 0 ∧ 0 < ⌊|x| * 2 ^ 20⌋₊)) ∧
      (x ≤ -8 ∨ 8 ≤ x → EndsAtOnce (.ceqEnc v) s .rangeError [] s.block [])) ∧
    ((realOperand s v).isFinite = false → EndsAtOnce (.ceqEnc v) s .rangeError [] s.block [])) ∧
  (∀ (s : State) (w : I32), ∃ r : Rat, EndsAtOnce (.ceqDec w) s .ok [.real (.ofRat r)] s.block [] ∧
    r = (if w.getLsbD 23 then -1 else 1) * ((w.toNat % 2 ^ 23 : Nat) : Rat) / 2 ^ 20)

/-- The round trip of R164 between the encoder and the decoder, of every finite value. The spec marks its decisions D20, D21 here. -/
def Obligations.CoefficientRoundTrip : Prop :=
  (∀ w : I32, w.toNat < 2 ^ 24 → w ≠ 0x800000 → encodeCoef (decodeCoef w) = .ok w) ∧
  encodeCoef (decodeCoef 0x800000) = .ok 0x000000 ∧
  (∀ v : XReal, v.isFinite = true → let x := v.value
    (-8 < x) → x < 8 → ∃ w, encodeCoef v = .ok w ∧
      (decodeCoef w).value = (if x < 0 then -1 else 1) * (⌊|x| * 2 ^ 20⌋₊ : ℝ) / 2 ^ 20 ∧
      0 ≤ |x| - |(decodeCoef w).value| ∧ |x| - |(decodeCoef w).value| < 1 / 2 ^ 20)

/-- CEQ_PACK: five legal coefficients become 15 bytes, each word high byte first, in operand order; another count, or a
coefficient CEQ_ENC refuses, is a RangeError (R163, R114). The spec marks its decisions D20 and D37 here. -/
def Obligations.CoefficientPack : Prop :=
  ∀ (s : State) (coefs : List XReal),
    (∀ words : List I32, coefs.length = 5 → coefs.map (fun v => encodeCoef (realOperand s v)) = words.map .ok →
      EndsAtOnce (.ceqPack coefs) s .ok
        [.bytes (words.flatMap fun w => [w.extractLsb' 16 8, w.extractLsb' 8 8, w.extractLsb' 0 8])] s.block []) ∧
    (coefs.length ≠ 5 ∨ (∃ v ∈ coefs, encodeCoef (realOperand s v) = .error .rangeError) →
      EndsAtOnce (.ceqPack coefs) s .rangeError [] s.block [])

/-- The eight design operations: RangeError unless `0 <= cutoff <= 24000` and `q` or `bandwidth` is not negative, NaN
failing each comparison; otherwise the five coefficients of the design, normalised by `a0`, with `a1` and `a2` negated
(R165 (b), (c), (e); which equations the design uses is log 10). Equal operands give equal results, in either domain and
whichever the design functions are, in whatever forms the reals are held (R165 (d), R174; the forms are log 3). The spec marks
(c) as its inference. -/
def Obligations.FilterDesigners : Prop :=
  ∀ (s : State) (f : FilterType) (cutoff shape gain : XReal),
    let m := s.cfg.num
    let c := realOperand s cutoff
    let q := realOperand s shape
    (LegalDesign c q → ∃ d : Design, d = design s.cfg f c q (realOperand s (if f.hasGain then gain else .ofRat 0)) ∧
      EndsAtOnce (filterInstr f cutoff shape gain) s .ok
        [.real (m.div d.b0 d.a0), .real (m.div d.b1 d.a0), .real (m.div d.b2 d.a0), .real (m.div d.a1.neg d.a0),
          .real (m.div d.a2.neg d.a0)] s.block []) ∧
    (¬ LegalDesign c q → EndsAtOnce (filterInstr f cutoff shape gain) s .rangeError [] s.block []) ∧
    ∀ (s' : State) (cutoff' shape' gain' : XReal), s'.cfg = s.cfg → cutoff.Same cutoff' → shape.Same shape' →
      gain.Same gain' → ∃ e results results',
        EndsAtOnce (filterInstr f cutoff shape gain) s e (results.map .real) s.block [] ∧
        EndsAtOnce (filterInstr f cutoff' shape' gain') s' e (results'.map .real) s'.block [] ∧
        List.Forall₂ XReal.Same results results'

/-- The default design equations in the exact domain: the five coefficients are the real numbers of R166 to R173, over the
sine, cosine, hyperbolic sine, power and square root of the real numbers; a gain of 0 makes `b0 = 1`, `b1 = -a1`, `b2 = -a2`
(and `A` is 1 in either domain), and an all-pass has `b2 = 1`, `b0 = -a2`, `b1 = -a1`. Left out are the degenerate operands of
R175 (R165 (a), (c), R166 to R173; that the equations are the default ones is log 10, the domains are log 3). The spec marks
its decision D24 here. -/
def Obligations.FilterValues : Prop :=
  (∀ (s : State) (f : FilterType) (cutoff shape gain : XReal), s.cfg.num = .exact → s.cfg.filters = .cookbook →
    cutoff.isFinite = true → shape.isFinite = true → gain.isFinite = true → LegalDesign cutoff shape →
    (if f.hasBandwidth then 0 < cutoff.value ∧ cutoff.value < 24000 else shape.value ≠ 0) →
    let w0 := 2 * Real.pi * cutoff.value / 48000
    let c := Real.cos w0
    let alpha := if f.hasBandwidth then Real.sin w0 * Real.sinh (Real.log 2 / 2 * shape.value * w0 / Real.sin w0)
      else Real.sin w0 / (2 * shape.value)
    let e := f.equations c alpha ((10 : ℝ) ^ (gain.value / 40))
    ∃ b0 b1 b2 a1 a2 : XReal, (∀ v ∈ [b0, b1, b2, a1, a2], v.isFinite = true) ∧
      EndsAtOnce (filterInstr f cutoff shape gain) s .ok [.real b0, .real b1, .real b2, .real a1, .real a2] s.block [] ∧
      e[3] ≠ 0 ∧ b0.value = e[0] / e[3] ∧ b1.value = e[1] / e[3] ∧ b2.value = e[2] / e[3] ∧
      a1.value = -e[4] / e[3] ∧ a2.value = -e[5] / e[3] ∧
      (f.hasGain = true → gain.value = 0 → b0.value = 1 ∧ b1.value = -a1.value ∧ b2.value = -a2.value) ∧
      (f = .allpass → b2.value = 1 ∧ b0.value = -a2.value ∧ b1.value = -a1.value)) ∧
  ∀ m : NumMode, gainFactor m (.ofRat 0) = .ofRat 1

/-! ### TONE -/

/-- TONE_SET writes one header field of one slot, range-checked and never masked; anything out of range is a RangeError that
changes nothing (R191). The spec marks its decisions D28, D46 here. -/
def Obligations.ToneSet : Prop :=
  ∀ (s : State) (f : ToneField) (t value : Int),
    (∀ i : Fin 16, t = i.val → 0 ≤ value → value ≤ ToneField.top f →
      ∃ x', EndsAtOnce (toneSetInstr f t value) s .ok [] { s.block with x := x' } [] ∧
        (x'[i].number f : Int) = value ∧ (∀ g, g ≠ f → x'[i].number g = s.x[i].number g) ∧ x'[i].op = s.x[i].op ∧
        ∀ j : Fin 16, j ≠ i → x'[j] = s.x[j]) ∧
    (t < 0 ∨ 15 < t ∨ value < 0 ∨ ToneField.top f < value →
      EndsAtOnce (toneSetInstr f t value) s .rangeError [] s.block [])

/-- OP_SET writes one field of one operator; a numeric value is range-checked, a flag cannot be out of range; anything out of
range is a RangeError that changes nothing (R192). The spec marks its decisions D28, D46 here. -/
def Obligations.OperatorSet : Prop :=
  ∀ (s : State) (f : OpField) (t k value : Int),
    (∀ (i : Fin 16) (j : Fin 4), t = i.val → k = j.val → (f.isFlag = true ∨ 0 ≤ value ∧ value ≤ OpField.top f) →
      ∃ x', EndsAtOnce (opSetInstr f t k value) s .ok [] { s.block with x := x' } [] ∧
        ((x'[i].op[j]).number f : Int) = (if f.isFlag then (if value = 0 then 0 else 1) else value) ∧
        (∀ g, g ≠ f → (x'[i].op[j]).number g = (s.x[i].op[j]).number g) ∧
        (∀ j' : Fin 4, j' ≠ j → x'[i].op[j'] = s.x[i].op[j']) ∧ (∀ g, x'[i].number g = s.x[i].number g) ∧
        ∀ i' : Fin 16, i' ≠ i → x'[i'] = s.x[i']) ∧
    (t < 0 ∨ 15 < t ∨ k < 0 ∨ 3 < k ∨ (f.isFlag = false ∧ (value < 0 ∨ OpField.top f < value)) →
      EndsAtOnce (opSetInstr f t k value) s .rangeError [] s.block [])

/-- TONE_GET and OP_GET return the stored field, a flag as a `bool`, and change nothing; an index out of range is a
RangeError (R193, R194). The spec marks its decision D46 here. -/
def Obligations.ToneReads : Prop :=
  (∀ (s : State) (f : ToneField) (t : Int),
    (∀ i : Fin 16, t = i.val → EndsAtOnce (toneGetInstr f t) s .ok [.int (s.x[i].number f)] s.block []) ∧
    (t < 0 ∨ 15 < t → EndsAtOnce (toneGetInstr f t) s .rangeError [] s.block [])) ∧
  (∀ (s : State) (f : OpField) (t k : Int),
    (∀ (i : Fin 16) (j : Fin 4), t = i.val → k = j.val →
      EndsAtOnce (opGetInstr f t k) s .ok [(s.x[i].op[j]).reading f] s.block []) ∧
    (t < 0 ∨ 15 < t ∨ k < 0 ∨ 3 < k → EndsAtOnce (opGetInstr f t k) s .rangeError [] s.block []))

/-- The three exports write 7, 30 and `1 + 30*(T+1) + 4` bytes at `offset` and leave the other bytes of the buffer; an index
out of range, or a run that does not fit, is a RangeError (R195 to R198). The spec marks its decision D29 here. -/
def Obligations.Exports : Prop :=
  (∀ (s : State) (t k : Int) (buffer : List Byte) (offset : Int),
    (∀ (i : Fin 16) (j : Fin 4), t = i.val → k = j.val → 0 ≤ offset → offset + 7 ≤ buffer.length →
      ∃ buffer', EndsAtOnce (.opExport t k buffer offset) s .ok [.bytes buffer'] s.block [] ∧
        Overwritten buffer buffer' offset.toNat (operatorBytes s.cfg s.x[i].op[j])) ∧
    (t < 0 ∨ 15 < t ∨ k < 0 ∨ 3 < k ∨ offset < 0 ∨ buffer.length < offset + 7 →
      EndsAtOnce (.opExport t k buffer offset) s .rangeError [] s.block [])) ∧
  (∀ (s : State) (t : Int) (buffer : List Byte) (offset : Int),
    (∀ i : Fin 16, t = i.val → 0 ≤ offset → offset + 30 ≤ buffer.length →
      ∃ buffer', EndsAtOnce (.toneExport t buffer offset) s .ok [.bytes buffer'] s.block [] ∧
        Overwritten buffer buffer' offset.toNat (toneBytes s.cfg s.x[i])) ∧
    (t < 0 ∨ 15 < t ∨ offset < 0 ∨ buffer.length < offset + 30 →
      EndsAtOnce (.toneExport t buffer offset) s .rangeError [] s.block [])) ∧
  (∀ (s : State) (buffer : List Byte) (offset tone : Int),
    (0 ≤ tone → tone ≤ 15 → 0 ≤ offset → offset + (1 + 30 * (tone + 1) + 4) ≤ buffer.length →
      ∃ buffer', EndsAtOnce (.collExport buffer offset tone) s .ok [.bytes buffer'] s.block [] ∧
        Overwritten buffer buffer' offset.toNat (toneBlob s.cfg s.x tone.toNat)) ∧
    (tone < 0 ∨ 15 < tone ∨ offset < 0 ∨ buffer.length < offset + (1 + 30 * (tone + 1) + 4) →
      EndsAtOnce (.collExport buffer offset tone) s .rangeError [] s.block []))

/-- The operator block and the tone header under the default OPLAYOUT and TONEHDR, which are PRESUMED (log 14): the
expressions of R195 and R196, for fields in range. The spec marks its decision D22 here. -/
def Obligations.DefaultToneBytes : Prop :=
  (∀ (c : Config) (o : Operator), c.opLayout = defaultOpLayout → (∀ f, (o.number f : Int) ≤ OpField.top f) →
    operatorBytes c o = [
      BitVec.ofNat 8 (o.sr <<< 4 ||| o.xof.toNat <<< 3 ||| o.ksr.toNat),
      BitVec.ofNat 8 (o.rr <<< 4 ||| o.dr),
      BitVec.ofNat 8 (o.ar <<< 4 ||| o.sl),
      BitVec.ofNat 8 (o.tl <<< 2 ||| o.ksl),
      BitVec.ofNat 8 (o.dam <<< 5 ||| o.eam.toNat <<< 4 ||| o.dvb <<< 1 ||| o.evb.toNat),
      BitVec.ofNat 8 (o.multi <<< 4 ||| o.dt),
      BitVec.ofNat 8 (o.ws <<< 3 ||| o.fb)]) ∧
  (∀ (c : Config) (t : ToneSlot), c.toneHdr = defaultToneHdr → (∀ f, (t.number f : Int) ≤ ToneField.top f) →
    toneBytes c t = [BitVec.ofNat 8 t.bo, BitVec.ofNat 8 (t.lfo <<< 6 ||| t.alg)] ++
      operatorBytes c t.op[0] ++ operatorBytes c t.op[1] ++ operatorBytes c t.op[2] ++ operatorBytes c t.op[3])

/-- The tone blob, under every layout: header `80 + K`, the 30-byte blocks of slots 0 to `T` in slot order, the footer, and
`1 + 30*K + 4` bytes in all (R112). The spec marks its decision D29 here. -/
def Obligations.ToneBlob : Prop :=
  ∀ (c : Config) (x : Vector ToneSlot 16) (tone : Fin 16),
    let blob := toneBlob c x tone.val
    blob.length = 1 + 30 * (tone.val + 1) + 4 ∧
    blob[0]? = some (BitVec.ofNat 8 (0x80 + (tone.val + 1))) ∧
    (∀ i : Fin 16, i ≤ tone → (blob.drop (1 + 30 * i.val)).take 30 = toneBytes c x[i] ∧ (toneBytes c x[i]).length = 30) ∧
    blob.drop (1 + 30 * (tone.val + 1)) = [0x80, 0x03, 0x81, 0x80]

/-! ### Transport and Chip Addressor -/

/-- Q_GPIO appends one GPIO-set command and does nothing else; on a disposed transport it is a CommunicationError (R223). -/
def Obligations.QueueGpio : Prop :=
  ∀ (s : State) (high : Bool) (value direction : Byte),
    (∃ p, encode (.qGpio high value direction) = .command ⟨0x5000, p⟩) ∧
    (s.disposed = false → EndsAtOnce (.qGpio high value direction) s .ok []
      { s.block with wbuf := s.wbuf ++ [if high then 0x82 else 0x80, value, direction] } []) ∧
    (s.disposed = true → EndsAtOnce (.qGpio high value direction) s .communicationError [] s.block [])

/-- Q_SPI_WRITE and Q_SPI_BURST: the checks in the order written, then one frame appended (R225, R226). The spec marks its
decisions D11, D47 here. -/
def Obligations.QueueSpi : Prop :=
  (∀ (s : State) (addr data : Byte),
    (s.disposed = false → s.targetPins ≠ 0 → EndsAtOnce (.qSpiWrite addr data) s .ok []
      { s.block with wbuf := s.wbuf ++ writeFrame addr [data] s } []) ∧
    (s.disposed = true ∨ s.targetPins = 0 → EndsAtOnce (.qSpiWrite addr data) s .communicationError [] s.block [])) ∧
  (∀ (s : State) (addr : Byte) (bytes : List Byte) (offset count : Int),
    (1 ≤ count → count ≤ 65535 → 0 ≤ offset → offset + count ≤ bytes.length →
      (s.disposed = false → s.targetPins ≠ 0 → EndsAtOnce (.qSpiBurst addr bytes offset count) s .ok []
        { s.block with
          wbuf := s.wbuf ++ writeFrame addr ((bytes.drop offset.toNat).take count.toNat) s } []) ∧
      (s.disposed = true ∨ s.targetPins = 0 →
        EndsAtOnce (.qSpiBurst addr bytes offset count) s .communicationError [] s.block [])) ∧
    (count ≤ 0 ∨ 65535 < count ∨ offset < 0 ∨ bytes.length < offset + count →
      EndsAtOnce (.qSpiBurst addr bytes offset count) s .rangeError [] s.block []))

/-- FLUSH: the opcode 87 appended, then the whole buffer sent and emptied if the environment accepts the transfer; if not,
the buffer keeps everything, the 87 included (R227). The spec marks its decisions D7, D30 here. -/
def Obligations.Flush : Prop :=
  ∀ s : State,
    (s.disposed = false → s.accept = true → EndsAtOnce .flush s .ok []
      { s.block with wbuf := [], trace := s.trace ++ [.tx (s.wbuf ++ [0x87])] } (s.wbuf ++ [0x87])) ∧
    (s.disposed = false → s.accept = false → EndsAtOnce .flush s .communicationError []
      { s.block with wbuf := s.wbuf ++ [0x87] } []) ∧
    (s.disposed = true → EndsAtOnce .flush s .communicationError [] s.block [])

/-- SET_TARGET switches to a combination of the chip map; one that is not in it is a RangeError, checked before `disposed`
(R231). The spec marks its decision D45 here. -/
def Obligations.SetTarget : Prop :=
  ∀ (s : State) (chip : Chip),
    (∃ p, encode (.setTarget chip) = .command ⟨0x5700, p⟩) ∧
    (∀ pins, mapLookup s.csmap chip = some pins →
      (s.disposed = false → EndsAtOnce (.setTarget chip) s .ok []
        { s.block with target := chip, targetPins := pins } []) ∧
      (s.disposed = true → EndsAtOnce (.setTarget chip) s .communicationError [] s.block [])) ∧
    (mapLookup s.csmap chip = none → EndsAtOnce (.setTarget chip) s .rangeError [] s.block [])

/-- DISPOSE always ends OK, discards the queued bytes without sending them, and leaves the section state (R233). That the
bytes delivered to the bridge and not yet executed stay as they are is the model's choice (log 40). The spec marks its decision
D32 here. -/
def Obligations.Dispose : Prop :=
  ∀ s : State, EndsAtOnce .dispose s .ok [] { s.block with disposed := true, wbuf := [] } []

/-- T_READ with one chip selected, on an alive transport whose transfers succeed: the pending bytes are flushed, the queue
purged, the read frame sent; then it waits, and takes the first two bytes that arrive, of which the second is returned
(R228; that the waiting step answers a next state which changes nothing is the model's choice, log 20). With another
selection, or disposed, it ends at once (R221, R228). The spec marks its decisions D6, D12, D36 here. -/
def Obligations.TransportRead : Prop :=
  ∀ (s : State) (addr : Byte), s.cur < s.reqs.length →
    (s.disposed = false → s.accept = true → popcount s.targetPins = 1 →
      ∃ t t', exec (.tRead addr) s = .next t ∧ advances 1 t = .next t' ∧ t'.rxq = [] ∧ advance t' = .next t' ∧
        (∀ b, advance (receive [b] t') = .next (receive [b] t')) ∧
        ∀ b0 b1 rest, ∃ t'', advances 1 (receive (b0 :: b1 :: rest) t') = .next t'' ∧
          Ends s t'' .ok [.byte b1]
            { s.block with
              wbuf := [], rxq := rest
              trace := s.trace ++ [.tx (s.wbuf ++ [0x87]), .rxPurge, .tx (readFrame addr s ++ [0x87]), .rxTake b0 b1] }
            (s.wbuf ++ [0x87] ++ (readFrame addr s ++ [0x87]))) ∧
    (s.disposed = true ∨ s.targetPins = 0 → EndsAtOnce (.tRead addr) s .communicationError [] s.block []) ∧
    (s.disposed = false → s.targetPins ≠ 0 → popcount s.targetPins ≠ 1 →
      EndsAtOnce (.tRead addr) s .invalidOperation [] s.block [])

/-- HW_RESET: three levels low, high, low, each one GPIO command and a flush, with 2 ms after the first two; nothing of the
block but the buffer and the trace changes (R229). The spec marks its decision D8 here. -/
def Obligations.HardwareReset : Prop :=
  ∀ s : State, s.cur < s.reqs.length →
    (s.disposed = false → s.accept = true →
      let b := s.cfg.board
      let g : Byte := if b.icBankHigh then 0x82 else 0x80
      let first := s.wbuf ++ [g, b.icValueLow, b.icDir, 0x87]
      let second := [g, b.icValueHigh, b.icDir, 0x87]
      let third := [g, b.icValueLow, b.icDir, 0x87]
      EndsAfter 2 .hwReset s .ok []
        { s.block with wbuf := [], trace := s.trace ++ [.tx first, .delay 2, .tx second, .delay 2, .tx third] }
        (first ++ second ++ third)) ∧
    (s.disposed = true → EndsAtOnce .hwReset s .communicationError [] s.block [])

/-- A failed transfer loses nothing (R227, R328). (b), (c): the frame that was queued stays queued with a stray 87 behind it,
nothing is recorded, and the next flush sends all of it and another 87. (d): a two-register setter that fails at its second
write has sent the first frame. (e): HW_RESET failing at a level has sent the levels before it, with their delays. (f): T_READ
failing in its first flush has purged nothing; in its second, the queue is purged and the read frame stays queued. The spec
marks its decision D30 here. -/
def Obligations.FailedTransfer : Prop :=
  (∀ (s : State) (addr data : Byte), s.disposed = false → s.targetPins ≠ 0 → s.sectionMode = false →
    s.accept = false → EndsAtOnce (.write addr data) s .communicationError []
      { s.block with wbuf := s.wbuf ++ writeFrame addr [data] s ++ [0x87] } []) ∧
  (∀ s : State, s.disposed = false → s.accept = false → ∃ t, exec .flush s = .next t ∧
    EndsAtOnce .flush { t with accept := true } .ok []
      { s.block with wbuf := [], trace := s.trace ++ [.tx (s.wbuf ++ [0x87, 0x87])] } (s.wbuf ++ [0x87, 0x87])) ∧
  (∀ (s : State) (i : Instr) (addr addr' : Byte), i.registerPair = some (addr, addr') → s.cur < s.reqs.length →
    s.disposed = false → s.targetPins ≠ 0 → s.sectionMode = false → s.accept = true →
    ∃ byte byte', SetsRegisterPair i addr byte addr' byte' s ∧
      let first := s.wbuf ++ writeFrame addr [byte] s ++ [0x87]
      ∃ t t', exec i s = .next t ∧ advance { t with accept := false } = .next t' ∧
        Ends { s with accept := false } t' .communicationError []
          { s.block with wbuf := writeFrame addr' [byte'] s ++ [0x87], trace := s.trace ++ [.tx first] } first) ∧
  (∀ s : State, s.cur < s.reqs.length → s.disposed = false →
    let b := s.cfg.board
    let g : Byte := if b.icBankHigh then 0x82 else 0x80
    let low := [g, b.icValueLow, b.icDir, 0x87]
    let high := [g, b.icValueHigh, b.icDir, 0x87]
    (s.accept = false → EndsAtOnce .hwReset s .communicationError [] { s.block with wbuf := s.wbuf ++ low } []) ∧
    (s.accept = true → ∃ t, exec .hwReset s = .next t ∧
      (∃ t', advance { t with accept := false } = .next t' ∧ Ends { s with accept := false } t' .communicationError []
        { s.block with wbuf := high, trace := s.trace ++ [.tx (s.wbuf ++ low), .delay 2] } (s.wbuf ++ low)) ∧
      ∃ t' t'', advance t = .next t' ∧ advance { t' with accept := false } = .next t'' ∧
        Ends { s with accept := false } t'' .communicationError []
          { s.block with
            wbuf := low, trace := s.trace ++ [.tx (s.wbuf ++ low), .delay 2, .tx high, .delay 2] }
          (s.wbuf ++ low ++ high))) ∧
  (∀ (s : State) (addr : Byte), s.cur < s.reqs.length → s.disposed = false → popcount s.targetPins = 1 →
    (s.accept = false → EndsAtOnce (.tRead addr) s .communicationError []
      { s.block with wbuf := s.wbuf ++ [0x87] } []) ∧
    (s.accept = true → ∃ t t', exec (.tRead addr) s = .next t ∧ advance { t with accept := false } = .next t' ∧
      Ends { s with accept := false } t' .communicationError []
        { s.block with
          wbuf := readFrame addr s ++ [0x87], rxq := [], trace := s.trace ++ [.tx (s.wbuf ++ [0x87]), .rxPurge] }
        (s.wbuf ++ [0x87])))

/-! ### Register Driver -/

/-- WRITE and BURST_WRITE queue one frame and, with section mode disabled, flush it at once; no address is refused. A slice
that is empty, too long or outside `bytes` is a RangeError in every state, a disposed transport among them (R250 to R252,
R326). The spec marks its decisions D11, D16, D38, D47 here. -/
def Obligations.RegisterWrites : Prop :=
  ∀ s : State,
    (CanWrite s →
      (∀ addr data, EndsAtOnce (.write addr data) s .ok [] (written (writeFrame addr [data] s) s)
        (sentBy (writeFrame addr [data] s) s)) ∧
      (∀ addr bytes (offset count : Int), 1 ≤ count → count ≤ 65535 → 0 ≤ offset → offset + count ≤ bytes.length →
        let slice := (bytes.drop offset.toNat).take count.toNat
        EndsAtOnce (.burstWrite addr bytes offset count) s .ok [] (written (writeFrame addr slice s) s)
          (sentBy (writeFrame addr slice s) s))) ∧
    (∀ addr bytes (offset count : Int), count ≤ 0 ∨ 65535 < count ∨ offset < 0 ∨ bytes.length < offset + count →
      EndsAtOnce (.burstWrite addr bytes offset count) s .rangeError [] s.block [])

/-- WRITE_CONTENTS sends the tone blob in one burst to register 07, SET_EQ the 15-byte band block in one burst to register 20
+ band (R254, R255). The spec marks its decision D38 here. -/
def Obligations.CompositeWrites : Prop :=
  (∀ (s : State) (tone : Fin 16), CanWrite s →
    let frame := writeFrame 0x07 (toneBlob s.cfg s.x tone.val) s
    EndsAtOnce (.writeContents tone.val) s .ok [] (written frame s) (sentBy frame s)) ∧
  (∀ (s : State) (tone : Int), tone < 0 ∨ 15 < tone → EndsAtOnce (.writeContents tone) s .rangeError [] s.block []) ∧
  (∀ (s : State) (band : Fin 3) (coefs : List XReal) (block : List Byte), CanWrite s →
    packBand (coefs.map (realOperand s)) = .ok block →
    let frame := writeFrame (BitVec.ofNat 8 (0x20 + band.val)) block s
    block.length = 15 ∧ EndsAtOnce (.setEq band.val coefs) s .ok [] (written frame s) (sentBy frame s)) ∧
  (∀ (s : State) (band : Int) (coefs : List XReal),
    band < 0 ∨ 2 < band ∨ packBand (coefs.map (realOperand s)) = .error .rangeError →
    EndsAtOnce (.setEq band coefs) s .rangeError [] s.block [])

/-- The setters whose places the source gives (R259 to R262) and the full-byte ones (R264, R278, R283), under every
REGLAYOUT that leaves those registers alone: each operand masked, then shifted, nothing refused (R116, R256). -/
def Obligations.FixedSetters : Prop :=
  ∀ s : State, CanWrite s → (∀ sl ∈ s.cfg.regLayout, sl.byte ∉ [0x00, 0x01, 0x02, 0x03, 0x08, 0x1A, 0x50]) →
    (∀ e, SetsRegister (.setClke e) 0x00 (if e then 0x01 else 0x00) s) ∧
    (∀ e, SetsRegister (.setAlrst e) 0x01 (if e then 0x80 else 0x00) s) ∧
    (∀ v, SetsRegister (.setApd v) 0x02 ((v &&& 0x0F).setWidth 8) s) ∧
    (∀ v, SetsRegister (.setGain v) 0x03 ((v &&& 0x03).setWidth 8) s) ∧
    (∀ v, SetsRegister (.setSeq v) 0x08 ((v &&& 0xFF).setWidth 8) s) ∧
    (∀ v, SetsRegister (.setSoftreset v) 0x1A ((v &&& 0xFF).setWidth 8) s) ∧
    (∀ v, SetsRegister (.setTest v) 0x50 ((v &&& 0xFF).setWidth 8) s)

/-- The other single-register setters under the default REGLAYOUT, which is PRESUMED (log 15): the expressions of R266, R267,
R269 to R271, R274, R277 and R279 to R281. The spec marks its decisions D23, D40 here. -/
def Obligations.DefaultSetters : Prop :=
  ∀ s : State, CanWrite s → s.cfg.regLayout = defaultRegLayout →
    (∀ v, SetsRegister (.setVoiceNum v) 0x0B ((v &&& 0x0F).setWidth 8) s) ∧
    (∀ v, SetsRegister (.setVoiceVol v) 0x0C (((v &&& 0x1F) <<< 2).setWidth 8) s) ∧
    (∀ key mute reset v, SetsRegister (.setToneCtrl key mute reset v) 0x0F
      ((if key then 0x40 else 0x00) ||| (if mute then 0x20 else 0x00) ||| (if reset then 0x10 else 0x00) |||
        (v &&& 0x0F).setWidth 8) s) ∧
    (∀ v dir, SetsRegister (.setChVol v dir) 0x10 (((v &&& 0x1F) <<< 2).setWidth 8 ||| if dir then 0x01 else 0x00) s) ∧
    (∀ v, SetsRegister (.setVib v) 0x11 ((v &&& 0x07).setWidth 8) s) ∧
    (∀ e, SetsRegister (.setMuteItp e) 0x14 (if e then 0x01 else 0x00) s) ∧
    (∀ v, SetsRegister (.setMasterVol v) 0x19 (((v &&& 0x3F) <<< 2).setWidth 8) s) ∧
    (∀ e m c v, SetsRegister (.setVolItp e m c v) 0x1B
      ((if e then 0x40 else 0x00) |||
        ((m &&& 0x03) <<< 4 ||| (c &&& 0x03) <<< 2 ||| (v &&& 0x03)).setWidth 8) s) ∧
    (∀ e, SetsRegister (.setLfoRst e) 0x1C (if e then 0x01 else 0x00) s) ∧
    (∀ e, SetsRegister (.setDrvSel e) 0x1D (if e then 0x01 else 0x00) s)

/-- The setters that span two registers, under the default REGLAYOUT, which is PRESUMED (log 15): the expressions of R265,
R268, R273 and R276, the lower address first (R272). The spec marks its decisions D23, D40, D48 here. -/
def Obligations.PairSetters : Prop :=
  ∀ s : State, s.cur < s.reqs.length → CanWrite s → s.cfg.regLayout = defaultRegLayout →
    (∀ volume dir size, SetsRegisterPair (.setSeqvolSize volume dir size)
      0x09 (((volume &&& 0x1F) <<< 3).setWidth 8 ||| (if dir then 0x04 else 0x00) ||| ((size >>> 8) &&& 1).setWidth 8)
      0x0A ((size &&& 0xFF).setWidth 8) s) ∧
    (∀ fnum block, SetsRegisterPair (.setFnumBlock fnum block)
      0x0D (((fnum &&& 0x380) >>> 4).setWidth 8 ||| (block &&& 0x07).setWidth 8)
      0x0E ((fnum &&& 0x7F).setWidth 8) s) ∧
    (∀ integer fraction, SetsRegisterPair (.setFmult integer fraction)
      0x12 (((integer &&& 0x03) <<< 3).setWidth 8 ||| ((fraction >>> 6) &&& 0x07).setWidth 8)
      0x13 (((fraction &&& 0x3F) <<< 1).setWidth 8) s) ∧
    (∀ unit, SetsRegisterPair (.setSeqTime unit)
      0x17 (((unit >>> 7) &&& 0x7F).setWidth 8) 0x18 ((unit &&& 0x7F).setWidth 8) s)

/-- READ and REGGET, run without another agent between their steps but for the reply: the section is entered and left, the
target switched for the read and restored after it (to the saved target, where the section saved none of its own and one was
there), and the second byte of the reply returned, by REGGET with the fields of the register (R253, R258). How many steps
stand before and after the wait is log 37, the order of the fields and the one field of registers 02, 08, 1A and 50 are log 16,
both the model's choice; a field is `(v >> p) & (2^w - 1)`. The spec marks its decisions D17, D49 here. -/
def Obligations.RegisterRead : Prop :=
  (∀ (s : State) (addr : Byte) (chip : Chip) (pins : Byte) (get : Bool) (back : Chip) (backPins : Byte),
    s.cur < s.reqs.length → s.disposed = false → s.accept = true →
    (s.sectionMode = true → s.owner = none) → mapLookup s.csmap s.target = some s.targetPins →
    (if chip = 0 then pins = s.targetPins else mapLookup s.csmap chip = some pins) → popcount pins = 1 →
    back = (if chip = 0 then s.savedTarget.getD s.target else s.target) → mapLookup s.csmap back = some backPins →
    let i : Instr := if get then .regget addr chip else .read addr chip
    let frame := readFrame addr { s with targetPins := pins }
    ∃ t t', exec i s = .next t ∧ advances 3 t = .next t' ∧
      t'.targetPins = pins ∧ (s.sectionMode = true → t'.owner = some s.cur) ∧
      ∀ b0 b1 rest, ∃ t'', advances 3 (receive (b0 :: b1 :: rest) t') = .next t'' ∧
        Ends s t'' .ok (if get then [.byte b1, .fields (unpackReg s addr b1)] else [.byte b1])
          { s.block with
            target := back, targetPins := backPins, savedTarget := none
            wbuf := [], rxq := rest
            entered := if s.sectionMode then s.entered + 1 else s.entered
            trace := s.trace ++
              [.tx (s.wbuf ++ [0x87]), .rxPurge, .tx (frame ++ [0x87]), .rxTake b0 b1, .tx [0x87]] }
          (s.wbuf ++ [0x87] ++ (frame ++ [0x87]) ++ [0x87])) ∧
  ∀ (s : State) (addr v : Byte), unpackReg s addr v =
    ((fixedRegLayout ++ s.cfg.regLayout).filter fun sl => sl.byte == addr.toNat).map fun sl =>
      ((v >>> sl.pos) &&& (BitVec.ofNat 8 (2 ^ sl.width) - 1)).toNat

/-- Reads and the software reset refuse to run for the requester that holds the section, and change nothing then (R253,
R257). A read whose target is not in the chip map, or that finds more than one chip selected, has left its section by the time
it reports its error, and so has a read or a software reset on a disposed transport or with no target selected, under section
mode and without it (R253, R306, R321, R322, R323, R326). The exact numbers of steps rest on log 21 (`release` after an error
is the operation's next step) and log 37 (both owner checks are one step). The spec marks its decisions D12, D41 here. -/
def Obligations.ReadRefusals : Prop :=
  (∀ (s : State) (addr : Byte) (chip : Chip), s.sectionMode = true → s.owner = some s.cur →
    s.cur < s.reqs.length →
    EndsAtOnce (.read addr chip) s .invalidOperation [] s.block [] ∧
    EndsAtOnce (.regget addr chip) s .invalidOperation [] s.block [] ∧
    EndsAtOnce .swReset s .invalidOperation [] s.block []) ∧
  (∀ (s : State) (addr : Byte), s.cur < s.reqs.length → (s.sectionMode = true → s.owner = none) →
    mapLookup s.csmap s.target = some s.targetPins →
    let entered := if s.sectionMode then s.entered + 1 else s.entered
    (∀ chip, chip ≠ 0 → mapLookup s.csmap chip = none →
      EndsAfter 2 (.read addr chip) s .rangeError [] { s.block with entered := entered, savedTarget := none } [] ∧
      EndsAfter 2 (.regget addr chip) s .rangeError [] { s.block with entered := entered, savedTarget := none } []) ∧
    ∀ back backPins, back = s.savedTarget.getD s.target → mapLookup s.csmap back = some backPins →
      let left : Block :=
        { s.block with entered := entered, target := back, targetPins := backPins, savedTarget := none }
      (s.disposed = false → s.targetPins ≠ 0 → popcount s.targetPins ≠ 1 →
        EndsAfter 3 (.read addr 0) s .invalidOperation [] left [] ∧
        EndsAfter 3 (.regget addr 0) s .invalidOperation [] left []) ∧
      (s.disposed = true ∨ s.targetPins = 0 →
        EndsAfter 3 (.read addr 0) s .communicationError [] left [] ∧
        EndsAfter 3 (.regget addr 0) s .communicationError [] left [] ∧
        (s.disposed = true ∨ s.cfg.resetSeq[0] ≠ [] → EndsAfter 3 .swReset s .communicationError [] left [])))

/-- SW_RESET, run without another agent between its steps, with either section mode and every RESET_SEQ: five sections, each
making its register writes to the current target and ending with a flush, with the delays 1, 1, 30, 21 and 0 ms; nothing of
the block but `entered`, the buffer and the trace changes (R257). The spec marks its decision D18 here. -/
def Obligations.SoftwareReset : Prop :=
  ∀ s : State, s.cur < s.reqs.length → s.disposed = false → s.targetPins ≠ 0 → s.accept = true → s.savedTarget = none →
    (s.sectionMode = true → s.owner = none) →
    let parts := s.cfg.resetSeq.toList.zip [1, 1, 30, 21, 0]
    let events := resetEvents s s.wbuf parts
    ∃ n, EndsAfter n .swReset s .ok []
      { s.block with
        wbuf := [], trace := s.trace ++ events
        entered := if s.sectionMode then s.entered + 5 else s.entered }
      (events.flatMap Event.payload)

/-! ### Section Manager -/

/-- SEC_ENABLE and SEC_DISABLE always end OK; the second force-releases the lock, and neither flushes, restores the target or
touches `entered` (R301, R302). The spec marks its decision D42 here. -/
def Obligations.SectionMode : Prop :=
  ∀ s : State,
    EndsAtOnce .secEnable s .ok [] { s.block with sectionMode := true } [] ∧
    EndsAtOnce .secDisable s .ok [] { s.block with sectionMode := false, owner := none } []

/-- SEC_BEGIN: under section mode the lock is taken and counted; with a target, the former one is saved and the new one
selected; a target outside the chip map is a RangeError that leaves the lock held and the former target saved; the owner's
own SEC_BEGIN is an InvalidOperation that changes nothing (R303). The spec marks its decision D13 here. -/
def Obligations.SectionBegin : Prop :=
  ∀ (s : State) (chip : Chip), s.cur < s.reqs.length →
    ((s.sectionMode = true → s.owner = none) →
      let locked : Block := if s.sectionMode then { s.block with entered := s.entered + 1, owner := some s.cur }
        else s.block
      (chip = 0 → EndsAfter 1 (.secBegin chip) s .ok [] locked []) ∧
      (∀ pins, chip ≠ 0 → mapLookup s.csmap chip = some pins → EndsAfter 1 (.secBegin chip) s .ok []
        { locked with savedTarget := some s.target, target := chip, targetPins := pins } []) ∧
      (chip ≠ 0 → mapLookup s.csmap chip = none → EndsAfter 1 (.secBegin chip) s .rangeError []
        { locked with savedTarget := some s.target } [])) ∧
    (s.sectionMode = true → s.owner = some s.cur →
      EndsAtOnce (.secBegin chip) s .invalidOperation [] s.block [])

/-- The two holds of the block: the acquire step while another requester has the lock, and the take step while fewer than two
bytes are there. A held step changes nothing (R311, R332; log 20). The spec marks its decision D53 here. -/
def Obligations.HeldSteps : Prop :=
  (∀ (s : State) (t : Task) (chip : Chip) (rest : List Atom) (p : Nat), myTask s = some t →
    t.steps = .acquire chip :: rest → s.sectionMode = true → s.owner = some p → advance s = .next s) ∧
  (∀ (s : State) (t : Task) (rest : List Atom) (sub : Byte), myTask s = some t →
    t.steps = .readTake :: rest ∨ t.steps = .regTake sub :: rest → s.rxq.length < 2 → advance s = .next s)

/-- SEC_END: flush, delay, then the saved target restored and the lock given back; a requester that is not the owner is
refused under section mode; a failed flush leaves lock and target as they are (R304, R305, R328 (i); log 32). The spec marks
its decisions D14, D50 here. -/
def Obligations.SectionEnd : Prop :=
  ∀ (s : State) (ms : Nat), s.cur < s.reqs.length →
    ((s.sectionMode = true → s.owner = some s.cur) →
      let sent := s.wbuf ++ [0x87]
      let closed : Block :=
        { s.block with
          wbuf := [], trace := s.trace ++ (.tx sent :: delayEvents ms)
          owner := if s.sectionMode then none else s.owner }
      (s.disposed = false → s.accept = true →
        (s.savedTarget = none → EndsAfter 1 (.secEnd ms) s .ok [] closed sent) ∧
        (∀ chip pins, s.savedTarget = some chip → mapLookup s.csmap chip = some pins →
          EndsAfter 1 (.secEnd ms) s .ok []
            { closed with savedTarget := none, target := chip, targetPins := pins } sent)) ∧
      (s.disposed = true → EndsAtOnce (.secEnd ms) s .communicationError [] s.block []) ∧
      (s.disposed = false → s.accept = false →
        EndsAtOnce (.secEnd ms) s .communicationError [] { s.block with wbuf := s.wbuf ++ [0x87] } [])) ∧
    (s.sectionMode = true → s.owner ≠ some s.cur → EndsAtOnce (.secEnd ms) s .invalidOperation [] s.block [])

/-- SECTION as one unit: it presents SEC_BEGIN, its body and SEC_END in turn; when one of them ends with an error after the
acquire step, the requester's next step is `release`, before the error is reported; before the acquire step it is reported at
once. It is the acquire step of its SEC_BEGIN that marks it as acquired, with the lock free, whether or not the target switch
then fails; the check before it does not, nor does a SEC_BEGIN that is refused (R125, R303, R306; log 31). That the mark
outlives a body that gives the lock up is the model's choice (log 39). The spec marks its decision D41 here. -/
def Obligations.SectionUnits : Prop :=
  (∀ (r : Requester) (target : Chip) (ms : Nat) (body : List Command) (more : List Request),
    r.unit = none → r.inbox = .unit target ms body :: more →
    fetch r = some (secBeginCommand target,
      { r with inbox := more, unit := some { rest := body ++ [secEndCommand ms] }, response := none })) ∧
  (∀ (r : Requester) (u : SectionUnit) (c : Command) (cs : List Command), r.unit = some u → u.rest = c :: cs →
    fetch r = some (c, { r with unit := some { u with rest := cs }, response := none })) ∧
  (∀ target ms, decodeCommand (secBeginCommand target) = .ok (.secBegin target) ∧
    decodeCommand (secEndCommand ms) = .ok (.secEnd ms)) ∧
  (∀ (r : Requester) (u : SectionUnit) (e : Status) (values : List Value), r.unit = some u → r.task = none →
    r.response = some ⟨e, values⟩ →
    (e ≠ .ok → u.acquired = true → closeUnit r =
      { r with unit := none, response := none, task := some { steps := [.release], verdict := e } }) ∧
    (e ≠ .ok → u.acquired = false → closeUnit r = { r with unit := none }) ∧
    (e = .ok → u.rest = [] → closeUnit r = { r with unit := none }) ∧
    (e = .ok → u.rest ≠ [] → closeUnit r = r)) ∧
  (∀ (s : State) (r : Requester) (u : SectionUnit) (chip : Chip), s.reqs[s.cur]? = some r → r.unit = some u →
    ((s.sectionMode = true → s.owner ≠ some s.cur) → ∃ t r', exec (.secBegin chip) s = .next t ∧
      t.reqs[s.cur]? = some r' ∧ r'.unit = some u ∧
      ((s.sectionMode = true → s.owner = none) → ∃ t' r'', advance t = .next t' ∧ t'.reqs[s.cur]? = some r'' ∧
        r''.unit = some { u with acquired := true })) ∧
    (s.sectionMode = true → s.owner = some s.cur → ∃ t r', exec (.secBegin chip) s = .next t ∧
      t.reqs[s.cur]? = some r' ∧ r'.unit = some u))

/-- On a disposed transport, and with no target selected, every operation that queues an SPI write ends with a
CommunicationError and changes nothing, its operands having been checked first (R220, R221, R323, R326). The spec marks its
decision D47 here. -/
def Obligations.RefusedWrites : Prop :=
  ∀ s : State, s.disposed = true ∨ s.targetPins = 0 → s.cur < s.reqs.length →
    (∀ addr data, EndsAtOnce (.qSpiWrite addr data) s .communicationError [] s.block [] ∧
      EndsAtOnce (.write addr data) s .communicationError [] s.block []) ∧
    (∀ addr bytes (offset count : Int), 1 ≤ count → count ≤ 65535 → 0 ≤ offset → offset + count ≤ bytes.length →
      EndsAtOnce (.qSpiBurst addr bytes offset count) s .communicationError [] s.block [] ∧
      EndsAtOnce (.burstWrite addr bytes offset count) s .communicationError [] s.block []) ∧
    (∀ tone : Fin 16, EndsAtOnce (.writeContents tone.val) s .communicationError [] s.block []) ∧
    (∀ (band : Fin 3) coefs block, packBand (coefs.map (realOperand s)) = .ok block →
      EndsAtOnce (.setEq band.val coefs) s .communicationError [] s.block []) ∧
    (∀ i c, encode i = .command c → c.header.extractLsb' 8 8 = 0x68#8 →
      EndsAtOnce i s .communicationError [] s.block [])

/-! ### The bridge -/

/-- The five stream commands as the bridge executes them: a GPIO command sets one bank and leaves the other (R100); an SPI
command is a transfer under the levels of both banks (R101); a read's reply, which the spec leaves to the environment, joins
the receive queue (R102, R232); a flush command has nothing left to do (log 25, 27, 28). That a command
delivered before a DISPOSE is executed after it is the model's choice (log 40). -/
def Obligations.BridgeCommands : Prop :=
  ∀ s : State, let b := s.bridge
    (∀ v d, exec (.gpioLow v d) s = .next { s with bridge := { b with low := ⟨v, d⟩ } }) ∧
    (∀ v d, exec (.gpioHigh v d) s = .next { s with bridge := { b with high := ⟨v, d⟩ } }) ∧
    (∀ addr data, exec (.spiWrite addr data) s =
      .next { s with bridge := { b with spi := b.spi ++ [⟨b.low.value, b.high.value, false, addr, data⟩] } }) ∧
    (∀ addr payload, exec (.spiRead addr payload) s =
      .next { s with
        rxq := s.rxq ++ s.reply
        bridge := { b with spi := b.spi ++ [⟨b.low.value, b.high.value, true, addr, payload⟩] } }) ∧
    exec .streamFlush s = .next s
end

