-- ==== Sys2Proof/Laws/State.lean ====
section
/-!
SUPPORT. What each update of the state does to each field: one lemma per field per update, true by rfl.
-/
namespace Sys2Proof.Machine

variable (s : State)

/-! ### updateMe -/

@[simp] theorem updateMe_cfg (f : Requester → Requester) : (updateMe f s).cfg = s.cfg := rfl
@[simp] theorem updateMe_x (f : Requester → Requester) : (updateMe f s).x = s.x := rfl
@[simp] theorem updateMe_fnumTable (f : Requester → Requester) : (updateMe f s).fnumTable = s.fnumTable := rfl
@[simp] theorem updateMe_csmap (f : Requester → Requester) : (updateMe f s).csmap = s.csmap := rfl
@[simp] theorem updateMe_target (f : Requester → Requester) : (updateMe f s).target = s.target := rfl
@[simp] theorem updateMe_targetPins (f : Requester → Requester) : (updateMe f s).targetPins = s.targetPins := rfl
@[simp] theorem updateMe_sectionMode (f : Requester → Requester) : (updateMe f s).sectionMode = s.sectionMode := rfl
@[simp] theorem updateMe_entered (f : Requester → Requester) : (updateMe f s).entered = s.entered := rfl
@[simp] theorem updateMe_owner (f : Requester → Requester) : (updateMe f s).owner = s.owner := rfl
@[simp] theorem updateMe_savedTarget (f : Requester → Requester) : (updateMe f s).savedTarget = s.savedTarget := rfl
@[simp] theorem updateMe_wbuf (f : Requester → Requester) : (updateMe f s).wbuf = s.wbuf := rfl
@[simp] theorem updateMe_disposed (f : Requester → Requester) : (updateMe f s).disposed = s.disposed := rfl
@[simp] theorem updateMe_rxq (f : Requester → Requester) : (updateMe f s).rxq = s.rxq := rfl
@[simp] theorem updateMe_trace (f : Requester → Requester) : (updateMe f s).trace = s.trace := rfl
@[simp] theorem updateMe_reqs (f : Requester → Requester) : (updateMe f s).reqs = s.reqs.modify s.cur f := rfl
@[simp] theorem updateMe_bridge (f : Requester → Requester) : (updateMe f s).bridge = s.bridge := rfl
@[simp] theorem updateMe_cur (f : Requester → Requester) : (updateMe f s).cur = s.cur := rfl
@[simp] theorem updateMe_accept (f : Requester → Requester) : (updateMe f s).accept = s.accept := rfl
@[simp] theorem updateMe_reply (f : Requester → Requester) : (updateMe f s).reply = s.reply := rfl
@[simp] theorem updateMe_turns (f : Requester → Requester) : (updateMe f s).turns = s.turns := rfl

/-! ### updateTask -/

@[simp] theorem updateTask_cfg (f : Task → Task) : (updateTask f s).cfg = s.cfg := rfl
@[simp] theorem updateTask_x (f : Task → Task) : (updateTask f s).x = s.x := rfl
@[simp] theorem updateTask_fnumTable (f : Task → Task) : (updateTask f s).fnumTable = s.fnumTable := rfl
@[simp] theorem updateTask_csmap (f : Task → Task) : (updateTask f s).csmap = s.csmap := rfl
@[simp] theorem updateTask_target (f : Task → Task) : (updateTask f s).target = s.target := rfl
@[simp] theorem updateTask_targetPins (f : Task → Task) : (updateTask f s).targetPins = s.targetPins := rfl
@[simp] theorem updateTask_sectionMode (f : Task → Task) : (updateTask f s).sectionMode = s.sectionMode := rfl
@[simp] theorem updateTask_entered (f : Task → Task) : (updateTask f s).entered = s.entered := rfl
@[simp] theorem updateTask_owner (f : Task → Task) : (updateTask f s).owner = s.owner := rfl
@[simp] theorem updateTask_savedTarget (f : Task → Task) : (updateTask f s).savedTarget = s.savedTarget := rfl
@[simp] theorem updateTask_wbuf (f : Task → Task) : (updateTask f s).wbuf = s.wbuf := rfl
@[simp] theorem updateTask_disposed (f : Task → Task) : (updateTask f s).disposed = s.disposed := rfl
@[simp] theorem updateTask_rxq (f : Task → Task) : (updateTask f s).rxq = s.rxq := rfl
@[simp] theorem updateTask_trace (f : Task → Task) : (updateTask f s).trace = s.trace := rfl
@[simp] theorem updateTask_reqs (f : Task → Task) : (updateTask f s).reqs = s.reqs.modify s.cur fun r => { r with task := r.task.map f } := rfl
@[simp] theorem updateTask_bridge (f : Task → Task) : (updateTask f s).bridge = s.bridge := rfl
@[simp] theorem updateTask_cur (f : Task → Task) : (updateTask f s).cur = s.cur := rfl
@[simp] theorem updateTask_accept (f : Task → Task) : (updateTask f s).accept = s.accept := rfl
@[simp] theorem updateTask_reply (f : Task → Task) : (updateTask f s).reply = s.reply := rfl
@[simp] theorem updateTask_turns (f : Task → Task) : (updateTask f s).turns = s.turns := rfl

/-! ### respond -/

@[simp] theorem respond_cfg (e : Status) (vs : List Value) : (respond e vs s).cfg = s.cfg := rfl
@[simp] theorem respond_x (e : Status) (vs : List Value) : (respond e vs s).x = s.x := rfl
@[simp] theorem respond_fnumTable (e : Status) (vs : List Value) : (respond e vs s).fnumTable = s.fnumTable := rfl
@[simp] theorem respond_csmap (e : Status) (vs : List Value) : (respond e vs s).csmap = s.csmap := rfl
@[simp] theorem respond_target (e : Status) (vs : List Value) : (respond e vs s).target = s.target := rfl
@[simp] theorem respond_targetPins (e : Status) (vs : List Value) : (respond e vs s).targetPins = s.targetPins := rfl
@[simp] theorem respond_sectionMode (e : Status) (vs : List Value) : (respond e vs s).sectionMode = s.sectionMode := rfl
@[simp] theorem respond_entered (e : Status) (vs : List Value) : (respond e vs s).entered = s.entered := rfl
@[simp] theorem respond_owner (e : Status) (vs : List Value) : (respond e vs s).owner = s.owner := rfl
@[simp] theorem respond_savedTarget (e : Status) (vs : List Value) : (respond e vs s).savedTarget = s.savedTarget := rfl
@[simp] theorem respond_wbuf (e : Status) (vs : List Value) : (respond e vs s).wbuf = s.wbuf := rfl
@[simp] theorem respond_disposed (e : Status) (vs : List Value) : (respond e vs s).disposed = s.disposed := rfl
@[simp] theorem respond_rxq (e : Status) (vs : List Value) : (respond e vs s).rxq = s.rxq := rfl
@[simp] theorem respond_trace (e : Status) (vs : List Value) : (respond e vs s).trace = s.trace := rfl
@[simp] theorem respond_reqs (e : Status) (vs : List Value) : (respond e vs s).reqs = s.reqs.modify s.cur fun r => { r with task := none, response := some ⟨e, if e = .ok then vs else []⟩ } := rfl
@[simp] theorem respond_bridge (e : Status) (vs : List Value) : (respond e vs s).bridge = s.bridge := rfl
@[simp] theorem respond_cur (e : Status) (vs : List Value) : (respond e vs s).cur = s.cur := rfl
@[simp] theorem respond_accept (e : Status) (vs : List Value) : (respond e vs s).accept = s.accept := rfl
@[simp] theorem respond_reply (e : Status) (vs : List Value) : (respond e vs s).reply = s.reply := rfl
@[simp] theorem respond_turns (e : Status) (vs : List Value) : (respond e vs s).turns = s.turns := rfl

/-! ### beginTask -/

@[simp] theorem beginTask_cfg (t : Task) : (beginTask t s).cfg = s.cfg := rfl
@[simp] theorem beginTask_x (t : Task) : (beginTask t s).x = s.x := rfl
@[simp] theorem beginTask_fnumTable (t : Task) : (beginTask t s).fnumTable = s.fnumTable := rfl
@[simp] theorem beginTask_csmap (t : Task) : (beginTask t s).csmap = s.csmap := rfl
@[simp] theorem beginTask_target (t : Task) : (beginTask t s).target = s.target := rfl
@[simp] theorem beginTask_targetPins (t : Task) : (beginTask t s).targetPins = s.targetPins := rfl
@[simp] theorem beginTask_sectionMode (t : Task) : (beginTask t s).sectionMode = s.sectionMode := rfl
@[simp] theorem beginTask_entered (t : Task) : (beginTask t s).entered = s.entered := rfl
@[simp] theorem beginTask_owner (t : Task) : (beginTask t s).owner = s.owner := rfl
@[simp] theorem beginTask_savedTarget (t : Task) : (beginTask t s).savedTarget = s.savedTarget := rfl
@[simp] theorem beginTask_wbuf (t : Task) : (beginTask t s).wbuf = s.wbuf := rfl
@[simp] theorem beginTask_disposed (t : Task) : (beginTask t s).disposed = s.disposed := rfl
@[simp] theorem beginTask_rxq (t : Task) : (beginTask t s).rxq = s.rxq := rfl
@[simp] theorem beginTask_trace (t : Task) : (beginTask t s).trace = s.trace := rfl
@[simp] theorem beginTask_reqs (t : Task) : (beginTask t s).reqs = s.reqs.modify s.cur fun r => { r with task := some t, response := none } := rfl
@[simp] theorem beginTask_bridge (t : Task) : (beginTask t s).bridge = s.bridge := rfl
@[simp] theorem beginTask_cur (t : Task) : (beginTask t s).cur = s.cur := rfl
@[simp] theorem beginTask_accept (t : Task) : (beginTask t s).accept = s.accept := rfl
@[simp] theorem beginTask_reply (t : Task) : (beginTask t s).reply = s.reply := rfl
@[simp] theorem beginTask_turns (t : Task) : (beginTask t s).turns = s.turns := rfl

/-! ### present -/

@[simp] theorem present_cfg (r : Requester) : (present r s).cfg = s.cfg := rfl
@[simp] theorem present_x (r : Requester) : (present r s).x = s.x := rfl
@[simp] theorem present_fnumTable (r : Requester) : (present r s).fnumTable = s.fnumTable := rfl
@[simp] theorem present_csmap (r : Requester) : (present r s).csmap = s.csmap := rfl
@[simp] theorem present_target (r : Requester) : (present r s).target = s.target := rfl
@[simp] theorem present_targetPins (r : Requester) : (present r s).targetPins = s.targetPins := rfl
@[simp] theorem present_sectionMode (r : Requester) : (present r s).sectionMode = s.sectionMode := rfl
@[simp] theorem present_entered (r : Requester) : (present r s).entered = s.entered := rfl
@[simp] theorem present_owner (r : Requester) : (present r s).owner = s.owner := rfl
@[simp] theorem present_savedTarget (r : Requester) : (present r s).savedTarget = s.savedTarget := rfl
@[simp] theorem present_wbuf (r : Requester) : (present r s).wbuf = s.wbuf := rfl
@[simp] theorem present_disposed (r : Requester) : (present r s).disposed = s.disposed := rfl
@[simp] theorem present_rxq (r : Requester) : (present r s).rxq = s.rxq := rfl
@[simp] theorem present_trace (r : Requester) : (present r s).trace = s.trace := rfl
@[simp] theorem present_reqs (r : Requester) : (present r s).reqs = s.reqs.modify s.cur fun _ => r := rfl
@[simp] theorem present_bridge (r : Requester) : (present r s).bridge = s.bridge := rfl
@[simp] theorem present_cur (r : Requester) : (present r s).cur = s.cur := rfl
@[simp] theorem present_accept (r : Requester) : (present r s).accept = s.accept := rfl
@[simp] theorem present_reply (r : Requester) : (present r s).reply = s.reply := rfl
@[simp] theorem present_turns (r : Requester) : (present r s).turns = s.turns := rfl

/-! ### markAcquired -/

@[simp] theorem markAcquired_cfg : (markAcquired s).cfg = s.cfg := rfl
@[simp] theorem markAcquired_x : (markAcquired s).x = s.x := rfl
@[simp] theorem markAcquired_fnumTable : (markAcquired s).fnumTable = s.fnumTable := rfl
@[simp] theorem markAcquired_csmap : (markAcquired s).csmap = s.csmap := rfl
@[simp] theorem markAcquired_target : (markAcquired s).target = s.target := rfl
@[simp] theorem markAcquired_targetPins : (markAcquired s).targetPins = s.targetPins := rfl
@[simp] theorem markAcquired_sectionMode : (markAcquired s).sectionMode = s.sectionMode := rfl
@[simp] theorem markAcquired_entered : (markAcquired s).entered = s.entered := rfl
@[simp] theorem markAcquired_owner : (markAcquired s).owner = s.owner := rfl
@[simp] theorem markAcquired_savedTarget : (markAcquired s).savedTarget = s.savedTarget := rfl
@[simp] theorem markAcquired_wbuf : (markAcquired s).wbuf = s.wbuf := rfl
@[simp] theorem markAcquired_disposed : (markAcquired s).disposed = s.disposed := rfl
@[simp] theorem markAcquired_rxq : (markAcquired s).rxq = s.rxq := rfl
@[simp] theorem markAcquired_trace : (markAcquired s).trace = s.trace := rfl
@[simp] theorem markAcquired_bridge : (markAcquired s).bridge = s.bridge := rfl
@[simp] theorem markAcquired_cur : (markAcquired s).cur = s.cur := rfl
@[simp] theorem markAcquired_accept : (markAcquired s).accept = s.accept := rfl
@[simp] theorem markAcquired_reply : (markAcquired s).reply = s.reply := rfl
@[simp] theorem markAcquired_turns : (markAcquired s).turns = s.turns := rfl

/-! ### emit -/

@[simp] theorem emit_cfg (b : List Byte) : (emit b s).cfg = s.cfg := rfl
@[simp] theorem emit_x (b : List Byte) : (emit b s).x = s.x := rfl
@[simp] theorem emit_fnumTable (b : List Byte) : (emit b s).fnumTable = s.fnumTable := rfl
@[simp] theorem emit_csmap (b : List Byte) : (emit b s).csmap = s.csmap := rfl
@[simp] theorem emit_target (b : List Byte) : (emit b s).target = s.target := rfl
@[simp] theorem emit_targetPins (b : List Byte) : (emit b s).targetPins = s.targetPins := rfl
@[simp] theorem emit_sectionMode (b : List Byte) : (emit b s).sectionMode = s.sectionMode := rfl
@[simp] theorem emit_entered (b : List Byte) : (emit b s).entered = s.entered := rfl
@[simp] theorem emit_owner (b : List Byte) : (emit b s).owner = s.owner := rfl
@[simp] theorem emit_savedTarget (b : List Byte) : (emit b s).savedTarget = s.savedTarget := rfl
@[simp] theorem emit_wbuf (b : List Byte) : (emit b s).wbuf = s.wbuf ++ b := rfl
@[simp] theorem emit_disposed (b : List Byte) : (emit b s).disposed = s.disposed := rfl
@[simp] theorem emit_rxq (b : List Byte) : (emit b s).rxq = s.rxq := rfl
@[simp] theorem emit_trace (b : List Byte) : (emit b s).trace = s.trace := rfl
@[simp] theorem emit_reqs (b : List Byte) : (emit b s).reqs = s.reqs := rfl
@[simp] theorem emit_bridge (b : List Byte) : (emit b s).bridge = s.bridge := rfl
@[simp] theorem emit_cur (b : List Byte) : (emit b s).cur = s.cur := rfl
@[simp] theorem emit_accept (b : List Byte) : (emit b s).accept = s.accept := rfl
@[simp] theorem emit_reply (b : List Byte) : (emit b s).reply = s.reply := rfl
@[simp] theorem emit_turns (b : List Byte) : (emit b s).turns = s.turns := rfl

/-! ### record -/

@[simp] theorem record_cfg (e : Event) : (record e s).cfg = s.cfg := rfl
@[simp] theorem record_x (e : Event) : (record e s).x = s.x := rfl
@[simp] theorem record_fnumTable (e : Event) : (record e s).fnumTable = s.fnumTable := rfl
@[simp] theorem record_csmap (e : Event) : (record e s).csmap = s.csmap := rfl
@[simp] theorem record_target (e : Event) : (record e s).target = s.target := rfl
@[simp] theorem record_targetPins (e : Event) : (record e s).targetPins = s.targetPins := rfl
@[simp] theorem record_sectionMode (e : Event) : (record e s).sectionMode = s.sectionMode := rfl
@[simp] theorem record_entered (e : Event) : (record e s).entered = s.entered := rfl
@[simp] theorem record_owner (e : Event) : (record e s).owner = s.owner := rfl
@[simp] theorem record_savedTarget (e : Event) : (record e s).savedTarget = s.savedTarget := rfl
@[simp] theorem record_wbuf (e : Event) : (record e s).wbuf = s.wbuf := rfl
@[simp] theorem record_disposed (e : Event) : (record e s).disposed = s.disposed := rfl
@[simp] theorem record_rxq (e : Event) : (record e s).rxq = s.rxq := rfl
@[simp] theorem record_trace (e : Event) : (record e s).trace = s.trace ++ [e] := rfl
@[simp] theorem record_reqs (e : Event) : (record e s).reqs = s.reqs := rfl
@[simp] theorem record_bridge (e : Event) : (record e s).bridge = s.bridge := rfl
@[simp] theorem record_cur (e : Event) : (record e s).cur = s.cur := rfl
@[simp] theorem record_accept (e : Event) : (record e s).accept = s.accept := rfl
@[simp] theorem record_reply (e : Event) : (record e s).reply = s.reply := rfl
@[simp] theorem record_turns (e : Event) : (record e s).turns = s.turns := rfl

/-! ### deliver -/

@[simp] theorem deliver_cfg (b : List Byte) : (deliver b s).cfg = s.cfg := rfl
@[simp] theorem deliver_x (b : List Byte) : (deliver b s).x = s.x := rfl
@[simp] theorem deliver_fnumTable (b : List Byte) : (deliver b s).fnumTable = s.fnumTable := rfl
@[simp] theorem deliver_csmap (b : List Byte) : (deliver b s).csmap = s.csmap := rfl
@[simp] theorem deliver_target (b : List Byte) : (deliver b s).target = s.target := rfl
@[simp] theorem deliver_targetPins (b : List Byte) : (deliver b s).targetPins = s.targetPins := rfl
@[simp] theorem deliver_sectionMode (b : List Byte) : (deliver b s).sectionMode = s.sectionMode := rfl
@[simp] theorem deliver_entered (b : List Byte) : (deliver b s).entered = s.entered := rfl
@[simp] theorem deliver_owner (b : List Byte) : (deliver b s).owner = s.owner := rfl
@[simp] theorem deliver_savedTarget (b : List Byte) : (deliver b s).savedTarget = s.savedTarget := rfl
@[simp] theorem deliver_wbuf (b : List Byte) : (deliver b s).wbuf = s.wbuf := rfl
@[simp] theorem deliver_disposed (b : List Byte) : (deliver b s).disposed = s.disposed := rfl
@[simp] theorem deliver_rxq (b : List Byte) : (deliver b s).rxq = s.rxq := rfl
@[simp] theorem deliver_trace (b : List Byte) : (deliver b s).trace = s.trace := rfl
@[simp] theorem deliver_reqs (b : List Byte) : (deliver b s).reqs = s.reqs := rfl
@[simp] theorem deliver_bridge (b : List Byte) : (deliver b s).bridge = { s.bridge with stream := s.bridge.stream ++ b } := rfl
@[simp] theorem deliver_cur (b : List Byte) : (deliver b s).cur = s.cur := rfl
@[simp] theorem deliver_accept (b : List Byte) : (deliver b s).accept = s.accept := rfl
@[simp] theorem deliver_reply (b : List Byte) : (deliver b s).reply = s.reply := rfl
@[simp] theorem deliver_turns (b : List Byte) : (deliver b s).turns = s.turns := rfl

/-! ### switchTarget -/

@[simp] theorem switchTarget_cfg (chip : Chip) (pins : Byte) : (switchTarget chip pins s).cfg = s.cfg := rfl
@[simp] theorem switchTarget_x (chip : Chip) (pins : Byte) : (switchTarget chip pins s).x = s.x := rfl
@[simp] theorem switchTarget_fnumTable (chip : Chip) (pins : Byte) : (switchTarget chip pins s).fnumTable = s.fnumTable := rfl
@[simp] theorem switchTarget_csmap (chip : Chip) (pins : Byte) : (switchTarget chip pins s).csmap = s.csmap := rfl
@[simp] theorem switchTarget_target (chip : Chip) (pins : Byte) : (switchTarget chip pins s).target = chip := rfl
@[simp] theorem switchTarget_targetPins (chip : Chip) (pins : Byte) : (switchTarget chip pins s).targetPins = pins := rfl
@[simp] theorem switchTarget_sectionMode (chip : Chip) (pins : Byte) : (switchTarget chip pins s).sectionMode = s.sectionMode := rfl
@[simp] theorem switchTarget_entered (chip : Chip) (pins : Byte) : (switchTarget chip pins s).entered = s.entered := rfl
@[simp] theorem switchTarget_owner (chip : Chip) (pins : Byte) : (switchTarget chip pins s).owner = s.owner := rfl
@[simp] theorem switchTarget_savedTarget (chip : Chip) (pins : Byte) : (switchTarget chip pins s).savedTarget = s.savedTarget := rfl
@[simp] theorem switchTarget_wbuf (chip : Chip) (pins : Byte) : (switchTarget chip pins s).wbuf = s.wbuf := rfl
@[simp] theorem switchTarget_disposed (chip : Chip) (pins : Byte) : (switchTarget chip pins s).disposed = s.disposed := rfl
@[simp] theorem switchTarget_rxq (chip : Chip) (pins : Byte) : (switchTarget chip pins s).rxq = s.rxq := rfl
@[simp] theorem switchTarget_trace (chip : Chip) (pins : Byte) : (switchTarget chip pins s).trace = s.trace := rfl
@[simp] theorem switchTarget_reqs (chip : Chip) (pins : Byte) : (switchTarget chip pins s).reqs = s.reqs := rfl
@[simp] theorem switchTarget_bridge (chip : Chip) (pins : Byte) : (switchTarget chip pins s).bridge = s.bridge := rfl
@[simp] theorem switchTarget_cur (chip : Chip) (pins : Byte) : (switchTarget chip pins s).cur = s.cur := rfl
@[simp] theorem switchTarget_accept (chip : Chip) (pins : Byte) : (switchTarget chip pins s).accept = s.accept := rfl
@[simp] theorem switchTarget_reply (chip : Chip) (pins : Byte) : (switchTarget chip pins s).reply = s.reply := rfl
@[simp] theorem switchTarget_turns (chip : Chip) (pins : Byte) : (switchTarget chip pins s).turns = s.turns := rfl

/-! ### receive -/

@[simp] theorem receive_cfg (b : List Byte) : (receive b s).cfg = s.cfg := rfl
@[simp] theorem receive_x (b : List Byte) : (receive b s).x = s.x := rfl
@[simp] theorem receive_fnumTable (b : List Byte) : (receive b s).fnumTable = s.fnumTable := rfl
@[simp] theorem receive_csmap (b : List Byte) : (receive b s).csmap = s.csmap := rfl
@[simp] theorem receive_target (b : List Byte) : (receive b s).target = s.target := rfl
@[simp] theorem receive_targetPins (b : List Byte) : (receive b s).targetPins = s.targetPins := rfl
@[simp] theorem receive_sectionMode (b : List Byte) : (receive b s).sectionMode = s.sectionMode := rfl
@[simp] theorem receive_entered (b : List Byte) : (receive b s).entered = s.entered := rfl
@[simp] theorem receive_owner (b : List Byte) : (receive b s).owner = s.owner := rfl
@[simp] theorem receive_savedTarget (b : List Byte) : (receive b s).savedTarget = s.savedTarget := rfl
@[simp] theorem receive_wbuf (b : List Byte) : (receive b s).wbuf = s.wbuf := rfl
@[simp] theorem receive_disposed (b : List Byte) : (receive b s).disposed = s.disposed := rfl
@[simp] theorem receive_rxq (b : List Byte) : (receive b s).rxq = s.rxq ++ b := rfl
@[simp] theorem receive_trace (b : List Byte) : (receive b s).trace = s.trace := rfl
@[simp] theorem receive_reqs (b : List Byte) : (receive b s).reqs = s.reqs := rfl
@[simp] theorem receive_bridge (b : List Byte) : (receive b s).bridge = s.bridge := rfl
@[simp] theorem receive_cur (b : List Byte) : (receive b s).cur = s.cur := rfl
@[simp] theorem receive_accept (b : List Byte) : (receive b s).accept = s.accept := rfl
@[simp] theorem receive_reply (b : List Byte) : (receive b s).reply = s.reply := rfl
@[simp] theorem receive_turns (b : List Byte) : (receive b s).turns = s.turns := rfl

/-! ### setBank -/

@[simp] theorem setBank_cfg (h : Bool) (k : Bank) : (setBank h k s).cfg = s.cfg := rfl
@[simp] theorem setBank_x (h : Bool) (k : Bank) : (setBank h k s).x = s.x := rfl
@[simp] theorem setBank_fnumTable (h : Bool) (k : Bank) : (setBank h k s).fnumTable = s.fnumTable := rfl
@[simp] theorem setBank_csmap (h : Bool) (k : Bank) : (setBank h k s).csmap = s.csmap := rfl
@[simp] theorem setBank_target (h : Bool) (k : Bank) : (setBank h k s).target = s.target := rfl
@[simp] theorem setBank_targetPins (h : Bool) (k : Bank) : (setBank h k s).targetPins = s.targetPins := rfl
@[simp] theorem setBank_sectionMode (h : Bool) (k : Bank) : (setBank h k s).sectionMode = s.sectionMode := rfl
@[simp] theorem setBank_entered (h : Bool) (k : Bank) : (setBank h k s).entered = s.entered := rfl
@[simp] theorem setBank_owner (h : Bool) (k : Bank) : (setBank h k s).owner = s.owner := rfl
@[simp] theorem setBank_savedTarget (h : Bool) (k : Bank) : (setBank h k s).savedTarget = s.savedTarget := rfl
@[simp] theorem setBank_wbuf (h : Bool) (k : Bank) : (setBank h k s).wbuf = s.wbuf := rfl
@[simp] theorem setBank_disposed (h : Bool) (k : Bank) : (setBank h k s).disposed = s.disposed := rfl
@[simp] theorem setBank_rxq (h : Bool) (k : Bank) : (setBank h k s).rxq = s.rxq := rfl
@[simp] theorem setBank_trace (h : Bool) (k : Bank) : (setBank h k s).trace = s.trace := rfl
@[simp] theorem setBank_reqs (h : Bool) (k : Bank) : (setBank h k s).reqs = s.reqs := rfl
@[simp] theorem setBank_bridge (h : Bool) (k : Bank) : (setBank h k s).bridge = if h then { s.bridge with high := k } else { s.bridge with low := k } := rfl
@[simp] theorem setBank_cur (h : Bool) (k : Bank) : (setBank h k s).cur = s.cur := rfl
@[simp] theorem setBank_accept (h : Bool) (k : Bank) : (setBank h k s).accept = s.accept := rfl
@[simp] theorem setBank_reply (h : Bool) (k : Bank) : (setBank h k s).reply = s.reply := rfl
@[simp] theorem setBank_turns (h : Bool) (k : Bank) : (setBank h k s).turns = s.turns := rfl

/-! ### spiTransfer -/

@[simp] theorem spiTransfer_cfg (r : Bool) (a : Byte) (d : List Byte) : (spiTransfer r a d s).cfg = s.cfg := rfl
@[simp] theorem spiTransfer_x (r : Bool) (a : Byte) (d : List Byte) : (spiTransfer r a d s).x = s.x := rfl
@[simp] theorem spiTransfer_fnumTable (r : Bool) (a : Byte) (d : List Byte) : (spiTransfer r a d s).fnumTable = s.fnumTable := rfl
@[simp] theorem spiTransfer_csmap (r : Bool) (a : Byte) (d : List Byte) : (spiTransfer r a d s).csmap = s.csmap := rfl
@[simp] theorem spiTransfer_target (r : Bool) (a : Byte) (d : List Byte) : (spiTransfer r a d s).target = s.target := rfl
@[simp] theorem spiTransfer_targetPins (r : Bool) (a : Byte) (d : List Byte) : (spiTransfer r a d s).targetPins = s.targetPins := rfl
@[simp] theorem spiTransfer_sectionMode (r : Bool) (a : Byte) (d : List Byte) : (spiTransfer r a d s).sectionMode = s.sectionMode := rfl
@[simp] theorem spiTransfer_entered (r : Bool) (a : Byte) (d : List Byte) : (spiTransfer r a d s).entered = s.entered := rfl
@[simp] theorem spiTransfer_owner (r : Bool) (a : Byte) (d : List Byte) : (spiTransfer r a d s).owner = s.owner := rfl
@[simp] theorem spiTransfer_savedTarget (r : Bool) (a : Byte) (d : List Byte) : (spiTransfer r a d s).savedTarget = s.savedTarget := rfl
@[simp] theorem spiTransfer_wbuf (r : Bool) (a : Byte) (d : List Byte) : (spiTransfer r a d s).wbuf = s.wbuf := rfl
@[simp] theorem spiTransfer_disposed (r : Bool) (a : Byte) (d : List Byte) : (spiTransfer r a d s).disposed = s.disposed := rfl
@[simp] theorem spiTransfer_rxq (r : Bool) (a : Byte) (d : List Byte) : (spiTransfer r a d s).rxq = s.rxq := rfl
@[simp] theorem spiTransfer_trace (r : Bool) (a : Byte) (d : List Byte) : (spiTransfer r a d s).trace = s.trace := rfl
@[simp] theorem spiTransfer_reqs (r : Bool) (a : Byte) (d : List Byte) : (spiTransfer r a d s).reqs = s.reqs := rfl
@[simp] theorem spiTransfer_bridge (r : Bool) (a : Byte) (d : List Byte) : (spiTransfer r a d s).bridge = { s.bridge with spi := s.bridge.spi ++ [⟨s.bridge.low.value, s.bridge.high.value, r, a, d⟩] } := rfl
@[simp] theorem spiTransfer_cur (r : Bool) (a : Byte) (d : List Byte) : (spiTransfer r a d s).cur = s.cur := rfl
@[simp] theorem spiTransfer_accept (r : Bool) (a : Byte) (d : List Byte) : (spiTransfer r a d s).accept = s.accept := rfl
@[simp] theorem spiTransfer_reply (r : Bool) (a : Byte) (d : List Byte) : (spiTransfer r a d s).reply = s.reply := rfl
@[simp] theorem spiTransfer_turns (r : Bool) (a : Byte) (d : List Byte) : (spiTransfer r a d s).turns = s.turns := rfl

/-! ### consumeStream -/

@[simp] theorem consumeStream_cfg (b : List Byte) : (consumeStream b s).cfg = s.cfg := rfl
@[simp] theorem consumeStream_x (b : List Byte) : (consumeStream b s).x = s.x := rfl
@[simp] theorem consumeStream_fnumTable (b : List Byte) : (consumeStream b s).fnumTable = s.fnumTable := rfl
@[simp] theorem consumeStream_csmap (b : List Byte) : (consumeStream b s).csmap = s.csmap := rfl
@[simp] theorem consumeStream_target (b : List Byte) : (consumeStream b s).target = s.target := rfl
@[simp] theorem consumeStream_targetPins (b : List Byte) : (consumeStream b s).targetPins = s.targetPins := rfl
@[simp] theorem consumeStream_sectionMode (b : List Byte) : (consumeStream b s).sectionMode = s.sectionMode := rfl
@[simp] theorem consumeStream_entered (b : List Byte) : (consumeStream b s).entered = s.entered := rfl
@[simp] theorem consumeStream_owner (b : List Byte) : (consumeStream b s).owner = s.owner := rfl
@[simp] theorem consumeStream_savedTarget (b : List Byte) : (consumeStream b s).savedTarget = s.savedTarget := rfl
@[simp] theorem consumeStream_wbuf (b : List Byte) : (consumeStream b s).wbuf = s.wbuf := rfl
@[simp] theorem consumeStream_disposed (b : List Byte) : (consumeStream b s).disposed = s.disposed := rfl
@[simp] theorem consumeStream_rxq (b : List Byte) : (consumeStream b s).rxq = s.rxq := rfl
@[simp] theorem consumeStream_trace (b : List Byte) : (consumeStream b s).trace = s.trace := rfl
@[simp] theorem consumeStream_reqs (b : List Byte) : (consumeStream b s).reqs = s.reqs := rfl
@[simp] theorem consumeStream_bridge (b : List Byte) : (consumeStream b s).bridge = { s.bridge with stream := b } := rfl
@[simp] theorem consumeStream_cur (b : List Byte) : (consumeStream b s).cur = s.cur := rfl
@[simp] theorem consumeStream_accept (b : List Byte) : (consumeStream b s).accept = s.accept := rfl
@[simp] theorem consumeStream_reply (b : List Byte) : (consumeStream b s).reply = s.reply := rfl
@[simp] theorem consumeStream_turns (b : List Byte) : (consumeStream b s).turns = s.turns := rfl

/-! ### setSlot -/

@[simp] theorem setSlot_cfg (t : Fin 16) (f : ToneSlot → ToneSlot) : (setSlot t f s).cfg = s.cfg := rfl
@[simp] theorem setSlot_x (t : Fin 16) (f : ToneSlot → ToneSlot) : (setSlot t f s).x = s.x.set t (f s.x[t]) := rfl
@[simp] theorem setSlot_fnumTable (t : Fin 16) (f : ToneSlot → ToneSlot) : (setSlot t f s).fnumTable = s.fnumTable := rfl
@[simp] theorem setSlot_csmap (t : Fin 16) (f : ToneSlot → ToneSlot) : (setSlot t f s).csmap = s.csmap := rfl
@[simp] theorem setSlot_target (t : Fin 16) (f : ToneSlot → ToneSlot) : (setSlot t f s).target = s.target := rfl
@[simp] theorem setSlot_targetPins (t : Fin 16) (f : ToneSlot → ToneSlot) : (setSlot t f s).targetPins = s.targetPins := rfl
@[simp] theorem setSlot_sectionMode (t : Fin 16) (f : ToneSlot → ToneSlot) : (setSlot t f s).sectionMode = s.sectionMode := rfl
@[simp] theorem setSlot_entered (t : Fin 16) (f : ToneSlot → ToneSlot) : (setSlot t f s).entered = s.entered := rfl
@[simp] theorem setSlot_owner (t : Fin 16) (f : ToneSlot → ToneSlot) : (setSlot t f s).owner = s.owner := rfl
@[simp] theorem setSlot_savedTarget (t : Fin 16) (f : ToneSlot → ToneSlot) : (setSlot t f s).savedTarget = s.savedTarget := rfl
@[simp] theorem setSlot_wbuf (t : Fin 16) (f : ToneSlot → ToneSlot) : (setSlot t f s).wbuf = s.wbuf := rfl
@[simp] theorem setSlot_disposed (t : Fin 16) (f : ToneSlot → ToneSlot) : (setSlot t f s).disposed = s.disposed := rfl
@[simp] theorem setSlot_rxq (t : Fin 16) (f : ToneSlot → ToneSlot) : (setSlot t f s).rxq = s.rxq := rfl
@[simp] theorem setSlot_trace (t : Fin 16) (f : ToneSlot → ToneSlot) : (setSlot t f s).trace = s.trace := rfl
@[simp] theorem setSlot_reqs (t : Fin 16) (f : ToneSlot → ToneSlot) : (setSlot t f s).reqs = s.reqs := rfl
@[simp] theorem setSlot_bridge (t : Fin 16) (f : ToneSlot → ToneSlot) : (setSlot t f s).bridge = s.bridge := rfl
@[simp] theorem setSlot_cur (t : Fin 16) (f : ToneSlot → ToneSlot) : (setSlot t f s).cur = s.cur := rfl
@[simp] theorem setSlot_accept (t : Fin 16) (f : ToneSlot → ToneSlot) : (setSlot t f s).accept = s.accept := rfl
@[simp] theorem setSlot_reply (t : Fin 16) (f : ToneSlot → ToneSlot) : (setSlot t f s).reply = s.reply := rfl
@[simp] theorem setSlot_turns (t : Fin 16) (f : ToneSlot → ToneSlot) : (setSlot t f s).turns = s.turns := rfl

/-! ### setOperator -/

@[simp] theorem setOperator_cfg (t : Fin 16) (k : Fin 4) (f : Operator → Operator) : (setOperator t k f s).cfg = s.cfg := rfl
@[simp] theorem setOperator_fnumTable (t : Fin 16) (k : Fin 4) (f : Operator → Operator) : (setOperator t k f s).fnumTable = s.fnumTable := rfl
@[simp] theorem setOperator_csmap (t : Fin 16) (k : Fin 4) (f : Operator → Operator) : (setOperator t k f s).csmap = s.csmap := rfl
@[simp] theorem setOperator_target (t : Fin 16) (k : Fin 4) (f : Operator → Operator) : (setOperator t k f s).target = s.target := rfl
@[simp] theorem setOperator_targetPins (t : Fin 16) (k : Fin 4) (f : Operator → Operator) : (setOperator t k f s).targetPins = s.targetPins := rfl
@[simp] theorem setOperator_sectionMode (t : Fin 16) (k : Fin 4) (f : Operator → Operator) : (setOperator t k f s).sectionMode = s.sectionMode := rfl
@[simp] theorem setOperator_entered (t : Fin 16) (k : Fin 4) (f : Operator → Operator) : (setOperator t k f s).entered = s.entered := rfl
@[simp] theorem setOperator_owner (t : Fin 16) (k : Fin 4) (f : Operator → Operator) : (setOperator t k f s).owner = s.owner := rfl
@[simp] theorem setOperator_savedTarget (t : Fin 16) (k : Fin 4) (f : Operator → Operator) : (setOperator t k f s).savedTarget = s.savedTarget := rfl
@[simp] theorem setOperator_wbuf (t : Fin 16) (k : Fin 4) (f : Operator → Operator) : (setOperator t k f s).wbuf = s.wbuf := rfl
@[simp] theorem setOperator_disposed (t : Fin 16) (k : Fin 4) (f : Operator → Operator) : (setOperator t k f s).disposed = s.disposed := rfl
@[simp] theorem setOperator_rxq (t : Fin 16) (k : Fin 4) (f : Operator → Operator) : (setOperator t k f s).rxq = s.rxq := rfl
@[simp] theorem setOperator_trace (t : Fin 16) (k : Fin 4) (f : Operator → Operator) : (setOperator t k f s).trace = s.trace := rfl
@[simp] theorem setOperator_reqs (t : Fin 16) (k : Fin 4) (f : Operator → Operator) : (setOperator t k f s).reqs = s.reqs := rfl
@[simp] theorem setOperator_bridge (t : Fin 16) (k : Fin 4) (f : Operator → Operator) : (setOperator t k f s).bridge = s.bridge := rfl
@[simp] theorem setOperator_cur (t : Fin 16) (k : Fin 4) (f : Operator → Operator) : (setOperator t k f s).cur = s.cur := rfl
@[simp] theorem setOperator_accept (t : Fin 16) (k : Fin 4) (f : Operator → Operator) : (setOperator t k f s).accept = s.accept := rfl
@[simp] theorem setOperator_reply (t : Fin 16) (k : Fin 4) (f : Operator → Operator) : (setOperator t k f s).reply = s.reply := rfl
@[simp] theorem setOperator_turns (t : Fin 16) (k : Fin 4) (f : Operator → Operator) : (setOperator t k f s).turns = s.turns := rfl

/-! ### recordDelay -/

@[simp] theorem recordDelay_cfg (ms : Nat) : (recordDelay ms s).cfg = s.cfg := by unfold recordDelay; split <;> rfl
@[simp] theorem recordDelay_x (ms : Nat) : (recordDelay ms s).x = s.x := by unfold recordDelay; split <;> rfl
@[simp] theorem recordDelay_fnumTable (ms : Nat) : (recordDelay ms s).fnumTable = s.fnumTable := by unfold recordDelay; split <;> rfl
@[simp] theorem recordDelay_csmap (ms : Nat) : (recordDelay ms s).csmap = s.csmap := by unfold recordDelay; split <;> rfl
@[simp] theorem recordDelay_target (ms : Nat) : (recordDelay ms s).target = s.target := by unfold recordDelay; split <;> rfl
@[simp] theorem recordDelay_targetPins (ms : Nat) : (recordDelay ms s).targetPins = s.targetPins := by unfold recordDelay; split <;> rfl
@[simp] theorem recordDelay_sectionMode (ms : Nat) : (recordDelay ms s).sectionMode = s.sectionMode := by unfold recordDelay; split <;> rfl
@[simp] theorem recordDelay_entered (ms : Nat) : (recordDelay ms s).entered = s.entered := by unfold recordDelay; split <;> rfl
@[simp] theorem recordDelay_owner (ms : Nat) : (recordDelay ms s).owner = s.owner := by unfold recordDelay; split <;> rfl
@[simp] theorem recordDelay_savedTarget (ms : Nat) : (recordDelay ms s).savedTarget = s.savedTarget := by unfold recordDelay; split <;> rfl
@[simp] theorem recordDelay_wbuf (ms : Nat) : (recordDelay ms s).wbuf = s.wbuf := by unfold recordDelay; split <;> rfl
@[simp] theorem recordDelay_disposed (ms : Nat) : (recordDelay ms s).disposed = s.disposed := by unfold recordDelay; split <;> rfl
@[simp] theorem recordDelay_rxq (ms : Nat) : (recordDelay ms s).rxq = s.rxq := by unfold recordDelay; split <;> rfl
@[simp] theorem recordDelay_reqs (ms : Nat) : (recordDelay ms s).reqs = s.reqs := by unfold recordDelay; split <;> rfl
@[simp] theorem recordDelay_bridge (ms : Nat) : (recordDelay ms s).bridge = s.bridge := by unfold recordDelay; split <;> rfl
@[simp] theorem recordDelay_cur (ms : Nat) : (recordDelay ms s).cur = s.cur := by unfold recordDelay; split <;> rfl
@[simp] theorem recordDelay_accept (ms : Nat) : (recordDelay ms s).accept = s.accept := by unfold recordDelay; split <;> rfl
@[simp] theorem recordDelay_reply (ms : Nat) : (recordDelay ms s).reply = s.reply := by unfold recordDelay; split <;> rfl
@[simp] theorem recordDelay_turns (ms : Nat) : (recordDelay ms s).turns = s.turns := by unfold recordDelay; split <;> rfl

/-! ### takeLock -/

@[simp] theorem takeLock_cfg : (takeLock s).cfg = s.cfg := by unfold takeLock; split <;> rfl
@[simp] theorem takeLock_x : (takeLock s).x = s.x := by unfold takeLock; split <;> rfl
@[simp] theorem takeLock_fnumTable : (takeLock s).fnumTable = s.fnumTable := by unfold takeLock; split <;> rfl
@[simp] theorem takeLock_csmap : (takeLock s).csmap = s.csmap := by unfold takeLock; split <;> rfl
@[simp] theorem takeLock_target : (takeLock s).target = s.target := by unfold takeLock; split <;> rfl
@[simp] theorem takeLock_targetPins : (takeLock s).targetPins = s.targetPins := by unfold takeLock; split <;> rfl
@[simp] theorem takeLock_sectionMode : (takeLock s).sectionMode = s.sectionMode := by unfold takeLock; split <;> rfl
@[simp] theorem takeLock_savedTarget : (takeLock s).savedTarget = s.savedTarget := by unfold takeLock; split <;> rfl
@[simp] theorem takeLock_wbuf : (takeLock s).wbuf = s.wbuf := by unfold takeLock; split <;> rfl
@[simp] theorem takeLock_disposed : (takeLock s).disposed = s.disposed := by unfold takeLock; split <;> rfl
@[simp] theorem takeLock_rxq : (takeLock s).rxq = s.rxq := by unfold takeLock; split <;> rfl
@[simp] theorem takeLock_trace : (takeLock s).trace = s.trace := by unfold takeLock; split <;> rfl
@[simp] theorem takeLock_reqs : (takeLock s).reqs = s.reqs := by unfold takeLock; split <;> rfl
@[simp] theorem takeLock_bridge : (takeLock s).bridge = s.bridge := by unfold takeLock; split <;> rfl
@[simp] theorem takeLock_cur : (takeLock s).cur = s.cur := by unfold takeLock; split <;> rfl
@[simp] theorem takeLock_accept : (takeLock s).accept = s.accept := by unfold takeLock; split <;> rfl
@[simp] theorem takeLock_reply : (takeLock s).reply = s.reply := by unfold takeLock; split <;> rfl
@[simp] theorem takeLock_turns : (takeLock s).turns = s.turns := by unfold takeLock; split <;> rfl

/-! ### dropLock -/

@[simp] theorem dropLock_cfg : (dropLock s).cfg = s.cfg := by unfold dropLock; split <;> rfl
@[simp] theorem dropLock_x : (dropLock s).x = s.x := by unfold dropLock; split <;> rfl
@[simp] theorem dropLock_fnumTable : (dropLock s).fnumTable = s.fnumTable := by unfold dropLock; split <;> rfl
@[simp] theorem dropLock_csmap : (dropLock s).csmap = s.csmap := by unfold dropLock; split <;> rfl
@[simp] theorem dropLock_target : (dropLock s).target = s.target := by unfold dropLock; split <;> rfl
@[simp] theorem dropLock_targetPins : (dropLock s).targetPins = s.targetPins := by unfold dropLock; split <;> rfl
@[simp] theorem dropLock_sectionMode : (dropLock s).sectionMode = s.sectionMode := by unfold dropLock; split <;> rfl
@[simp] theorem dropLock_entered : (dropLock s).entered = s.entered := by unfold dropLock; split <;> rfl
@[simp] theorem dropLock_savedTarget : (dropLock s).savedTarget = s.savedTarget := by unfold dropLock; split <;> rfl
@[simp] theorem dropLock_wbuf : (dropLock s).wbuf = s.wbuf := by unfold dropLock; split <;> rfl
@[simp] theorem dropLock_disposed : (dropLock s).disposed = s.disposed := by unfold dropLock; split <;> rfl
@[simp] theorem dropLock_rxq : (dropLock s).rxq = s.rxq := by unfold dropLock; split <;> rfl
@[simp] theorem dropLock_trace : (dropLock s).trace = s.trace := by unfold dropLock; split <;> rfl
@[simp] theorem dropLock_reqs : (dropLock s).reqs = s.reqs := by unfold dropLock; split <;> rfl
@[simp] theorem dropLock_bridge : (dropLock s).bridge = s.bridge := by unfold dropLock; split <;> rfl
@[simp] theorem dropLock_cur : (dropLock s).cur = s.cur := by unfold dropLock; split <;> rfl
@[simp] theorem dropLock_accept : (dropLock s).accept = s.accept := by unfold dropLock; split <;> rfl
@[simp] theorem dropLock_reply : (dropLock s).reply = s.reply := by unfold dropLock; split <;> rfl
@[simp] theorem dropLock_turns : (dropLock s).turns = s.turns := by unfold dropLock; split <;> rfl

/-- The events of a delay (R15). -/
@[simp] theorem recordDelay_trace (ms : Nat) : (recordDelay ms s).trace = s.trace ++ if ms = 0 then [] else [.delay ms] := by
  unfold recordDelay; split <;> simp

/-- The lock is counted under section mode only (R34). -/
@[simp] theorem takeLock_entered : (takeLock s).entered = if s.sectionMode then s.entered + 1 else s.entered := by
  unfold takeLock; split <;> simp_all

/-- The lock is taken under section mode only (R35). -/
@[simp] theorem takeLock_owner : (takeLock s).owner = if s.sectionMode then some s.cur else s.owner := by
  unfold takeLock; split <;> simp_all

/-- The lock is given back under section mode only (R305). -/
@[simp] theorem dropLock_owner : (dropLock s).owner = if s.sectionMode then none else s.owner := by
  unfold dropLock; split <;> simp_all

end Sys2Proof.Machine
end

