-- ==== Sys2Proof/Laws/Stream.lean ====
section
/-!
SUPPORT. Byte strings made of whole stream commands (spec/10_state.md R45(d)): what the operations append is one.
-/
namespace Sys2Proof

theorem WholeCommands.nil : WholeCommands [] := ⟨[], by simp⟩

theorem WholeCommands.append {a b : List Byte} (ha : WholeCommands a) (hb : WholeCommands b) : WholeCommands (a ++ b) := by
  obtain ⟨x, hx, rfl⟩ := ha
  obtain ⟨y, hy, rfl⟩ := hb
  exact ⟨x ++ y, fun i hi => (List.mem_append.mp hi).elim (hx i) (hy i), by simp⟩

/-- One well-formed stream command. -/
theorem WholeCommands.single {i : Instr} (hs : i.isStream = true) (hw : i.wellFormed = true) :
    WholeCommands i.streamBytes := ⟨[i], by simp [hs, hw]⟩

/-- A GPIO-set command (R100). -/
theorem WholeCommands.gpio (high : Bool) (v d : Byte) : WholeCommands [Machine.gpioOp high, v, d] := by
  cases high
  · exact WholeCommands.single (i := .gpioLow v d) rfl rfl
  · exact WholeCommands.single (i := .gpioHigh v d) rfl rfl

/-- The flush command (R103). -/
theorem WholeCommands.flush : WholeCommands [0x87] := WholeCommands.single (i := .streamFlush) rfl rfl

/-- The SPI write of a frame (R101). -/
theorem WholeCommands.spiWrite (addr : Byte) {data : List Byte} (h1 : 1 ≤ data.length) (h2 : data.length ≤ 65535) :
    WholeCommands ([0x11] ++ lenField data.length ++ [addr] ++ data) :=
  WholeCommands.single (i := .spiWrite addr data) rfl (by simp [Instr.wellFormed, h1, h2])

/-- The SPI read of a frame (R102). -/
theorem WholeCommands.spiRead (addr : Byte) : WholeCommands [0x31, 0x01, 0x00, addr ||| 0x80, 0x00] :=
  WholeCommands.single (i := .spiRead (addr ||| 0x80) [0x00]) rfl (by simp [Instr.wellFormed])

namespace Machine

theorem wholeCommands_csEnable (s : State) : WholeCommands (csEnable s) := WholeCommands.gpio _ _ _

theorem wholeCommands_csDisable (s : State) : WholeCommands (csDisable s) := WholeCommands.gpio _ _ _

/-- A write frame is three whole commands (R104). -/
theorem wholeCommands_writeFrame (s : State) (addr : Byte) {data : List Byte} (h1 : 1 ≤ data.length)
    (h2 : data.length ≤ 65535) : WholeCommands (writeFrame addr data s) :=
  ((wholeCommands_csEnable s).append (WholeCommands.spiWrite addr h1 h2)).append (wholeCommands_csDisable s)

/-- A read frame is three whole commands (R104). -/
theorem wholeCommands_readFrame (s : State) (addr : Byte) : WholeCommands (readFrame addr s) :=
  ((wholeCommands_csEnable s).append (WholeCommands.spiRead addr)).append (wholeCommands_csDisable s)

end Machine

end Sys2Proof
end

