-- ==== Sys2Proof/Laws/Ops.lean ====
section
/-!
SUPPORT. For each shared operation of Sys2Proof/Machine/Ops.lean, once, everything it can do; and how the operations on the
block commute with a change of the requester whose turn it is.
-/
namespace Sys2Proof.Machine

/-- The state a step ends in, changed. -/
def Run.onState (g : State → State) : Run → Run
  | .done s => .done (g s)
  | .raise e s => .raise e (g s)
  | .hold => .hold
  | .fault f => .fault f

@[simp] theorem Run.andThen_done (s : State) (f : State → Run) : (Run.done s).andThen f = f s := rfl
@[simp] theorem Run.andThen_raise (e : Status) (s : State) (f : State → Run) : (Run.raise e s).andThen f = .raise e s := rfl
@[simp] theorem Run.onState_done (g : State → State) (s : State) : (Run.done s).onState g = .done (g s) := rfl
@[simp] theorem Run.onState_raise (g : State → State) (e : Status) (s : State) : (Run.raise e s).onState g = .raise e (g s) :=
  rfl

/-- A change of the state that later steps do not see. -/
theorem Run.andThen_onState {g : State → State} {r : Run} {f : State → Run} (h : ∀ s, f (g s) = (f s).onState g) :
    (r.onState g).andThen f = (r.andThen f).onState g := by
  cases r <;> simp [Run.onState, Run.andThen, h]

/-! ### What each operation can do -/

/-- The state after an accepted flush (R227). -/
def flushed (s : State) : State :=
  deliver (s.wbuf ++ [0x87]) (record (.tx (s.wbuf ++ [0x87])) { s with wbuf := [] })

theorem flush_done {s : State} (h : s.disposed = false) (ha : s.accept = true) : flush s = .done (flushed s) := by
  simp [flush, h, ha, flushed]

theorem flush_failed {s : State} (h : s.disposed = false) (ha : s.accept = false) :
    flush s = .raise .communicationError { s with wbuf := s.wbuf ++ [0x87] } := by simp [flush, h, ha]

theorem flush_disposed {s : State} (h : s.disposed = true) : flush s = .raise .communicationError s := by simp [flush, h]

theorem noTarget_false {s : State} (h : s.targetPins ≠ 0) : noTarget s = false := by simpa [noTarget] using h

theorem noTarget_true {s : State} (h : s.targetPins = 0) : noTarget s = true := by simp [noTarget, h]

theorem queueWrite_done {s : State} (h : s.disposed = false) (ht : s.targetPins ≠ 0) (addr : Byte) (data : List Byte) :
    queueWrite addr data s = .done (emit (writeFrame addr data s) s) := by simp [queueWrite, h, noTarget_false ht]

theorem queueWrite_refused {s : State} (h : s.disposed = true ∨ s.targetPins = 0) (addr : Byte) (data : List Byte) :
    queueWrite addr data s = .raise .communicationError s := by
  by_cases hd : s.disposed = true
  · simp [queueWrite, hd]
  · rcases h with h | h
    · exact absurd h hd
    · simp [queueWrite, hd, noTarget_true h]

theorem queueBurst_legal {bytes : List Byte} {offset count : Int} (h : burstOk bytes offset count = true) (addr : Byte)
    (s : State) : queueBurst addr bytes offset count s = queueWrite addr (sliceOf bytes offset count) s := by
  simp [queueBurst, h]

theorem queueBurst_illegal {bytes : List Byte} {offset count : Int} (h : burstOk bytes offset count = false) (addr : Byte)
    (s : State) : queueBurst addr bytes offset count s = .raise .rangeError s := by simp [queueBurst, h]

/-- A legal slice holds 1 to 65535 bytes (R226). -/
theorem sliceOf_length {bytes : List Byte} {offset count : Int} (h : burstOk bytes offset count = true) :
    (sliceOf bytes offset count).length = count.toNat ∧ 1 ≤ count.toNat ∧ count.toNat ≤ 65535 := by
  simp [burstOk, inRange] at h
  simp [sliceOf]
  omega

/-- A burst of a whole string is legal when the string is not empty and at most 65535 bytes long. -/
theorem burstOk_whole {bytes : List Byte} (h1 : 1 ≤ bytes.length) (h2 : bytes.length ≤ 65535) :
    burstOk bytes 0 bytes.length = true := by simp [burstOk, inRange]; omega

theorem sliceOf_whole (bytes : List Byte) : sliceOf bytes 0 bytes.length = bytes := by simp [sliceOf]

/-- A single-byte register write where it can take place, in either section mode (R250). -/
def wrote (addr : Byte) (data : List Byte) (s : State) : State :=
  if s.sectionMode then emit (writeFrame addr data s) s else flushed (emit (writeFrame addr data s) s)

theorem queueThenFlush_done {s : State} (h : CanWrite s) (addr : Byte) (data : List Byte) :
    (queueWrite addr data s).andThen autoFlush = .done (wrote addr data s) := by
  obtain ⟨hd, ht, ha⟩ := h
  rw [queueWrite_done hd ht, Run.andThen_done, autoFlush]
  by_cases hm : s.sectionMode = true
  · simp [hm, wrote]
  · have hf : s.sectionMode = false := by simpa using hm
    simp only [emit_sectionMode, hf, wrote, Bool.false_eq_true, if_false]
    exact flush_done (by simpa using hd) (by simpa using ha hf)

theorem drvWrite_done {s : State} (h : CanWrite s) (addr data : Byte) :
    drvWrite addr data s = .done (wrote addr [data] s) := queueThenFlush_done h addr [data]

theorem drvBurst_done {s : State} (h : CanWrite s) {bytes : List Byte} {offset count : Int}
    (hb : burstOk bytes offset count = true) (addr : Byte) :
    drvBurst addr bytes offset count s = .done (wrote addr (sliceOf bytes offset count) s) := by
  rw [drvBurst, queueBurst_legal hb]; exact queueThenFlush_done h addr _

theorem drvWrite_refused {s : State} (h : s.disposed = true ∨ s.targetPins = 0) (addr data : Byte) :
    drvWrite addr data s = .raise .communicationError s := by simp [drvWrite, queueWrite_refused h]

theorem drvBurst_refused {s : State} (h : s.disposed = true ∨ s.targetPins = 0) {bytes : List Byte} {offset count : Int}
    (hb : burstOk bytes offset count = true) (addr : Byte) :
    drvBurst addr bytes offset count s = .raise .communicationError s := by
  simp [drvBurst, queueBurst_legal hb, queueWrite_refused h]

theorem drvBurst_illegal {bytes : List Byte} {offset count : Int} (hb : burstOk bytes offset count = false) (addr : Byte)
    (s : State) : drvBurst addr bytes offset count s = .raise .rangeError s := by simp [drvBurst, queueBurst_illegal hb]

/-- The block after a write, as claims state it. -/
theorem wrote_block (addr : Byte) (data : List Byte) (s : State) :
    (wrote addr data s).block = written (writeFrame addr data s) s := by
  unfold wrote written; split <;> simp [State.block, flushed]

/-- The bytes a write sends, as claims state them. -/
theorem wrote_bridge (addr : Byte) (data : List Byte) (s : State) : (wrote addr data s).bridge =
    { s.bridge with stream := s.bridge.stream ++ sentBy (writeFrame addr data s) s } := by
  unfold wrote sentBy; split <;> simp [flushed]

/-- A write changes the buffer, the trace and the bridge only. -/
theorem wrote_rest (addr : Byte) (data : List Byte) (s : State) :
    (wrote addr data s).cfg = s.cfg ∧ (wrote addr data s).turns = s.turns ∧ (wrote addr data s).cur = s.cur ∧
      (wrote addr data s).accept = s.accept ∧ (wrote addr data s).reply = s.reply ∧ (wrote addr data s).reqs = s.reqs := by
  unfold wrote; split <;> simp [flushed]

/-! ### The current requester does not matter to the transport -/

section
variable (f : Requester → Requester) (s : State)

theorem flush_updateMe : flush (updateMe f s) = (flush s).onState (updateMe f) := by
  cases hd : s.disposed <;> cases ha : s.accept <;> simp [flush, hd, ha] <;> rfl

theorem queueWrite_updateMe (addr : Byte) (data : List Byte) :
    queueWrite addr data (updateMe f s) = (queueWrite addr data s).onState (updateMe f) := by
  have hn : noTarget (updateMe f s) = noTarget s := rfl
  cases hd : s.disposed <;> cases h : noTarget s <;> simp [queueWrite, hd, hn, h] <;> rfl

theorem autoFlush_updateMe : autoFlush (updateMe f s) = (autoFlush s).onState (updateMe f) := by
  cases hm : s.sectionMode <;> simp [autoFlush, hm, flush_updateMe]

theorem drvWrite_updateMe (addr data : Byte) :
    drvWrite addr data (updateMe f s) = (drvWrite addr data s).onState (updateMe f) := by
  rw [drvWrite, drvWrite, queueWrite_updateMe]
  exact Run.andThen_onState (autoFlush_updateMe f)

theorem recordDelay_updateMe (ms : Nat) : recordDelay ms (updateMe f s) = updateMe f (recordDelay ms s) := by
  by_cases h : ms = 0
  · simp [recordDelay, h]
  · simp only [recordDelay, if_neg h]; rfl

theorem pinLevel_updateMe (high : Bool) (ms : Nat) :
    pinLevel high ms (updateMe f s) = (pinLevel high ms s).onState (updateMe f) := by
  simp only [pinLevel, updateMe_cfg]
  change (flush (updateMe f (emit _ s))).andThen _ = _
  rw [flush_updateMe]
  exact Run.andThen_onState fun s' => by simp [recordDelay_updateMe]

theorem enterCheck_updateMe : enterCheck (updateMe f s) = (enterCheck s).onState (updateMe f) := by
  have h : callerOwns (updateMe f s) = callerOwns s := rfl
  cases hc : callerOwns s <;> simp [enterCheck, h, hc]

theorem enterTarget_updateMe (chip : Chip) :
    enterTarget chip (updateMe f s) = (enterTarget chip s).onState (updateMe f) := by
  by_cases h : chip = 0
  · simp [enterTarget, h]
  · simp only [enterTarget, if_neg h, updateMe_csmap]
    cases mapLookup s.csmap chip <;> rfl

theorem restoreTarget_updateMe : restoreTarget (updateMe f s) = (restoreTarget s).onState (updateMe f) := by
  simp only [restoreTarget, updateMe_savedTarget, updateMe_csmap]
  cases h : s.savedTarget with
  | none => rfl
  | some chip => dsimp only; cases h : mapLookup s.csmap chip <;> rfl

theorem leaveFlush_updateMe (ms : Nat) : leaveFlush ms (updateMe f s) = (leaveFlush ms s).onState (updateMe f) := by
  have h : callerNotOwner (updateMe f s) = callerNotOwner s := rfl
  cases hc : callerNotOwner s
  · simp only [leaveFlush, h, hc, flush_updateMe, Bool.false_eq_true, if_false]
    exact Run.andThen_onState fun s' => by simp [recordDelay_updateMe]
  · simp [leaveFlush, h, hc]

theorem readFlush_updateMe : readFlush (updateMe f s) = (readFlush s).onState (updateMe f) := by
  have hn : noTarget (updateMe f s) = noTarget s := rfl
  have ho : oneChipSelected (updateMe f s) = oneChipSelected s := rfl
  cases hd : s.disposed <;> cases h1 : noTarget s <;> cases h2 : oneChipSelected s <;>
    simp [readFlush, hd, hn, ho, h1, h2, flush_updateMe]

theorem readIssue_updateMe (addr : Byte) : readIssue addr (updateMe f s) = (readIssue addr s).onState (updateMe f) := by
  simp only [readIssue]
  change flush (updateMe f (emit (readFrame addr s) (record .rxPurge { s with rxq := [] }))) = _
  rw [flush_updateMe]
  rfl

end

/-! ### Operations in progress -/

theorem updateMe_updateMe (f g : Requester → Requester) (s : State) :
    updateMe f (updateMe g s) = updateMe (fun r => f (g r)) s := by
  simp [updateMe, List.modify_modify_eq, Function.comp_def]

theorem beginTask_eq (t : Task) (s : State) :
    beginTask t s = updateMe (fun r => { r with task := some t, response := none }) s := rfl

/-- A later change of the operation replaces it. -/
theorem updateTask_beginTask (f : Task → Task) (t : Task) (s : State) :
    updateTask f (beginTask t s) = beginTask (f t) s := by
  simp [updateTask, beginTask, updateMe_updateMe]

theorem beginTask_beginTask (t t' : Task) (s : State) : beginTask t (beginTask t' s) = beginTask t s := by
  simp [beginTask, updateMe_updateMe]

theorem respond_beginTask (e : Status) (vs : List Value) (t : Task) (s : State) :
    respond e vs (beginTask t s) = respond e vs s := by
  simp [respond, beginTask, updateMe_updateMe]

theorem me_updateMe (f : Requester → Requester) (s : State) : me (updateMe f s) = (me s).map f := by
  simp [me, updateMe]

theorem myTask_beginTask {s : State} (h : s.cur < s.reqs.length) (t : Task) : myTask (beginTask t s) = some t := by
  simp [myTask, beginTask, me, h]

/-- The end of an operation that has no step left (R320). -/
theorem finishTask_beginTask {s : State} (h : s.cur < s.reqs.length) (t : Task) :
    finishTask (beginTask t s) = respond t.verdict t.values s := by
  simp [finishTask, myTask_beginTask h, respond_beginTask]

/-- The end of an operation on an error (R306). -/
theorem abortTask_beginTask {s : State} (h : s.cur < s.reqs.length) (t : Task) (e : Status) :
    abortTask e (beginTask t s) =
      if t.acquired then beginTask { t with steps := [.release], verdict := e } s else respond e [] s := by
  simp [abortTask, myTask_beginTask h, updateTask_beginTask, respond_beginTask]

/-- The next step of an operation in progress (R310). -/
theorem advance_beginTask {s : State} (h : s.cur < s.reqs.length) (a : Atom) (rest : List Atom) (t : Task)
    (ht : t.steps = a :: rest) : advance (beginTask t s) = settle (beginTask t s) rest (runAtom a (beginTask t s)) := by
  simp [advance, myTask_beginTask h, ht]

/-- A step that is done, where steps remain. -/
theorem settle_done {s s' : State} {a : Atom} {rest : List Atom} (t : Task) :
    settle s (a :: rest) (.done (beginTask t s')) = .next (beginTask { t with steps := a :: rest } s') := by
  simp [settle, updateTask_beginTask]

/-- The last step, done. -/
theorem settle_last {s s' : State} (h : s'.cur < s'.reqs.length) (t : Task) :
    settle s [] (.done (beginTask t s')) = .next (respond t.verdict t.values s') := by
  simp [settle, finishTask_beginTask h]

/-- A step that ends its operation with an error. -/
theorem settle_raise {s s' : State} (h : s'.cur < s'.reqs.length) (rest : List Atom) (t : Task) (e : Status) :
    settle s rest (.raise e (beginTask t s')) =
      .next (if t.acquired then beginTask { t with steps := [.release], verdict := e } s' else respond e [] s') := by
  simp [settle, abortTask_beginTask h]

/-- What marking the acquire step does to an operation that guards its section. -/
theorem markAcquired_guarded {t : Task} (h : t.guarded = true) (s : State) :
    markAcquired (beginTask t s) = beginTask { t with acquired := true } s := by
  simp [markAcquired, beginTask, updateMe_updateMe, h]

/-- What it does to one that does not: the SECTION the requester is inside notes it. -/
theorem markAcquired_plain {t : Task} (h : t.guarded = false) (s : State) :
    markAcquired (beginTask t s) =
      beginTask t (updateMe (fun r => { r with unit := r.unit.map fun u => { u with acquired := true } }) s) := by
  simp [markAcquired, beginTask, updateMe_updateMe, h]

/-! ### What an ended operation leaves -/

/-- An operation that ends in the state `s'`, which differs from `s` in the block, the delivered stream and, of the current
requester, in what `g` leaves open. -/
theorem ends_respond_of {s s' : State} (e : Status) (vs : List Value) {b : Block} {sent : List Byte}
    (g : Requester → Requester) (hb : s'.block = b)
    (hs : s'.bridge = { s.bridge with stream := s.bridge.stream ++ sent }) (hc : s'.cfg = s.cfg)
    (ht : s'.turns = s.turns) (hq : s'.cur = s.cur) (ha : s'.accept = s.accept) (hr : s'.reply = s.reply)
    (hn : s'.reqs = s.reqs.modify s.cur g)
    (hg : ∀ r, (g r).inbox = r.inbox ∧ (g r).unit.map SectionUnit.rest = r.unit.map SectionUnit.rest) :
    Ends s (respond e vs s') e (if e = .ok then vs else []) b sent := by
  refine ⟨hb, hs, hc, ht, hq, ha, hr, ?_, ?_⟩
  · intro q hne
    simp [respond, updateMe, hn, hq, Ne.symm hne]
  · intro r hr'
    refine ⟨{ g r with task := none, response := some ⟨e, if e = .ok then vs else []⟩ }, ?_, (hg r).1, (hg r).2, rfl, rfl⟩
    simp [respond, updateMe, hn, hq, hr']

/-- The same where the requesters are untouched. -/
theorem ends_respond {s s' : State} (e : Status) (vs : List Value) {b : Block} {sent : List Byte} (hb : s'.block = b)
    (hs : s'.bridge = { s.bridge with stream := s.bridge.stream ++ sent }) (hc : s'.cfg = s.cfg)
    (ht : s'.turns = s.turns) (hq : s'.cur = s.cur) (ha : s'.accept = s.accept) (hr : s'.reply = s.reply)
    (hn : s'.reqs = s.reqs) : Ends s (respond e vs s') e (if e = .ok then vs else []) b sent :=
  ends_respond_of e vs id hb hs hc ht hq ha hr (by simp [hn]) fun _ => ⟨rfl, rfl⟩

/-- An operation that changes nothing but its requester's result. -/
theorem ends_unchanged (s : State) (e : Status) (vs : List Value) :
    Ends s (respond e vs s) e (if e = .ok then vs else []) s.block [] :=
  ends_respond e vs rfl (by simp) rfl rfl rfl rfl rfl rfl

end Sys2Proof.Machine
end

