-- ==== Sys2Proof/Laws/Changes.lean ====
section
/-!
SUPPORT. Everything an atomic step can do to the state, said once: each operation is a run of the elementary changes below,
with the facts that allow them. Claims about every step check one elementary change at a time.
-/
namespace Sys2Proof.Machine

/-- The elementary changes that an operation or a later step of one can make, but for TONE_SET, OP_SET, SEC_ENABLE,
SEC_DISABLE, DISPOSE and the commands of the bridge. -/
inductive Change : State → State → Prop where
  | requester (s : State) (f : Requester → Requester) : Change s (updateMe f s)
  | queued (s : State) (bytes : List Byte) (h : WholeCommands bytes) : Change s (emit bytes s)
  | sent (s : State) : Change s (deliver s.wbuf (record (.tx s.wbuf) { s with wbuf := [] }))
  | delayed (s : State) (ms : Nat) : Change s (record (.delay ms) s)
  | purged (s : State) : Change s (record .rxPurge { s with rxq := [] })
  | took (s : State) (b0 b1 : Byte) (rest : List Byte) (h : s.rxq = b0 :: b1 :: rest) :
      Change s (record (.rxTake b0 b1) { s with rxq := rest })
  | saved (s : State) : Change s { s with savedTarget := some s.target }
  | restored (s : State) : Change s { s with savedTarget := none }
  | targeted (s : State) (chip : Chip) (pins : Byte) (h : mapLookup s.csmap chip = some pins) :
      Change s (switchTarget chip pins s)
  | locked (s : State) (h : s.sectionMode = true) : Change s { s with entered := s.entered + 1, owner := some s.cur }
  | unlocked (s : State) : Change s { s with owner := none }

/-- A run of elementary changes. -/
abbrev Changes : State → State → Prop := Relation.ReflTransGen Change

/-- What a step's end says of the state it ends in. -/
def Run.reaches (s : State) : Run → Prop
  | .done s' => Changes s s'
  | .raise _ s' => Changes s s'
  | .hold => True
  | .fault _ => s.savedTarget.any fun chip => (mapLookup s.csmap chip).isNone

theorem Change.one {s s' : State} (h : Change s s') : Changes s s' := .single h

theorem Changes.trans {s s' s'' : State} (h : Changes s s') (h' : Changes s' s'') : Changes s s'' :=
  Relation.ReflTransGen.trans h h'

/-- The changes that keep a requester's saved target and the chip map: a fault later is a fault now. -/
theorem Run.reaches_andThen {s : State} {r : Run} {f : State → Run} (h : r.reaches s)
    (hf : ∀ s', r = .done s' → (f s').reaches s' ∧ ∀ x, f s' ≠ .fault x) : (r.andThen f).reaches s := by
  cases r with
  | done s' =>
    obtain ⟨h1, h2⟩ := hf s' rfl
    simp only [Run.andThen_done]
    cases hr : f s' with
    | done t => rw [hr] at h1; exact Changes.trans h h1
    | raise e t => rw [hr] at h1; exact Changes.trans h h1
    | hold => trivial
    | fault x => exact absurd hr (h2 x)
  | raise e s' => exact h
  | hold => trivial
  | fault x => exact h

theorem flush_reaches (s : State) : (flush s).reaches s ∧ ∀ x, flush s ≠ .fault x := by
  cases hd : s.disposed
  · cases ha : s.accept
    · rw [flush_failed hd ha]
      exact ⟨(Change.queued s [0x87] WholeCommands.flush).one, by simp⟩
    · rw [flush_done hd ha]
      exact ⟨((Change.queued s [0x87] WholeCommands.flush).one).trans (Change.sent (emit [0x87] s)).one, by simp⟩
  · rw [flush_disposed hd]
    exact ⟨.refl, by simp⟩

theorem queueWrite_reaches {data : List Byte} (h1 : 1 ≤ data.length) (h2 : data.length ≤ 65535) (addr : Byte) (s : State) :
    (queueWrite addr data s).reaches s ∧ ∀ x, queueWrite addr data s ≠ .fault x := by
  by_cases h : s.disposed = true ∨ s.targetPins = 0
  · rw [queueWrite_refused h]
    exact ⟨.refl, by simp⟩
  · obtain ⟨hd, ht⟩ := not_or.mp h
    rw [queueWrite_done (by simpa using hd) ht]
    exact ⟨(Change.queued s _ (wholeCommands_writeFrame s addr h1 h2)).one, by simp⟩

theorem autoFlush_reaches (s : State) : (autoFlush s).reaches s ∧ ∀ x, autoFlush s ≠ .fault x := by
  unfold autoFlush
  split
  · exact ⟨.refl, by simp⟩
  · exact flush_reaches s

theorem Run.andThen_noFault {r : Run} {f : State → Run} (h : ∀ x, r ≠ .fault x) (hf : ∀ s x, f s ≠ .fault x) :
    ∀ x, r.andThen f ≠ .fault x := by
  intro x hx
  cases r with
  | done s => exact hf s x hx
  | raise e s => simp at hx
  | hold => simp [Run.andThen] at hx
  | fault y => exact h y rfl

theorem queueThenFlush_reaches {data : List Byte} (h1 : 1 ≤ data.length) (h2 : data.length ≤ 65535) (addr : Byte)
    (s : State) : ((queueWrite addr data s).andThen autoFlush).reaches s ∧
      ∀ x, (queueWrite addr data s).andThen autoFlush ≠ .fault x :=
  ⟨Run.reaches_andThen (queueWrite_reaches h1 h2 addr s).1 fun s' _ => autoFlush_reaches s',
    Run.andThen_noFault (queueWrite_reaches h1 h2 addr s).2 fun s' => (autoFlush_reaches s').2⟩

theorem drvWrite_reaches (addr data : Byte) (s : State) :
    (drvWrite addr data s).reaches s ∧ ∀ x, drvWrite addr data s ≠ .fault x :=
  queueThenFlush_reaches (by simp) (by simp) addr s

theorem queueBurst_reaches (addr : Byte) (bytes : List Byte) (offset count : Int) (s : State) :
    (queueBurst addr bytes offset count s).reaches s ∧ ∀ x, queueBurst addr bytes offset count s ≠ .fault x := by
  cases h : burstOk bytes offset count
  · rw [queueBurst_illegal h]
    exact ⟨.refl, by simp⟩
  · obtain ⟨hl, h1, h2⟩ := sliceOf_length h
    rw [queueBurst_legal h]
    exact queueWrite_reaches (by omega) (by omega) addr s

theorem drvBurst_reaches (addr : Byte) (bytes : List Byte) (offset count : Int) (s : State) :
    (drvBurst addr bytes offset count s).reaches s ∧ ∀ x, drvBurst addr bytes offset count s ≠ .fault x :=
  ⟨Run.reaches_andThen (queueBurst_reaches addr bytes offset count s).1 fun s' _ => autoFlush_reaches s',
    Run.andThen_noFault (queueBurst_reaches addr bytes offset count s).2 fun s' => (autoFlush_reaches s').2⟩

theorem recordDelay_changes (ms : Nat) (s : State) : Changes s (recordDelay ms s) := by
  unfold recordDelay
  split
  · exact .refl
  · exact (Change.delayed s ms).one

theorem pinLevel_reaches (high : Bool) (ms : Nat) (s : State) :
    (pinLevel high ms s).reaches s ∧ ∀ x, pinLevel high ms s ≠ .fault x := by
  have h1 := Change.queued s _ (WholeCommands.gpio s.cfg.board.icBankHigh
    (if high then s.cfg.board.icValueHigh else s.cfg.board.icValueLow) s.cfg.board.icDir)
  have h2 := flush_reaches (emit [gpioOp s.cfg.board.icBankHigh,
    if high then s.cfg.board.icValueHigh else s.cfg.board.icValueLow, s.cfg.board.icDir] s)
  refine ⟨?_, Run.andThen_noFault h2.2 fun s' x => by simp⟩
  have h3 := Run.reaches_andThen (f := fun s' => .done (recordDelay ms s')) h2.1
    fun s' _ => ⟨recordDelay_changes ms s', by simp⟩
  unfold pinLevel
  revert h3
  cases (flush _).andThen _ with
  | done t => exact fun h => (h1.one).trans h
  | raise e t => exact fun h => (h1.one).trans h
  | hold => exact fun h => h
  | fault x => exact fun h => h

theorem enterCheck_reaches (s : State) : (enterCheck s).reaches s := by
  unfold enterCheck
  split <;> exact Relation.ReflTransGen.refl

theorem markAcquired_changes (s : State) : Changes s (markAcquired s) := (Change.requester s _).one

theorem updateTask_changes (f : Task → Task) (s : State) : Changes s (updateTask f s) := (Change.requester s _).one

theorem takeLock_changes (s : State) : Changes s (takeLock s) := by
  unfold takeLock
  split
  · exact (Change.locked s ‹_›).one
  · exact .refl

theorem dropLock_changes (s : State) : Changes s (dropLock s) := by
  unfold dropLock
  split
  · exact (Change.unlocked s).one
  · exact .refl

theorem enterTarget_reaches (chip : Chip) (s : State) :
    (enterTarget chip s).reaches s ∧ ∀ x, enterTarget chip s ≠ .fault x := by
  unfold enterTarget
  split
  · exact ⟨.refl, by simp⟩
  · cases h : mapLookup s.csmap chip with
    | none => exact ⟨(Change.saved s).one, by simp⟩
    | some pins =>
      exact ⟨((Change.saved s).one).trans (Change.targeted { s with savedTarget := some s.target } chip pins h).one, by simp⟩

theorem acquire_reaches (chip : Chip) (s : State) : (acquire chip s).reaches s ∧ ∀ x, acquire chip s ≠ .fault x := by
  unfold acquire
  split
  · obtain ⟨h1, h2⟩ := enterTarget_reaches chip (markAcquired (takeLock s))
    refine ⟨?_, h2⟩
    have h0 := (takeLock_changes s).trans (markAcquired_changes (takeLock s))
    revert h1 h2
    cases enterTarget chip (markAcquired (takeLock s)) with
    | done t => exact fun h _ => h0.trans h
    | raise e t => exact fun h _ => h0.trans h
    | hold => exact fun h _ => h
    | fault x => exact fun _ h => absurd rfl (h x)
  · exact ⟨trivial, by simp⟩

theorem restoreTarget_reaches (s : State) : (restoreTarget s).reaches s := by
  unfold restoreTarget
  cases h : s.savedTarget with
  | none => exact Relation.ReflTransGen.refl
  | some chip =>
    dsimp only
    cases hl : mapLookup s.csmap chip with
    | none => simp [Run.reaches, h, hl]
    | some pins => exact ((Change.targeted s chip pins hl).one).trans (Change.restored (switchTarget chip pins s)).one

theorem release_reaches (s : State) : (release s).reaches s :=
  Run.reaches_andThen (restoreTarget_reaches s) fun s' _ =>
    ⟨(dropLock_changes s').trans (updateTask_changes _ (dropLock s')), by simp⟩

theorem leaveFlush_reaches (ms : Nat) (s : State) : (leaveFlush ms s).reaches s := by
  unfold leaveFlush
  split
  · exact Relation.ReflTransGen.refl
  · exact Run.reaches_andThen (flush_reaches s).1 fun s' _ => ⟨recordDelay_changes ms s', by simp⟩

theorem readFlush_reaches (s : State) : (readFlush s).reaches s := by
  unfold readFlush
  split
  · exact Relation.ReflTransGen.refl
  · split
    · exact Relation.ReflTransGen.refl
    · split
      · exact (flush_reaches s).1
      · exact Relation.ReflTransGen.refl

theorem readIssue_reaches (addr : Byte) (s : State) : (readIssue addr s).reaches s := by
  have h0 : Changes s (emit (readFrame addr (record .rxPurge { s with rxq := [] })) (record .rxPurge { s with rxq := [] })) :=
    ((Change.purged s).one).trans (Change.queued _ _ (wholeCommands_readFrame _ addr)).one
  obtain ⟨h1, h2⟩ := flush_reaches
    (emit (readFrame addr (record .rxPurge { s with rxq := [] })) (record .rxPurge { s with rxq := [] }))
  unfold readIssue
  revert h1 h2
  cases flush (emit (readFrame addr (record .rxPurge { s with rxq := [] })) (record .rxPurge { s with rxq := [] })) with
  | done t => exact fun h _ => h0.trans h
  | raise e t => exact fun h _ => h0.trans h
  | hold => exact fun h _ => h
  | fault x => exact fun _ h => absurd rfl (h x)

theorem readTake_reaches (result : Byte → List Value) (s : State) : (readTake result s).reaches s := by
  unfold readTake
  split
  · next b0 b1 rest h => exact ((Change.took s b0 b1 rest h).one).trans (updateTask_changes _ _)
  · trivial

/-- One atomic step (R310). -/
theorem runAtom_reaches (a : Atom) (s : State) : (runAtom a s).reaches s := by
  cases a with
  | drvWrite addr data => exact (drvWrite_reaches addr data s).1
  | enterCheck => exact enterCheck_reaches s
  | acquire target => exact (acquire_reaches target s).1
  | leaveFlush ms => exact leaveFlush_reaches ms s
  | release => exact release_reaches s
  | pinLevel high ms => exact (pinLevel_reaches high ms s).1
  | readFlush => exact readFlush_reaches s
  | readIssue addr => exact readIssue_reaches addr s
  | readTake => exact readTake_reaches _ s
  | regTake sub => exact readTake_reaches _ s

/-- What an outcome says of the state it is reached from. -/
def OutcomeReaches (s : State) : Host.Outcome State Fault Refusal → Prop
  | .next t => Changes s t
  | .fault _ => s.savedTarget.any fun chip => (mapLookup s.csmap chip).isNone
  | .refused _ => False

theorem respond_changes (e : Status) (vs : List Value) (s : State) : Changes s (respond e vs s) := (Change.requester s _).one

theorem finishTask_changes (s : State) : Changes s (finishTask s) := by
  unfold finishTask
  split
  · exact respond_changes _ _ s
  · exact .refl

theorem abortTask_changes (e : Status) (s : State) : Changes s (abortTask e s) := by
  unfold abortTask
  split
  · split
    · exact updateTask_changes _ s
    · exact respond_changes _ _ s
  · exact .refl

theorem settle_reaches {s : State} {r : Run} (h : r.reaches s) (rest : List Atom) : OutcomeReaches s (settle s rest r) := by
  cases r with
  | done t =>
    simp only [settle]
    split
    · exact Changes.trans h (finishTask_changes t)
    · exact Changes.trans h (updateTask_changes _ t)
  | raise e t => exact Changes.trans h (abortTask_changes e t)
  | hold => exact Relation.ReflTransGen.refl
  | fault x => exact h

/-- A later step of an operation (R310). -/
theorem advance_reaches (s : State) : OutcomeReaches s (advance s) := by
  unfold advance
  split
  · split
    · exact settle_reaches (runAtom_reaches _ s) _
    · exact finishTask_changes s
  · exact Relation.ReflTransGen.refl

/-- The first step of a multi-step operation. -/
theorem start_reaches (t : Task) (s : State) : OutcomeReaches s (start t s) := by
  have h := advance_reaches (beginTask t s)
  have h0 : Changes s (beginTask t s) := (Change.requester s _).one
  unfold start
  revert h
  cases advance (beginTask t s) with
  | next u => exact fun h => h0.trans h
  | fault f => exact fun h => h
  | refused r => exact fun h => h

theorem answer_reaches (r : Except Status (List Value)) (s : State) : OutcomeReaches s (answer r s) := by
  cases r <;> exact respond_changes _ _ s

theorem complete_reaches {s : State} {r : Run} (h : r.reaches s) : OutcomeReaches s (complete s r) := by
  cases r with
  | done t => exact Changes.trans h (respond_changes _ _ t)
  | raise e t => exact Changes.trans h (respond_changes _ _ t)
  | hold => exact Relation.ReflTransGen.refl
  | fault x => exact h

theorem setReg_reaches (addr : Byte) (args : List (RegField × I32)) (s : State) : OutcomeReaches s (setReg addr args s) :=
  complete_reaches (drvWrite_reaches _ _ s).1

theorem setRegPair_reaches (addr addr' : Byte) (args : List (RegField × I32)) (s : State) :
    OutcomeReaches s (setRegPair addr addr' args s) := start_reaches _ s

end Sys2Proof.Machine
end

