-- ==== Sys2Proof/Laws/Exec.lean ====
section
/-!
SUPPORT. What `exec` can do, one lemma per kind of operation: the ordinary operations are runs of the elementary changes of
Sys2Proof/Laws/Changes.lean; the assignments, the switches and the bridge's commands are said in full.
-/
namespace Sys2Proof.Machine

/-- The operations that make elementary changes only. -/
def Ordinary (i : Instr) : Prop :=
  i.isStream = false ∧ ¬ i.assignsTone ∧ i ≠ .secEnable ∧ i ≠ .secDisable ∧ i ≠ .dispose

theorem writeRun_reaches (buffer : List Byte) (offset : Int) (run : List Byte) (s : State) :
    OutcomeReaches s (writeRun buffer offset run s) := by
  unfold writeRun
  split <;> exact respond_changes _ _ s

theorem toneGet_reaches (t : Int) (get : ToneSlot → Nat) (s : State) : OutcomeReaches s (toneGet t get s) := by
  unfold toneGet
  split <;> exact respond_changes _ _ s

theorem opGet_reaches (t k : Int) (get : Operator → Value) (s : State) : OutcomeReaches s (opGet t k get s) := by
  unfold opGet
  split <;> exact respond_changes _ _ s

theorem complete_match_reaches {α : Type} (s : State) (o : Option α) (e : Status) {f : α → Run}
    (h : ∀ v, (f v).reaches s) : OutcomeReaches s (complete s (match o with | none => .raise e s | some v => f v)) := by
  cases o with
  | none => exact respond_changes _ _ s
  | some v => exact complete_reaches (h v)

theorem execHwReset_reaches (s : State) : OutcomeReaches s (execHwReset s) := by
  unfold execHwReset
  split
  · exact respond_changes _ _ s
  · exact start_reaches _ s

theorem execQGpio_reaches (high : Bool) (v d : Byte) (s : State) : OutcomeReaches s (execQGpio high v d s) := by
  refine complete_reaches ?_
  split
  · exact Relation.ReflTransGen.refl
  · exact (Change.queued s _ (WholeCommands.gpio high v d)).one

theorem execSetTarget_reaches (chip : Chip) (s : State) : OutcomeReaches s (execSetTarget chip s) := by
  unfold execSetTarget
  refine complete_reaches ?_
  cases h : mapLookup s.csmap chip with
  | none => exact Relation.ReflTransGen.refl
  | some pins =>
    dsimp only
    split
    · exact Relation.ReflTransGen.refl
    · exact (Change.targeted s chip pins h).one

theorem execWriteContents_reaches (tone : Int) (s : State) : OutcomeReaches s (execWriteContents tone s) := by
  refine complete_reaches ?_
  cases slotIndex tone with
  | none => exact Relation.ReflTransGen.refl
  | some i => exact (drvBurst_reaches _ _ _ _ s).1

theorem execSetEq_reaches (band : Int) (coefs : List XReal) (s : State) : OutcomeReaches s (execSetEq band coefs s) := by
  refine complete_reaches ?_
  split
  · cases packBand (coefs.map (realOperand s)) with
    | error e => exact Relation.ReflTransGen.refl
    | ok block => exact (drvBurst_reaches _ _ _ _ s).1
  · exact Relation.ReflTransGen.refl

theorem execOpExport_reaches (t k : Int) (buffer : List Byte) (offset : Int) (s : State) :
    OutcomeReaches s (execOpExport t k buffer offset s) := by
  unfold execOpExport
  split
  · exact writeRun_reaches _ _ _ s
  · exact respond_changes _ _ s

theorem execToneExport_reaches (t : Int) (buffer : List Byte) (offset : Int) (s : State) :
    OutcomeReaches s (execToneExport t buffer offset s) := by
  unfold execToneExport
  split
  · exact writeRun_reaches _ _ _ s
  · exact respond_changes _ _ s

theorem execCollExport_reaches (buffer : List Byte) (offset tone : Int) (s : State) :
    OutcomeReaches s (execCollExport buffer offset tone s) := by
  unfold execCollExport
  split
  · exact writeRun_reaches _ _ _ s
  · exact respond_changes _ _ s

/-- An ordinary operation makes elementary changes only. -/
theorem exec_reaches {i : Instr} (h : Ordinary i) (s : State) : OutcomeReaches s (exec i s) := by
  obtain ⟨hs, ht, he, hd, hp⟩ := h
  cases i with
  | calcFnum | calcFreq | key2fnum | convFmult | calcRof | atkTime | envTime =>
    simp only [exec, execCalcFnum, execCalcFreq, execKey2fnum, execConvFmult, execCalcRof, execAtkTime, execEnvTime]
    exact answer_reaches _ s
  | ceqEnc | ceqDec | ceqPack =>
    simp only [exec, execCeqEnc, execCeqDec, execCeqPack]
    exact answer_reaches _ s
  | fltLowpass | fltHighpass | fltBandpass | fltBandstop | fltLowshelf | fltHighshelf | fltPeaking | fltAllpass =>
    exact answer_reaches _ s
  | toneSetBo t v => exact absurd (.inl ⟨.bo, t, v, rfl⟩) ht
  | toneSetLfo t v => exact absurd (.inl ⟨.lfo, t, v, rfl⟩) ht
  | toneSetAlg t v => exact absurd (.inl ⟨.alg, t, v, rfl⟩) ht
  | opSetSr t k v => exact absurd (.inr ⟨.sr, t, k, v, rfl⟩) ht
  | opSetRr t k v => exact absurd (.inr ⟨.rr, t, k, v, rfl⟩) ht
  | opSetDr t k v => exact absurd (.inr ⟨.dr, t, k, v, rfl⟩) ht
  | opSetAr t k v => exact absurd (.inr ⟨.ar, t, k, v, rfl⟩) ht
  | opSetSl t k v => exact absurd (.inr ⟨.sl, t, k, v, rfl⟩) ht
  | opSetTl t k v => exact absurd (.inr ⟨.tl, t, k, v, rfl⟩) ht
  | opSetKsl t k v => exact absurd (.inr ⟨.ksl, t, k, v, rfl⟩) ht
  | opSetDam t k v => exact absurd (.inr ⟨.dam, t, k, v, rfl⟩) ht
  | opSetDvb t k v => exact absurd (.inr ⟨.dvb, t, k, v, rfl⟩) ht
  | opSetMulti t k v => exact absurd (.inr ⟨.multi, t, k, v, rfl⟩) ht
  | opSetDt t k v => exact absurd (.inr ⟨.dt, t, k, v, rfl⟩) ht
  | opSetWs t k v => exact absurd (.inr ⟨.ws, t, k, v, rfl⟩) ht
  | opSetFb t k v => exact absurd (.inr ⟨.fb, t, k, v, rfl⟩) ht
  | opSetXof t k v => exact absurd (.inr ⟨.xof, t, k, v.toInt, by cases v <;> rfl⟩) ht
  | opSetKsr t k v => exact absurd (.inr ⟨.ksr, t, k, v.toInt, by cases v <;> rfl⟩) ht
  | opSetEam t k v => exact absurd (.inr ⟨.eam, t, k, v.toInt, by cases v <;> rfl⟩) ht
  | opSetEvb t k v => exact absurd (.inr ⟨.evb, t, k, v.toInt, by cases v <;> rfl⟩) ht
  | toneGetBo | toneGetLfo | toneGetAlg => exact toneGet_reaches _ _ s
  | opGetSr | opGetRr | opGetDr | opGetAr | opGetSl | opGetTl | opGetKsl | opGetDam | opGetDvb | opGetMulti | opGetDt
  | opGetWs | opGetFb | opGetXof | opGetKsr | opGetEam | opGetEvb =>
    simp only [exec, execOpGetSr, execOpGetRr, execOpGetDr, execOpGetAr, execOpGetSl, execOpGetTl,
      execOpGetKsl, execOpGetDam, execOpGetDvb, execOpGetMulti, execOpGetDt, execOpGetWs,
      execOpGetFb, execOpGetXof, execOpGetKsr, execOpGetEam, execOpGetEvb]
    exact opGet_reaches _ _ _ s
  | opExport => exact execOpExport_reaches _ _ _ _ s
  | toneExport => exact execToneExport_reaches _ _ _ s
  | collExport => exact execCollExport_reaches _ _ _ s
  | qGpio => exact execQGpio_reaches _ _ _ s
  | qSpiWrite addr data => exact complete_reaches (queueWrite_reaches (by simp) (by simp) addr s).1
  | qSpiBurst => exact complete_reaches (queueBurst_reaches _ _ _ _ s).1
  | flush => exact complete_reaches (flush_reaches s).1
  | tRead | read | swReset | regget | secBegin | secEnd => exact start_reaches _ s
  | hwReset => exact execHwReset_reaches s
  | dispose => exact absurd rfl hp
  | setTarget => exact execSetTarget_reaches _ s
  | write => exact complete_reaches (drvWrite_reaches _ _ s).1
  | burstWrite => exact complete_reaches (drvBurst_reaches _ _ _ _ s).1
  | writeContents => exact execWriteContents_reaches _ s
  | setEq => exact execSetEq_reaches _ _ s
  | setClke | setAlrst | setApd | setGain | setSeq | setVoiceNum | setVoiceVol | setToneCtrl | setChVol | setVib
  | setMuteItp | setMasterVol | setSoftreset | setVolItp | setLfoRst | setDrvSel | setTest => exact setReg_reaches _ _ s
  | setSeqvolSize | setFnumBlock | setFmult | setSeqTime => exact setRegPair_reaches _ _ _ s
  | secEnable => exact absurd rfl he
  | secDisable => exact absurd rfl hd
  | gpioLow | gpioHigh | spiWrite | spiRead | streamFlush => exact absurd hs (by simp [Instr.isStream, encode])

/-! ### The assignments -/

/-- TONE_SET answers a next state: a RangeError with nothing changed, or the value in range stored (R191). -/
theorem toneSet_cases (t value : Int) (field : ToneField) (put : Nat → ToneSlot → ToneSlot) (s : State) :
    toneSet t value field put s = .next (respond .rangeError [] s) ∨
      ∃ i : Fin 16, slotIndex t = some i ∧ 0 ≤ value ∧ value ≤ ToneField.top field ∧
        toneSet t value field put s = .next (respond .ok [] (setSlot i (put value.toNat) s)) := by
  unfold toneSet
  cases h : slotIndex t with
  | none => exact .inl rfl
  | some i =>
    cases hr : inRange value 0 (ToneField.top field)
    · exact .inl (by simp)
    · refine .inr ⟨i, rfl, ?_, ?_, by simp⟩ <;> simp [inRange] at hr <;> omega

/-- OP_SET of a numeric field, likewise (R192). -/
theorem opSetNumber_cases (t k value : Int) (field : OpField) (put : Nat → Operator → Operator) (s : State) :
    opSetNumber t k value field put s = .next (respond .rangeError [] s) ∨
      ∃ (i : Fin 16) (j : Fin 4), slotIndex t = some i ∧ opIndex k = some j ∧ 0 ≤ value ∧ value ≤ OpField.top field ∧
        opSetNumber t k value field put s = .next (respond .ok [] (setOperator i j (put value.toNat) s)) := by
  unfold opSetNumber
  cases h : slotIndex t with
  | none => exact .inl rfl
  | some i =>
    cases h' : opIndex k with
    | none => exact .inl rfl
    | some j =>
      cases hr : inRange value 0 (OpField.top field)
      · exact .inl (by simp)
      · refine .inr ⟨i, j, rfl, rfl, ?_, ?_, by simp⟩ <;> simp [inRange] at hr <;> omega

/-- OP_SET of a flag, likewise (R192). -/
theorem opSetFlag_cases (t k : Int) (put : Operator → Operator) (s : State) :
    opSetFlag t k put s = .next (respond .rangeError [] s) ∨
      ∃ (i : Fin 16) (j : Fin 4), slotIndex t = some i ∧ opIndex k = some j ∧
        opSetFlag t k put s = .next (respond .ok [] (setOperator i j put s)) := by
  unfold opSetFlag
  cases h : slotIndex t with
  | none => exact .inl rfl
  | some i =>
    cases h' : opIndex k with
    | none => exact .inl rfl
    | some j => exact .inr ⟨i, j, rfl, rfl, rfl⟩

/-- The field an assignment of an operator writes, and what it writes. -/
def OpField.put : OpField → Nat → Operator → Operator
  | .sr, v, o => { o with sr := v }
  | .rr, v, o => { o with rr := v }
  | .dr, v, o => { o with dr := v }
  | .ar, v, o => { o with ar := v }
  | .sl, v, o => { o with sl := v }
  | .tl, v, o => { o with tl := v }
  | .ksl, v, o => { o with ksl := v }
  | .dam, v, o => { o with dam := v }
  | .dvb, v, o => { o with dvb := v }
  | .multi, v, o => { o with multi := v }
  | .dt, v, o => { o with dt := v }
  | .ws, v, o => { o with ws := v }
  | .fb, v, o => { o with fb := v }
  | .xof, v, o => { o with xof := v != 0 }
  | .ksr, v, o => { o with ksr := v != 0 }
  | .eam, v, o => { o with eam := v != 0 }
  | .evb, v, o => { o with evb := v != 0 }

/-- The header field an assignment of a slot writes. -/
def ToneField.put : ToneField → Nat → ToneSlot → ToneSlot
  | .bo, v, t => { t with bo := v }
  | .lfo, v, t => { t with lfo := v }
  | .alg, v, t => { t with alg := v }

/-- TONE_SET of every field is the shared operation. -/
theorem exec_toneSetInstr (f : ToneField) (t value : Int) (s : State) :
    exec (toneSetInstr f t value) s = toneSet t value f (ToneField.put f) s := by cases f <;> rfl

/-- OP_SET of every numeric field is the shared operation. -/
theorem exec_opSetInstr_number {f : OpField} (h : f.isFlag = false) (t k value : Int) (s : State) :
    exec (opSetInstr f t k value) s = opSetNumber t k value f (OpField.put f) s := by
  cases f <;> first | rfl | exact absurd h (by decide)

/-- OP_SET of every flag is the shared operation. -/
theorem exec_opSetInstr_flag {f : OpField} (h : f.isFlag = true) (t k value : Int) (s : State) :
    exec (opSetInstr f t k value) s = opSetFlag t k (OpField.put f (value != 0).toNat) s := by
  cases f <;> first
    | exact absurd h (by decide)
    | (cases hv : (value != 0) <;> simp [opSetInstr, exec, execOpSetXof, execOpSetKsr, execOpSetEam, execOpSetEvb, hv] <;>
        rfl)

/-- What a written field reads as, and that the others keep their numbers. -/
theorem OpField.put_number (f g : OpField) (v : Nat) (o : Operator) :
    (OpField.put f v o).number g = if g = f then (if f.isFlag then (v != 0).toNat else v) else o.number g := by
  cases f <;> cases g <;> rfl

/-- The same for header fields. -/
theorem ToneField.put_number (f g : ToneField) (v : Nat) (t : ToneSlot) :
    (ToneField.put f v t).number g = if g = f then v else t.number g := by cases f <;> cases g <;> rfl

theorem ToneField.put_op (f : ToneField) (v : Nat) (t : ToneSlot) : (ToneField.put f v t).op = t.op := by cases f <;> rfl

/-- A flag's number is 0 or 1 (R23). -/
theorem number_flag {f : OpField} (h : f.isFlag = true) (o : Operator) : (o.number f : Int) ≤ OpField.top f := by
  cases f <;> first
    | exact absurd h (by decide)
    | (simp only [Operator.number, OpField.top, Bool.toNat]
       exact_mod_cast Bool.toNat_le _)

end Sys2Proof.Machine
end

