-- ==== Sys2Proof/Laws/Real.lean ====
section
/-!
SUPPORT. What the arithmetic of Sys2Proof/Machine/Num.lean does to the real numbers that its values stand for
(spec/00_scope.md R12), in the exact domain.
-/
namespace Sys2Proof

/-- The magnitude of a finite value. -/
noncomputable def mag (r : Rat) (k : Fin 12) : ℝ := |(r : ℝ)| * (2 : ℝ) ^ ((k.val : ℝ) / 12)

theorem root_pos (k : Fin 12) : (0 : ℝ) < (2 : ℝ) ^ ((k.val : ℝ) / 12) := Real.rpow_pos_of_pos (by norm_num) _

theorem mag_nonneg (r : Rat) (k : Fin 12) : 0 ≤ mag r k := mul_nonneg (abs_nonneg _) (root_pos k).le

theorem value_fin (r : Rat) (k : Fin 12) : (XReal.fin r k).value = (r : ℝ) * (2 : ℝ) ^ ((k.val : ℝ) / 12) := rfl

theorem value_ofRat (r : Rat) : (XReal.ofRat r).value = r := by simp [XReal.ofRat, value_fin]

theorem abs_value (r : Rat) (k : Fin 12) : |(XReal.fin r k).value| = mag r k := by
  rw [value_fin, abs_mul, abs_of_pos (root_pos k), mag]

/-! ### The order -/

theorem abs_rat (r : Rat) : |(r : ℝ)| = (r.num.natAbs : ℝ) / r.den := by
  rw [Nat.cast_natAbs, Int.cast_abs, ← abs_of_pos (show (0 : ℝ) < r.den by exact_mod_cast r.den_pos), ← abs_div,
    ← Rat.cast_def]

/-- The twelfth power of a magnitude is a fraction of naturals. -/
theorem mag_pow (r : Rat) (k : Fin 12) : mag r k ^ 12 = (pow12Num r k : ℝ) / pow12Den r := by
  have h : ((2 : ℝ) ^ ((k.val : ℝ) / 12)) ^ 12 = 2 ^ k.val := by
    rw [← Real.rpow_natCast, ← Real.rpow_mul (by norm_num)]
    norm_num
  rw [mag, mul_pow, h, abs_rat, div_pow, pow12Num, pow12Den]
  push_cast
  ring

theorem pow12Den_pos (r : Rat) : (0 : ℝ) < pow12Den r := by
  have := r.den_pos
  unfold pow12Den
  positivity

theorem magLt_iff (r : Rat) (k : Fin 12) (r' : Rat) (k' : Fin 12) : magLt r k r' k' = true ↔ mag r k < mag r' k' := by
  rw [← pow_lt_pow_iff_left₀ (mag_nonneg r k) (mag_nonneg r' k') (by norm_num : (12 : ℕ) ≠ 0), mag_pow, mag_pow,
    div_lt_div_iff₀ (pow12Den_pos r) (pow12Den_pos r'), magLt, decide_eq_true_iff]
  exact_mod_cast Iff.rfl

theorem value_neg_iff (r : Rat) (k : Fin 12) : (XReal.fin r k).value < 0 ↔ r.num < 0 := by
  rw [value_fin, mul_neg_iff]
  constructor
  · rintro (⟨_, h⟩ | ⟨h, _⟩)
    · exact absurd h (root_pos k).le.not_gt
    · exact Rat.num_neg.mpr (by exact_mod_cast h)
  · exact fun h => .inr ⟨by exact_mod_cast Rat.num_neg.mp h, root_pos k⟩

theorem value_of_neg {r : Rat} {k : Fin 12} (h : r.num < 0) : (XReal.fin r k).value = -mag r k := by
  rw [← abs_value, abs_of_neg ((value_neg_iff r k).mpr h), neg_neg]

theorem value_of_nonneg {r : Rat} {k : Fin 12} (h : ¬ r.num < 0) : (XReal.fin r k).value = mag r k := by
  rw [← abs_value, abs_of_nonneg (not_lt.mp fun hv => h ((value_neg_iff r k).mp hv))]

/-- `<` on finite values. -/
theorem finLt_iff (r : Rat) (k : Fin 12) (r' : Rat) (k' : Fin 12) :
    finLt r k r' k' = true ↔ (XReal.fin r k).value < (XReal.fin r' k').value := by
  by_cases h : r.num < 0 <;> by_cases h' : r'.num < 0
  · simp [finLt, h, h', magLt_iff, value_of_neg]
  · have h1 := (value_neg_iff r k).mpr h
    have h2 : 0 ≤ (XReal.fin r' k').value := not_lt.mp fun hv => h' ((value_neg_iff r' k').mp hv)
    simp [finLt, h, h', h1.trans_le h2]
  · have h1 := (value_neg_iff r' k').mpr h'
    have h2 : 0 ≤ (XReal.fin r k).value := not_lt.mp fun hv => h ((value_neg_iff r k).mp hv)
    simp [finLt, h, h', (h1.trans_le h2).le]
  · simp [finLt, h, h', magLt_iff, value_of_nonneg]

/-! ### Floor and rounding -/

theorem root12Bits_spec (n b acc : Nat) (h : acc ^ 12 ≤ n) (h' : n < (acc + 2 ^ b) ^ 12) :
    (root12Bits n acc b) ^ 12 ≤ n ∧ n < (root12Bits n acc b + 1) ^ 12 := by
  induction b generalizing acc with
  | zero => exact ⟨h, by simpa [root12Bits] using h'⟩
  | succ b ih =>
    simp only [root12Bits]
    split
    · refine ih _ ‹_› ?_
      rw [pow_succ] at h'
      convert h' using 2
      ring
    · exact ih acc h (by omega)

/-- The integer twelfth root. -/
theorem root12_spec (n : Nat) : (root12 n) ^ 12 ≤ n ∧ n < (root12 n + 1) ^ 12 := by
  refine root12Bits_spec n _ 0 (by simp) ?_
  rw [zero_add, ← pow_mul]
  exact lt_of_lt_of_le Nat.lt_log2_self (Nat.pow_le_pow_right (by norm_num) (by omega))

/-- `floor` of a magnitude. -/
theorem floorMag_eq (r : Rat) (k : Fin 12) : floorMag r k = ⌊mag r k⌋₊ := by
  by_cases hk : k = 0
  · subst hk
    have h : mag r 0 = (r.num.natAbs : ℝ) / (r.den : ℝ) := by simp [mag, abs_rat]
    rw [h, Nat.floor_div_natCast, Nat.floor_natCast]
    simp [floorMag]
  · obtain ⟨h1, h2⟩ := root12_spec (pow12Num r k / pow12Den r)
    have hd := pow12Den_pos r
    have hd' : 0 < pow12Den r := by exact_mod_cast hd
    rw [floorMag, if_neg hk]
    symm
    rw [Nat.floor_eq_iff (mag_nonneg r k)]
    constructor
    · rw [← pow_le_pow_iff_left₀ (Nat.cast_nonneg _) (mag_nonneg r k) (by norm_num : (12 : ℕ) ≠ 0), mag_pow, le_div_iff₀ hd]
      exact_mod_cast (Nat.le_div_iff_mul_le hd').mp h1
    · rw [← pow_lt_pow_iff_left₀ (mag_nonneg r k) (by positivity) (by norm_num : (12 : ℕ) ≠ 0), mag_pow, div_lt_iff₀ hd]
      exact_mod_cast (Nat.div_lt_iff_lt_mul hd').mp h2

theorem mag_scale (c : Rat) (hc : 0 ≤ c) (r : Rat) (k : Fin 12) : mag (r * c) k = mag r k * c := by
  have h : |(c : ℝ)| = c := abs_of_nonneg (by exact_mod_cast hc)
  simp only [mag]
  push_cast
  rw [abs_mul, h]
  ring

theorem mag_ratio (r : Rat) : mag r 0 = (r.num.natAbs : ℝ) / r.den := by simp [mag, abs_rat]

/-- A magnitude that is no rational is no half-integer. -/
theorem mag_ne_half {r : Rat} {k : Fin 12} (hk : k ≠ 0) (m : Nat) (hm : 0 < m) : 2 * mag r k ≠ m := by
  intro h
  have h12 : (2 * mag r k) ^ 12 = (m : ℝ) ^ 12 := by rw [h]
  rw [mul_pow, mag_pow, mul_div_assoc', div_eq_iff (pow12Den_pos r).ne'] at h12
  have hn : 2 ^ 12 * (r.num.natAbs ^ 12 * 2 ^ k.val) = m ^ 12 * r.den ^ 12 := by
    have : (2 : ℝ) ^ 12 * (pow12Num r k : ℝ) = (m : ℝ) ^ 12 * (pow12Den r : ℝ) := h12
    rw [pow12Num, pow12Den] at this
    exact_mod_cast this
  have hr : r.num.natAbs ≠ 0 := by
    intro h0
    have : m ^ 12 * r.den ^ 12 = 0 := by rw [← hn, h0]; ring
    have := r.den_pos
    simp_all
  have hv := congrArg (padicValNat 2) hn
  have hd0 : r.den ≠ 0 := r.den_pos.ne'
  have h2 : Fact (Nat.Prime 2) := ⟨Nat.prime_two⟩
  rw [padicValNat.mul (by norm_num) (by positivity), padicValNat.mul (by positivity) (by positivity),
    padicValNat.mul (by positivity) (by positivity)] at hv
  simp only [padicValNat.pow, padicValNat.self (by norm_num : 1 < 2)] at hv
  have hlt := k.isLt
  have h0 : k.val ≠ 0 := fun h => hk (Fin.ext h)
  omega

/-- `rne` of a magnitude: a nearest integer, and the even one of two (R12). -/
theorem rneMag_spec (r : Rat) (k : Fin 12) :
    |mag r k - rneMag r k| < 1 / 2 ∨ (|mag r k - rneMag r k| = 1 / 2 ∧ rneMag r k % 2 = 0) := by
  have hf := floorMag_eq r k
  have h2 : floorMag (2 * r) k = ⌊2 * mag r k⌋₊ := by
    rw [floorMag_eq, mul_comm, mag_scale 2 (by norm_num)]
    push_cast
    rw [mul_comm]
  have hx := mag_nonneg r k
  obtain ⟨hl, hu⟩ := (Nat.floor_eq_iff hx).mp hf.symm
  obtain ⟨hl2, hu2⟩ := (Nat.floor_eq_iff (by positivity : (0 : ℝ) ≤ 2 * mag r k)).mp h2.symm
  set n := floorMag r k
  have hcase : floorMag (2 * r) k = 2 * n ∨ floorMag (2 * r) k = 2 * n + 1 := by
    have h1 : 2 * n ≤ floorMag (2 * r) k := by
      have : ((2 * n : Nat) : ℝ) < (floorMag (2 * r) k : ℝ) + 1 := by push_cast; linarith
      have : 2 * n < floorMag (2 * r) k + 1 := by exact_mod_cast this
      omega
    have h1' : floorMag (2 * r) k < 2 * n + 2 := by
      have : (floorMag (2 * r) k : ℝ) < ((2 * n + 2 : Nat) : ℝ) := by push_cast; linarith
      exact_mod_cast this
    omega
  rcases hcase with he | ho
  · have hr : rneMag r k = n := by simp [rneMag, n, he]
    rw [he] at hu2
    push_cast at hu2
    left
    rw [hr, abs_of_nonneg (by linarith)]
    linarith
  · have hne : ¬ floorMag (2 * r) k = 2 * n := by omega
    rw [ho] at hl2
    push_cast at hl2
    by_cases ht : k = 0 ∧ 2 * r.num.natAbs = (2 * n + 1) * r.den
    · have hr : rneMag r k = n + n % 2 := by simp only [rneMag]; rw [if_neg hne, if_pos ht]
      have hm : mag r k = n + 1 / 2 := by
        obtain ⟨rfl, h⟩ := ht
        have hd : (0 : ℝ) < r.den := by exact_mod_cast r.den_pos
        rw [mag_ratio, div_eq_iff hd.ne']
        have : (2 : ℝ) * r.num.natAbs = (2 * n + 1) * r.den := by exact_mod_cast h
        linarith
      right
      rcases Nat.mod_two_eq_zero_or_one n with h0 | h1
      · rw [hr, h0, hm]
        constructor
        · rw [abs_of_nonneg] <;> push_cast <;> linarith
        · omega
      · rw [hr, h1, hm]
        constructor
        · rw [abs_of_nonpos] <;> push_cast <;> linarith
        · omega
    · have hr : rneMag r k = n + 1 := by simp only [rneMag]; rw [if_neg hne, if_neg ht]
      left
      have hstrict : (n : ℝ) + 1 / 2 < mag r k := by
        rcases (by linarith : (n : ℝ) + 1 / 2 ≤ mag r k).lt_or_eq with h | h
        · exact h
        · exfalso
          by_cases hk : k = 0
          · refine ht ⟨hk, ?_⟩
            subst hk
            have hd : (0 : ℝ) < r.den := by exact_mod_cast r.den_pos
            rw [mag_ratio, eq_div_iff hd.ne'] at h
            have : (2 : ℝ) * r.num.natAbs = (2 * n + 1) * r.den := by linarith
            exact_mod_cast this
          · exact mag_ne_half hk (2 * n + 1) (by omega) (by push_cast; linarith)
      rw [hr, abs_of_nonpos (by push_cast; linarith)]
      push_cast
      linarith

/-! ### Arithmetic -/

theorem value_mk12 (r : Rat) (k : Fin 12) : (XReal.mk12 r k).value = (XReal.fin r k).value := by
  unfold XReal.mk12
  split
  · next h => simp [value_fin, h]
  · rfl

theorem mk12_fin (r : Rat) (k : Fin 12) : ∃ r' k', XReal.mk12 r k = .fin r' k' := by
  unfold XReal.mk12
  split <;> exact ⟨_, _, rfl⟩

theorem mk12_canonical (r : Rat) (k : Fin 12) : (XReal.mk12 r k).canonical = true := by
  unfold XReal.mk12
  split
  · rfl
  · next h => simp [XReal.canonical, h]

theorem two_rpow_add (a b : ℝ) : (2 : ℝ) ^ (a + b) = 2 ^ a * 2 ^ b := Real.rpow_add (by norm_num) a b

/-- The exact product. -/
theorem value_mul (r r' : Rat) (k k' : Fin 12) : ((XReal.fin r k).mul (.fin r' k')).value =
    (XReal.fin r k).value * (XReal.fin r' k').value := by
  simp only [XReal.mul]
  split
  · next h =>
    rw [value_mk12, value_fin, value_fin, value_fin, Fin.val_add_eq_of_add_lt h]
    push_cast
    rw [add_div, two_rpow_add]
    ring
  · next h =>
    have hv : ((k + k' : Fin 12).val : ℝ) = k.val + k'.val - 12 := by
      have : (k + k').val + 12 = k.val + k'.val := by
        rw [Fin.val_add]; omega
      have : (((k + k').val + 12 : Nat) : ℝ) = ((k.val + k'.val : Nat) : ℝ) := by rw [this]
      push_cast at this
      linarith
    rw [value_mk12, value_fin, value_fin, value_fin, hv]
    have : (2 : ℝ) ^ (((k.val : ℝ) + k'.val - 12) / 12) * 2 = 2 ^ ((k.val : ℝ) / 12) * 2 ^ ((k'.val : ℝ) / 12) := by
      rw [← two_rpow_add, show ((k.val : ℝ) / 12 + k'.val / 12) = (k.val + k'.val - 12) / 12 + 1 by ring, two_rpow_add,
        Real.rpow_one]
    push_cast
    linear_combination (r : ℝ) * r' * this

theorem mul_fin (r r' : Rat) (k k' : Fin 12) : ∃ q j, (XReal.fin r k).mul (.fin r' k') = .fin q j := by
  simp only [XReal.mul]
  split <;> exact mk12_fin _ _

/-- The exact quotient by a value that is not zero. -/
theorem value_div (r : Rat) {r' : Rat} (k k' : Fin 12) (h : r' ≠ 0) : ((XReal.fin r k).div (.fin r' k')).value =
    (XReal.fin r k).value / (XReal.fin r' k').value := by
  have hr : (r' : ℝ) ≠ 0 := by exact_mod_cast h
  have hp := (root_pos k').ne'
  simp only [XReal.div, if_neg h]
  split
  · next hle =>
    have hv : ((k - k' : Fin 12).val : ℝ) = k.val - k'.val := by
      rw [Fin.sub_val_of_le hle, Nat.cast_sub hle]
    rw [value_mk12, value_fin, value_fin, value_fin, hv, sub_div, Real.rpow_sub (by norm_num)]
    push_cast
    field_simp
  · next hle =>
    have hv : ((k - k' : Fin 12).val : ℝ) = k.val - k'.val + 12 := by
      have h1 := k.isLt
      have h2 := k'.isLt
      have : (k - k').val + k'.val = k.val + 12 := by rw [Fin.sub_def]; simp; omega
      have : (((k - k').val + k'.val : Nat) : ℝ) = ((k.val + 12 : Nat) : ℝ) := by rw [this]
      push_cast at this
      linarith
    rw [value_mk12, value_fin, value_fin, value_fin, hv,
      show ((k.val : ℝ) - k'.val + 12) / 12 = k.val / 12 - k'.val / 12 + 1 by ring, two_rpow_add, Real.rpow_one,
      Real.rpow_sub (by norm_num)]
    push_cast
    field_simp

theorem div_fin (r : Rat) {r' : Rat} (k k' : Fin 12) (h : r' ≠ 0) :
    ∃ q j, (XReal.fin r k).div (.fin r' k') = .fin q j := by
  simp only [XReal.div, if_neg h]
  split <;> exact mk12_fin _ _

/-- `2^z` for an integer `z`. -/
theorem value_ratTwoPow (z : Int) : ((ratTwoPow z : Rat) : ℝ) = (2 : ℝ) ^ z := by
  unfold ratTwoPow
  split
  · next h =>
    obtain ⟨n, rfl⟩ := Int.eq_ofNat_of_zero_le h
    simp [Rat.mkRat_one]
  · next h =>
    obtain ⟨n, rfl⟩ := Int.eq_negSucc_of_lt_zero (not_le.mp h)
    rw [Rat.mkRat_eq_div]
    simp [zpow_negSucc]

theorem ratTwoPow_pos (z : Int) : 0 < ratTwoPow z := by
  have h : (0 : ℝ) < ((ratTwoPow z : Rat) : ℝ) := by rw [value_ratTwoPow]; positivity
  exact_mod_cast h

/-- An equal-tempered interval (R29). -/
theorem value_temper (c : Rat) (z : Int) : (XReal.temper c z).value = c * (2 : ℝ) ^ ((z : ℝ) / 12) := by
  have hm : 0 ≤ z % 12 := Int.emod_nonneg _ (by norm_num)
  have hlt : z % 12 < 12 := Int.emod_lt_of_pos _ (by norm_num)
  have hv : (Fin.ofNat 12 (z % 12).toNat).val = (z % 12).toNat := by
    simp only [Fin.ofNat]
    exact Nat.mod_eq_of_lt (by omega)
  rw [XReal.temper, value_mk12, value_fin, hv]
  have hc : (((z % 12).toNat : Nat) : ℝ) = ((z % 12 : Int) : ℝ) := by
    have : (((z % 12).toNat : Int) : ℝ) = ((z % 12 : Int) : ℝ) := by rw [Int.toNat_of_nonneg hm]
    exact_mod_cast this
  have hz : (z : ℝ) = 12 * ((z / 12 : Int) : ℝ) + ((z % 12 : Int) : ℝ) := by
    exact_mod_cast (Int.mul_ediv_add_emod z 12).symm
  rw [hc]
  push_cast
  rw [value_ratTwoPow, hz, show (12 * ((z / 12 : Int) : ℝ) + ((z % 12 : Int) : ℝ)) / 12 =
    ((z / 12 : Int) : ℝ) + ((z % 12 : Int) : ℝ) / 12 by ring, two_rpow_add, Real.rpow_intCast]
  ring

/-! ### All finite values -/

theorem value_toExpr {x : XReal} (h : x.isFinite = true) : x.toExpr.value = x.value := by
  cases x <;> simp_all [XReal.isFinite, XReal.toExpr, RealExpr.value, XReal.value]

theorem value_neg {x : XReal} (h : x.isFinite = true) : x.neg.isFinite = true ∧ x.neg.value = -x.value := by
  cases x with
  | fin r k => simp [XReal.neg, XReal.isFinite, value_fin]
  | expr e => cases e <;> simp [XReal.neg, XReal.isFinite, XReal.value, RealExpr.value]
  | _ => cases h

theorem isFinite_mk12 (r : Rat) (k : Fin 12) : (XReal.mk12 r k).isFinite = true := by
  obtain ⟨q, j, h⟩ := mk12_fin r k
  rw [h]; rfl

theorem value_scale (q r : Rat) (n : Nat) : (XReal.scale q r n).isFinite = true ∧
    (XReal.scale q r n).value = q * (RealExpr.given r n).value := by
  unfold XReal.scale
  split
  · next h =>
    have h' : (q : ℝ) * r = 0 := by exact_mod_cast h
    refine ⟨rfl, ?_⟩
    rw [RealExpr.value, ← mul_assoc, h']
    simp [value_fin]
  · refine ⟨rfl, ?_⟩
    simp only [XReal.value, RealExpr.value]
    push_cast
    ring

/-- A product by `mulExpr`. -/
theorem value_mulExpr {a b : XReal} (ha : a.isFinite = true) (hb : b.isFinite = true) :
    (a.mulExpr b).isFinite = true ∧ (a.mulExpr b).value = a.value * b.value := by
  unfold XReal.mulExpr
  split
  · next q r n =>
    obtain ⟨h, h'⟩ := value_scale q r n
    exact ⟨h, by rw [h']; simp [XReal.value]⟩
  · next r n q =>
    obtain ⟨h, h'⟩ := value_scale q r n
    exact ⟨h, by rw [h']; simp [XReal.value, mul_comm]⟩
  · split
    · next h =>
      refine ⟨rfl, ?_⟩
      rcases h with rfl | rfl <;> simp [value_fin]
    · split
      · next h => subst h; exact ⟨hb, by simp [value_fin]⟩
      · split
        · next h => subst h; exact ⟨ha, by simp [value_fin]⟩
        · exact ⟨rfl, by simp only [XReal.value, RealExpr.value, value_toExpr ha, value_toExpr hb]⟩

/-- The exact product of finite values. -/
theorem value_mul_finite {a b : XReal} (ha : a.isFinite = true) (hb : b.isFinite = true) :
    (a.mul b).isFinite = true ∧ (a.mul b).value = a.value * b.value := by
  cases a <;> cases b <;> first | (cases ha; done) | (cases hb; done) | skip
  · refine ⟨?_, value_mul _ _ _ _⟩
    simp only [XReal.mul]
    split <;> exact isFinite_mk12 _ _
  all_goals exact value_mulExpr ha hb

/-- The exact sum of finite values. -/
theorem value_add_finite {a b : XReal} (ha : a.isFinite = true) (hb : b.isFinite = true) :
    (a.add b).isFinite = true ∧ (a.add b).value = a.value + b.value := by
  have other : ∀ {x y : XReal}, x.isFinite = true → y.isFinite = true →
      ((if x = .fin 0 0 then y else if y = .fin 0 0 then x else XReal.expr (.add x.toExpr y.toExpr)).isFinite = true ∧
        (if x = .fin 0 0 then y else if y = .fin 0 0 then x else XReal.expr (.add x.toExpr y.toExpr)).value =
          x.value + y.value) := by
    intro x y hx hy
    split
    · next h => subst h; exact ⟨hy, by simp [value_fin]⟩
    · split
      · next h => subst h; exact ⟨hx, by simp [value_fin]⟩
      · exact ⟨rfl, by simp only [XReal.value, RealExpr.value, value_toExpr hx, value_toExpr hy]⟩
  cases a <;> cases b <;> first | (cases ha; done) | (cases hb; done) | skip
  · next r k r' k' =>
    simp only [XReal.add]
    split
    · next h => subst h; exact ⟨isFinite_mk12 _ _, by rw [value_mk12]; simp [value_fin]⟩
    · split
      · next h => subst h; exact ⟨isFinite_mk12 _ _, by rw [value_mk12]; simp [value_fin]⟩
      · split
        · next h =>
          subst h
          refine ⟨isFinite_mk12 _ _, ?_⟩
          rw [value_mk12, value_fin, value_fin, value_fin]
          push_cast
          ring
        · exact ⟨rfl, rfl⟩
  all_goals exact other ha hb

/-- An elementary function of a finite value. -/
theorem value_applyExact (f : Elementary) {x : XReal} (h : x.isFinite = true) :
    (applyExact f x).isFinite = true ∧ (applyExact f x).value = f.value x.value := by
  unfold applyExact
  split
  · next h0 =>
    subst h0
    exact ⟨rfl, by cases f <;> simp [value_fin, Elementary.value]⟩
  · split
    · next h1 =>
      obtain ⟨rfl, rfl⟩ := h1
      exact ⟨rfl, by simp [value_fin, Elementary.value]⟩
    · exact ⟨rfl, by simp only [XReal.value, RealExpr.value, value_toExpr h]⟩

end Sys2Proof
end

