-- ==== Sys2Proof/Laws/Interval.lean ====
section
/-!
SUPPORT. What the interval arithmetic of Sys2Proof/Machine/Interval.lean encloses: for each operation, the real number that
lies in its result when its operands lie in theirs.
-/
namespace Sys2Proof

theorem unitBound_pos : 0 < unitBound := by decide +kernel

theorem unit_pos : (0 : ℝ) < unitBound := by exact_mod_cast unitBound_pos

theorem floorDiv_le {a b : Int} (h : 0 < b) : ((a / b : Int) : ℝ) ≤ (a : ℝ) / b := by
  rw [le_div_iff₀ (by exact_mod_cast h)]
  exact_mod_cast Int.ediv_mul_le a h.ne'

theorem le_ceilDiv {a b : Int} (h : 0 < b) : (a : ℝ) / b ≤ (ceilDiv a b : Int) := by
  have := floorDiv_le (a := -a) h
  rw [ceilDiv]
  push_cast at this ⊢
  rw [neg_div] at this
  linarith

namespace Ival

theorem has_ofRat (q : Rat) : (Ival.ofRat q).Has q := by
  have hd : 0 < (q.den : Int) := by exact_mod_cast q.den_pos
  have hv : (q : ℝ) * unitBound = ((q.num * unitBound : Int) : ℝ) / ((q.den : Int) : ℝ) := by
    push_cast
    rw [Rat.cast_def, div_mul_eq_mul_div]
  exact ⟨by rw [hv]; exact floorDiv_le hd, by rw [hv]; exact le_ceilDiv hd⟩

theorem has_neg {a : Ival} {x : ℝ} (h : a.Has x) : a.neg.Has (-x) := by
  obtain ⟨h1, h2⟩ := h
  constructor <;> simp only [neg] <;> push_cast <;> linarith

theorem has_add {a b : Ival} {x y : ℝ} (ha : a.Has x) (hb : b.Has y) : (a.add b).Has (x + y) := by
  obtain ⟨h1, h2⟩ := ha
  obtain ⟨h3, h4⟩ := hb
  constructor <;> simp only [add] <;> push_cast <;> linarith

theorem has_sub {a b : Ival} {x y : ℝ} (ha : a.Has x) (hb : b.Has y) : (a.sub b).Has (x - y) := by
  rw [sub_eq_add_neg]
  exact has_add ha (has_neg hb)

/-- A product lies between the least and the greatest product of the bounds. -/
theorem mul_between {a b c d x y : ℝ} (h1 : a ≤ x) (h2 : x ≤ b) (h3 : c ≤ y) (h4 : y ≤ d) :
    min (min (a * c) (a * d)) (min (b * c) (b * d)) ≤ x * y ∧
      x * y ≤ max (max (a * c) (a * d)) (max (b * c) (b * d)) := by
  have low : ∀ u, min (u * c) (u * d) ≤ u * y ∧ u * y ≤ max (u * c) (u * d) := by
    intro u
    rcases le_total 0 u with hu | hu
    · exact ⟨(min_le_left _ _).trans (mul_le_mul_of_nonneg_left h3 hu),
        (mul_le_mul_of_nonneg_left h4 hu).trans (le_max_right _ _)⟩
    · exact ⟨(min_le_right _ _).trans (mul_le_mul_of_nonpos_left h4 hu),
        (mul_le_mul_of_nonpos_left h3 hu).trans (le_max_left _ _)⟩
  rcases le_total 0 y with hy | hy
  · exact ⟨(min_le_left _ _).trans ((low a).1.trans (mul_le_mul_of_nonneg_right h1 hy)),
      (mul_le_mul_of_nonneg_right h2 hy).trans ((low b).2.trans (le_max_right _ _))⟩
  · exact ⟨(min_le_right _ _).trans ((low b).1.trans (mul_le_mul_of_nonpos_right h2 hy)),
      (mul_le_mul_of_nonpos_right h1 hy).trans ((low a).2.trans (le_max_left _ _))⟩

theorem has_mul {a b : Ival} {x y : ℝ} (ha : a.Has x) (hb : b.Has y) : (a.mul b).Has (x * y) := by
  obtain ⟨h1, h2⟩ := ha
  obtain ⟨h3, h4⟩ := hb
  obtain ⟨hl, hu⟩ := mul_between h1 h2 h3 h4
  have hp := unit_pos
  have hv : x * y * unitBound = (x * unitBound) * (y * unitBound) / unitBound := by
    field_simp
  rw [Has, hv]
  constructor
  · refine (floorDiv_le unitBound_pos).trans ?_
    refine div_le_div_of_nonneg_right ?_ hp.le
    push_cast
    exact hl
  · refine le_trans ?_ (le_ceilDiv unitBound_pos)
    refine div_le_div_of_nonneg_right ?_ hp.le
    push_cast
    exact hu

theorem has_divNat {a : Ival} {x : ℝ} (ha : a.Has x) {n : Nat} (hn : 0 < n) : (a.divNat n).Has (x / n) := by
  obtain ⟨h1, h2⟩ := ha
  have hn' : (0 : Int) < n := by exact_mod_cast hn
  have hr : (0 : ℝ) < n := by exact_mod_cast hn
  rw [Has, div_mul_eq_mul_div]
  constructor
  · refine (floorDiv_le hn').trans ?_
    push_cast
    exact div_le_div_of_nonneg_right h1 hr.le
  · refine le_trans ?_ (le_ceilDiv hn')
    push_cast
    exact div_le_div_of_nonneg_right h2 hr.le

theorem has_inv_pos {b : Ival} {y : ℝ} (hb : b.Has y) (h : 0 < b.lo) :
    (Ival.mk (unitBound * unitBound / b.hi) (ceilDiv (unitBound * unitBound) b.lo)).Has y⁻¹ := by
  obtain ⟨h1, h2⟩ := hb
  have hp := unit_pos
  have hl : (0 : ℝ) < b.lo := by exact_mod_cast h
  have hy : 0 < y * unitBound := hl.trans_le h1
  have hh : (0 : ℝ) < b.hi := hy.trans_le h2
  have hv : y⁻¹ * unitBound = unitBound * unitBound / (y * unitBound) := by
    have : y ≠ 0 := by rintro rfl; simp at hy
    field_simp
  have hU : (0 : ℝ) ≤ unitBound * unitBound := (mul_pos hp hp).le
  rw [Has, hv]
  constructor
  · refine (floorDiv_le (by exact_mod_cast hh)).trans ?_
    push_cast
    exact div_le_div_of_nonneg_left hU hy h2
  · refine le_trans ?_ (le_ceilDiv h)
    push_cast
    exact div_le_div_of_nonneg_left hU hl h1

theorem has_inv {b c : Ival} {y : ℝ} (hb : b.Has y) (h : b.inv = some c) : c.Has y⁻¹ := by
  unfold inv at h
  split at h
  · cases h; exact has_inv_pos hb ‹_›
  · split at h
    · cases h
      have := has_neg (has_inv_pos (has_neg hb) (by simpa [neg] using ‹b.hi < 0›))
      rw [inv_neg, neg_neg] at this
      exact this
    · cases h

theorem has_one : one.Has 1 := by simp [Has, one]

theorem has_zero : zero.Has 0 := by simp [Has, zero]

theorem has_small {a : Ival} {x : ℝ} (ha : a.Has x) (h : a.small = true) : |x| ≤ 1024 := by
  obtain ⟨h1, h2⟩ := ha
  have hp := unit_pos
  simp only [small, Bool.and_eq_true, decide_eq_true_iff] at h
  have hl : -1024 * (unitBound : ℝ) ≤ a.lo := by exact_mod_cast h.1
  have hu : (a.hi : ℝ) ≤ 1024 * unitBound := by exact_mod_cast h.2
  rw [abs_le]
  constructor <;> nlinarith

end Ival

/-! ### The complex exponential -/

/-- A complex number lies in a rectangle. -/
def Box.Has (b : Box) (z : ℂ) : Prop := b.re.Has z.re ∧ b.im.Has z.im

namespace Box

theorem has_mul {a b : Box} {x y : ℂ} (ha : a.Has x) (hb : b.Has y) : (a.mul b).Has (x * y) :=
  ⟨by rw [Complex.mul_re]; exact Ival.has_sub (Ival.has_mul ha.1 hb.1) (Ival.has_mul ha.2 hb.2),
    by rw [Complex.mul_im]; exact Ival.has_add (Ival.has_mul ha.1 hb.2) (Ival.has_mul ha.2 hb.1)⟩

theorem has_hornerStep {z a : Box} {w x : ℂ} (hz : z.Has w) (ha : a.Has x) {n : Nat} (hn : 0 < n) :
    (hornerStep z a n).Has (1 + w * x / n) := by
  have hp := has_mul hz ha
  refine ⟨?_, ?_⟩
  · rw [Complex.add_re, Complex.div_natCast_re]
    exact Ival.has_add Ival.has_one (Ival.has_divNat hp.1 hn)
  · rw [Complex.add_im, Complex.div_natCast_im, Complex.one_im, zero_add]
    exact Ival.has_divNat hp.2 hn

/-- The exponential series from its term `n` on, that term being 1. -/
noncomputable def tail (w : ℂ) (n : Nat) : ℂ :=
  if w = 0 then 1 else (Complex.exp w - ∑ m ∈ Finset.range n, w ^ m / m.factorial) * n.factorial / w ^ n

theorem tail_zero (w : ℂ) : tail w 0 = Complex.exp w := by
  unfold tail
  split
  · next h => simp [h]
  · simp

theorem tail_step (w : ℂ) (n : Nat) : tail w n = 1 + w * tail w (n + 1) / (n + 1 : Nat) := by
  unfold tail
  split
  · next h => simp [h]
  · next h =>
    have h1 : (n.factorial : ℂ) ≠ 0 := by exact_mod_cast n.factorial_ne_zero
    have h2 : ((n : ℂ) + 1) ≠ 0 := by exact_mod_cast n.succ_ne_zero
    rw [Finset.sum_range_succ, Nat.factorial_succ]
    push_cast
    field_simp
    ring

theorem norm_tail {w : ℂ} (h : ‖w‖ ≤ 1) {n : Nat} (hn : 0 < n) : ‖tail w n‖ ≤ 3 := by
  unfold tail
  split
  · norm_num
  · next h0 =>
    have hw : 0 < ‖w‖ ^ n := pow_pos (norm_pos_iff.mpr h0) n
    have hf : (0 : ℝ) < n.factorial := by exact_mod_cast n.factorial_pos
    have hr : (0 : ℝ) < n := by exact_mod_cast hn
    have hr1 : (1 : ℝ) ≤ n := by exact_mod_cast hn
    have hb := Complex.exp_bound h hn
    rw [norm_div, norm_mul, norm_pow, Complex.norm_natCast, div_le_iff₀ hw]
    calc _ ≤ ‖w‖ ^ n * ((n.succ : ℝ) * ((n.factorial : ℝ) * n)⁻¹) * n.factorial := by gcongr
      _ = ‖w‖ ^ n * ((n + 1) / n) := by push_cast; field_simp
      _ ≤ ‖w‖ ^ n * 3 := by
        refine mul_le_mul_of_nonneg_left ?_ hw.le
        rw [div_le_iff₀ hr]
        linarith
      _ = 3 * ‖w‖ ^ n := mul_comm _ _

theorem has_expTail {z : Box} {w : ℂ} (hz : z.Has w) (n : Nat) (a : Box) (ha : a.Has (tail w n)) :
    (expTail z n a).Has (Complex.exp w) := by
  induction n generalizing a with
  | zero => rw [← tail_zero]; exact ha
  | succ n ih => exact ih _ (by rw [tail_step]; exact has_hornerStep hz ha n.succ_pos)

theorem has_squares {a : Box} {x : ℂ} (ha : a.Has x) (n : Nat) : (squares n a).Has (x ^ 2 ^ n) := by
  induction n generalizing a x with
  | zero => simpa [squares] using ha
  | succ n ih =>
    have := ih (has_mul ha ha)
    rwa [← pow_two, ← pow_mul, ← pow_succ'] at this

theorem bounds_has {x : ℝ} (h : |x| ≤ 3) : (Ival.mk (-3 * unitBound) (3 * unitBound)).Has x := by
  have hp := unit_pos
  rw [abs_le] at h
  constructor <;> push_cast <;> nlinarith

/-- The complex exponential of a number that is not too large. -/
theorem has_exp {z : Box} {w : ℂ} (hz : z.Has w) (hre : |w.re| ≤ 1024) (him : |w.im| ≤ 1024) :
    (exp z).Has (Complex.exp w) := by
  have hs : (Box.mk (z.re.divNat (2 ^ 20)) (z.im.divNat (2 ^ 20))).Has (w / ((2 ^ 20 : Nat) : ℂ)) :=
    ⟨by rw [Complex.div_natCast_re]; exact Ival.has_divNat hz.1 (by norm_num),
      by rw [Complex.div_natCast_im]; exact Ival.has_divNat hz.2 (by norm_num)⟩
  have hn : ‖w / ((2 ^ 20 : Nat) : ℂ)‖ ≤ 1 := by
    rw [norm_div, Complex.norm_natCast, div_le_one (by positivity)]
    refine (Complex.norm_le_abs_re_add_abs_im w).trans ?_
    norm_num
    linarith
  have ht := norm_tail hn (n := 100) (by norm_num)
  have := has_squares (has_expTail hs 100 ⟨⟨-3 * unitBound, 3 * unitBound⟩, ⟨-3 * unitBound, 3 * unitBound⟩⟩
    ⟨bounds_has ((Complex.abs_re_le_norm _).trans ht), bounds_has ((Complex.abs_im_le_norm _).trans ht)⟩) 20
  rw [← Complex.exp_nat_mul, show ((2 ^ 20 : Nat) : ℂ) * (w / ((2 ^ 20 : Nat) : ℂ)) = w by
    rw [mul_div_cancel₀]; exact_mod_cast (by norm_num : (2 ^ 20 : Nat) ≠ 0)] at this
  exact this

end Box

/-! ### Elementary functions -/

theorem sqrtBits_spec (n b acc : Nat) (h : acc ^ 2 ≤ n) (h' : n < (acc + 2 ^ b) ^ 2) :
    (sqrtBits n acc b) ^ 2 ≤ n ∧ n < (sqrtBits n acc b + 1) ^ 2 := by
  induction b generalizing acc with
  | zero => exact ⟨h, by simpa [sqrtBits] using h'⟩
  | succ b ih =>
    simp only [sqrtBits]
    split
    · refine ih _ ‹_› ?_
      rw [pow_succ 2 b] at h'
      convert h' using 2
      ring
    · exact ih acc h (by omega)

/-- The integer square root. -/
theorem sqrtNat_spec (n : Nat) : (sqrtNat n) ^ 2 ≤ n ∧ n < (sqrtNat n + 1) ^ 2 := by
  refine sqrtBits_spec n _ 0 (by simp) ?_
  rw [zero_add, ← pow_mul]
  exact lt_of_lt_of_le Nat.lt_log2_self (Nat.pow_le_pow_right (by norm_num) (by omega))

namespace Ival

theorem has_exp {a b : Ival} {x : ℝ} (ha : a.Has x) (h : exp a = some b) : b.Has (Real.exp x) := by
  unfold exp at h
  split at h
  · next hs =>
    obtain rfl := Option.some.inj h
    have := (Box.has_exp (z := ⟨a, zero⟩) (w := (x : ℂ)) ⟨by simpa using ha, by simpa using has_zero⟩
      (by simpa using has_small ha hs) (by simp)).1
    rwa [Complex.exp_ofReal_re] at this
  · cases h

theorem has_rotation {a : Ival} {x : ℝ} (ha : a.Has x) (h : a.small = true) :
    (Box.exp ⟨zero, a⟩).re.Has (Real.cos x) ∧ (Box.exp ⟨zero, a⟩).im.Has (Real.sin x) := by
  have := Box.has_exp (z := ⟨zero, a⟩) (w := (x : ℂ) * Complex.I) ⟨by simpa using has_zero, by simpa using ha⟩
    (by simp) (by simpa using has_small ha h)
  rwa [Box.Has, Complex.exp_ofReal_mul_I_re, Complex.exp_ofReal_mul_I_im] at this

theorem has_sqrt {a b : Ival} {x : ℝ} (ha : a.Has x) (h : a.sqrt = some b) : b.Has √x := by
  unfold sqrt at h
  split at h
  · cases h
  · next hl =>
    cases h
    obtain ⟨h1, h2⟩ := ha
    have hp := unit_pos
    have hlo : (0 : ℝ) ≤ a.lo := by exact_mod_cast not_lt.mp hl
    have hx : 0 ≤ x := by
      by_contra hx
      nlinarith [mul_neg_of_neg_of_pos (not_le.mp hx) hp]
    have hhi : (0 : ℝ) ≤ a.hi := hlo.trans (h1.trans h2)
    have hv : (√x * unitBound) ^ 2 = x * unitBound * unitBound := by
      rw [mul_pow, Real.sq_sqrt hx]
      ring
    have hcast : ∀ t : Int, (0 : ℝ) ≤ t → (((t * unitBound).toNat : Nat) : ℝ) = t * unitBound := by
      intro t ht
      have : 0 ≤ t * unitBound := mul_nonneg (by exact_mod_cast ht) unitBound_pos.le
      have : (((t * unitBound).toNat : Int) : ℝ) = ((t * unitBound : Int) : ℝ) := by rw [Int.toNat_of_nonneg this]
      push_cast at this ⊢
      exact this
    have hs0 : 0 ≤ √x * unitBound := mul_nonneg (Real.sqrt_nonneg x) hp.le
    constructor
    · have := (sqrtNat_spec (a.lo * unitBound).toNat).1
      have hr : ((sqrtNat (a.lo * unitBound).toNat : ℝ)) ^ 2 ≤ a.lo * unitBound := by
        rw [← hcast _ hlo]
        exact_mod_cast this
      push_cast
      refine le_of_sq_le_sq ?_ hs0
      rw [hv]
      exact hr.trans (mul_le_mul_of_nonneg_right h1 hp.le)
    · have := (sqrtNat_spec (a.hi * unitBound).toNat).2
      have hr : (a.hi : ℝ) * unitBound ≤ ((sqrtNat (a.hi * unitBound).toNat : ℝ) + 1) ^ 2 := by
        rw [← hcast _ hhi]
        exact_mod_cast this.le
      push_cast
      refine le_of_sq_le_sq ?_ (by positivity)
      rw [hv]
      exact (mul_le_mul_of_nonneg_right h2 hp.le).trans hr

end Ival

/-! ### The three constants -/

/-- The interval of one bound. -/
abbrev Ival.pt (b : Int) : Ival := ⟨b, b⟩

theorem has_pt (b : Int) : (Ival.pt b).Has ((b : ℝ) / unitBound) := by
  have hp := unit_pos.ne'
  constructor <;> rw [div_mul_cancel₀ _ hp]

theorem has_about {b : Int} {x : ℝ} (h1 : ((b - 2 ^ 64 : Int) : ℝ) / unitBound ≤ x)
    (h2 : x ≤ ((b + 2 ^ 64 : Int) : ℝ) / unitBound) : (Ival.about b).Has x :=
  ⟨(div_le_iff₀ unit_pos).mp h1, (le_div_iff₀ unit_pos).mp h2⟩

/-- The sine of the lower bound of pi is positive, that of the upper bound negative. -/
theorem sin_at_pi_bounds :
    (Ival.pt (piBound - 2 ^ 64)).small = true ∧ (Ival.pt (piBound + 2 ^ 64)).small = true ∧
    0 < (Box.exp ⟨.zero, .pt (piBound - 2 ^ 64)⟩).im.lo ∧ (Box.exp ⟨.zero, .pt (piBound + 2 ^ 64)⟩).im.hi < 0 ∧
    0 < piBound - 2 ^ 64 ∧ piBound + 2 ^ 64 < 4 * unitBound := by decide +kernel

/-- The exponential of the bounds of a logarithm. -/
abbrev LogBounds (n : Nat) (b : Int) : Prop :=
  (Ival.pt (b - 2 ^ 64)).small = true ∧ (Ival.pt (b + 2 ^ 64)).small = true ∧
  (Box.exp ⟨.pt (b - 2 ^ 64), .zero⟩).re.hi < n * unitBound ∧ n * unitBound < (Box.exp ⟨.pt (b + 2 ^ 64), .zero⟩).re.lo

theorem has_piBound : (Ival.about piBound).Has Real.pi := by
  obtain ⟨hs, hs', hl, hu, h0, h4⟩ := sin_at_pi_bounds
  have hp := unit_pos
  have hlo := (Ival.has_rotation (has_pt (piBound - 2 ^ 64)) hs).2.1
  have hhi := (Ival.has_rotation (has_pt (piBound + 2 ^ 64)) hs').2.2
  have hl' : (0 : ℝ) < ((Box.exp ⟨.zero, .pt (piBound - 2 ^ 64)⟩).im.lo : ℝ) := by exact_mod_cast hl
  have hu' : ((Box.exp ⟨.zero, .pt (piBound + 2 ^ 64)⟩).im.hi : ℝ) < 0 := by exact_mod_cast hu
  have hx0 : 0 < ((piBound - 2 ^ 64 : Int) : ℝ) / unitBound := div_pos (by exact_mod_cast h0) hp
  have hy4 : ((piBound + 2 ^ 64 : Int) : ℝ) / unitBound < 4 := by
    rw [div_lt_iff₀ hp]
    exact_mod_cast h4
  have hxy : ((piBound - 2 ^ 64 : Int) : ℝ) / unitBound ≤ ((piBound + 2 ^ 64 : Int) : ℝ) / unitBound := by
    refine div_le_div_of_nonneg_right ?_ hp.le
    exact_mod_cast (by omega : piBound - 2 ^ 64 ≤ piBound + 2 ^ 64)
  set x := ((piBound - 2 ^ 64 : Int) : ℝ) / unitBound
  set y := ((piBound + 2 ^ 64 : Int) : ℝ) / unitBound
  have hsx : 0 < Real.sin x := by
    by_contra h
    exact absurd (hl'.trans_le hlo) (not_lt.mpr (mul_nonpos_of_nonpos_of_nonneg (not_lt.mp h) hp.le))
  have hsy : Real.sin y < 0 := by
    by_contra h
    exact absurd (hhi.trans_lt hu') (not_lt.mpr (mul_nonneg (not_lt.mp h) hp.le))
  refine has_about (b := piBound) (x := Real.pi) (show x ≤ Real.pi from ?_) (show Real.pi ≤ y from ?_)
  · by_contra h
    have h3 := Real.pi_gt_three
    have : Real.sin x ≤ 0 := by
      have := Real.sin_nonneg_of_nonneg_of_le_pi (x := x - Real.pi) (by linarith) (by linarith)
      rw [Real.sin_sub_pi] at this
      linarith
    linarith
  · by_contra h
    have := Real.sin_nonneg_of_nonneg_of_le_pi (x := y) (by linarith) (by linarith)
    linarith

theorem has_logBound {n : Nat} (hn : 0 < n) {b : Int} (h : LogBounds n b) : (Ival.about b).Has (Real.log n) := by
  obtain ⟨hs, hs', hl, hu⟩ := h
  have hp := unit_pos
  have hr : (0 : ℝ) < n := by exact_mod_cast hn
  have hlo := (Ival.has_exp (has_pt (b - 2 ^ 64)) (by rw [Ival.exp, if_pos hs])).2
  have hhi := (Ival.has_exp (has_pt (b + 2 ^ 64)) (by rw [Ival.exp, if_pos hs'])).1
  have hl' : ((Box.exp ⟨.pt (b - 2 ^ 64), .zero⟩).re.hi : ℝ) < n * unitBound := by
    exact_mod_cast hl
  have hu' : (n : ℝ) * unitBound < ((Box.exp ⟨.pt (b + 2 ^ 64), .zero⟩).re.lo : ℝ) := by
    exact_mod_cast hu
  refine has_about ?_ ?_
  · rw [Real.le_log_iff_exp_le hr]
    exact (lt_of_mul_lt_mul_right (hlo.trans_lt hl') hp.le).le
  · rw [Real.log_le_iff_le_exp hr]
    exact (lt_of_mul_lt_mul_right (hu'.trans_le hhi) hp.le).le

theorem has_ln2Bound : (Ival.about ln2Bound).Has (Real.log 2) := by
  exact_mod_cast has_logBound (n := 2) (by norm_num) (b := ln2Bound) (by decide +kernel)

theorem has_ln10Bound : (Ival.about ln10Bound).Has (Real.log 10) := by
  exact_mod_cast has_logBound (n := 10) (by norm_num) (b := ln10Bound) (by decide +kernel)

/-- An elementary function of an interval. -/
theorem Ival.has_apply {f : Elementary} {a b : Ival} {x : ℝ} (ha : a.Has x) (h : a.apply f = some b) :
    b.Has (f.value x) := by
  cases f with
  | sin =>
    simp only [apply] at h
    split at h
    · obtain rfl := Option.some.inj h; exact (has_rotation ha ‹_›).2
    · cases h
  | cos =>
    simp only [apply] at h
    split at h
    · obtain rfl := Option.some.inj h; exact (has_rotation ha ‹_›).1
    · cases h
  | sinh =>
    simp only [apply, Option.bind_eq_bind, Option.bind_eq_some_iff] at h
    obtain ⟨up, hup, down, hdown, heq⟩ := h
    cases heq
    have := has_divNat (has_sub (has_exp ha hup) (has_exp (has_neg ha) hdown)) (n := 2) (by norm_num)
    rw [Elementary.value, Real.sinh_eq]
    exact_mod_cast this
  | pow10 =>
    have := has_exp (has_mul ha has_ln10Bound) h
    rw [mul_comm, ← Real.rpow_def_of_pos (by norm_num)] at this
    exact this
  | sqrt => exact has_sqrt ha h

end Sys2Proof
end

