-- ==== Sys2Proof/Laws/Floor.lean ====
section
/-!
SUPPORT. That the decisions of Sys2Proof/Machine/Num.lean about the reals are exact (spec/00_scope.md R12): floors,
comparisons, roundings, and the quotient that looks at its divisor.
-/
namespace Sys2Proof

/-! ### Enclosures -/

theorem boundValue_cast (b : Int) : ((boundValue b : Rat) : ℝ) = b / unitBound := by
  have h : ((unitBound.toNat : Nat) : ℝ) = unitBound := by exact_mod_cast Int.toNat_of_nonneg unitBound_pos.le
  rw [boundValue, Rat.mkRat_eq_div]
  push_cast
  rw [h]

/-- The enclosure of an expression holds the real number it stands for. -/
theorem enclose_has : ∀ (e : RealExpr) (i : Ival), e.enclose = some i → i.Has e.value := by
  intro e
  induction e with
  | base r k =>
    intro i h
    simp only [RealExpr.enclose] at h
    split at h
    · next hk =>
      obtain rfl := Option.some.inj h
      subst hk
      simpa [RealExpr.value] using Ival.has_ofRat r
    · obtain rfl := Option.some.inj h
      have hU := unitBound_pos
      have hm := floorMag_eq (r * unitBound) k
      have hsc := mag_scale (unitBound : Rat) (by exact_mod_cast hU.le) r k
      have h1 := Nat.floor_le (mag_nonneg (r * unitBound) k)
      have h2 := Nat.lt_floor_add_one (mag (r * unitBound) k)
      rw [← hm, hsc] at h1 h2
      push_cast at h1 h2
      split
      · next hn =>
        have hv : (RealExpr.base r k).value = -mag r k := value_of_neg hn
        constructor <;> rw [hv] <;> push_cast <;> linarith
      · next hn =>
        have hv : (RealExpr.base r k).value = mag r k := value_of_nonneg hn
        constructor <;> rw [hv] <;> push_cast <;> linarith
  | given r n => intro i h; cases h
  | pi => intro i h; obtain rfl := Option.some.inj h; exact has_piBound
  | ln2 => intro i h; obtain rfl := Option.some.inj h; exact has_ln2Bound
  | neg a ih =>
    intro i h
    simp only [RealExpr.enclose, Option.map_eq_some_iff] at h
    obtain ⟨j, hj, rfl⟩ := h
    exact Ival.has_neg (ih j hj)
  | add a b iha ihb =>
    intro i h
    simp only [RealExpr.enclose, Option.map_eq_some_iff, Option.bind_eq_some_iff] at h
    obtain ⟨j, hj, l, hl, rfl⟩ := h
    exact Ival.has_add (iha j hj) (ihb l hl)
  | mul a b iha ihb =>
    intro i h
    simp only [RealExpr.enclose, Option.map_eq_some_iff, Option.bind_eq_some_iff] at h
    obtain ⟨j, hj, l, hl, rfl⟩ := h
    exact Ival.has_mul (iha j hj) (ihb l hl)
  | div a b iha ihb =>
    intro i h
    simp only [RealExpr.enclose, Option.map_eq_some_iff, Option.bind_eq_some_iff] at h
    obtain ⟨j, hj, l, hl, m, hm, rfl⟩ := h
    rw [RealExpr.value, div_eq_mul_inv]
    exact Ival.has_mul (iha j hj) (Ival.has_inv (ihb l hl) hm)
  | apply f a ih =>
    intro i h
    simp only [RealExpr.enclose, Option.bind_eq_some_iff] at h
    obtain ⟨j, hj, hi⟩ := h
    exact Ival.has_apply (ih j hj) hi

/-! ### Decisions -/

/-- `floor` of a multiple of an expression is that of the real number it stands for. -/
theorem floorMul_eq (e : RealExpr) (c : Rat) : e.floorMul c = ⌊(XReal.expr e).value * c⌋ := by
  unfold RealExpr.floorMul
  split
  · exact RealFloor.exact _ e c
  · next i hi =>
    simp only
    split
    · next heq =>
      obtain ⟨h1, h2⟩ := enclose_has e i hi
      rw [← div_le_iff₀ unit_pos, ← boundValue_cast] at h1
      rw [← le_div_iff₀ unit_pos, ← boundValue_cast] at h2
      have hfl : ∀ b : Int, (boundValue b * c).floor = ⌊((boundValue b : Rat) : ℝ) * c⌋ := by
        intro b
        rw [← Rat.cast_mul, Rat.floor_cast]
        rfl
      rw [hfl, hfl] at heq
      rw [hfl]
      rcases le_total 0 (c : ℝ) with hc | hc
      · refine le_antisymm (Int.floor_le_floor (mul_le_mul_of_nonneg_right h1 hc)) ?_
        rw [heq]
        exact Int.floor_le_floor (mul_le_mul_of_nonneg_right h2 hc)
      · refine le_antisymm ?_ (Int.floor_le_floor (mul_le_mul_of_nonpos_right h1 hc))
        rw [heq]
        exact Int.floor_le_floor (mul_le_mul_of_nonpos_right h2 hc)
    · exact RealFloor.exact _ e c

theorem isNeg_iff {x : XReal} (h : x.isFinite = true) : x.isNeg = true ↔ x.value < 0 := by
  cases x with
  | fin r k => rw [value_neg_iff]; simp [XReal.isNeg]
  | expr e =>
    simp only [XReal.isNeg, RealExpr.isNeg, floorMul_eq, decide_eq_true_iff]
    simp [Int.floor_lt]
  | _ => cases h

theorem isZero_iff {x : XReal} (h : x.isFinite = true) : x.isZero = true ↔ x.value = 0 := by
  cases x with
  | fin r k => simp [XReal.isZero, value_fin, (root_pos k).ne']
  | expr e =>
    simp only [XReal.isZero, RealExpr.isZero, floorMul_eq, Bool.and_eq_true, beq_iff_eq, Int.floor_eq_iff]
    push_cast
    constructor
    · rintro ⟨⟨h1, -⟩, h2, -⟩
      linarith
    · rintro h0
      simp [h0]
  | _ => cases h

/-- The exact quotient of finite values, the divisor not zero. -/
theorem value_div_finite {a b : XReal} (ha : a.isFinite = true) (hb : b.isFinite = true) (h0 : b.value ≠ 0) :
    (a.div b).isFinite = true ∧ (a.div b).value = a.value / b.value := by
  have hz : b.isZero = false := Bool.eq_false_iff.mpr fun h => h0 ((isZero_iff hb).mp h)
  have other : ∀ {x y : XReal}, x.isFinite = true → y.isFinite = true → y.value ≠ 0 →
      (x.divExpr y).isFinite = true ∧ (x.divExpr y).value = x.value / y.value := by
    intro x y hx hy hy0
    unfold XReal.divExpr
    split
    · next r n q =>
      obtain ⟨h, h'⟩ := value_scale q⁻¹ r n
      refine ⟨h, ?_⟩
      rw [h']
      simp only [XReal.value, Fin.val_zero, Nat.cast_zero, zero_div, Real.rpow_zero, mul_one]
      push_cast
      ring
    · split
      · next h => subst h; exact ⟨hx, by simp [value_fin]⟩
      · split
        · next h => subst h; exact ⟨rfl, by rw [div_self hy0]; simp [value_fin]⟩
        · exact ⟨rfl, by simp only [XReal.value, RealExpr.value, value_toExpr hx, value_toExpr hy]⟩
  cases a <;> cases b <;> first | (cases ha; done) | (cases hb; done) | skip
  · next r k r' k' =>
    have hr : r' ≠ 0 := by rintro rfl; exact h0 (by simp [value_fin])
    refine ⟨?_, value_div r k k' hr⟩
    simp only [XReal.div, if_neg hr]
    split <;> exact isFinite_mk12 _ _
  all_goals
    simp only [XReal.div, hz, Bool.false_eq_true, if_false]
    exact other ha hb h0

/-- A difference of expressions is negative where its floor is. -/
theorem floorMul_sub_neg (a b : RealExpr) : (RealExpr.add a (.neg b)).floorMul 1 < 0 ↔ a.value < b.value := by
  rw [floorMul_eq]
  push_cast
  rw [Int.floor_lt]
  simp only [XReal.value, RealExpr.value, Int.cast_zero, mul_one]
  rw [← sub_eq_add_neg, sub_neg]

/-- The comparisons of an expression with a rational, by its multiples. -/
theorem floorMul_lt_rat (e : RealExpr) (q : Rat) :
    (e.floorMul q.den < q.num ↔ e.value < q) ∧ (e.floorMul (-q.den) < -q.num ↔ (q : ℝ) < e.value) := by
  have hq : (q : ℝ) = q.num / q.den := Rat.cast_def q
  have hd : (0 : ℝ) < q.den := by exact_mod_cast q.den_pos
  simp only [floorMul_eq]
  push_cast
  rw [Int.floor_lt, Int.floor_lt, hq, lt_div_iff₀ hd, div_lt_iff₀ hd]
  exact ⟨Iff.rfl, by rw [mul_neg, Int.cast_neg, neg_lt_neg_iff]; rfl⟩

/-- `<` on finite values is that of the real numbers (R12). -/
theorem lt_iff {x y : XReal} (hx : x.isFinite = true) (hy : y.isFinite = true) : XReal.lt x y = true ↔ x.value < y.value := by
  cases x <;> cases y <;> first | (cases hx; done) | (cases hy; done) | skip
  · exact finLt_iff _ _ _ _
  · next r k e =>
    simp only [XReal.lt]
    split
    · next hk =>
      subst hk
      rw [decide_eq_true_iff, (floorMul_lt_rat e r).2, ← value_ofRat]
      rfl
    · rw [decide_eq_true_iff, floorMul_sub_neg]
      rfl
  · next e r k =>
    simp only [XReal.lt]
    split
    · next hk =>
      subst hk
      rw [decide_eq_true_iff, (floorMul_lt_rat e r).1, ← value_ofRat]
      rfl
    · rw [decide_eq_true_iff, floorMul_sub_neg]
      rfl
  · rw [XReal.lt, decide_eq_true_iff, floorMul_sub_neg]
    rfl

/-- The comparisons with a rational. -/
theorem lt_rat_iff {x : XReal} (h : x.isFinite = true) (q : Rat) :
    (XReal.lt x (.ofRat q) = true ↔ x.value < q) ∧ (XReal.lt (.ofRat q) x = true ↔ (q : ℝ) < x.value) := by
  rw [← value_ofRat]
  exact ⟨lt_iff h rfl, lt_iff rfl h⟩

theorem abs_signed (e : RealExpr) (c : Rat) : (XReal.expr e).value * (e.signed c : Rat) = |(XReal.expr e).value| * c := by
  have h := isNeg_iff (x := .expr e) rfl
  unfold RealExpr.signed
  by_cases hn : (XReal.expr e).value < 0
  · have : e.isNeg = true := h.mpr hn
    rw [this, abs_of_neg hn]
    simp
  · have : e.isNeg = false := by rw [Bool.eq_false_iff]; exact fun h0 => hn (h.mp h0)
    rw [this, abs_of_nonneg (not_lt.mp hn)]
    simp

/-- `floor(abs(x) * c)` (R12). -/
theorem floorMag_finite {x : XReal} (h : x.isFinite = true) {c : Rat} (hc : 0 ≤ c) :
    x.floorMag c = ⌊|x.value| * c⌋₊ := by
  cases x with
  | fin r k => rw [XReal.floorMag, floorMag_eq, mag_scale c hc, abs_value]
  | expr e =>
    rw [XReal.floorMag, floorMul_eq, abs_signed]
    rfl
  | _ => cases h

/-- `abs(e) * c` rounded up. -/
theorem ceilMag_eq (e : RealExpr) (c : Rat) : e.ceilMag c = ⌈|e.value| * c⌉₊ := by
  rw [RealExpr.ceilMag, floorMul_eq, Rat.cast_neg, mul_neg, abs_signed, Int.floor_neg, neg_neg]
  rfl

/-- `rne(abs(x) * c)`: a nearest integer, and the even one of two (R12). -/
theorem rneMag_finite {x : XReal} (h : x.isFinite = true) {c : Rat} (hc : 0 ≤ c) :
    |(|x.value| * c) - x.rneMag c| < 1 / 2 ∨ (|(|x.value| * c) - x.rneMag c| = 1 / 2 ∧ x.rneMag c % 2 = 0) := by
  cases x with
  | fin r k =>
    have := rneMag_spec (r * c) k
    rwa [mag_scale c hc, ← abs_value] at this
  | expr e =>
    have hc' : (0 : ℝ) ≤ c := by exact_mod_cast hc
    set y := |(XReal.expr e).value| * c with hy
    have hy0 : 0 ≤ y := mul_nonneg (abs_nonneg _) hc'
    have h2 : (XReal.expr e).value * ((2 * e.signed c : Rat) : ℝ) = 2 * y := by
      have := abs_signed e c
      push_cast at this ⊢
      rw [mul_left_comm, this]
    have hb : (e.floorMul (e.signed c)).toNat = ⌊y⌋₊ := by rw [floorMul_eq, abs_signed]; rfl
    have ht : (e.floorMul (2 * e.signed c)).toNat = ⌊2 * y⌋₊ := by rw [floorMul_eq, h2]; rfl
    have hm : e.floorMul (-(2 * e.signed c)) = ⌊-(2 * y)⌋ := by
      rw [floorMul_eq]
      congr 1
      rw [← h2]
      push_cast
      ring
    simp only [XReal.rneMag, RealExpr.rneMul, hb, ht, hm]
    set n := ⌊y⌋₊ with hn
    obtain ⟨hl, hu⟩ := (Nat.floor_eq_iff hy0).mp hn.symm
    set t := ⌊2 * y⌋₊ with ht'
    obtain ⟨hl2, hu2⟩ := (Nat.floor_eq_iff (by positivity : (0 : ℝ) ≤ 2 * y)).mp ht'.symm
    have hcase : t = 2 * n ∨ t = 2 * n + 1 := by
      have h1 : 2 * n < t + 1 := by
        have : ((2 * n : Nat) : ℝ) < ((t + 1 : Nat) : ℝ) := by push_cast; linarith
        exact_mod_cast this
      have h1' : t < 2 * n + 2 := by
        have : (t : ℝ) < ((2 * n + 2 : Nat) : ℝ) := by push_cast; linarith
        exact_mod_cast this
      omega
    rcases hcase with he | ho
    · left
      rw [if_pos he, abs_of_nonneg (by linarith)]
      rw [he] at hu2
      push_cast at hu2
      linarith
    · rw [if_neg (by omega)]
      rw [ho] at hl2
      push_cast at hl2
      by_cases hint : ⌊-(2 * y)⌋ = -(t : Int)
      · rw [if_pos hint]
        have hle := Int.floor_le (-(2 * y))
        have hlt := Int.lt_floor_add_one (-(2 * y))
        rw [hint, ho] at hle
        push_cast at hle
        have hyn : y = n + 1 / 2 := by linarith
        right
        rw [hyn]
        rcases Nat.mod_two_eq_zero_or_one n with h0 | h1
        · rw [h0]
          refine ⟨?_, by omega⟩
          rw [abs_of_nonneg] <;> push_cast <;> linarith
        · rw [h1]
          refine ⟨?_, by omega⟩
          rw [abs_of_nonpos] <;> push_cast <;> linarith
      · rw [if_neg hint]
        left
        have hstrict : (n : ℝ) + 1 / 2 < y := by
          rcases (by linarith : (n : ℝ) + 1 / 2 ≤ y).lt_or_eq with h | h
          · exact h
          · exfalso
            refine hint ?_
            rw [← h, ho, show -(2 * ((n : ℝ) + 1 / 2)) = ((-(2 * n + 1 : Int) : Int) : ℝ) by push_cast; ring, Int.floor_intCast]
            push_cast
            ring
        rw [abs_of_nonpos (by push_cast; linarith)]
        push_cast
        linarith
  | _ => cases h

end Sys2Proof
end

