-- ==== Sys2Proof/Laws/PerInstr.lean ====
section
/-!
SUPPORT. The round trip of each instruction: decoding its encoding gives it back, of a stream with whatever follows left over.
-/
namespace Sys2Proof.Laws

/-- The row a header selects in the operation table of spec/30_encoding.md R93 to R95. -/
theorem decodeCommand_row {h : Header} {n : Nat} {row : Header × (Ports → Instr)} (p : Ports) (h1 : h >>> 8 ≠ 0x69)
    (hn : commandRows[n]? = some row) (h2 : commandRows.findIdx? (fun r => r.1 == h) = some n) :
    decodeCommand ⟨h, p⟩ = .ok (row.2 p) := by
  obtain ⟨hlt, rfl⟩ := List.getElem?_eq_some_iff.mp hn
  obtain ⟨_, h3, h4⟩ := List.findIdx?_eq_some_iff_getElem.mp h2
  have hf : commandRows.find? (fun r => r.1 == h) = some commandRows[n] :=
    List.find?_eq_some_iff_getElem.mpr ⟨h3, n, hlt, rfl, fun j hj => by simpa using h4 j hj⟩
  rw [decodeCommand]
  simp only [h1, if_false, hf]

/-- The length field holds the low and the high byte of a length up to 65535 (R106). -/
theorem lenField_eq {n : Nat} (h : n ≤ 65535) :
    ∃ lo hi : Byte, lenField n = [lo, hi] ∧ lo.toNat = n % 256 ∧ hi.toNat = n / 256 := by
  refine ⟨_, _, rfl, by simp, ?_⟩
  simp [Nat.shiftRight_eq_div_pow]
  omega

/-- A length-prefixed SPI command is read back (R101, R102, R106). -/
theorem decodeSpi_lenField (make : Byte → List Byte → Instr) (addr : Byte) {data : List Byte} (rest : List Byte)
    (h : data.length ≤ 65535) : decodeSpi make (lenField data.length ++ [addr] ++ data ++ rest) = .ok (make addr data, rest) := by
  obtain ⟨lo, hi, e, h1, h2⟩ := lenField_eq h
  have hl : lo.toNat + 256 * hi.toNat = data.length := by omega
  rw [e]
  simp [decodeSpi, hl]

/-- Decoding what is encoded gives the instruction back (R91 to R95, R100 to R103, R106). -/
def RoundTrip.Statement (i : Instr) : Prop :=
  i.wellFormed = true →
    match encode i with
    | .command c => decodeCommand c = .ok i
    | .stream bytes => ∀ rest, decodeStream (bytes ++ rest) = .ok (i, rest)

theorem RoundTrip.calcFnum (freqHz : XReal) (block : Int) : RoundTrip.Statement (.calcFnum freqHz block) :=
  fun _ => decodeCommand_row (n := 0) _ (by decide) rfl (by decide)

theorem RoundTrip.calcFreq (fnum : XReal) (block : Int) : RoundTrip.Statement (.calcFreq fnum block) :=
  fun _ => decodeCommand_row (n := 1) _ (by decide) rfl (by decide)

theorem RoundTrip.key2fnum (key : Int) : RoundTrip.Statement (.key2fnum key) :=
  fun _ => decodeCommand_row (n := 2) _ (by decide) rfl (by decide)

theorem RoundTrip.convFmult (m : XReal) : RoundTrip.Statement (.convFmult m) :=
  fun _ => decodeCommand_row (n := 3) _ (by decide) rfl (by decide)

theorem RoundTrip.calcRof (ksr : Bool) (block : Nat) (basicOctave : Nat) (fnum : XReal) : RoundTrip.Statement (.calcRof ksr block basicOctave fnum) :=
  fun _ => decodeCommand_row (n := 4) _ (by decide) rfl (by decide)

theorem RoundTrip.atkTime (rate : Int) (rof : Int) : RoundTrip.Statement (.atkTime rate rof) :=
  fun _ => decodeCommand_row (n := 5) _ (by decide) rfl (by decide)

theorem RoundTrip.envTime (rate : Int) (rof : Int) : RoundTrip.Statement (.envTime rate rof) :=
  fun _ => decodeCommand_row (n := 6) _ (by decide) rfl (by decide)

theorem RoundTrip.ceqEnc (v : XReal) : RoundTrip.Statement (.ceqEnc v) :=
  fun _ => decodeCommand_row (n := 7) _ (by decide) rfl (by decide)

theorem RoundTrip.ceqDec (w : I32) : RoundTrip.Statement (.ceqDec w) :=
  fun _ => decodeCommand_row (n := 8) _ (by decide) rfl (by decide)

theorem RoundTrip.ceqPack (coefficients : List XReal) : RoundTrip.Statement (.ceqPack coefficients) :=
  fun _ => decodeCommand_row (n := 9) _ (by decide) rfl (by decide)

theorem RoundTrip.fltLowpass (cutoff : XReal) (q : XReal) : RoundTrip.Statement (.fltLowpass cutoff q) :=
  fun _ => decodeCommand_row (n := 10) _ (by decide) rfl (by decide)

theorem RoundTrip.fltHighpass (cutoff : XReal) (q : XReal) : RoundTrip.Statement (.fltHighpass cutoff q) :=
  fun _ => decodeCommand_row (n := 11) _ (by decide) rfl (by decide)

theorem RoundTrip.fltBandpass (cutoff : XReal) (bandwidth : XReal) : RoundTrip.Statement (.fltBandpass cutoff bandwidth) :=
  fun _ => decodeCommand_row (n := 12) _ (by decide) rfl (by decide)

theorem RoundTrip.fltBandstop (cutoff : XReal) (bandwidth : XReal) : RoundTrip.Statement (.fltBandstop cutoff bandwidth) :=
  fun _ => decodeCommand_row (n := 13) _ (by decide) rfl (by decide)

theorem RoundTrip.fltLowshelf (cutoff : XReal) (q : XReal) (gain : XReal) : RoundTrip.Statement (.fltLowshelf cutoff q gain) :=
  fun _ => decodeCommand_row (n := 14) _ (by decide) rfl (by decide)

theorem RoundTrip.fltHighshelf (cutoff : XReal) (q : XReal) (gain : XReal) : RoundTrip.Statement (.fltHighshelf cutoff q gain) :=
  fun _ => decodeCommand_row (n := 15) _ (by decide) rfl (by decide)

theorem RoundTrip.fltPeaking (cutoff : XReal) (bandwidth : XReal) (gain : XReal) : RoundTrip.Statement (.fltPeaking cutoff bandwidth gain) :=
  fun _ => decodeCommand_row (n := 16) _ (by decide) rfl (by decide)

theorem RoundTrip.fltAllpass (cutoff : XReal) (q : XReal) : RoundTrip.Statement (.fltAllpass cutoff q) :=
  fun _ => decodeCommand_row (n := 17) _ (by decide) rfl (by decide)

theorem RoundTrip.toneSetBo (slot : Int) (value : Int) : RoundTrip.Statement (.toneSetBo slot value) :=
  fun _ => decodeCommand_row (n := 18) _ (by decide) rfl (by decide)

theorem RoundTrip.toneSetLfo (slot : Int) (value : Int) : RoundTrip.Statement (.toneSetLfo slot value) :=
  fun _ => decodeCommand_row (n := 19) _ (by decide) rfl (by decide)

theorem RoundTrip.toneSetAlg (slot : Int) (value : Int) : RoundTrip.Statement (.toneSetAlg slot value) :=
  fun _ => decodeCommand_row (n := 20) _ (by decide) rfl (by decide)

theorem RoundTrip.opSetSr (slot : Int) (k : Int) (value : Int) : RoundTrip.Statement (.opSetSr slot k value) :=
  fun _ => decodeCommand_row (n := 21) _ (by decide) rfl (by decide)

theorem RoundTrip.opSetRr (slot : Int) (k : Int) (value : Int) : RoundTrip.Statement (.opSetRr slot k value) :=
  fun _ => decodeCommand_row (n := 22) _ (by decide) rfl (by decide)

theorem RoundTrip.opSetDr (slot : Int) (k : Int) (value : Int) : RoundTrip.Statement (.opSetDr slot k value) :=
  fun _ => decodeCommand_row (n := 23) _ (by decide) rfl (by decide)

theorem RoundTrip.opSetAr (slot : Int) (k : Int) (value : Int) : RoundTrip.Statement (.opSetAr slot k value) :=
  fun _ => decodeCommand_row (n := 24) _ (by decide) rfl (by decide)

theorem RoundTrip.opSetSl (slot : Int) (k : Int) (value : Int) : RoundTrip.Statement (.opSetSl slot k value) :=
  fun _ => decodeCommand_row (n := 25) _ (by decide) rfl (by decide)

theorem RoundTrip.opSetTl (slot : Int) (k : Int) (value : Int) : RoundTrip.Statement (.opSetTl slot k value) :=
  fun _ => decodeCommand_row (n := 26) _ (by decide) rfl (by decide)

theorem RoundTrip.opSetKsl (slot : Int) (k : Int) (value : Int) : RoundTrip.Statement (.opSetKsl slot k value) :=
  fun _ => decodeCommand_row (n := 27) _ (by decide) rfl (by decide)

theorem RoundTrip.opSetDam (slot : Int) (k : Int) (value : Int) : RoundTrip.Statement (.opSetDam slot k value) :=
  fun _ => decodeCommand_row (n := 28) _ (by decide) rfl (by decide)

theorem RoundTrip.opSetDvb (slot : Int) (k : Int) (value : Int) : RoundTrip.Statement (.opSetDvb slot k value) :=
  fun _ => decodeCommand_row (n := 29) _ (by decide) rfl (by decide)

theorem RoundTrip.opSetMulti (slot : Int) (k : Int) (value : Int) : RoundTrip.Statement (.opSetMulti slot k value) :=
  fun _ => decodeCommand_row (n := 30) _ (by decide) rfl (by decide)

theorem RoundTrip.opSetDt (slot : Int) (k : Int) (value : Int) : RoundTrip.Statement (.opSetDt slot k value) :=
  fun _ => decodeCommand_row (n := 31) _ (by decide) rfl (by decide)

theorem RoundTrip.opSetWs (slot : Int) (k : Int) (value : Int) : RoundTrip.Statement (.opSetWs slot k value) :=
  fun _ => decodeCommand_row (n := 32) _ (by decide) rfl (by decide)

theorem RoundTrip.opSetFb (slot : Int) (k : Int) (value : Int) : RoundTrip.Statement (.opSetFb slot k value) :=
  fun _ => decodeCommand_row (n := 33) _ (by decide) rfl (by decide)

theorem RoundTrip.opSetXof (slot : Int) (k : Int) (value : Bool) : RoundTrip.Statement (.opSetXof slot k value) :=
  fun _ => decodeCommand_row (n := 34) _ (by decide) rfl (by decide)

theorem RoundTrip.opSetKsr (slot : Int) (k : Int) (value : Bool) : RoundTrip.Statement (.opSetKsr slot k value) :=
  fun _ => decodeCommand_row (n := 35) _ (by decide) rfl (by decide)

theorem RoundTrip.opSetEam (slot : Int) (k : Int) (value : Bool) : RoundTrip.Statement (.opSetEam slot k value) :=
  fun _ => decodeCommand_row (n := 36) _ (by decide) rfl (by decide)

theorem RoundTrip.opSetEvb (slot : Int) (k : Int) (value : Bool) : RoundTrip.Statement (.opSetEvb slot k value) :=
  fun _ => decodeCommand_row (n := 37) _ (by decide) rfl (by decide)

theorem RoundTrip.toneGetBo (slot : Int) : RoundTrip.Statement (.toneGetBo slot) :=
  fun _ => decodeCommand_row (n := 38) _ (by decide) rfl (by decide)

theorem RoundTrip.toneGetLfo (slot : Int) : RoundTrip.Statement (.toneGetLfo slot) :=
  fun _ => decodeCommand_row (n := 39) _ (by decide) rfl (by decide)

theorem RoundTrip.toneGetAlg (slot : Int) : RoundTrip.Statement (.toneGetAlg slot) :=
  fun _ => decodeCommand_row (n := 40) _ (by decide) rfl (by decide)

theorem RoundTrip.opGetSr (slot : Int) (k : Int) : RoundTrip.Statement (.opGetSr slot k) :=
  fun _ => decodeCommand_row (n := 41) _ (by decide) rfl (by decide)

theorem RoundTrip.opGetRr (slot : Int) (k : Int) : RoundTrip.Statement (.opGetRr slot k) :=
  fun _ => decodeCommand_row (n := 42) _ (by decide) rfl (by decide)

theorem RoundTrip.opGetDr (slot : Int) (k : Int) : RoundTrip.Statement (.opGetDr slot k) :=
  fun _ => decodeCommand_row (n := 43) _ (by decide) rfl (by decide)

theorem RoundTrip.opGetAr (slot : Int) (k : Int) : RoundTrip.Statement (.opGetAr slot k) :=
  fun _ => decodeCommand_row (n := 44) _ (by decide) rfl (by decide)

theorem RoundTrip.opGetSl (slot : Int) (k : Int) : RoundTrip.Statement (.opGetSl slot k) :=
  fun _ => decodeCommand_row (n := 45) _ (by decide) rfl (by decide)

theorem RoundTrip.opGetTl (slot : Int) (k : Int) : RoundTrip.Statement (.opGetTl slot k) :=
  fun _ => decodeCommand_row (n := 46) _ (by decide) rfl (by decide)

theorem RoundTrip.opGetKsl (slot : Int) (k : Int) : RoundTrip.Statement (.opGetKsl slot k) :=
  fun _ => decodeCommand_row (n := 47) _ (by decide) rfl (by decide)

theorem RoundTrip.opGetDam (slot : Int) (k : Int) : RoundTrip.Statement (.opGetDam slot k) :=
  fun _ => decodeCommand_row (n := 48) _ (by decide) rfl (by decide)

theorem RoundTrip.opGetDvb (slot : Int) (k : Int) : RoundTrip.Statement (.opGetDvb slot k) :=
  fun _ => decodeCommand_row (n := 49) _ (by decide) rfl (by decide)

theorem RoundTrip.opGetMulti (slot : Int) (k : Int) : RoundTrip.Statement (.opGetMulti slot k) :=
  fun _ => decodeCommand_row (n := 50) _ (by decide) rfl (by decide)

theorem RoundTrip.opGetDt (slot : Int) (k : Int) : RoundTrip.Statement (.opGetDt slot k) :=
  fun _ => decodeCommand_row (n := 51) _ (by decide) rfl (by decide)

theorem RoundTrip.opGetWs (slot : Int) (k : Int) : RoundTrip.Statement (.opGetWs slot k) :=
  fun _ => decodeCommand_row (n := 52) _ (by decide) rfl (by decide)

theorem RoundTrip.opGetFb (slot : Int) (k : Int) : RoundTrip.Statement (.opGetFb slot k) :=
  fun _ => decodeCommand_row (n := 53) _ (by decide) rfl (by decide)

theorem RoundTrip.opGetXof (slot : Int) (k : Int) : RoundTrip.Statement (.opGetXof slot k) :=
  fun _ => decodeCommand_row (n := 54) _ (by decide) rfl (by decide)

theorem RoundTrip.opGetKsr (slot : Int) (k : Int) : RoundTrip.Statement (.opGetKsr slot k) :=
  fun _ => decodeCommand_row (n := 55) _ (by decide) rfl (by decide)

theorem RoundTrip.opGetEam (slot : Int) (k : Int) : RoundTrip.Statement (.opGetEam slot k) :=
  fun _ => decodeCommand_row (n := 56) _ (by decide) rfl (by decide)

theorem RoundTrip.opGetEvb (slot : Int) (k : Int) : RoundTrip.Statement (.opGetEvb slot k) :=
  fun _ => decodeCommand_row (n := 57) _ (by decide) rfl (by decide)

theorem RoundTrip.opExport (slot : Int) (k : Int) (buffer : List Byte) (offset : Int) : RoundTrip.Statement (.opExport slot k buffer offset) :=
  fun _ => decodeCommand_row (n := 58) _ (by decide) rfl (by decide)

theorem RoundTrip.toneExport (slot : Int) (buffer : List Byte) (offset : Int) : RoundTrip.Statement (.toneExport slot buffer offset) :=
  fun _ => decodeCommand_row (n := 59) _ (by decide) rfl (by decide)

theorem RoundTrip.collExport (buffer : List Byte) (offset : Int) (tone : Int) : RoundTrip.Statement (.collExport buffer offset tone) :=
  fun _ => decodeCommand_row (n := 60) _ (by decide) rfl (by decide)

theorem RoundTrip.qGpio (highBank : Bool) (value : Byte) (direction : Byte) : RoundTrip.Statement (.qGpio highBank value direction) :=
  fun _ => decodeCommand_row (n := 61) _ (by decide) rfl (by decide)

theorem RoundTrip.qSpiWrite (addr : Byte) (data : Byte) : RoundTrip.Statement (.qSpiWrite addr data) :=
  fun _ => decodeCommand_row (n := 62) _ (by decide) rfl (by decide)

theorem RoundTrip.qSpiBurst (addr : Byte) (data : List Byte) (offset : Int) (count : Int) : RoundTrip.Statement (.qSpiBurst addr data offset count) :=
  fun _ => decodeCommand_row (n := 63) _ (by decide) rfl (by decide)

theorem RoundTrip.flush : RoundTrip.Statement (.flush) :=
  fun _ => decodeCommand_row (n := 64) _ (by decide) rfl (by decide)

theorem RoundTrip.tRead (addr : Byte) : RoundTrip.Statement (.tRead addr) :=
  fun _ => decodeCommand_row (n := 65) _ (by decide) rfl (by decide)

theorem RoundTrip.hwReset : RoundTrip.Statement (.hwReset) :=
  fun _ => decodeCommand_row (n := 66) _ (by decide) rfl (by decide)

theorem RoundTrip.dispose : RoundTrip.Statement (.dispose) :=
  fun _ => decodeCommand_row (n := 67) _ (by decide) rfl (by decide)

theorem RoundTrip.setTarget (chip : Chip) : RoundTrip.Statement (.setTarget chip) :=
  fun _ => decodeCommand_row (n := 68) _ (by decide) rfl (by decide)

theorem RoundTrip.write (addr : Byte) (data : Byte) : RoundTrip.Statement (.write addr data) :=
  fun _ => decodeCommand_row (n := 69) _ (by decide) rfl (by decide)

theorem RoundTrip.burstWrite (addr : Byte) (data : List Byte) (offset : Int) (count : Int) : RoundTrip.Statement (.burstWrite addr data offset count) :=
  fun _ => decodeCommand_row (n := 70) _ (by decide) rfl (by decide)

theorem RoundTrip.read (addr : Byte) (target : Chip) : RoundTrip.Statement (.read addr target) :=
  fun _ => decodeCommand_row (n := 71) _ (by decide) rfl (by decide)

theorem RoundTrip.writeContents (tone : Int) : RoundTrip.Statement (.writeContents tone) :=
  fun _ => decodeCommand_row (n := 72) _ (by decide) rfl (by decide)

theorem RoundTrip.setEq (band : Int) (coeffs : List XReal) : RoundTrip.Statement (.setEq band coeffs) :=
  fun _ => decodeCommand_row (n := 73) _ (by decide) rfl (by decide)

theorem RoundTrip.swReset : RoundTrip.Statement (.swReset) :=
  fun _ => decodeCommand_row (n := 74) _ (by decide) rfl (by decide)

theorem RoundTrip.setClke (enable : Bool) : RoundTrip.Statement (.setClke enable) :=
  fun _ => decodeCommand_row (n := 75) _ (by decide) rfl (by decide)

theorem RoundTrip.setAlrst (reset : Bool) : RoundTrip.Statement (.setAlrst reset) :=
  fun _ => decodeCommand_row (n := 76) _ (by decide) rfl (by decide)

theorem RoundTrip.setApd (blocks : I32) : RoundTrip.Statement (.setApd blocks) :=
  fun _ => decodeCommand_row (n := 77) _ (by decide) rfl (by decide)

theorem RoundTrip.setGain (gain : I32) : RoundTrip.Statement (.setGain gain) :=
  fun _ => decodeCommand_row (n := 78) _ (by decide) rfl (by decide)

theorem RoundTrip.setSeq (setting : I32) : RoundTrip.Statement (.setSeq setting) :=
  fun _ => decodeCommand_row (n := 79) _ (by decide) rfl (by decide)

theorem RoundTrip.setSeqvolSize (volume : I32) (dirSv : Bool) (size : I32) : RoundTrip.Statement (.setSeqvolSize volume dirSv size) :=
  fun _ => decodeCommand_row (n := 80) _ (by decide) rfl (by decide)

theorem RoundTrip.setVoiceNum (voice : I32) : RoundTrip.Statement (.setVoiceNum voice) :=
  fun _ => decodeCommand_row (n := 81) _ (by decide) rfl (by decide)

theorem RoundTrip.setVoiceVol (volume : I32) : RoundTrip.Statement (.setVoiceVol volume) :=
  fun _ => decodeCommand_row (n := 82) _ (by decide) rfl (by decide)

theorem RoundTrip.setFnumBlock (fnum : I32) (block : I32) : RoundTrip.Statement (.setFnumBlock fnum block) :=
  fun _ => decodeCommand_row (n := 83) _ (by decide) rfl (by decide)

theorem RoundTrip.setToneCtrl (keyOn : Bool) (mute : Bool) (egReset : Bool) (tone : I32) : RoundTrip.Statement (.setToneCtrl keyOn mute egReset tone) :=
  fun _ => decodeCommand_row (n := 84) _ (by decide) rfl (by decide)

theorem RoundTrip.setChVol (volume : I32) (dirCv : Bool) : RoundTrip.Statement (.setChVol volume dirCv) :=
  fun _ => decodeCommand_row (n := 85) _ (by decide) rfl (by decide)

theorem RoundTrip.setVib (depth : I32) : RoundTrip.Statement (.setVib depth) :=
  fun _ => decodeCommand_row (n := 86) _ (by decide) rfl (by decide)

theorem RoundTrip.setFmult (integer : I32) (fraction : I32) : RoundTrip.Statement (.setFmult integer fraction) :=
  fun _ => decodeCommand_row (n := 87) _ (by decide) rfl (by decide)

theorem RoundTrip.setMuteItp (dirMt : Bool) : RoundTrip.Statement (.setMuteItp dirMt) :=
  fun _ => decodeCommand_row (n := 88) _ (by decide) rfl (by decide)

theorem RoundTrip.setSeqTime (unit : I32) : RoundTrip.Statement (.setSeqTime unit) :=
  fun _ => decodeCommand_row (n := 89) _ (by decide) rfl (by decide)

theorem RoundTrip.setMasterVol (volume : I32) : RoundTrip.Statement (.setMasterVol volume) :=
  fun _ => decodeCommand_row (n := 90) _ (by decide) rfl (by decide)

theorem RoundTrip.setSoftreset (value : I32) : RoundTrip.Statement (.setSoftreset value) :=
  fun _ => decodeCommand_row (n := 91) _ (by decide) rfl (by decide)

theorem RoundTrip.setVolItp (dadjt : Bool) (muteItime : I32) (chvolItime : I32) (masterItime : I32) : RoundTrip.Statement (.setVolItp dadjt muteItime chvolItime masterItime) :=
  fun _ => decodeCommand_row (n := 92) _ (by decide) rfl (by decide)

theorem RoundTrip.setLfoRst (reset : Bool) : RoundTrip.Statement (.setLfoRst reset) :=
  fun _ => decodeCommand_row (n := 93) _ (by decide) rfl (by decide)

theorem RoundTrip.setDrvSel (select : Bool) : RoundTrip.Statement (.setDrvSel select) :=
  fun _ => decodeCommand_row (n := 94) _ (by decide) rfl (by decide)

theorem RoundTrip.setTest (value : I32) : RoundTrip.Statement (.setTest value) :=
  fun _ => decodeCommand_row (n := 95) _ (by decide) rfl (by decide)

theorem RoundTrip.regget (sub : Byte) (target : Chip) : RoundTrip.Statement (.regget sub target) := by
  have h1 : ∀ a : Byte, ((0x6900 : Header) ||| a.setWidth 16) >>> 8 = 0x69 := by decide
  have h2 : ∀ a : Byte, ((0x6900 : Header) ||| a.setWidth 16).setWidth 8 = a := by decide
  intro _
  simp only [encode, decodeCommand]
  rw [if_pos (h1 sub), h2]

theorem RoundTrip.secEnable : RoundTrip.Statement (.secEnable) :=
  fun _ => decodeCommand_row (n := 96) _ (by decide) rfl (by decide)

theorem RoundTrip.secDisable : RoundTrip.Statement (.secDisable) :=
  fun _ => decodeCommand_row (n := 97) _ (by decide) rfl (by decide)

theorem RoundTrip.secBegin (target : Chip) : RoundTrip.Statement (.secBegin target) :=
  fun _ => decodeCommand_row (n := 98) _ (by decide) rfl (by decide)

theorem RoundTrip.secEnd (ms : Nat) : RoundTrip.Statement (.secEnd ms) :=
  fun _ => decodeCommand_row (n := 99) _ (by decide) rfl (by decide)

theorem RoundTrip.gpioLow (value : Byte) (direction : Byte) : RoundTrip.Statement (.gpioLow value direction) := fun _ _ => rfl

theorem RoundTrip.gpioHigh (value : Byte) (direction : Byte) : RoundTrip.Statement (.gpioHigh value direction) := fun _ _ => rfl

theorem RoundTrip.spiWrite (addr : Byte) (data : List Byte) : RoundTrip.Statement (.spiWrite addr data) := by
  intro h rest
  simp only [Instr.wellFormed, Bool.and_eq_true, decide_eq_true_eq] at h
  simpa [encode, decodeStream] using decodeSpi_lenField .spiWrite addr rest h.2

theorem RoundTrip.spiRead (addr : Byte) (payload : List Byte) : RoundTrip.Statement (.spiRead addr payload) := by
  intro h rest
  simp only [Instr.wellFormed, Bool.and_eq_true, beq_iff_eq] at h
  simpa [encode, decodeStream] using decodeSpi_lenField .spiRead addr rest (by simp [h.2])

theorem RoundTrip.streamFlush : RoundTrip.Statement (.streamFlush) := fun _ _ => rfl

end Sys2Proof.Laws
end

