-- ==== Sys2Proof/Laws/Same.lean ====
section
/-!
SUPPORT. That the operations on reals do not see the form in which an extended real is held: of the same operands each gives
the same result, in either domain, the free values among them (spec/41_filter.md R174, spec/00_scope.md R12).
-/
namespace Sys2Proof

/-! ### The unit in the last place -/

theorem one_le_floorMag (r : Rat) (k : Fin 12) (z : Int) :
    1 ≤ floorMag (r * ratTwoPow (-z)) k ↔ (2 : ℝ) ^ z ≤ mag r k := by
  rw [floorMag_eq, mag_scale _ (ratTwoPow_pos _).le, value_ratTwoPow, zpow_neg, Nat.one_le_floor_iff, ← div_eq_mul_inv,
    one_le_div (by positivity)]

/-- The exponent of a magnitude that is not zero. -/
theorem exponentOf_spec (r : Rat) (k : Fin 12) (h : r ≠ 0) :
    (2 : ℝ) ^ exponentOf r k ≤ mag r k ∧ mag r k < (2 : ℝ) ^ (exponentOf r k + 1) := by
  have hn0 : r.num.natAbs ≠ 0 := by simpa using h
  have hd0 : r.den ≠ 0 := r.den_pos.ne'
  have n1 : ((2 ^ r.num.natAbs.log2 : Nat) : ℝ) ≤ r.num.natAbs := by exact_mod_cast Nat.log2_self_le hn0
  have n2 : (r.num.natAbs : ℝ) < ((2 ^ (r.num.natAbs.log2 + 1) : Nat) : ℝ) := by exact_mod_cast Nat.lt_log2_self
  have d1 : ((2 ^ r.den.log2 : Nat) : ℝ) ≤ r.den := by exact_mod_cast Nat.log2_self_le hd0
  have d2 : (r.den : ℝ) < ((2 ^ (r.den.log2 + 1) : Nat) : ℝ) := by exact_mod_cast Nat.lt_log2_self
  push_cast at n1 n2 d1 d2
  have hdp : (0 : ℝ) < r.den := by exact_mod_cast r.den_pos
  set e : Int := (r.num.natAbs.log2 : Int) - r.den.log2 with he
  have habs := abs_rat r
  have root1 : (1 : ℝ) ≤ 2 ^ ((k.val : ℝ) / 12) := Real.one_le_rpow (by norm_num) (by positivity)
  have root2 : (2 : ℝ) ^ ((k.val : ℝ) / 12) < 2 := by
    have : (2 : ℝ) ^ ((k.val : ℝ) / 12) < 2 ^ (1 : ℝ) := by
      apply Real.rpow_lt_rpow_of_exponent_lt (by norm_num)
      have : (k.val : ℝ) < 12 := by exact_mod_cast k.isLt
      linarith
    simpa using this
  have lo : (2 : ℝ) ^ (e - 1) ≤ mag r k := by
    have : (2 : ℝ) ^ (e - 1) ≤ |(r : ℝ)| := by
      rw [habs, le_div_iff₀ hdp]
      calc (2 : ℝ) ^ (e - 1) * r.den ≤ 2 ^ (e - 1) * 2 ^ (r.den.log2 + 1) := by gcongr
        _ = 2 ^ r.num.natAbs.log2 := by
          rw [← zpow_natCast, ← zpow_natCast, ← zpow_add₀ (by norm_num)]; congr 1; push_cast; omega
        _ ≤ _ := n1
    unfold mag; nlinarith [abs_nonneg (r : ℝ)]
  have hi : mag r k < (2 : ℝ) ^ (e + 2) := by
    have : |(r : ℝ)| < (2 : ℝ) ^ (e + 1) := by
      rw [habs, div_lt_iff₀ hdp]
      calc _ < (2 : ℝ) ^ (r.num.natAbs.log2 + 1) := n2
        _ = 2 ^ (e+1) * 2 ^ r.den.log2 := by
          rw [← zpow_natCast, ← zpow_natCast, ← zpow_add₀ (by norm_num)]; congr 1; push_cast; omega
        _ ≤ _ := by gcongr
    have e2 : (2 : ℝ) ^ (e + 2) = 2 ^ (e+1) * 2 := by rw [← zpow_add_one₀ (by norm_num)]; congr 1; ring
    unfold mag; rw [e2]; nlinarith [abs_nonneg (r : ℝ), root_pos k]
  unfold exponentOf
  simp only [← he, one_le_floorMag]
  split
  · exact ⟨‹_›, by rw [show e + 1 + 1 = e + 2 by ring]; exact hi⟩
  · split
    · exact ⟨‹_›, not_le.mp ‹_›⟩
    · exact ⟨lo, by rw [sub_add_cancel]; exact not_le.mp ‹_›⟩

/-- The exponent of the unit in the last place, normal or subnormal. -/
theorem unit_spec {v : XReal} (h : v.isFinite = true) (h0 : v.value ≠ 0) : ∃ e : Int, v.unitExponent = e - 52 ∧ -1022 ≤ e ∧
    ((2 : ℝ) ^ e ≤ |v.value| ∨ e = -1022) ∧ |v.value| < (2 : ℝ) ^ (e + 1) := by
  cases v with
  | fin r k =>
    have hr : r ≠ 0 := by rintro rfl; exact h0 (by simp [value_fin])
    obtain ⟨e1, e2⟩ := exponentOf_spec r k hr
    rw [abs_value]
    refine ⟨max (exponentOf r k) (-1022), rfl, le_max_right _ _, ?_, ?_⟩
    · rcases le_total (exponentOf r k) (-1022) with h | h
      · right; exact max_eq_right h
      · left; rw [max_eq_left h]; exact e1
    · refine e2.trans_le ?_
      apply zpow_le_zpow_right₀ (by norm_num); omega
  | expr e =>
    have hm := floorMag_finite (x := .expr e) rfl (c := ratTwoPow 1022) (ratTwoPow_pos _).le
    rw [value_ratTwoPow] at hm
    set x := |(XReal.expr e).value| with hx
    have hx0 : 0 ≤ x := abs_nonneg _
    have hp : (0 : ℝ) < 2 ^ (1022 : ℤ) := by positivity
    simp only [XReal.unitExponent, hm]
    by_cases hz : ⌊x * 2 ^ (1022 : ℤ)⌋₊ = 0
    · rw [if_pos hz]
      refine ⟨-1022, by norm_num, le_refl _, .inr rfl, ?_⟩
      rw [Nat.floor_eq_zero] at hz
      have : x < 2 ^ (-1022:ℤ) := by rw [zpow_neg, ← one_div, lt_div_iff₀ hp]; exact hz
      exact this.trans (zpow_lt_zpow_right₀ (by norm_num) (by norm_num))
    · rw [if_neg hz]
      set m := ⌊x * 2 ^ (1022 : ℤ)⌋₊ with hmm
      have f1 : (m : ℝ) ≤ x * 2 ^ (1022 : ℤ) := Nat.floor_le (by positivity)
      have f2 : x * 2 ^ (1022 : ℤ) < m + 1 := Nat.lt_floor_add_one _
      have m1 : 2 ^ m.log2 ≤ m := Nat.log2_self_le hz
      have m2 : m + 1 ≤ 2 ^ (m.log2 + 1) := Nat.lt_log2_self
      refine ⟨(m.log2 : Int) - 1022, by omega, by omega, .inl ?_, ?_⟩
      · rw [zpow_sub₀ (by norm_num), div_le_iff₀ hp, zpow_natCast]
        exact le_trans (by exact_mod_cast m1) f1
      · rw [show (m.log2 : Int) - 1022 + 1 = ((m.log2 + 1 : Nat) : Int) - 1022 by push_cast; ring,
          zpow_sub₀ (by norm_num), lt_div_iff₀ hp, zpow_natCast]
        exact f2.trans_le (by exact_mod_cast m2)
  | _ => cases h

/-! ### The same extended real -/

namespace XReal.Same

theorem refl (x : XReal) : x.Same x := .inl rfl

theorem of_value {x y : XReal} (hx : x.isFinite = true) (hy : y.isFinite = true) (h : x.value = y.value) : x.Same y :=
  .inr ⟨hx, hy, h⟩

theorem symm {x y : XReal} (h : x.Same y) : y.Same x := by
  rcases h with rfl | ⟨hx, hy, h⟩
  · exact refl _
  · exact of_value hy hx h.symm

theorem value {x y : XReal} (h : x.Same y) : x.value = y.value := by
  rcases h with rfl | ⟨-, -, h⟩
  · rfl
  · exact h

theorem isFinite {x y : XReal} (h : x.Same y) : x.isFinite = y.isFinite := by
  rcases h with rfl | ⟨hx, hy, -⟩
  · rfl
  · rw [hx, hy]

theorem trans {x y z : XReal} (h : x.Same y) (h' : y.Same z) : x.Same z := by
  rcases h with rfl | ⟨hx, hy, h⟩
  · exact h'
  · exact of_value hx (by rw [← h'.isFinite, hy]) (h.trans h'.value)

/-- Free values are equal. -/
theorem number {x y : XReal} (h : x.Same y) : x.number = y.number := Quot.sound h

/-- A value that is not finite has one form. -/
theorem eq_of_infinite {x y : XReal} (h : x.Same y) (hx : x.isFinite = false) : x = y := by
  rcases h with rfl | ⟨hx', -, -⟩
  · rfl
  · rw [hx] at hx'; cases hx'

theorem isZero {x y : XReal} (h : x.Same y) : x.isZero = y.isZero := by
  rcases h with rfl | ⟨hx, hy, h⟩
  · rfl
  · rw [Bool.eq_iff_iff, isZero_iff hx, isZero_iff hy, h]

theorem isNeg {x y : XReal} (h : x.Same y) : x.isNeg = y.isNeg := by
  rcases h with rfl | ⟨hx, hy, h⟩
  · rfl
  · rw [Bool.eq_iff_iff, isNeg_iff hx, isNeg_iff hy, h]

theorem neg {x y : XReal} (h : x.Same y) : x.neg.Same y.neg := by
  rcases h with rfl | ⟨hx, hy, h⟩
  · exact refl _
  · obtain ⟨h1, h2⟩ := value_neg hx
    obtain ⟨h3, h4⟩ := value_neg hy
    exact of_value h1 h3 (by rw [h2, h4, h])

end XReal.Same

/-- An operation of two operands gives the same result of the same operands if it does so of finite operands and, with one
operand that is not finite, sees no more of the other than what is here. -/
theorem same_of_parts (op : XReal → XReal → XReal)
    (fin : ∀ {a a' b b' : XReal}, a.isFinite = true → b.isFinite = true → a.Same a' → b.Same b' → (op a b).Same (op a' b'))
    (left : ∀ {a b b' : XReal}, a.isFinite = false → b.isFinite = true → b.Same b' → op a b = op a b')
    (right : ∀ {a a' b : XReal}, b.isFinite = false → a.isFinite = true → a.Same a' → op a b = op a' b)
    {a a' b b' : XReal} (ha : a.Same a') (hb : b.Same b') : (op a b).Same (op a' b') := by
  cases fa : a.isFinite <;> cases fb : b.isFinite
  · obtain rfl := ha.eq_of_infinite fa
    obtain rfl := hb.eq_of_infinite fb
    exact .refl _
  · obtain rfl := ha.eq_of_infinite fa
    exact .inl (left fa fb hb)
  · obtain rfl := hb.eq_of_infinite fb
    exact .inl (right fb fa ha)
  · exact fin fa fb ha hb

theorem finite_right {x y : XReal} (h : x.Same y) (hx : x.isFinite = true) : y.isFinite = true := by rw [← h.isFinite, hx]

/-- Infinity times a finite value. -/
theorem mul_infinite {a x : XReal} (ha : a.isFinite = false) (hx : x.isFinite = true) :
    a.mul x = (if a = .nan then .nan else infTimes (a == .negInf) x) ∧
    x.mul a = (if a = .nan then .nan else infTimes (a == .negInf) x) := by
  cases a <;> first | (cases ha; done) | skip
  all_goals cases x <;> first | (cases hx; done) | exact ⟨rfl, rfl⟩

theorem infTimes_same {x y : XReal} (h : x.Same y) (n : Bool) : infTimes n x = infTimes n y := by
  rw [infTimes, infTimes, h.isZero, h.isNeg]

/-- The product. -/
theorem mul_same {a a' b b' : XReal} : a.Same a' → b.Same b' → (a.mul b).Same (a'.mul b') := by
  refine same_of_parts XReal.mul ?_ ?_ ?_
  · intro a a' b b' fa fb ha hb
    obtain ⟨h1, h2⟩ := value_mul_finite fa fb
    obtain ⟨h3, h4⟩ := value_mul_finite (finite_right ha fa) (finite_right hb fb)
    exact .of_value h1 h3 (by rw [h2, h4, ha.value, hb.value])
  · intro a b b' fa fb hb
    rw [(mul_infinite fa fb).1, (mul_infinite fa (finite_right hb fb)).1, infTimes_same hb]
  · intro a a' b fb fa ha
    rw [(mul_infinite fb fa).2, (mul_infinite fb (finite_right ha fa)).2, infTimes_same ha]

/-- A value that is not finite plus a finite one. -/
theorem add_infinite {a x : XReal} (ha : a.isFinite = false) (hx : x.isFinite = true) : a.add x = a ∧ x.add a = a := by
  cases a <;> first | (cases ha; done) | skip
  all_goals cases x <;> first | (cases hx; done) | exact ⟨rfl, rfl⟩

/-- The sum. -/
theorem add_same {a a' b b' : XReal} : a.Same a' → b.Same b' → (a.add b).Same (a'.add b') := by
  refine same_of_parts XReal.add ?_ ?_ ?_
  · intro a a' b b' fa fb ha hb
    obtain ⟨h1, h2⟩ := value_add_finite fa fb
    obtain ⟨h3, h4⟩ := value_add_finite (finite_right ha fa) (finite_right hb fb)
    exact .of_value h1 h3 (by rw [h2, h4, ha.value, hb.value])
  · intro a b b' fa fb hb
    rw [(add_infinite fa fb).1, (add_infinite fa (finite_right hb fb)).1]
  · intro a a' b fb fa ha
    rw [(add_infinite fb fa).2, (add_infinite fb (finite_right ha fa)).2]

/-- A quotient of finite values by zero. -/
theorem div_zero_finite {a b : XReal} (ha : a.isFinite = true) (hb : b.isFinite = true) (h0 : b.isZero = true) :
    a.div b = Config.divByZero a.number := by
  cases a <;> cases b <;> first | (cases ha; done) | (cases hb; done) | skip
  · have h0' := h0
    simp only [XReal.isZero, beq_iff_eq] at h0'
    simp [XReal.div, h0']
  all_goals simp [XReal.div, h0]

/-- Quotients with one value that is not finite. -/
theorem div_infinite {a x : XReal} (ha : a.isFinite = false) (hx : x.isFinite = true) :
    a.div x = (if a = .nan then .nan else if x.isZero = true then Config.divByZero a.number
      else .inf ((a == .negInf) != x.isNeg)) ∧
    x.div a = (if a = .nan then .nan else .fin 0 0) := by
  cases a <;> first | (cases ha; done) | skip
  all_goals cases x <;> first | (cases hx; done) | skip
  all_goals simp [XReal.div, show (XReal.posInf == XReal.negInf) = false from rfl]

/-- The quotient. -/
theorem div_same {a a' b b' : XReal} : a.Same a' → b.Same b' → (a.div b).Same (a'.div b') := by
  refine same_of_parts XReal.div ?_ ?_ ?_
  · intro a a' b b' fa fb ha hb
    have fa' := finite_right ha fa
    have fb' := finite_right hb fb
    cases hz : b.isZero
    · have h0 : b.value ≠ 0 := fun h => by rw [(isZero_iff fb).mpr h] at hz; cases hz
      obtain ⟨h1, h2⟩ := value_div_finite fa fb h0
      obtain ⟨h3, h4⟩ := value_div_finite fa' fb' (hb.value ▸ h0)
      exact .of_value h1 h3 (by rw [h2, h4, ha.value, hb.value])
    · rw [div_zero_finite fa fb hz, div_zero_finite fa' fb' (hb.isZero ▸ hz), ha.number]
      exact .refl _
  · intro a b b' fa fb hb
    rw [(div_infinite fa fb).1, (div_infinite fa (finite_right hb fb)).1, hb.isZero, hb.isNeg]
  · intro a a' b fb fa ha
    rw [(div_infinite fb fa).2, (div_infinite fb (finite_right ha fa)).2]

/-! ### Binary64 -/

/-- The exponent of the unit in the last place depends on the value alone. -/
theorem unitExponent_same {x y : XReal} (hx : x.isFinite = true) (h : x.Same y) (h0 : x.value ≠ 0) :
    x.unitExponent = y.unitExponent := by
  obtain ⟨e, he, hl, hlo, hhi⟩ := unit_spec hx h0
  obtain ⟨e', he', hl', hlo', hhi'⟩ := unit_spec (finite_right h hx) (h.value ▸ h0)
  rw [← h.value] at hlo' hhi'
  have step : ∀ {e e' : Int}, -1022 ≤ e' → ((2 : ℝ) ^ e ≤ |x.value| ∨ e = -1022) → |x.value| < (2 : ℝ) ^ (e' + 1) → e ≤ e' := by
    rintro e e' hl' (hlo | rfl) hhi'
    · have := (zpow_lt_zpow_iff_right₀ (by norm_num : (1 : ℝ) < 2)).mp (hlo.trans_lt hhi')
      omega
    · exact hl'
  rw [he, he', le_antisymm (step hl' hlo hhi') (step hl hlo' hhi)]

/-- A nearest integer, the even one of two, is one number. -/
theorem nearest_unique {y : ℝ} {m n : Nat} (hm : |y - m| < 1 / 2 ∨ (|y - m| = 1 / 2 ∧ m % 2 = 0))
    (hn : |y - n| < 1 / 2 ∨ (|y - n| = 1 / 2 ∧ n % 2 = 0)) : m = n := by
  have hd : |(m : ℝ) - n| ≤ |y - m| + |y - n| := by
    rw [abs_sub_comm y m]
    exact abs_sub_le _ _ _
  by_contra h
  have h1 : (1 : ℝ) ≤ |(m : ℝ) - n| := by
    exact_mod_cast Int.one_le_abs (sub_ne_zero.mpr (by exact_mod_cast h : (m : ℤ) ≠ n))
  rcases hm with hm | ⟨hm, em⟩ <;> rcases hn with hn | ⟨hn, en⟩ <;> try linarith
  have h2 : |(m : ℤ) - n| ≤ 1 := by
    have : |(m : ℝ) - n| ≤ 1 := by linarith
    exact_mod_cast this
  rw [abs_le] at h2
  omega

/-- Rounding to binary64 depends on the value alone. -/
theorem round64_same {x y : XReal} (hx : x.isFinite = true) (h : x.Same y) : round64 x = round64 y := by
  unfold round64
  rw [← h.isZero, ← h.isNeg]
  split
  · rfl
  · next hz =>
    have h0 : x.value ≠ 0 := fun h' => hz ((isZero_iff hx).mpr h')
    rw [← unitExponent_same hx h h0]
    congr 1
    have hc := (ratTwoPow_pos (-x.unitExponent)).le
    have hy := rneMag_finite (finite_right h hx) hc
    rw [← h.value] at hy
    exact nearest_unique (rneMag_finite hx hc) hy

/-- So does the directed rounding. -/
theorem directed64_same (up : Bool) {d e : RealExpr} (h : d.value = e.value) : directed64 up d = directed64 up e := by
  have hs : (XReal.expr d).Same (.expr e) := .of_value rfl rfl h
  unfold directed64
  simp only
  rw [← hs.isZero, ← hs.isNeg]
  split
  · rfl
  · next hz =>
    have h0 : (XReal.expr d).value ≠ 0 := fun h' => hz ((isZero_iff rfl).mpr h')
    have hc := (ratTwoPow_pos (-(XReal.expr d).unitExponent)).le
    rw [← unitExponent_same rfl hs h0, ceilMag_eq, ceilMag_eq, h, floorMag_finite rfl hc, floorMag_finite rfl hc, hs.value]

/-- What a result becomes in the chosen domain. -/
theorem rnd_same (m : NumMode) {x y : XReal} (h : x.Same y) : (m.rnd x).Same (m.rnd y) := by
  unfold NumMode.rnd
  rw [← h.isFinite]
  split
  · next hm => exact .inl (round64_same hm.2 h)
  · exact h

/-- An elementary function. -/
theorem apply_same (m : NumMode) (f : Elementary) {x y : XReal} (h : x.Same y) : (m.apply f x).Same (m.apply f y) := by
  unfold NumMode.apply
  rw [← h.isFinite, ← h.isNeg, ← h.number]
  split
  · exact .refl _
  · next hx =>
    have fx : x.isFinite = true := by
      rw [not_or, Bool.not_eq_false] at hx
      exact hx.1
    obtain ⟨h1, h2⟩ := value_applyExact f fx
    obtain ⟨h3, h4⟩ := value_applyExact f (finite_right h fx)
    have hs : (applyExact f x).Same (applyExact f y) := .of_value h1 h3 (by rw [h2, h4, h.value])
    have he : (applyExact f x).toExpr.value = (applyExact f y).toExpr.value := by
      rw [value_toExpr h1, value_toExpr h3, hs.value]
    cases m
    · exact hs
    · refine .inl ?_
      simp only [elementary64]
      split
      · exact directed64_same _ he
      · exact round64_same h1 hs
      · exact directed64_same _ he

end Sys2Proof
end

