-- ==== Sys2Proof/Tests/Slice0.lean ====
section
/-!
SUPPORT. Tests: ill-formed terms refused, the words of spec/30_encoding.md R93 to R95 and R100 to R103 decoded, one step of
each kind of operation against spec/95_test_vectors.md, and for each statement with hypotheses a state that meets them.
-/
namespace Sys2Proof.Tests

open Sys2Proof Sys2Proof.Machine

set_option Elab.async false

/-! ### Ill-formed terms (R12, R101, R102, R106) -/

theorem illformed_real : (Instr.calcFnum (.fin 0 5) 0).wellFormed = false := by decide +kernel
theorem illformed_filter : (Instr.fltPeaking (.ofRat 1) (.ofRat 1) (.fin 0 1)).wellFormed = false := by decide +kernel
theorem illformed_list : (Instr.setEq 0 [.ofRat 1, .fin 0 3]).wellFormed = false := by decide +kernel
theorem illformed_write_empty : (Instr.spiWrite 0x19 []).wellFormed = false := by decide
theorem illformed_write_long : (Instr.spiWrite 0x19 (List.replicate 65536 0)).wellFormed = false := by
  rw [Instr.wellFormed, List.length_replicate]; decide
theorem illformed_read_address : (Instr.spiRead 0x04 [0x00]).wellFormed = false := by decide
theorem illformed_read_payload : (Instr.spiRead 0x84 [0x01]).wellFormed = false := by decide
theorem illformed_read_length : (Instr.spiRead 0x84 [0x00, 0x00]).wellFormed = false := by decide

/-! ### Decoding: `op` in bits 15:8, `sub` in bits 7:0 (R91) -/

/-- A command decodes to an operation. -/
abbrev Decodes (h : Header) (p : Ports) (i : Instr) : Prop := decodeCommand ⟨h, p⟩ = .ok i

/-- FREQ, `op` 01 to 07. -/
theorem decode_freq :
    Decodes 0x0100 { r0 := .ofRat 440, z0 := 4 } (.calcFnum (.ofRat 440) 4) ∧
    Decodes 0x0200 { r0 := .ofRat 601, z0 := 3 } (.calcFreq (.ofRat 601) 3) ∧
    Decodes 0x0300 { z0 := 69 } (.key2fnum 69) ∧
    Decodes 0x0400 { r0 := .ofRat 1 } (.convFmult (.ofRat 1)) ∧
    Decodes 0x0500 { f0 := true, n0 := 3, n1 := 1, r0 := .ofRat 512 } (.calcRof true 3 1 (.ofRat 512)) ∧
    Decodes 0x0600 { z0 := 15, z1 := 3 } (.atkTime 15 3) ∧
    Decodes 0x0700 { z0 := 4, z1 := 2 } (.envTime 4 2) := ⟨rfl, rfl, rfl, rfl, rfl, rfl, rfl⟩

/-- CEQ, `op` 20 to 2F. -/
theorem decode_ceq :
    Decodes 0x2000 { r0 := .ofRat 1 } (.ceqEnc (.ofRat 1)) ∧
    Decodes 0x2100 { i0 := 0x900000 } (.ceqDec 0x900000) ∧
    Decodes 0x2200 { reals := [.ofRat 1, .ofRat 0] } (.ceqPack [.ofRat 1, .ofRat 0]) ∧
    Decodes 0x2800 { r0 := .ofRat 1000, r1 := .ofRat 1 } (.fltLowpass (.ofRat 1000) (.ofRat 1)) ∧
    Decodes 0x2900 { r0 := .ofRat 1000, r1 := .ofRat 1 } (.fltHighpass (.ofRat 1000) (.ofRat 1)) ∧
    Decodes 0x2A00 { r0 := .ofRat 1000, r1 := .ofRat 1 } (.fltBandpass (.ofRat 1000) (.ofRat 1)) ∧
    Decodes 0x2B00 { r0 := .ofRat 1000, r1 := .ofRat 1 } (.fltBandstop (.ofRat 1000) (.ofRat 1)) ∧
    Decodes 0x2C00 { r0 := .ofRat 1000, r1 := .ofRat 1, r2 := .ofRat 6 }
      (.fltLowshelf (.ofRat 1000) (.ofRat 1) (.ofRat 6)) ∧
    Decodes 0x2D00 { r0 := .ofRat 1000, r1 := .ofRat 1, r2 := .ofRat 6 }
      (.fltHighshelf (.ofRat 1000) (.ofRat 1) (.ofRat 6)) ∧
    Decodes 0x2E00 { r0 := .ofRat 1000, r1 := .ofRat 1, r2 := .ofRat 6 }
      (.fltPeaking (.ofRat 1000) (.ofRat 1) (.ofRat 6)) ∧
    Decodes 0x2F00 { r0 := .ofRat 1000, r1 := .ofRat 1 } (.fltAllpass (.ofRat 1000) (.ofRat 1)) :=
  ⟨rfl, rfl, rfl, rfl, rfl, rfl, rfl, rfl, rfl, rfl, rfl⟩

/-- TONE_SET and TONE_GET, `op` 40 and 42: `sub` 00 to 02 (R94). -/
theorem decode_tone_fields :
    Decodes 0x4000 { z0 := 2, z1 := 3 } (.toneSetBo 2 3) ∧ Decodes 0x4001 { z0 := 2, z1 := 3 } (.toneSetLfo 2 3) ∧
    Decodes 0x4002 { z0 := 2, z1 := 3 } (.toneSetAlg 2 3) ∧ Decodes 0x4200 { z0 := 2 } (.toneGetBo 2) ∧
    Decodes 0x4201 { z0 := 2 } (.toneGetLfo 2) ∧ Decodes 0x4202 { z0 := 2 } (.toneGetAlg 2) :=
  ⟨rfl, rfl, rfl, rfl, rfl, rfl⟩

/-- OP_SET, `op` 41: `sub` 00 to 10 in the order of R94. -/
theorem decode_op_set :
    Decodes 0x4100 { z0 := 2, z1 := 1, z2 := 3 } (.opSetSr 2 1 3) ∧
    Decodes 0x4101 { z0 := 2, z1 := 1, z2 := 3 } (.opSetRr 2 1 3) ∧
    Decodes 0x4102 { z0 := 2, z1 := 1, z2 := 3 } (.opSetDr 2 1 3) ∧
    Decodes 0x4103 { z0 := 2, z1 := 1, z2 := 3 } (.opSetAr 2 1 3) ∧
    Decodes 0x4104 { z0 := 2, z1 := 1, z2 := 3 } (.opSetSl 2 1 3) ∧
    Decodes 0x4105 { z0 := 2, z1 := 1, z2 := 3 } (.opSetTl 2 1 3) ∧
    Decodes 0x4106 { z0 := 2, z1 := 1, z2 := 3 } (.opSetKsl 2 1 3) ∧
    Decodes 0x4107 { z0 := 2, z1 := 1, z2 := 3 } (.opSetDam 2 1 3) ∧
    Decodes 0x4108 { z0 := 2, z1 := 1, z2 := 3 } (.opSetDvb 2 1 3) ∧
    Decodes 0x4109 { z0 := 2, z1 := 1, z2 := 3 } (.opSetMulti 2 1 3) ∧
    Decodes 0x410A { z0 := 2, z1 := 1, z2 := 3 } (.opSetDt 2 1 3) ∧
    Decodes 0x410B { z0 := 2, z1 := 1, z2 := 3 } (.opSetWs 2 1 3) ∧
    Decodes 0x410C { z0 := 2, z1 := 1, z2 := 3 } (.opSetFb 2 1 3) ∧
    Decodes 0x410D { z0 := 2, z1 := 1, f0 := true } (.opSetXof 2 1 true) ∧
    Decodes 0x410E { z0 := 2, z1 := 1, f0 := true } (.opSetKsr 2 1 true) ∧
    Decodes 0x410F { z0 := 2, z1 := 1, f0 := true } (.opSetEam 2 1 true) ∧
    Decodes 0x4110 { z0 := 2, z1 := 1, f0 := true } (.opSetEvb 2 1 true) :=
  ⟨rfl, rfl, rfl, rfl, rfl, rfl, rfl, rfl, rfl, rfl, rfl, rfl, rfl, rfl, rfl, rfl, rfl⟩

/-- OP_GET, `op` 43: the same `sub`. -/
theorem decode_op_get :
    Decodes 0x4300 { z0 := 2, z1 := 1 } (.opGetSr 2 1) ∧ Decodes 0x4301 { z0 := 2, z1 := 1 } (.opGetRr 2 1) ∧
    Decodes 0x4302 { z0 := 2, z1 := 1 } (.opGetDr 2 1) ∧ Decodes 0x4303 { z0 := 2, z1 := 1 } (.opGetAr 2 1) ∧
    Decodes 0x4304 { z0 := 2, z1 := 1 } (.opGetSl 2 1) ∧ Decodes 0x4305 { z0 := 2, z1 := 1 } (.opGetTl 2 1) ∧
    Decodes 0x4306 { z0 := 2, z1 := 1 } (.opGetKsl 2 1) ∧ Decodes 0x4307 { z0 := 2, z1 := 1 } (.opGetDam 2 1) ∧
    Decodes 0x4308 { z0 := 2, z1 := 1 } (.opGetDvb 2 1) ∧ Decodes 0x4309 { z0 := 2, z1 := 1 } (.opGetMulti 2 1) ∧
    Decodes 0x430A { z0 := 2, z1 := 1 } (.opGetDt 2 1) ∧ Decodes 0x430B { z0 := 2, z1 := 1 } (.opGetWs 2 1) ∧
    Decodes 0x430C { z0 := 2, z1 := 1 } (.opGetFb 2 1) ∧ Decodes 0x430D { z0 := 2, z1 := 1 } (.opGetXof 2 1) ∧
    Decodes 0x430E { z0 := 2, z1 := 1 } (.opGetKsr 2 1) ∧ Decodes 0x430F { z0 := 2, z1 := 1 } (.opGetEam 2 1) ∧
    Decodes 0x4310 { z0 := 2, z1 := 1 } (.opGetEvb 2 1) :=
  ⟨rfl, rfl, rfl, rfl, rfl, rfl, rfl, rfl, rfl, rfl, rfl, rfl, rfl, rfl, rfl, rfl, rfl⟩

/-- The exports, `op` 44 to 46. -/
theorem decode_exports :
    Decodes 0x4400 { z0 := 2, z1 := 1, bytes := [7], z2 := 5 } (.opExport 2 1 [7] 5) ∧
    Decodes 0x4500 { z0 := 2, bytes := [7], z1 := 5 } (.toneExport 2 [7] 5) ∧
    Decodes 0x4600 { bytes := [7], z0 := 5, z1 := 2 } (.collExport [7] 5 2) := ⟨rfl, rfl, rfl⟩

/-- Transport and Chip Addressor, `op` 50 to 57. -/
theorem decode_transport :
    Decodes 0x5000 { f0 := true, u0 := 0xFF, u1 := 0x1B } (.qGpio true 0xFF 0x1B) ∧
    Decodes 0x5100 { u0 := 0x19, u1 := 0xF0 } (.qSpiWrite 0x19 0xF0) ∧
    Decodes 0x5200 { u0 := 0x20, bytes := [1, 2], z0 := 1, z1 := 2 } (.qSpiBurst 0x20 [1, 2] 1 2) ∧
    Decodes 0x5300 {} .flush ∧ Decodes 0x5400 { u0 := 0x04 } (.tRead 0x04) ∧ Decodes 0x5500 {} .hwReset ∧
    Decodes 0x5600 {} .dispose ∧ Decodes 0x5700 { chip := 3 } (.setTarget 3) :=
  ⟨rfl, rfl, rfl, rfl, rfl, rfl, rfl, rfl⟩

/-- Register Driver, `op` 60 to 65, and REGGET, `op` 69. -/
theorem decode_driver :
    Decodes 0x6000 { u0 := 0x19, u1 := 0xF0 } (.write 0x19 0xF0) ∧
    Decodes 0x6100 { u0 := 0x20, bytes := [1, 2], z0 := 1, z1 := 2 } (.burstWrite 0x20 [1, 2] 1 2) ∧
    Decodes 0x6200 { u0 := 0x04, chip := 2 } (.read 0x04 2) ∧ Decodes 0x6300 { z0 := 15 } (.writeContents 15) ∧
    Decodes 0x6400 { z0 := 2, reals := [.ofRat 1] } (.setEq 2 [.ofRat 1]) ∧ Decodes 0x6500 {} .swReset ∧
    Decodes 0x690D { chip := 2 } (.regget 0x0D 2) ∧ Decodes 0x69FF {} (.regget 0xFF 0) :=
  ⟨rfl, rfl, rfl, rfl, rfl, rfl, rfl, rfl⟩

/-- REGSET, `op` 68: `sub` is the address of the first register (R95). -/
theorem decode_regset :
    Decodes 0x6800 { f0 := true } (.setClke true) ∧ Decodes 0x6801 { f0 := true } (.setAlrst true) ∧
    Decodes 0x6802 { i0 := 14 } (.setApd 14) ∧ Decodes 0x6803 { i0 := 1 } (.setGain 1) ∧
    Decodes 0x6808 { i0 := 0xF6 } (.setSeq 0xF6) ∧
    Decodes 0x6809 { i0 := 31, f0 := true, i1 := 5 } (.setSeqvolSize 31 true 5) ∧
    Decodes 0x680B { i0 := 5 } (.setVoiceNum 5) ∧ Decodes 0x680C { i0 := 28 } (.setVoiceVol 28) ∧
    Decodes 0x680D { i0 := 601, i1 := 3 } (.setFnumBlock 601 3) ∧
    Decodes 0x680F { f0 := true, f2 := true, i0 := 9 } (.setToneCtrl true false true 9) ∧
    Decodes 0x6810 { i0 := 28, f0 := true } (.setChVol 28 true) ∧ Decodes 0x6811 { i0 := 7 } (.setVib 7) ∧
    Decodes 0x6812 { i0 := 1, i1 := 2 } (.setFmult 1 2) ∧ Decodes 0x6814 { f0 := true } (.setMuteItp true) ∧
    Decodes 0x6817 { i0 := 0x2000 } (.setSeqTime 0x2000) ∧ Decodes 0x6819 { i0 := 60 } (.setMasterVol 60) ∧
    Decodes 0x681A { i0 := 0xA3 } (.setSoftreset 0xA3) ∧
    Decodes 0x681B { f0 := true, i0 := 1, i1 := 2, i2 := 3 } (.setVolItp true 1 2 3) ∧
    Decodes 0x681C { f0 := true } (.setLfoRst true) ∧ Decodes 0x681D { f0 := true } (.setDrvSel true) ∧
    Decodes 0x6850 { i0 := 0x5A } (.setTest 0x5A) :=
  ⟨rfl, rfl, rfl, rfl, rfl, rfl, rfl, rfl, rfl, rfl, rfl, rfl, rfl, rfl, rfl, rfl, rfl, rfl, rfl, rfl, rfl⟩

/-- Section Manager, `op` 70 to 73. -/
theorem decode_section :
    Decodes 0x7000 {} .secEnable ∧ Decodes 0x7100 {} .secDisable ∧ Decodes 0x7200 { chip := 1 } (.secBegin 1) ∧
    Decodes 0x7300 { n0 := 30 } (.secEnd 30) := ⟨rfl, rfl, rfl, rfl⟩

/-- The stream commands, each with bytes of the next command behind it (R100 to R103). -/
theorem decode_stream :
    decodeStream [0x80, 0x18, 0x1B, 0x87] = .ok (.gpioLow 0x18 0x1B, [0x87]) ∧
    decodeStream [0x82, 0xFF, 0xFE, 0x87] = .ok (.gpioHigh 0xFF 0xFE, [0x87]) ∧
    decodeStream [0x11, 0x02, 0x00, 0x20, 0xAA, 0xBB, 0x87] = .ok (.spiWrite 0x20 [0xAA, 0xBB], [0x87]) ∧
    decodeStream [0x31, 0x01, 0x00, 0x84, 0x00, 0x87] = .ok (.spiRead 0x84 [0x00], [0x87]) ∧
    decodeStream [0x87, 0x80] = .ok (.streamFlush, [0x80]) := ⟨rfl, rfl, rfl, rfl, rfl⟩

/-- What selects nothing (R120, R347), and a command cut short. -/
theorem decode_refused :
    decodeCommand ⟨0x0000, {}⟩ = .error (.undefinedHeader 0x0000) ∧
    decodeCommand ⟨0x0101, {}⟩ = .error (.undefinedHeader 0x0101) ∧
    decodeCommand ⟨0x4111, {}⟩ = .error (.undefinedHeader 0x4111) ∧
    decodeCommand ⟨0x6804, {}⟩ = .error (.undefinedHeader 0x6804) ∧
    decodeStream [0x81, 0, 0] = .error (.undefinedStreamByte 0x81) ∧ decodeStream [0x80, 0x18] = .error .truncated :=
  ⟨rfl, rfl, rfl, rfl, rfl, rfl⟩

/-! ### States and readings -/

/-- After reset, with `Board0` selected on the board of V40. -/
def rig : State := { State.reset with target := 1, targetPins := 0x08 }

/-- The same in the exact domain. -/
def exactRig : State := { rig with cfg := { rig.cfg with num := .exact }, fnumTable := buildFnumTable .exact }

/-- The same under section mode. -/
def sectionRig : State := { rig with sectionMode := true }

/-- What an operation of requester 0 returned. -/
def result (i : Instr) (s : State) : Option Response :=
  match exec i s with
  | .next t => t.reqs[0]?.bind Requester.response
  | _ => none

/-- The state after an operation; the state before it where it has none. -/
def after (i : Instr) (s : State) : State :=
  match exec i s with
  | .next t => t
  | _ => s

/-- An OK result. -/
def ok (values : List Value) : Option Response := some ⟨.ok, values⟩

/-- An error. -/
def err (e : Status) : Option Response := some ⟨e, []⟩

/-! ### FREQ (V11 to V16) -/

theorem test_calc_fnum : result (.calcFnum (.ofRat 440) 4) exactRig = ok [.real (.ofRat (225280 / 375))] := by decide +kernel
theorem test_calc_freq : result (.calcFreq (.ofRat 601) 3) rig = ok [.real (.ofRat (225375 / 1024))] := by decide +kernel
theorem test_key_top : result (.key2fnum 127) rig = ok [.real (.ofRat 1023), .int 6, .real (.ofRat 1)] := by decide +kernel
theorem test_key_range : result (.key2fnum 128) rig = err .rangeError := by decide +kernel
theorem test_fmult_tie : result (.convFmult (.ofRat (3 / 1024))) rig = ok [.int 0, .int 2] := by decide +kernel
theorem test_fmult_saturates : result (.convFmult (.ofRat (4 - 1 / 1024))) rig = ok [.int 3, .int 511] := by decide +kernel
/-- A computed real exactly at the lower bound (R12). -/
theorem test_fmult_difference : result (.convFmult (.expr (.add .pi (.neg .pi)))) exactRig = ok [.int 0, .int 0] := by
  set x : XReal := .expr (.add .pi (.neg .pi))
  have hx : x.value = 0 := by simp [x, XReal.value, RealExpr.value]
  have low : XReal.lt x (.ofRat 0) = false := Bool.eq_false_iff.mpr fun h => by
    simpa [hx] using (lt_rat_iff rfl 0).1.mp h
  have high : XReal.lt x (.ofRat 4) = true := (lt_rat_iff rfl 4).1.mpr (by norm_num [hx])
  have steps : x.rneMag 512 = 0 := by
    have h := rneMag_finite (x := x) rfl (c := 512) (by norm_num)
    rw [hx] at h
    by_contra h0
    have h1 : (1 : ℝ) ≤ x.rneMag 512 := by exact_mod_cast Nat.one_le_iff_ne_zero.mpr h0
    norm_num at h
    rcases h with h | h <;> linarith [h1]
  have hc : convFmult x = .ok [.int 0, .int 0] := by
    simp [convFmult, XReal.le, low, high, multSteps, steps, x]
  show result (.convFmult x) exactRig = _
  unfold result
  simp only [exec, execConvFmult, show realOperand exactRig x = x from rfl, hc]
  rfl

theorem test_rof_at_512 : result (.calcRof true 0 0 (.ofRat 512)) rig = ok [.int 1] := by decide +kernel
theorem test_rof_truncates : result (.calcRof false 3 0 (.ofRat 600)) rig = ok [.int 1] := by decide +kernel
theorem test_attack_infinite : result (.atkTime 0 3) rig = ok [.real .posInf] := by decide +kernel
theorem test_attack_range : result (.atkTime 0 16) rig = err .rangeError := by decide +kernel
theorem test_envelope_range : result (.envTime 16 0) rig = err .rangeError := by decide +kernel
theorem test_envelope_index : timeEntry 15 15 = .ok 64 ∧ timeEntry 4 2 = .ok 18 := ⟨rfl, rfl⟩

/-! ### CEQ (V30, V31, V34, V35) -/

theorem test_encode_truncates : result (.ceqEnc (.ofRat (-1 / 10))) exactRig = ok [.word 0x819999] := by decide +kernel
theorem test_encode_top : result (.ceqEnc (.ofRat 8)) rig = err .rangeError := by decide +kernel
theorem test_decode_sign : result (.ceqDec 0x900000) rig = ok [.real (.ofRat (-1))] := by decide +kernel
theorem test_decode_ignores_top : result (.ceqDec 0xFF100000) rig = ok [.real (.ofRat 1)] := by decide +kernel
theorem test_pack : result (.ceqPack [.ofRat (-3 / 2), .ofRat (1 / 2), .ofRat 0, .ofRat 1, .ofRat 0]) rig =
    ok [.bytes [0x98, 0, 0, 0x08, 0, 0, 0, 0, 0, 0x10, 0, 0, 0, 0, 0]] := by decide +kernel
theorem test_pack_length : result (.ceqPack [.ofRat 1, .ofRat 0, .ofRat 0, .ofRat 0]) rig = err .rangeError := by
  decide +kernel
theorem test_filter_cutoff : result (.fltLowpass (.ofRat 30000) (.ofRat 1)) rig = err .rangeError := by decide +kernel
theorem test_filter_q : result (.fltHighpass (.ofRat 1000) (.ofRat (-1 / 10))) rig = err .rangeError := by decide +kernel
theorem test_filter_nan : result (.fltLowshelf .nan (.ofRat 1) (.ofRat 0)) rig = err .rangeError := by decide +kernel

/-! ### The design operations (V33) -/

/-- The band block of the coefficients that a design operation returns in the exact domain. -/
def band (i : Instr) : Option (List Byte) := do
  let r ← result i exactRig
  (packBand (r.values.filterMap fun | .real v => some v | _ => none)).toOption

/-- The `q` of V33. -/
def butterworth : XReal := .ofRat (7071067811865476 / 10000000000000000)

theorem test_lowpass : band (.fltLowpass (.ofRat 1000) butterworth) =
    some [0x00, 0x10, 0x0A, 0x00, 0x20, 0x14, 0x00, 0x10, 0x0A, 0x1D, 0x0B, 0xA3, 0x8D, 0x4B, 0xCC] := by decide +kernel
theorem test_highpass : band (.fltHighpass (.ofRat 1000) butterworth) =
    some [0x0E, 0x95, 0xDB, 0x9D, 0x2B, 0xB7, 0x0E, 0x95, 0xDB, 0x1D, 0x0B, 0xA3, 0x8D, 0x4B, 0xCC] := by decide +kernel
theorem test_bandpass : band (.fltBandpass (.ofRat 1000) (.ofRat 1)) =
    some [0x00, 0xB5, 0x32, 0x00, 0x00, 0x00, 0x80, 0xB5, 0x32, 0x1E, 0x52, 0x9E, 0x8E, 0x95, 0x9A] := by decide +kernel
theorem test_bandstop : band (.fltBandstop (.ofRat 1000) (.ofRat 1)) =
    some [0x0F, 0x4A, 0xCD, 0x9E, 0x52, 0x9E, 0x0F, 0x4A, 0xCD, 0x1E, 0x52, 0x9E, 0x8E, 0x95, 0x9A] := by decide +kernel
theorem test_allpass : band (.fltAllpass (.ofRat 1000) butterworth) =
    some [0x0D, 0x4B, 0xCC, 0x9D, 0x0B, 0xA3, 0x10, 0x00, 0x00, 0x1D, 0x0B, 0xA3, 0x8D, 0x4B, 0xCC] := by decide +kernel
theorem test_lowshelf : band (.fltLowshelf (.ofRat 1000) butterworth (.ofRat 6)) =
    some [0x10, 0x85, 0x60, 0x9D, 0x6B, 0xF5, 0x0D, 0x42, 0x8C, 0x1D, 0x82, 0xE5, 0x8D, 0xB0, 0xFD] := by decide +kernel
theorem test_lowshelf_flat : band (.fltLowshelf (.ofRat 1000) butterworth (.ofRat 0)) =
    some [0x10, 0x00, 0x00, 0x9D, 0x0B, 0xA3, 0x0D, 0x4B, 0xCC, 0x1D, 0x0B, 0xA3, 0x8D, 0x4B, 0xCC] := by decide +kernel
theorem test_highshelf : band (.fltHighshelf (.ofRat 1000) butterworth (.ofRat (-6))) =
    some [0x08, 0x47, 0xB5, 0x8E, 0xBE, 0xEB, 0x06, 0xA5, 0x4E, 0x1D, 0x82, 0xE5, 0x8D, 0xB0, 0xFD] := by decide +kernel
theorem test_peaking : band (.fltPeaking (.ofRat 1000) (.ofRat 1) (.ofRat 6)) =
    some [0x10, 0x81, 0x57, 0x9E, 0xB8, 0x39, 0x0E, 0x7A, 0xBE, 0x1E, 0xB8, 0x39, 0x8E, 0xFC, 0x15] := by decide +kernel

/-- Every coefficient is within `5 * 10^-9` of the one of V33. -/
def close (coefs : List XReal) (expected : List Rat) : Bool :=
  coefs.length == expected.length && (coefs.zip expected).all fun
    | (.fin r k, e) => k == 0 && decide (|r - e| * 200000000 ≤ 1)
    | _ => false

/-- The angle of V33, `2 * pi * 1000 / 48000`, in binary64. -/
theorem binary_angle : angle .binary64 (.ofRat 1000) = .ofRat (4716158501352293 / 36028797018963968) := by decide +kernel

theorem binary_apply {f : Elementary} (h : f ≠ .sqrt) (q : Rat) : NumMode.binary64.apply f (.ofRat q) =
    elementary64 (Config.nearby f (XReal.ofRat q).number) f (.ofRat q) := by
  simp [NumMode.apply, h, XReal.isFinite]

/-- Whichever values about the exact ones the sine and the cosine return. -/
theorem test_lowpass_binary64 :
    close (normalise .binary64 (cookbook .binary64 .lowpass (.ofRat 1000) (NumMode.binary64.rnd butterworth) (.ofRat 0)))
      [0.00391613, 0.00783225, 0.00391613, 1.81534108, -0.83100559] = true := by
  simp only [cookbook, cosTerm, alphaQ, sinTerm, binary_angle, binary_apply (f := .cos) nofun,
    binary_apply (f := .sin) nofun]
  generalize Config.nearby .cos _ = k
  generalize Config.nearby .sin _ = l
  revert k l
  decide +kernel

theorem binary_gain : NumMode.binary64.div (.ofRat 6) (.ofRat 40) = .ofRat (5404319552844595 / 36028797018963968) := by
  decide +kernel

/-- Whichever values the sine, the cosine and the power of ten return. -/
theorem test_lowshelf_binary64 :
    close (normalise .binary64 (cookbook .binary64 .lowShelf (.ofRat 1000) (NumMode.binary64.rnd butterworth) (.ofRat 6)))
      [1.03256248, -1.83885687, 0.82874768, 1.84445687, -0.85571017] = true := by
  simp only [cookbook, cosTerm, alphaQ, sinTerm, gainFactor, binary_angle, binary_gain,
    binary_apply (f := .cos) nofun, binary_apply (f := .sin) nofun, binary_apply (f := .pow10) nofun]
  generalize Config.nearby .cos _ = k
  generalize Config.nearby .sin _ = l
  generalize Config.nearby .pow10 _ = m
  revert k l m
  decide +kernel

/-! ### TONE (V41 to V46) -/

theorem test_tone_set : (after (.toneSetAlg 15 7) rig).x[15].alg = 7 := by decide +kernel
theorem test_tone_range : result (.toneSetAlg 0 8) rig = err .rangeError := by decide +kernel
theorem test_op_set : result (.opGetAr 0 3) (after (.opSetAr 0 3 15) rig) = ok [.int 15] := by decide +kernel
theorem test_op_set_range : result (.opSetAr 0 0 16) rig = err .rangeError := by decide +kernel
theorem test_op_flag : result (.opGetKsr 0 3) (after (.opSetKsr 0 3 true) rig) = ok [.flag true] := by decide +kernel
theorem test_op_index : result (.opSetKsr 0 4 true) rig = err .rangeError := by decide +kernel
theorem test_op_export : result (.opExport 0 0 (List.replicate 9 0xAA) 1) (after (.opSetAr 0 0 15) rig) =
    ok [.bytes [0xAA, 0, 0, 0xF0, 0, 0, 0, 0, 0xAA]] := by decide +kernel
theorem test_tone_export_range : result (.toneExport 0 (List.replicate 29 0) 0) rig = err .rangeError := by decide +kernel
theorem test_coll_export : result (.collExport (List.replicate 35 0) 0 0) rig =
    ok [.bytes ([0x81] ++ List.replicate 30 0 ++ [0x80, 0x03, 0x81, 0x80])] := by decide +kernel

/-! ### Transport, Register Driver and Section Manager (V50 to V60) -/

/-- `W(19,F0)` for `Board0`. -/
def frame19 : List Byte := [0x80, 0x10, 0x1B, 0x11, 0x01, 0x00, 0x19, 0xF0, 0x80, 0x18, 0x1B]

theorem test_gpio : (after (.qGpio true 0xFF 0xFE) rig).wbuf = [0x82, 0xFF, 0xFE] := by decide +kernel
theorem test_spi_write : (after (.qSpiWrite 0x19 0xF0) rig).wbuf = frame19 := by decide +kernel
theorem test_spi_no_target : result (.qSpiWrite 0x19 0xF0) State.reset = err .communicationError := by decide +kernel
theorem test_spi_burst : (after (.qSpiBurst 0x20 [1, 2, 3, 4] 1 2) rig).wbuf =
    [0x80, 0x10, 0x1B, 0x11, 0x02, 0x00, 0x20, 0x02, 0x03, 0x80, 0x18, 0x1B] := by decide +kernel
theorem test_burst_range : result (.qSpiBurst 0x20 [1, 2, 3, 4] 3 2) rig = err .rangeError := by decide +kernel
theorem test_flush : (after .flush { rig with wbuf := frame19 }).trace = [.tx (frame19 ++ [0x87])] := by decide +kernel
theorem test_flush_failed : (after .flush { rig with wbuf := [1], accept := false }).wbuf = [1, 0x87] := by decide +kernel
theorem test_read_first_step : (after (.tRead 0x04) rig).trace = [.tx [0x87]] := by decide +kernel
theorem test_read_two_chips : result (.tRead 0x04) { rig with target := 3, targetPins := 0x18 } = err .invalidOperation := by
  decide +kernel
theorem test_hw_reset_first_step : (after .hwReset rig).trace = [.tx [0x82, 0x00, 0xFF, 0x87], .delay 2] := by decide +kernel
theorem test_dispose : (after .dispose { rig with wbuf := frame19 }).wbuf = [] := by decide +kernel
theorem test_set_target : (after (.setTarget 3) rig).targetPins = 0x18 := by decide +kernel
theorem test_set_target_range : result (.setTarget 4) { rig with disposed := true } = err .rangeError := by decide +kernel
theorem test_write_flushes : (after (.write 0x19 0xF0) rig).trace = [.tx (frame19 ++ [0x87])] := by decide +kernel
theorem test_write_in_section_mode : (after (.write 0x19 0xF0) sectionRig).wbuf = frame19 := by decide +kernel
theorem test_contents_range : result (.writeContents 16) rig = err .rangeError := by decide +kernel
theorem test_eq : (after (.setEq 2 [.ofRat 1, .ofRat 0, .ofRat 0, .ofRat 0, .ofRat 0]) sectionRig).wbuf =
    [0x80, 0x10, 0x1B, 0x11, 0x0F, 0x00, 0x22, 0x10] ++ List.replicate 14 0 ++ [0x80, 0x18, 0x1B] := by decide +kernel
theorem test_sw_reset_owner : result .swReset { sectionRig with owner := some 0 } = err .invalidOperation := by
  decide +kernel
theorem test_read_owner : result (.read 0x04 0) { sectionRig with owner := some 0 } = err .invalidOperation := by
  decide +kernel
theorem test_regget_owner : result (.regget 0x04 0) { sectionRig with owner := some 0 } = err .invalidOperation := by
  decide +kernel
theorem test_sec_end_stranger : result (.secEnd 0) { sectionRig with owner := some 1 } = err .invalidOperation := by
  decide +kernel
theorem test_sec_disable : (after .secDisable { sectionRig with owner := some 1 }).owner = none := by decide +kernel
theorem test_regget_fields : unpackReg rig 0x0D 0x23 = [4, 3] := by decide +kernel

/-- The data bytes of a setter's first write under section mode. -/
def wrote (i : Instr) (addr data : Byte) : Bool := (after i sectionRig).wbuf == writeFrame addr [data] sectionRig

theorem test_setters_fixed : wrote (.setClke true) 0x00 0x01 ∧ wrote (.setAlrst true) 0x01 0x80 ∧
    wrote (.setApd (-1)) 0x02 0x0F ∧ wrote (.setGain 5) 0x03 0x01 ∧ wrote (.setSeq 0x1F6) 0x08 0xF6 ∧
    wrote (.setSoftreset 0xA3) 0x1A 0xA3 ∧ wrote (.setTest 0x5A) 0x50 0x5A := by decide +kernel
theorem test_setters_voice : wrote (.setVoiceNum 16) 0x0B 0x00 ∧ wrote (.setVoiceVol 28) 0x0C 0x70 ∧
    wrote (.setToneCtrl true true true 31) 0x0F 0x7F ∧ wrote (.setChVol 28 true) 0x10 0x71 ∧
    wrote (.setVib 8) 0x11 0x00 ∧ wrote (.setMuteItp true) 0x14 0x01 := by decide +kernel
theorem test_setters_chip : wrote (.setMasterVol 60) 0x19 0xF0 ∧ wrote (.setVolItp false 3 3 3) 0x1B 0x3F ∧
    wrote (.setLfoRst true) 0x1C 0x01 ∧ wrote (.setDrvSel true) 0x1D 0x01 := by decide +kernel
theorem test_setters_pair : wrote (.setSeqvolSize 1 true 0x1FF) 0x09 0x0D ∧ wrote (.setFnumBlock 601 3) 0x0D 0x23 ∧
    wrote (.setFmult 3 511) 0x12 0x1F ∧ wrote (.setSeqTime 0x2000) 0x17 0x40 := by decide +kernel

/-! ### The table's words at the first step after reset -/

theorem test_table_word : decodeTableWord 16 0x5700 = some (.setTarget 0) ∧ decodeTableWord 8 0x87 = some .streamFlush := by
  decide +kernel
theorem test_fetch_command : ∃ t, step (State.reset.withFetchWord 16 0x7000) = .next t ∧ t.sectionMode = true :=
  ⟨_, rfl, rfl⟩
theorem test_fetch_stream : ∃ t, step (State.reset.withFetchWord 8 0x80) = .next t ∧ t.bridge.stream = [] := ⟨_, rfl, rfl⟩

/-! ### Witnesses: for each statement with hypotheses, states and operands that meet them -/

/-- `rig` when requester 0 is about to ask for a command. -/
def asking (h : Header) (p : Ports := {}) : State :=
  { rig with turns := [.requester 0 true], reqs := [{ inbox := [.op ⟨h, p⟩] }, {}] }

/-- `rig` when the bridge is about to execute `bytes`. -/
def streaming (bytes : List Byte) : State :=
  { rig with turns := [.bridge [0xAA, 0x5A]], bridge := { rig.bridge with stream := bytes } }

/-- `rig` with two bytes on their way from the environment. -/
def receiving : State := { rig with turns := [.environment [0xAA, 0x5A]] }

/-- `s` with requester 0 inside an operation. -/
def busy (steps : List Atom) (s : State) : State := { s with reqs := [{ task := some { steps } }, {}] }

/-- A step has a next state. -/
def Moves (s : State) : Prop := ∃ t, step s = .next t

theorem witness_EncodeThenDecode : (Instr.spiWrite 0x19 [0xF0]).wellFormed = true ∧
    (Instr.spiRead 0x84 [0x00]).wellFormed = true ∧ (Instr.calcFnum (.fin (-1 / 3) 11) (-5)).wellFormed = true ∧
    (Instr.setEq 2 [.nan, .posInf, .negInf]).wellFormed = true := by decide +kernel

theorem witness_AcceptedHeaders : ∃ r r' c, (asking 0x0000).turns = [.requester 0 true] ∧
    (asking 0x0000).reqs[0]? = some r ∧ r.task = none ∧ fetch r = some (c, r') ∧ ∀ i, decodeCommand c ≠ .ok i :=
  ⟨_, _, _, rfl, rfl, rfl, rfl, fun i h => by cases h⟩

theorem witness_StreamCommandBytes : (Instr.spiWrite 0x19 [0xF0]).wellFormed = true ∧
    (Instr.spiWrite 0x07 (List.replicate 65535 0)).wellFormed = true ∧ (Instr.spiRead 0x80 [0x00]).wellFormed = true :=
  ⟨rfl, by rw [Instr.wellFormed, List.length_replicate]; decide, rfl⟩

theorem witness_FrameBytes : ([] : List Byte).length ≤ 65535 ∧ (List.replicate 65535 (0 : Byte)).length ≤ 65535 :=
  ⟨by decide, List.length_replicate.le⟩

theorem witness_StepRunsDecoded :
    (∃ r r' c i, (asking 0x7000).reqs[0]? = some r ∧ r.task = none ∧ fetch r = some (c, r') ∧ decodeCommand c = .ok i) ∧
    (∃ r : Requester, ∃ c more, r.unit = none ∧ r.inbox = .op c :: more) ∧ (∃ r : Requester, r.unit = none) ∧
    ∃ i left, (streaming [0x87]).turns = [.bridge [0xAA, 0x5A]] ∧
      decodeStream (streaming [0x87]).bridge.stream = .ok (i, left) :=
  ⟨⟨_, _, _, _, rfl, rfl, rfl, rfl⟩, ⟨{ inbox := [.op { header := 0x7000 }] }, _, _, rfl, rfl⟩, ⟨{}, rfl⟩,
    ⟨_, _, rfl, rfl⟩⟩

theorem witness_StepContinues :
    (∃ r t, (busy [.release] receiving).reqs[0]? = some r ∧ r.task = some t) ∧
    receiving.turns = [.environment [0xAA, 0x5A]] ∧ rig.turns = [] := ⟨⟨_, _, rfl, rfl⟩, rfl, rfl⟩

theorem witness_ChipMap : popcount 0x1F ≤ 5 ∧ (pinsOf 0x1F)[0]? = some 0 ∧ (pinsOf 0x1F)[4]? = some 4 ∧
    mapLookup (buildCsmap 0x1F) 0x11 = some 0x11 ∧ popcount 0 ≤ 5 := by decide +kernel

/-- What the invariants need of a state after reset stands in one that asks, streams or receives. -/
theorem inv_of_reset {s : State} (h : { State.reset with target := 1, targetPins := 0x08 } = { s with
    turns := [], reqs := rig.reqs, bridge := rig.bridge }) (hr : s.reqs.length = 2) (hb : WholeCommands s.bridge.stream) :
    Inv s where
  tones := by
    have hx : s.x = State.reset.x := (congrArg State.x h).symm
    unfold TonesInRange
    rw [hx]
    refine fun t => ⟨fun f => ?_, fun k f => ?_⟩ <;> cases f <;>
      simp [State.reset, State.resetWith, ToneSlot.number, Operator.number, ToneField.top, OpField.top]
  table := by
    have ht := congrArg State.fnumTable h
    have hc := congrArg State.cfg h
    simp only at ht hc
    rw [← ht, ← hc]; rfl
  map := by
    have ht := congrArg State.csmap h
    have hc := congrArg State.cfg h
    simp only at ht hc
    rw [← ht, ← hc]; rfl
  target := by
    have hm := congrArg State.csmap h
    have ht := congrArg State.target h
    have hp := congrArg State.targetPins h
    simp only at hm ht hp
    rw [← hm, ← ht, ← hp]; decide +kernel
  saved := by
    have hs := congrArg State.savedTarget h
    simp only at hs
    rw [← hs]; simp [State.reset, State.resetWith]
  lock := fun _ => (congrArg State.owner h).symm
  requesters := by
    have hc := congrArg State.cfg h
    simp only at hc
    rw [hr, ← hc]; rfl
  holder := by
    have ho := congrArg State.owner h
    simp only at ho
    rw [← ho]; simp [State.reset, State.resetWith]
  buffer := by
    have hw := congrArg State.wbuf h
    simp only at hw
    rw [← hw]; exact ⟨[], by simp, rfl⟩
  stream := hb

theorem witness_StepKeepsInv :
    (Inv (asking 0x5300) ∧ Moves (asking 0x5300)) ∧ (Inv (streaming [0x87]) ∧ Moves (streaming [0x87])) ∧
    (Inv receiving ∧ Moves receiving) :=
  ⟨⟨inv_of_reset rfl rfl ⟨[], by simp, rfl⟩, _, rfl⟩,
    ⟨inv_of_reset rfl rfl ⟨[.streamFlush], by simp [Instr.isStream, encode, Instr.wellFormed], rfl⟩, _, rfl⟩,
    ⟨inv_of_reset rfl rfl ⟨[], by simp, rfl⟩, _, rfl⟩⟩

theorem witness_StepNeverFaults : Inv (asking 0x7300) := inv_of_reset rfl rfl ⟨[], by simp, rfl⟩

theorem witness_HistoryOnlyGrows : Moves (asking 0x5300) ∧
    Moves { asking 0x5300 with disposed := true } ∧ ({ asking 0x5300 with disposed := true } : State).disposed = true :=
  ⟨⟨_, rfl⟩, ⟨_, rfl⟩, rfl⟩

theorem witness_StatusGoesToTheIssuer :
    ((asking 0x5300).turns = [.requester 0 true] ∧ Moves (asking 0x5300) ∧ (1 : Nat) ≠ 0) ∧
    ((streaming [0x87]).turns = [.bridge [0xAA, 0x5A]] ∧ Moves (streaming [0x87])) ∧
    (receiving.turns = [.environment [0xAA, 0x5A]] ∧ Moves receiving) :=
  ⟨⟨rfl, ⟨_, rfl⟩, by decide⟩, ⟨rfl, _, rfl⟩, ⟨rfl, _, rfl⟩⟩

theorem witness_BridgeStreamFollowsTrace : (asking 0x5300).turns = [.requester 0 true] ∧ Moves (asking 0x5300) :=
  ⟨rfl, _, rfl⟩

theorem flush_assigns_nothing : ¬ Instr.flush.assignsTone := by
  rintro (⟨f, t, v, h⟩ | ⟨f, t, k, v, h⟩) <;> cases f <;> cases h

theorem witness_OnlyTheirWritersWrite : (∃ t, exec .flush rig = .next t) ∧ ¬ Instr.flush.assignsTone ∧
    Instr.flush ≠ .secEnable ∧ Instr.flush ≠ .secDisable ∧ Instr.flush ≠ .dispose ∧
    ∃ t, advance (busy [.release] rig) = .next t := ⟨⟨_, rfl⟩, flush_assigns_nothing, nofun, nofun, nofun, _, rfl⟩

theorem witness_ComputationsIgnoreTransport : ∃ c, encode (.key2fnum 69) = .command c ∧ c.header.toNat < 0x5000 ∧
    rig.cfg = ({ rig with disposed := true, wbuf := [0x87] } : State).cfg :=
  ⟨_, rfl, by decide, rfl⟩

theorem witness_BinaryRounding : (XReal.ofRat (ratTwoPow 1024)).isFinite = true ∧
    (XReal.expr (.apply .sin .pi)).isFinite = true ∧ XReal.posInf.isFinite = false := ⟨rfl, rfl, rfl⟩

theorem witness_EnclosuresHold : (RealExpr.apply .sinh (.div .pi .ln2)).enclose.isSome = true ∧
    (XReal.expr (.add .pi (.neg .pi))).isFinite = true ∧ (0 : Rat) ≤ 0 := ⟨by decide +kernel, rfl, le_rfl⟩

theorem witness_FrequencyFormulas : exactRig.cfg.num = .exact ∧ (XReal.fin 440 0).canonical = true ∧
    (XReal.expr (.mul .pi .ln2)).isFinite = true := ⟨rfl, rfl, rfl⟩

theorem witness_KeyToFnum : rig.fnumTable = buildFnumTable rig.cfg.num ∧
    exactRig.fnumTable = buildFnumTable exactRig.cfg.num ∧ exactRig.cfg.num = .exact ∧
    (0 : Int) ≤ 0 ∧ (127 : Int) ≤ 127 ∧ (-1 : Int) < 0 ∧ (127 : Int) < 128 :=
  ⟨rfl, rfl, rfl, by decide, by decide, by decide, by decide⟩

theorem witness_PitchIsOneOctaveLow : exactRig.fnumTable = buildFnumTable exactRig.cfg.num ∧
    exactRig.cfg.num = .exact ∧ (0 : Int) ≤ 0 ∧ (114 : Int) ≤ 114 := ⟨rfl, rfl, by decide, by decide⟩

theorem exact_operand (v : XReal) : realOperand exactRig v = v := rfl

theorem witness_FrequencyMultiplier :
    ((realOperand exactRig (.ofRat 0)).isFinite = true ∧ 0 ≤ (XReal.ofRat 0).value ∧ (XReal.ofRat 0).value < 4) ∧
    ((realOperand exactRig (.ofRat (4 - 1 / 1024))).isFinite = true ∧
      0 ≤ (XReal.ofRat (4 - 1 / 1024)).value ∧ (XReal.ofRat (4 - 1 / 1024)).value < 4) ∧
    4 ≤ (XReal.ofRat 4).value ∧ (XReal.ofRat (-1)).value < 0 ∧ (realOperand exactRig .nan).isFinite = false := by
  simp only [exact_operand, value_ofRat]
  refine ⟨⟨rfl, ?_, ?_⟩, ⟨rfl, ?_, ?_⟩, ?_, ?_, rfl⟩ <;> norm_num

theorem witness_RateOffset : (realOperand exactRig (.ofRat 512)).isFinite = true ∧ realOperand exactRig .posInf = .posInf ∧
    realOperand exactRig .negInf = .negInf ∧ realOperand exactRig .nan = .nan := ⟨rfl, rfl, rfl, rfl⟩

theorem witness_EnvelopeTimes : (0 ≤ (15 : Int) ∧ (15 : Int) ≤ 15 ∧ 0 ≤ (0 : Int) ∧ (0 : Int) ≤ 15) ∧
    ¬ (0 ≤ (16 : Int) ∧ (16 : Int) ≤ 15 ∧ 0 ≤ (0 : Int) ∧ (0 : Int) ≤ 15) := by decide

theorem witness_CoefficientCodec :
    ((realOperand exactRig (.ofRat (8 - 1 / 2 ^ 30))).isFinite = true ∧
      -8 < (XReal.ofRat (8 - 1 / 2 ^ 30)).value ∧ (XReal.ofRat (8 - 1 / 2 ^ 30)).value < 8) ∧
    (XReal.ofRat (-8)).value ≤ -8 ∧ 8 ≤ (XReal.ofRat 8).value ∧ (realOperand exactRig .posInf).isFinite = false := by
  simp only [exact_operand, value_ofRat]
  refine ⟨⟨rfl, ?_, ?_⟩, ?_, ?_, rfl⟩ <;> norm_num

theorem witness_CoefficientRoundTrip : (0xFFFFFF : I32).toNat < 2 ^ 24 ∧ (0xFFFFFF : I32) ≠ 0x800000 ∧
    (XReal.ofRat (-1 / 10)).isFinite = true ∧ -8 < (XReal.ofRat (-1 / 10)).value ∧
    (XReal.ofRat (-1 / 10)).value < 8 := by
  refine ⟨by decide, by decide, rfl, ?_, ?_⟩ <;> rw [value_ofRat] <;> norm_num

theorem witness_CoefficientPack :
    ((List.replicate 5 (XReal.ofRat 1)).length = 5 ∧ (List.replicate 5 (XReal.ofRat 1)).map
      (fun v => encodeCoef (realOperand rig v)) = (List.replicate 5 (0x100000 : I32)).map .ok) ∧
    [XReal.ofRat 1].length ≠ 5 ∧ encodeCoef (realOperand rig .nan) = .error .rangeError := by decide +kernel

/-- Two forms of one number, both of them operands. -/
theorem two_forms : (XReal.fin 2 0).Same (.expr (.add (.base 1 0) (.base 1 0))) ∧
    XReal.fin 2 0 ≠ .expr (.add (.base 1 0) (.base 1 0)) :=
  ⟨.of_value rfl rfl (by norm_num [XReal.value, RealExpr.value]), nofun⟩

theorem witness_FilterDesigners : (LegalDesign (.ofRat 24000) (.ofRat 0) ∧ LegalDesign (.ofRat 0) .posInf ∧
    ¬ LegalDesign (.ofRat 24001) (.ofRat 1) ∧ ¬ LegalDesign (.ofRat 1000) .nan) ∧
    sectionRig.cfg = rig.cfg ∧ (XReal.fin 2 0).Same (.expr (.add (.base 1 0) (.base 1 0))) := by
  refine ⟨?_, rfl, two_forms.1⟩
  simp only [LegalDesign, value_ofRat]
  refine ⟨⟨⟨rfl, ?_, ?_⟩, .inr ⟨rfl, ?_⟩⟩, ⟨⟨rfl, ?_, ?_⟩, .inl trivial⟩, ?_, ?_⟩ <;>
    norm_num [XReal.isFinite]
  nofun

theorem witness_FilterValues : exactRig.cfg.num = .exact ∧ exactRig.cfg.filters = .cookbook ∧
    LegalDesign (.ofRat 24000) butterworth ∧ butterworth.value ≠ 0 ∧
    LegalDesign (.ofRat 1000) (.ofRat 0) ∧ 0 < (XReal.ofRat 1000).value ∧ (XReal.ofRat 1000).value < 24000 := by
  simp only [LegalDesign, butterworth, value_ofRat]
  refine ⟨rfl, rfl, ⟨⟨rfl, ?_, ?_⟩, .inr ⟨rfl, ?_⟩⟩, ?_, ⟨⟨rfl, ?_, ?_⟩, .inr ⟨rfl, ?_⟩⟩, ?_, ?_⟩ <;> norm_num

theorem witness_ToneSet : ((15 : Int) = (15 : Fin 16).val ∧ (0 : Int) ≤ 7 ∧ 7 ≤ ToneField.top .alg) ∧ (15 : Int) < 16 ∧
    ToneField.top .alg < 8 := by decide

theorem witness_OperatorSet : ((15 : Int) = (15 : Fin 16).val ∧ (3 : Int) = (3 : Fin 4).val ∧ OpField.isFlag .xof = true ∧
    (0 : Int) ≤ 63 ∧ 63 ≤ OpField.top .tl) ∧ (3 : Int) < 4 ∧ OpField.isFlag .tl = false ∧ OpField.top .tl < 64 := by decide

theorem witness_ToneReads : (15 : Int) = (15 : Fin 16).val ∧ (3 : Int) = (3 : Fin 4).val ∧ (15 : Int) < 16 ∧
    (-1 : Int) < 0 := by decide

theorem witness_Exports : ((0 : Int) ≤ 2 ∧ (2 : Int) + 7 ≤ (List.replicate 9 (0 : Byte)).length) ∧
    (0 : Int) + 30 ≤ (List.replicate 30 (0 : Byte)).length ∧
    ((0 : Int) ≤ 15 ∧ (15 : Int) ≤ 15 ∧ (0 : Int) + (1 + 30 * (15 + 1) + 4) ≤ (List.replicate 485 (0 : Byte)).length) ∧
    ((List.replicate 9 (0 : Byte)).length : Int) < 3 + 7 := by decide +kernel

theorem witness_DefaultToneBytes : rig.cfg.opLayout = defaultOpLayout ∧ rig.cfg.toneHdr = defaultToneHdr ∧
    (∀ f, (({ tl := 63, ar := 15, xof := true } : Operator).number f : Int) ≤ OpField.top f) ∧
    ∀ f, (({ alg := 7, bo := 3 } : ToneSlot).number f : Int) ≤ ToneField.top f :=
  ⟨rfl, rfl, fun f => by cases f <;> decide, fun f => by cases f <;> decide⟩

/-- The conditions on the transport that the statements tell apart. -/
theorem witness_transport : rig.disposed = false ∧ rig.targetPins ≠ 0 ∧ popcount rig.targetPins = 1 ∧ rig.accept = true ∧
    ({ rig with accept := false } : State).accept = false ∧ ({ rig with disposed := true } : State).disposed = true ∧
    State.reset.targetPins = 0 ∧ rig.cur < rig.reqs.length := by decide +kernel

/-- The bounds of a burst, inside and outside. -/
theorem witness_burst : ((1 : Int) ≤ 2 ∧ (2 : Int) ≤ 65535 ∧ (0 : Int) ≤ 1 ∧ (1 : Int) + 2 ≤ ([1, 2, 3] : List Byte).length) ∧
    (0 : Int) ≤ 0 ∧ (65535 : Int) < 65536 ∧ (-1 : Int) < 0 ∧ (([1, 2, 3] : List Byte).length : Int) < 2 + 2 := by decide

theorem witness_QueueGpio : rig.disposed = false ∧ ({ rig with disposed := true } : State).disposed = true := ⟨rfl, rfl⟩
theorem witness_QueueSpi : (rig.disposed = false ∧ rig.targetPins ≠ 0) ∧ State.reset.targetPins = 0 := by decide +kernel
theorem witness_Flush : (rig.disposed = false ∧ rig.accept = true) ∧ ({ rig with accept := false } : State).accept = false :=
  ⟨⟨rfl, rfl⟩, rfl⟩
theorem witness_SetTarget : mapLookup rig.csmap 3 = some 0x18 ∧ rig.disposed = false ∧ mapLookup rig.csmap 4 = none := by
  decide +kernel
theorem witness_TransportRead : (rig.cur < rig.reqs.length ∧ rig.disposed = false ∧ rig.accept = true ∧
    popcount rig.targetPins = 1) ∧ (State.reset.cur < State.reset.reqs.length ∧ State.reset.targetPins = 0) ∧
    (let s : State := { rig with target := 3, targetPins := 0x18 }
     s.disposed = false ∧ s.targetPins ≠ 0 ∧ popcount s.targetPins ≠ 1) := by decide +kernel
theorem witness_HardwareReset : rig.cur < rig.reqs.length ∧ rig.disposed = false ∧ rig.accept = true ∧
    ({ rig with disposed := true } : State).disposed = true := by decide +kernel
theorem witness_FailedTransfer : let s : State := { rig with accept := false }
    (s.disposed = false ∧ s.targetPins ≠ 0 ∧ s.sectionMode = false ∧ s.accept = false ∧ s.cur < s.reqs.length ∧
      popcount s.targetPins = 1) ∧
    (Instr.setFnumBlock 601 3).registerPair = some (0x0D, 0x0E) ∧ rig.sectionMode = false ∧ rig.accept = true := by
  decide +kernel

theorem rig_can_write : CanWrite rig := ⟨rfl, by decide, fun _ => rfl⟩
theorem section_can_write : CanWrite { sectionRig with accept := false } := ⟨rfl, by decide, nofun⟩

theorem witness_RegisterWrites : CanWrite rig ∧ (1 : Int) ≤ 2 ∧ (2 : Int) ≤ 65535 ∧
    (1 : Int) + 2 ≤ ([1, 2, 3] : List Byte).length ∧ (([1, 2, 3] : List Byte).length : Int) < 2 + 2 ∧
    (0 : Int) ≤ 0 ∧ ({ rig with disposed := true } : State).disposed = true :=
  ⟨rig_can_write, by decide, by decide, by decide, by decide, by decide, rfl⟩
theorem witness_CompositeWrites : CanWrite rig ∧ (15 : Int) < 16 ∧ (2 : Int) < 3 ∧
    (∃ block, packBand ([.ofRat 1, .ofRat 0, .ofRat 0, .ofRat 0, .ofRat 0].map (realOperand rig)) = .ok block) ∧
    packBand ([XReal.ofRat 1].map (realOperand rig)) = .error .rangeError :=
  ⟨rig_can_write, by decide, by decide, ⟨[0x10, 0, 0, 0, 0, 0, 0, 0, 0, 0, 0, 0, 0, 0, 0], by decide +kernel⟩, rfl⟩
theorem witness_FixedSetters : CanWrite rig ∧
    ∀ sl ∈ rig.cfg.regLayout, sl.byte ∉ [0x00, 0x01, 0x02, 0x03, 0x08, 0x1A, 0x50] := ⟨rig_can_write, by decide +kernel⟩
theorem witness_DefaultSetters : CanWrite rig ∧ rig.cfg.regLayout = defaultRegLayout := ⟨rig_can_write, rfl⟩
theorem witness_PairSetters : rig.cur < rig.reqs.length ∧ CanWrite rig ∧ rig.cfg.regLayout = defaultRegLayout :=
  ⟨by decide, rig_can_write, rfl⟩
theorem witness_RegisterRead : sectionRig.cur < sectionRig.reqs.length ∧ sectionRig.disposed = false ∧
    sectionRig.accept = true ∧ (sectionRig.sectionMode = true → sectionRig.owner = none) ∧
    mapLookup sectionRig.csmap sectionRig.target = some sectionRig.targetPins ∧
    (mapLookup sectionRig.csmap 2 = some 0x10 ∧ popcount 0x10 = 1) ∧ popcount sectionRig.targetPins = 1 ∧
    (let s : State := { rig with savedTarget := some 3 }
     s.savedTarget.getD s.target = 3 ∧ mapLookup s.csmap 3 = some 0x18) := by decide +kernel
theorem witness_ReadRefusals :
    (({ sectionRig with owner := some 0 } : State).owner = some sectionRig.cur ∧ sectionRig.cur < sectionRig.reqs.length) ∧
    (sectionRig.owner = none ∧ mapLookup sectionRig.csmap sectionRig.target = some sectionRig.targetPins ∧
      mapLookup sectionRig.csmap 4 = none) ∧
    (let s : State := { rig with target := 3, targetPins := 0x18, savedTarget := some 2 }
     s.sectionMode = false ∧ mapLookup s.csmap s.target = some s.targetPins ∧ s.savedTarget.getD s.target = 2 ∧
     mapLookup s.csmap 2 = some 0x10 ∧ s.disposed = false ∧ s.targetPins ≠ 0 ∧ popcount s.targetPins ≠ 1) ∧
    (let s : State := { sectionRig with target := 0, targetPins := 0 }
     s.targetPins = 0 ∧ mapLookup s.csmap s.target = some s.targetPins ∧ s.cfg.resetSeq[0] ≠ []) := by decide +kernel
theorem witness_SoftwareReset : sectionRig.cur < sectionRig.reqs.length ∧ sectionRig.disposed = false ∧
    sectionRig.targetPins ≠ 0 ∧ sectionRig.accept = true ∧ sectionRig.savedTarget = none ∧
    (sectionRig.sectionMode = true → sectionRig.owner = none) := by decide +kernel
theorem witness_SectionBegin : sectionRig.cur < sectionRig.reqs.length ∧
    (sectionRig.sectionMode = true → sectionRig.owner = none) ∧ mapLookup sectionRig.csmap 2 = some 0x10 ∧
    mapLookup sectionRig.csmap 4 = none ∧ ({ sectionRig with owner := some 0 } : State).owner = some sectionRig.cur := by
  decide +kernel
theorem witness_HeldSteps :
    (∃ t, myTask (busy [.acquire 2] { sectionRig with owner := some 1 }) = some t ∧ t.steps = [.acquire 2]) ∧
    (∃ t, myTask (busy [.readTake] rig) = some t ∧ t.steps = [.readTake] ∧ rig.rxq.length < 2) ∧
    ∃ t, myTask (busy [.regTake 0x0D] rig) = some t ∧ t.steps = [.regTake 0x0D] :=
  ⟨⟨_, rfl, rfl⟩, ⟨_, rfl, rfl, by decide⟩, ⟨_, rfl, rfl⟩⟩
theorem witness_SectionEnd :
    (let s : State := { sectionRig with owner := some 0, savedTarget := some 2 }
     s.cur < s.reqs.length ∧ (s.sectionMode = true → s.owner = some s.cur) ∧ s.disposed = false ∧ s.accept = true ∧
     mapLookup s.csmap 2 = some 0x10) ∧
    (sectionRig.sectionMode = true ∧ sectionRig.owner ≠ some sectionRig.cur) ∧
    (rig.sectionMode = true → rig.owner = some rig.cur) := by decide +kernel
theorem witness_SectionUnits :
    (∃ r : Requester, ∃ body more, r.unit = none ∧ r.inbox = .unit 1 5 body :: more) ∧
    (∃ r : Requester, ∃ u c cs, r.unit = some u ∧ u.rest = c :: cs) ∧
    (∃ r : Requester, ∃ u, r.unit = some u ∧ r.task = none ∧ r.response = some ⟨.rangeError, []⟩ ∧ u.acquired = true) ∧
    (let s : State := { sectionRig with reqs := [{ unit := some { rest := [secEndCommand 5] } }, {}] }
     ∃ r u, s.reqs[s.cur]? = some r ∧ r.unit = some u ∧ s.sectionMode = true ∧ s.owner = none ∧
       ({ s with owner := some 0 } : State).owner = some s.cur) :=
  ⟨⟨{ inbox := [.unit 1 5 []] }, _, _, rfl, rfl⟩, ⟨{ unit := some { rest := [secEndCommand 5] } }, _, _, _, rfl, rfl⟩,
    ⟨{ unit := some { rest := [], acquired := true }, response := some ⟨.rangeError, []⟩ }, _, rfl, rfl, rfl, rfl⟩,
    ⟨_, _, rfl, rfl, rfl, rfl, rfl⟩⟩
theorem witness_RefusedWrites : (({ rig with disposed := true } : State).disposed = true ∧ rig.cur < rig.reqs.length) ∧
    (State.reset.targetPins = 0 ∧ State.reset.cur < State.reset.reqs.length) ∧
    (∃ c, encode (.setClke true) = .command c ∧ c.header.extractLsb' 8 8 = 0x68#8) :=
  ⟨by decide +kernel, by decide +kernel, _, rfl, rfl⟩

end Sys2Proof.Tests
end

section
/-!
PROOFS. The time tables of spec/40_freq.md: ATK_TIME (R137) and ENV_TIME (R138).
-/
namespace Sys2Proof.Machine

/-! ### Operations that compute a result -/

/-- An operation that answers with values ends at once and changes nothing else (R130). -/
theorem endsAtOnce_answer_ok {i : Instr} {s : State} {values : List Value} (h : exec i s = answer (.ok values) s) :
    EndsAtOnce i s .ok values s.block [] :=
  ⟨respond .ok values s, h, ends_unchanged s .ok values⟩

/-- An operation that answers with an error ends at once with no value and changes nothing else (R320). -/
theorem endsAtOnce_answer_error {i : Instr} {s : State} {e : Status} (h : exec i s = answer (.error e) s) :
    EndsAtOnce i s e [] s.block [] :=
  ⟨respond e [] s, h, by simpa using ends_unchanged s e []⟩

theorem inRange_eq_true_iff (v lo hi : Int) : inRange v lo hi = true ↔ lo ≤ v ∧ v ≤ hi := by
  simp [inRange]

/-! ### The table entries -/

theorem attackTime_of_lt {k : Nat} (h : k < 4) : attackTime k = .posInf := if_pos h

theorem attackTime_isFinite_or_posInf (k : Nat) : (attackTime k).isFinite = true ∨ attackTime k = .posInf := by
  by_cases hk : k < 4
  · exact .inr (attackTime_of_lt hk)
  · cases he : Config.attackTime k with
    | none => exact .inr (by simp [attackTime, he])
    | some e => exact .inl (by simp [attackTime, hk, he, XReal.isFinite])

theorem envelopeTime_isFinite (k : Nat) : (envelopeTime k).isFinite = true := rfl

/-! ### The index of an entry -/

/-- The operands both time tables take (R137, R138). -/
def LegalTimeOperands (rate rof : Int) : Prop := 0 ≤ rate ∧ rate ≤ 15 ∧ 0 ≤ rof ∧ rof ≤ 15

theorem timeEntry_check_iff (rate rof : Int) :
    (inRange rate 0 15 && inRange rof 0 15) = true ↔ LegalTimeOperands rate rof := by
  simp only [Bool.and_eq_true, inRange_eq_true_iff, LegalTimeOperands, and_assoc]

/-- The model's index, computed on naturals, is the spec's, computed on integers. -/
theorem timeEntry_of_legal {rate rof : Int} (h : LegalTimeOperands rate rof) :
    timeEntry rate rof = .ok (min (rate * 4 + rof) 64).toNat := by
  have hindex : min (rate.toNat * 4 + rof.toNat) 64 = (min (rate * 4 + rof) 64).toNat := by
    obtain ⟨hrate, -, hrof, -⟩ := h
    omega
  rw [timeEntry, if_pos ((timeEntry_check_iff rate rof).mpr h), hindex]

theorem timeEntry_of_not_legal {rate rof : Int} (h : ¬ LegalTimeOperands rate rof) :
    timeEntry rate rof = .error .rangeError :=
  if_neg (mt (timeEntry_check_iff rate rof).mp h)

/-! ### Reading a table -/

/-- `i` reads `table` at the index of its operands and answers with the entry (R137, R138). -/
def ReadsTimeTable (i : Instr) (table : Nat → XReal) (rate rof : Int) : Prop :=
  ∀ s, exec i s = answer ((timeEntry rate rof).map fun k => [.real (table k)]) s

theorem readsTimeTable_atkTime (rate rof : Int) : ReadsTimeTable (.atkTime rate rof) attackTime rate rof :=
  fun _ => rfl

theorem readsTimeTable_envTime (rate rof : Int) : ReadsTimeTable (.envTime rate rof) envelopeTime rate rof :=
  fun _ => rfl

theorem ReadsTimeTable.endsAtOnce_ok {i : Instr} {table : Nat → XReal} {rate rof : Int}
    (hi : ReadsTimeTable i table rate rof) (h : LegalTimeOperands rate rof) (s : State) :
    EndsAtOnce i s .ok [.real (table (min (rate * 4 + rof) 64).toNat)] s.block [] :=
  endsAtOnce_answer_ok (by rw [hi, timeEntry_of_legal h]; rfl)

theorem ReadsTimeTable.endsAtOnce_rangeError {i : Instr} {table : Nat → XReal} {rate rof : Int}
    (hi : ReadsTimeTable i table rate rof) (h : ¬ LegalTimeOperands rate rof) (s : State) :
    EndsAtOnce i s .rangeError [] s.block [] :=
  endsAtOnce_answer_error (by rw [hi, timeEntry_of_not_legal h]; rfl)

/-- Settles O26: the two tables are `attackTime` and `envelopeTime`, and both operations are the one table read. -/
theorem envelopeTimes : Obligations.EnvelopeTimes := by
  unfold Obligations.EnvelopeTimes
  refine ⟨attackTime, envelopeTime, fun _ => attackTime_of_lt, attackTime_isFinite_or_posInf, envelopeTime_isFinite,
    fun s rate rof => ?_⟩
  have hatk := readsTimeTable_atkTime rate rof
  have henv := readsTimeTable_envTime rate rof
  refine ⟨⟨_, rfl⟩, ⟨_, rfl⟩, fun h => ?_, fun h => ?_⟩
  · exact ⟨hatk.endsAtOnce_ok h s, henv.endsAtOnce_ok h s⟩
  · exact ⟨hatk.endsAtOnce_rangeError h s, henv.endsAtOnce_rangeError h s⟩

end Sys2Proof.Machine
end

section
/-!
PROOFS. The queueing of spec/43_transport.md: Q_GPIO (R223).
-/
namespace Sys2Proof.Machine

/-! ### Queued bytes -/

theorem emit_block (bytes : List Byte) (s : State) :
    (emit bytes s).block = { s.block with wbuf := s.wbuf ++ bytes } := rfl

/-- An operation that ends after queueing bytes has only made the write buffer longer: none of them is sent (R14). -/
theorem ends_emit (bytes : List Byte) (s : State) :
    Ends s (respond .ok [] (emit bytes s)) .ok [] { s.block with wbuf := s.wbuf ++ bytes } [] :=
  ends_respond .ok [] (emit_block bytes s) (by simp) rfl rfl rfl rfl rfl rfl

/-! ### Q_GPIO -/

theorem exec_qGpio_of_not_disposed {s : State} (h : s.disposed = false) (high : Bool) (value direction : Byte) :
    exec (.qGpio high value direction) s = .next (respond .ok [] (emit [gpioOp high, value, direction] s)) := by
  change execQGpio high value direction s = _
  simp [execQGpio, h, complete]

theorem exec_qGpio_of_disposed {s : State} (h : s.disposed = true) (high : Bool) (value direction : Byte) :
    exec (.qGpio high value direction) s = .next (respond .communicationError [] s) := by
  change execQGpio high value direction s = _
  simp [execQGpio, h, complete]

/-- Settles O38: the disposed flag selects the outcome, the queued command or the refusal that changes nothing. -/
theorem queueGpio : Obligations.QueueGpio := by
  unfold Obligations.QueueGpio
  intro s high value direction
  refine ⟨⟨_, rfl⟩, fun live => ?_, fun disposed => ?_⟩
  · exact ⟨_, exec_qGpio_of_not_disposed live high value direction, ends_emit [gpioOp high, value, direction] s⟩
  · exact ⟨_, exec_qGpio_of_disposed disposed high value direction, ends_unchanged s .communicationError []⟩

end Sys2Proof.Machine
end

section
/-!
PROOFS. The register setters of spec/44_register.md: one data byte built from the layout and one write of it (R256, R284), and
the setters of the registers whose places are no parameter (R259 to R262, R264, R278, R283).
-/
namespace Sys2Proof

/-! ### Packing a byte -/

/-- A slice contributes the operand's pattern, masked and then shifted (R116). -/
theorem Slice.bits_toNat {α : Type} {sl : Slice α} (hwidth : sl.width ≤ 32) (v : I32) :
    sl.bits v.toNat = ((v >>> sl.src &&& BitVec.ofNat 32 (2 ^ sl.width - 1)) <<< sl.pos).setWidth 8 := by
  have hmask : 2 ^ sl.width - 1 < 2 ^ 32 := by
    have := Nat.pow_le_pow_right (n := 2) (by decide) hwidth
    omega
  have hmasked : (v.toNat >>> sl.src) % 2 ^ sl.width = (v >>> sl.src &&& BitVec.ofNat 32 (2 ^ sl.width - 1)).toNat := by
    rw [BitVec.toNat_and, BitVec.toNat_ushiftRight, BitVec.toNat_ofNat, Nat.mod_eq_of_lt hmask,
      Nat.and_two_pow_sub_one_eq_mod]
  apply BitVec.eq_of_toNat_eq
  rw [Slice.bits, hmasked, BitVec.toNat_ofNat, BitVec.toNat_setWidth, BitVec.toNat_shiftLeft,
    Nat.mod_mod_of_dvd _ (by decide)]

/-- The slices of other bytes do not matter. -/
theorem packByte_eq_foldl_filter {α : Type} (layout : List (Slice α)) (value : α → Nat) (j : Nat) :
    packByte layout value j =
      (layout.filter fun sl => sl.byte = j).foldl (fun b sl => b ||| sl.bits (value sl.field)) 0 := by
  simp [packByte, List.foldl_filter]

theorem packByte_of_filter_eq_singleton {α : Type} {layout : List (Slice α)} {j : Nat} {sl : Slice α}
    (h : (layout.filter fun x => x.byte = j) = [sl]) (value : α → Nat) :
    packByte layout value j = sl.bits (value sl.field) := by
  simp [packByte_eq_foldl_filter, h]

end Sys2Proof

namespace Sys2Proof.Machine

theorem fieldOperand_singleton (f : RegField) (v : I32) : fieldOperand [(f, v)] f = v.toNat := by
  simp [fieldOperand]

/-! ### The fixed registers -/

/-- Each fixed register has one field (R284). -/
theorem fixedRegLayout_filter_byte :
    ∀ sl ∈ fixedRegLayout, (fixedRegLayout.filter fun x => x.byte = sl.byte) = [sl] := by decide

/-- REGLAYOUT places nothing in a fixed register (R284). -/
def LeavesFixedRegisters (s : State) : Prop := ∀ sl ∈ s.cfg.regLayout, sl.byte ∉ fixedRegLayout.map Slice.byte

theorem regLayout_filter_of_fixed_field {s : State} (hfree : LeavesFixedRegisters s) {sl : Slice RegField}
    (hsl : sl ∈ fixedRegLayout) : ((regLayout s).filter fun x => x.byte = sl.byte) = [sl] := by
  have hnone : (s.cfg.regLayout.filter fun x => x.byte = sl.byte) = [] := by
    simp only [List.filter_eq_nil_iff, decide_eq_true_eq]
    intro x hx hbyte
    exact hfree x hx (hbyte ▸ List.mem_map_of_mem hsl)
  rw [regLayout, List.filter_append, hnone, List.append_nil, fixedRegLayout_filter_byte sl hsl]

/-- The data byte of a fixed register is its one field's bits. -/
theorem regByte_of_fixed_field {s : State} (hfree : LeavesFixedRegisters s) {sl : Slice RegField} (hsl : sl ∈ fixedRegLayout)
    {addr : Byte} (haddr : addr.toNat = sl.byte) (v : I32) : regByte s addr [(sl.field, v)] = sl.bits v.toNat := by
  rw [regByte, haddr, packByte_of_filter_eq_singleton (regLayout_filter_of_fixed_field hfree hsl), fieldOperand_singleton]

/-! ### Setters of one register -/

/-- A setter that can write makes one write of the byte its operands pack to (R250, R256). -/
theorem setsRegister_of_exec {i : Instr} {s : State} (hw : CanWrite s) {addr : Byte} {args : List (RegField × I32)}
    (hexec : exec i s = setReg addr args s) : SetsRegister i addr (regByte s addr args) s := by
  obtain ⟨hcfg, hturns, hcur, haccept, hreply, hreqs⟩ := wrote_rest addr [regByte s addr args] s
  refine ⟨respond .ok [] (wrote addr [regByte s addr args] s), ?_, ?_⟩
  · rw [hexec, setReg, drvWrite_done hw, complete]
  · exact ends_respond .ok [] (wrote_block _ _ s) (wrote_bridge _ _ s) hcfg hturns hcur haccept hreply hreqs

theorem setsRegister_of_fixed_field {i : Instr} {s : State} (hw : CanWrite s) (hfree : LeavesFixedRegisters s)
    {sl : Slice RegField} (hsl : sl ∈ fixedRegLayout) {addr : Byte} (haddr : addr.toNat = sl.byte) {v : I32}
    (hexec : exec i s = setReg addr [(sl.field, v)] s) : SetsRegister i addr (sl.bits v.toNat) s :=
  regByte_of_fixed_field hfree hsl haddr v ▸ setsRegister_of_exec hw hexec

/-- Where the field starts at bit 0, on both sides, the mask alone remains of R116's "mask, then shift". -/
theorem setsRegister_masked_of_fixed_field {i : Instr} {s : State} (hw : CanWrite s) (hfree : LeavesFixedRegisters s)
    {f : RegField} {width a : Nat} (hsl : ⟨f, 0, width, a, 0⟩ ∈ fixedRegLayout) (hwidth : width ≤ 32) {addr : Byte}
    (haddr : addr.toNat = a) {v : I32} (hexec : exec i s = setReg addr [(f, v)] s) :
    SetsRegister i addr ((v &&& BitVec.ofNat 32 (2 ^ width - 1)).setWidth 8) s := by
  have h := setsRegister_of_fixed_field hw hfree hsl haddr hexec
  rw [Slice.bits_toNat hwidth] at h
  simpa using h

/-- Settles O48: each of these registers holds one field, whatever REGLAYOUT adds elsewhere. A flag is a 1-bit field, so its
byte is found by evaluating the two cases. -/
theorem fixedSetters : Obligations.FixedSetters := by
  unfold Obligations.FixedSetters
  intro s hw hregs
  have hfree : LeavesFixedRegisters s := hregs
  refine ⟨fun e => ?clke, fun e => ?alrst, fun v => ?apd, fun v => ?gain, fun v => ?seq, fun v => ?softreset,
    fun v => ?test⟩
  case clke =>
    have h : SetsRegister (.setClke e) 0x00 (Slice.bits ⟨RegField.clke, 0, 1, 0x00, 0⟩ (flagBit e).toNat) s :=
      setsRegister_of_fixed_field hw hfree (by decide) rfl rfl
    cases e <;> exact h
  case alrst =>
    have h : SetsRegister (.setAlrst e) 0x01 (Slice.bits ⟨RegField.alrst, 0, 1, 0x01, 7⟩ (flagBit e).toNat) s :=
      setsRegister_of_fixed_field hw hfree (by decide) rfl rfl
    cases e <;> exact h
  case apd => exact setsRegister_masked_of_fixed_field (f := .analog) (width := 4) hw hfree (by decide) (by decide) rfl rfl
  case gain => exact setsRegister_masked_of_fixed_field (f := .gain) (width := 2) hw hfree (by decide) (by decide) rfl rfl
  case seq =>
    exact setsRegister_masked_of_fixed_field (f := .seqSetting) (width := 8) hw hfree (by decide) (by decide) rfl rfl
  case softreset =>
    exact setsRegister_masked_of_fixed_field (f := .softReset) (width := 8) hw hfree (by decide) (by decide) rfl rfl
  case test => exact setsRegister_masked_of_fixed_field (f := .test) (width := 8) hw hfree (by decide) (by decide) rfl rfl

end Sys2Proof.Machine
end

section
/-!
PROOFS. The encodings of spec/30_encoding.md: the round trip (R91 to R95, R100 to R103), the accepted headers (R93, R120), the
bytes of the stream commands (R100 to R106) and of the frames (R104, R224).
-/
namespace Sys2Proof.Laws

/-- Each instruction comes back by the round trip of its own row. -/
theorem roundTrip : ∀ i : Instr, RoundTrip.Statement i
  | .calcFnum freqHz block => RoundTrip.calcFnum freqHz block
  | .calcFreq fnum block => RoundTrip.calcFreq fnum block
  | .key2fnum key => RoundTrip.key2fnum key
  | .convFmult m => RoundTrip.convFmult m
  | .calcRof ksr block basicOctave fnum => RoundTrip.calcRof ksr block basicOctave fnum
  | .atkTime rate rof => RoundTrip.atkTime rate rof
  | .envTime rate rof => RoundTrip.envTime rate rof
  | .ceqEnc v => RoundTrip.ceqEnc v
  | .ceqDec w => RoundTrip.ceqDec w
  | .ceqPack coefficients => RoundTrip.ceqPack coefficients
  | .fltLowpass cutoff q => RoundTrip.fltLowpass cutoff q
  | .fltHighpass cutoff q => RoundTrip.fltHighpass cutoff q
  | .fltBandpass cutoff bandwidth => RoundTrip.fltBandpass cutoff bandwidth
  | .fltBandstop cutoff bandwidth => RoundTrip.fltBandstop cutoff bandwidth
  | .fltLowshelf cutoff q gain => RoundTrip.fltLowshelf cutoff q gain
  | .fltHighshelf cutoff q gain => RoundTrip.fltHighshelf cutoff q gain
  | .fltPeaking cutoff bandwidth gain => RoundTrip.fltPeaking cutoff bandwidth gain
  | .fltAllpass cutoff q => RoundTrip.fltAllpass cutoff q
  | .toneSetBo slot value => RoundTrip.toneSetBo slot value
  | .toneSetLfo slot value => RoundTrip.toneSetLfo slot value
  | .toneSetAlg slot value => RoundTrip.toneSetAlg slot value
  | .opSetSr slot k value => RoundTrip.opSetSr slot k value
  | .opSetRr slot k value => RoundTrip.opSetRr slot k value
  | .opSetDr slot k value => RoundTrip.opSetDr slot k value
  | .opSetAr slot k value => RoundTrip.opSetAr slot k value
  | .opSetSl slot k value => RoundTrip.opSetSl slot k value
  | .opSetTl slot k value => RoundTrip.opSetTl slot k value
  | .opSetKsl slot k value => RoundTrip.opSetKsl slot k value
  | .opSetDam slot k value => RoundTrip.opSetDam slot k value
  | .opSetDvb slot k value => RoundTrip.opSetDvb slot k value
  | .opSetMulti slot k value => RoundTrip.opSetMulti slot k value
  | .opSetDt slot k value => RoundTrip.opSetDt slot k value
  | .opSetWs slot k value => RoundTrip.opSetWs slot k value
  | .opSetFb slot k value => RoundTrip.opSetFb slot k value
  | .opSetXof slot k value => RoundTrip.opSetXof slot k value
  | .opSetKsr slot k value => RoundTrip.opSetKsr slot k value
  | .opSetEam slot k value => RoundTrip.opSetEam slot k value
  | .opSetEvb slot k value => RoundTrip.opSetEvb slot k value
  | .toneGetBo slot => RoundTrip.toneGetBo slot
  | .toneGetLfo slot => RoundTrip.toneGetLfo slot
  | .toneGetAlg slot => RoundTrip.toneGetAlg slot
  | .opGetSr slot k => RoundTrip.opGetSr slot k
  | .opGetRr slot k => RoundTrip.opGetRr slot k
  | .opGetDr slot k => RoundTrip.opGetDr slot k
  | .opGetAr slot k => RoundTrip.opGetAr slot k
  | .opGetSl slot k => RoundTrip.opGetSl slot k
  | .opGetTl slot k => RoundTrip.opGetTl slot k
  | .opGetKsl slot k => RoundTrip.opGetKsl slot k
  | .opGetDam slot k => RoundTrip.opGetDam slot k
  | .opGetDvb slot k => RoundTrip.opGetDvb slot k
  | .opGetMulti slot k => RoundTrip.opGetMulti slot k
  | .opGetDt slot k => RoundTrip.opGetDt slot k
  | .opGetWs slot k => RoundTrip.opGetWs slot k
  | .opGetFb slot k => RoundTrip.opGetFb slot k
  | .opGetXof slot k => RoundTrip.opGetXof slot k
  | .opGetKsr slot k => RoundTrip.opGetKsr slot k
  | .opGetEam slot k => RoundTrip.opGetEam slot k
  | .opGetEvb slot k => RoundTrip.opGetEvb slot k
  | .opExport slot k buffer offset => RoundTrip.opExport slot k buffer offset
  | .toneExport slot buffer offset => RoundTrip.toneExport slot buffer offset
  | .collExport buffer offset tone => RoundTrip.collExport buffer offset tone
  | .qGpio highBank value direction => RoundTrip.qGpio highBank value direction
  | .qSpiWrite addr data => RoundTrip.qSpiWrite addr data
  | .qSpiBurst addr data offset count => RoundTrip.qSpiBurst addr data offset count
  | .flush => RoundTrip.flush
  | .tRead addr => RoundTrip.tRead addr
  | .hwReset => RoundTrip.hwReset
  | .dispose => RoundTrip.dispose
  | .setTarget chip => RoundTrip.setTarget chip
  | .write addr data => RoundTrip.write addr data
  | .burstWrite addr data offset count => RoundTrip.burstWrite addr data offset count
  | .read addr target => RoundTrip.read addr target
  | .writeContents tone => RoundTrip.writeContents tone
  | .setEq band coeffs => RoundTrip.setEq band coeffs
  | .swReset => RoundTrip.swReset
  | .setClke enable => RoundTrip.setClke enable
  | .setAlrst reset => RoundTrip.setAlrst reset
  | .setApd blocks => RoundTrip.setApd blocks
  | .setGain gain => RoundTrip.setGain gain
  | .setSeq setting => RoundTrip.setSeq setting
  | .setSeqvolSize volume dirSv size => RoundTrip.setSeqvolSize volume dirSv size
  | .setVoiceNum voice => RoundTrip.setVoiceNum voice
  | .setVoiceVol volume => RoundTrip.setVoiceVol volume
  | .setFnumBlock fnum block => RoundTrip.setFnumBlock fnum block
  | .setToneCtrl keyOn mute egReset tone => RoundTrip.setToneCtrl keyOn mute egReset tone
  | .setChVol volume dirCv => RoundTrip.setChVol volume dirCv
  | .setVib depth => RoundTrip.setVib depth
  | .setFmult integer fraction => RoundTrip.setFmult integer fraction
  | .setMuteItp dirMt => RoundTrip.setMuteItp dirMt
  | .setSeqTime unit => RoundTrip.setSeqTime unit
  | .setMasterVol volume => RoundTrip.setMasterVol volume
  | .setSoftreset value => RoundTrip.setSoftreset value
  | .setVolItp dadjt muteItime chvolItime masterItime => RoundTrip.setVolItp dadjt muteItime chvolItime masterItime
  | .setLfoRst reset => RoundTrip.setLfoRst reset
  | .setDrvSel select => RoundTrip.setDrvSel select
  | .setTest value => RoundTrip.setTest value
  | .regget sub target => RoundTrip.regget sub target
  | .secEnable => RoundTrip.secEnable
  | .secDisable => RoundTrip.secDisable
  | .secBegin target => RoundTrip.secBegin target
  | .secEnd ms => RoundTrip.secEnd ms
  | .gpioLow value direction => RoundTrip.gpioLow value direction
  | .gpioHigh value direction => RoundTrip.gpioHigh value direction
  | .spiWrite addr data => RoundTrip.spiWrite addr data
  | .spiRead addr payload => RoundTrip.spiRead addr payload
  | .streamFlush => RoundTrip.streamFlush

/-- Settles O1: the round trip of each instruction, said once for all of them. -/
theorem encodeThenDecode : Obligations.EncodeThenDecode := roundTrip

/-- Settles O2: each of the words is the encoding of the operation it decodes to. -/
theorem knownWordsDecode : Obligations.KnownWordsDecode := by
  unfold Obligations.KnownWordsDecode
  exact ⟨RoundTrip.key2fnum 69 rfl, RoundTrip.ceqDec 0x900000 rfl, RoundTrip.opSetAr 0 0 15 rfl, RoundTrip.setTarget 3 rfl,
    RoundTrip.setMasterVol 60 rfl, RoundTrip.regget 0x04 1 rfl, RoundTrip.secEnd 1 rfl,
    RoundTrip.gpioLow 0x18 0x1B rfl [0x87], RoundTrip.spiWrite 0x19 [0xF0] rfl [0x80],
    RoundTrip.spiRead 0x84 [0x00] rfl []⟩

/-! ### The headers that are accepted -/

/-- The high byte of a header, read in either of two ways (R91). -/
theorem shiftRight_eight_eq_iff (h : Header) : h >>> 8 = 0x69 ↔ h.extractLsb' 8 8 = 0x69#8 := by
  have hlt : h.toNat >>> 8 < 256 := by
    have := h.isLt
    rw [Nat.shiftRight_eq_div_pow]
    omega
  rw [← BitVec.toNat_inj, ← BitVec.toNat_inj, BitVec.toNat_ushiftRight, BitVec.extractLsb'_toNat, Nat.mod_eq_of_lt hlt]
  rfl

/-- A header selects an operation if it is one of REGGET or the header of a row (R93, R95). -/
theorem decodeCommand_isOk_iff (c : Command) : (∃ i, decodeCommand c = .ok i) ↔
    c.header.extractLsb' 8 8 = 0x69#8 ∨ c.header ∈ commandRows.map Prod.fst := by
  rw [← shiftRight_eight_eq_iff, decodeCommand]
  by_cases hreg : c.header >>> 8 = 0x69
  · simp [hreg]
  · rw [if_neg hreg, or_iff_right hreg]
    cases hrow : commandRows.find? (fun row => row.1 == c.header) with
    | none =>
      have hnone : ∀ row ∈ commandRows, row.1 ≠ c.header := by simpa using hrow
      simpa using fun f hmem => hnone _ hmem rfl
    | some row =>
      have hheader : row.1 = c.header := by simpa using List.find?_some hrow
      have hmem := List.mem_map_of_mem (f := Prod.fst) (List.mem_of_find?_eq_some hrow)
      exact iff_of_true ⟨_, rfl⟩ (hheader ▸ hmem)

end Sys2Proof.Laws

namespace Sys2Proof.Machine

open Laws

section
variable {s : State} {q : Nat} {accept : Bool} {rest : List Turn} {r r' : Requester} {c : Command}
  (hturn : s.turns = .requester q accept :: rest) (hr : s.reqs[q]? = some r) (htask : r.task = none)
  (hfetch : fetch r = some (c, r'))
include hturn hr htask hfetch

/-- A requester with no operation in progress presents the next one it asks for (R310). -/
theorem step_of_decodeCommand_ok {i : Instr} (hdecode : decodeCommand c = .ok i) : step s =
    afterOperation (exec i (present r' { s with turns := rest, cur := q, accept := accept })) := by
  simp only [step, hturn, requesterTurn, me, hr, htask, hfetch, hdecode]

theorem step_of_decodeCommand_error {e : DecodeError} (hdecode : decodeCommand c = .error e) :
    step s = .refused (.undefinedHeader c.header) := by
  simp only [step, hturn, requesterTurn, me, hr, htask, hfetch, hdecode]

end

/-- Settles O3: the rows of the table are the headers of R93 with R94 and R95, and a turn looks the header up there. -/
theorem acceptedHeaders : Obligations.AcceptedHeaders := by
  unfold Obligations.AcceptedHeaders
  refine ⟨decodeCommand_isOk_iff, ?_, rfl, rfl, rfl, rfl⟩
  intro s q accept rest r r' c hturn hr htask hfetch hundefined
  cases hdecode : decodeCommand c with
  | ok i => exact absurd hdecode (hundefined i)
  | error e => exact ⟨step_of_decodeCommand_error hturn hr htask hfetch hdecode, rfl⟩

/-- Settles O4: the length field is the one of `lenField_eq`, and a read carries one byte. -/
theorem streamCommandBytes : Obligations.StreamCommandBytes := by
  unfold Obligations.StreamCommandBytes
  refine ⟨fun _ _ => rfl, fun _ _ => rfl, fun addr data hw => ?_, fun addr payload hw => ?_, rfl⟩
  · simp only [Instr.wellFormed, Bool.and_eq_true, decide_eq_true_eq] at hw
    obtain ⟨lo, hi, hfield, hlo, hhi⟩ := lenField_eq hw.2
    exact ⟨lo, hi, by simp [encode, hfield], hlo, hhi, by omega⟩
  · simp only [Instr.wellFormed, Bool.and_eq_true, beq_iff_eq] at hw
    obtain ⟨hbit, rfl⟩ := hw
    have hset : ∀ a : Byte, a.getLsbD 7 = true → a ||| 0x80 = a := by decide
    exact ⟨rfl, hset addr hbit⟩

/-! ### Frames -/

theorem writeFrame_length (addr : Byte) (data : List Byte) (s : State) :
    (writeFrame addr data s).length = 10 + data.length := by
  simp [writeFrame, csEnable, csDisable, lenField]
  omega

/-- Settles O5: the frames written out, with the length field of `lenField_eq`. -/
theorem frameBytes : Obligations.FrameBytes := by
  unfold Obligations.FrameBytes
  intro s addr data hlen
  obtain ⟨lo, hi, hfield, hlo, hhi⟩ := lenField_eq hlen
  refine ⟨⟨lo, hi, by omega, ?_⟩, writeFrame_length addr data s, rfl, rfl, ?_⟩
  · simp [writeFrame, csEnable, csDisable, csValue, gpioOp, hfield]
  · simp [readFrame, BitVec.or_assoc]

end Sys2Proof.Machine
end

section
/-!
PROOFS. The step (spec/45_section.md R310): what it runs, what it continues, and, for every step of every agent, what it leaves as
it was (spec/10_state.md R24, R33, R38, R40, R44).
-/
namespace Sys2Proof.Machine

open Laws

/-- Settles O6: `step_of_decodeCommand_ok`, and the equations of `fetch`, `afterOperation` and `closeUnit`. -/
theorem stepRunsDecoded : Obligations.StepRunsDecoded := by
  unfold Obligations.StepRunsDecoded
  refine ⟨fun s q accept rest r r' c i hturn hr htask hfetch hdecode => ?_, fun r c more hunit hinbox => ?_, fun s => rfl,
    fun r hunit => ?_, fun s reply rest i left hturn hdecode => ?_⟩
  · exact step_of_decodeCommand_ok hturn hr htask hfetch hdecode
  · simp [fetch, hunit, hinbox]
  · simp [closeUnit, hunit]
  · simp [step, hturn, bridgeTurn, hdecode]

theorem step_of_environment {s : State} {bytes : List Byte} {rest : List Turn} (hturn : s.turns = .environment bytes :: rest) :
    step s = .next (receive bytes { s with turns := rest }) := by simp [step, hturn]

/-- Settles O7: the three turns by the equations of `step`. -/
theorem stepContinues : Obligations.StepContinues := by
  unfold Obligations.StepContinues
  refine ⟨fun s q accept rest r t hturn hr htask => ?_, fun s bytes rest hturn => ?_, fun s hturn => ?_⟩
  · simp only [step, hturn, requesterTurn, me, hr, htask]
  · rw [step_of_environment hturn]; rfl
  · simp [step, hturn]

/-! ### What an agent can do in its turn -/

theorem afterOperation_eq_next {o : Host.Outcome State Fault Refusal} {t : State} (h : afterOperation o = .next t) :
    ∃ u, o = .next u ∧ t = updateMe closeUnit u := by
  cases o with
  | next u => exact ⟨u, rfl, by simpa [afterOperation, eq_comm] using h⟩
  | fault f => simp [afterOperation] at h
  | refused r => simp [afterOperation] at h

theorem afterOperation_eq_fault {o : Host.Outcome State Fault Refusal} {f : Fault} (h : afterOperation o = .fault f) :
    o = .fault f := by
  cases o <;> simp_all [afterOperation]

/-- Everything a requester's turn can be: nothing, the next step of its operation, the operation it asks for, or a refused
header. -/
theorem requesterTurn_cases (s : State) :
    requesterTurn s = .next s ∨
    (s.cur < s.reqs.length ∧ requesterTurn s = afterOperation (advance s)) ∨
    (∃ c r i, s.cur < s.reqs.length ∧ decodeCommand c = .ok i ∧
      requesterTurn s = afterOperation (exec i (present r s))) ∨
    ∃ h, requesterTurn s = .refused (.undefinedHeader h) := by
  unfold requesterTurn
  cases hme : me s with
  | none => exact .inl rfl
  | some r =>
    have hcur : s.cur < s.reqs.length := (List.getElem?_eq_some_iff.mp hme).1
    dsimp only
    cases r.task with
    | some t => exact .inr (.inl ⟨hcur, rfl⟩)
    | none =>
      cases hfetch : fetch r with
      | none => exact .inl rfl
      | some cr =>
        obtain ⟨c, r'⟩ := cr
        cases hdecode : decodeCommand c with
        | ok i => exact .inr (.inr (.inl ⟨c, r', i, hcur, hdecode, by simp [hdecode]⟩))
        | error e => exact .inr (.inr (.inr ⟨c.header, by simp [hdecode]⟩))

/-- The rows of the table are operations of the command port (R93). -/
theorem isStream_of_mem_commandRows :
    ∀ row ∈ commandRows, ∀ p : Ports, (row.2 p).isStream = false := by
  rw [← List.forall_iff_forall_mem]
  simp only [commandRows, freqRows, filterRows, toneSetRows, toneGetRows, toneWriteRows, transportRows, driverRows,
    setterRows, sectionRows, List.cons_append, List.nil_append, List.Forall]
  and_intros <;> exact fun _ => rfl

theorem isStream_of_decodeCommand {c : Command} {i : Instr} (h : decodeCommand c = .ok i) : i.isStream = false := by
  unfold decodeCommand at h
  split at h
  · cases h; rfl
  · split at h
    · next row hrow =>
      cases h
      exact isStream_of_mem_commandRows row (List.mem_of_find?_eq_some hrow) _
    · cases h

theorem isStream_of_decodeStream {bytes rest : List Byte} {i : Instr} (h : decodeStream bytes = .ok (i, rest)) :
    i.isStream = true := by
  have hgpio : ∀ {make : Byte → Byte → Instr} {l : List Byte}, decodeGpio make l = .ok (i, rest) →
      (∀ v d, (make v d).isStream = true) → i.isStream = true := by
    intro make l h hmake
    unfold decodeGpio at h
    split at h <;> cases h
    exact hmake _ _
  have hspi : ∀ {make : Byte → List Byte → Instr} {l : List Byte}, decodeSpi make l = .ok (i, rest) →
      (∀ a d, (make a d).isStream = true) → i.isStream = true := by
    intro make l h hmake
    unfold decodeSpi at h
    split at h
    · dsimp only at h
      split at h <;> cases h
      exact hmake _ _
    · cases h
  cases bytes with
  | nil => cases h
  | cons b l =>
    simp only [decodeStream] at h
    split_ifs at h
    · exact hgpio h fun _ _ => rfl
    · exact hgpio h fun _ _ => rfl
    · exact hspi h fun _ _ => rfl
    · exact hspi h fun _ _ => rfl
    · cases h; rfl

/-! ### What an operation can do -/

/-- A change a stream command makes: the bridge's pins and transfers, and a reply that joins the receive queue (R100 to
R103). -/
def BridgeEffect (s t : State) : Prop :=
  ∃ (bridge : Bridge) (reply : List Byte), bridge.stream = s.bridge.stream ∧
    t = { s with bridge := bridge, rxq := s.rxq ++ reply }

theorem bridgeEffect_of_exec {i : Instr} (hi : i.isStream = true) (s : State) :
    ∃ t, exec i s = .next t ∧ BridgeEffect s t := by
  cases i with
  | gpioLow v d => exact ⟨_, rfl, { s.bridge with low := ⟨v, d⟩ }, [], rfl, by simp [setBank]⟩
  | gpioHigh v d => exact ⟨_, rfl, { s.bridge with high := ⟨v, d⟩ }, [], rfl, by simp [setBank]⟩
  | spiWrite addr data => exact ⟨_, rfl, (spiTransfer false addr data s).bridge, [], rfl, by simp [spiTransfer]⟩
  | spiRead addr payload => exact ⟨_, rfl, (spiTransfer true addr payload s).bridge, s.reply, rfl, rfl⟩
  | streamFlush => exact ⟨_, rfl, s.bridge, [], rfl, by simp⟩
  | _ => exact absurd hi (by simp [Instr.isStream, encode])

/-- The tone file `x'` differs from `x` in fields that hold a value in range (R24). -/
def AssignsInRange (x x' : Vector ToneSlot 16) : Prop := TonesInRange x → TonesInRange x'

theorem tonesInRange_set {x : Vector ToneSlot 16} (h : TonesInRange x) (t : Fin 16) {slot : ToneSlot}
    (hnumber : ∀ f : ToneField, (slot.number f : Int) ≤ ToneField.top f)
    (hop : ∀ (k : Fin 4) (f : OpField), ((slot.op[k]).number f : Int) ≤ OpField.top f) : TonesInRange (x.set t slot) := by
  intro i
  by_cases hi : t = i
  · subst hi
    simpa using ⟨hnumber, hop⟩
  · have hne : t.val ≠ i.val := fun e => hi (Fin.ext e)
    have hget : (x.set t slot)[i] = x[i] := Vector.getElem_set_ne _ _ hne
    rw [hget]
    exact h i

theorem assignsInRange_setSlot (t : Fin 16) (f : ToneField) {v : Nat} (hv : (v : Int) ≤ ToneField.top f) (s : State) :
    AssignsInRange s.x (setSlot t (ToneField.put f v) s).x := by
  intro h
  refine tonesInRange_set h t (fun g => ?_) fun k g => ?_
  · rw [ToneField.put_number]
    split
    · next hg => exact hg ▸ hv
    · exact (h t).1 g
  · rw [ToneField.put_op]
    exact (h t).2 k g

theorem assignsInRange_setOperator (t : Fin 16) (k : Fin 4) (f : OpField) {v : Nat}
    (hv : f.isFlag = true ∨ (v : Int) ≤ OpField.top f) (s : State) :
    AssignsInRange s.x (setOperator t k (OpField.put f v) s).x := by
  intro h
  have hput : ∀ g, ((OpField.put f v (s.x[t].op[k])).number g : Int) ≤ OpField.top g := by
    intro g
    by_cases hg : g = f
    · rcases hv with hflag | htop
      · exact number_flag (hg ▸ hflag) _
      · by_cases hflag : g.isFlag = true
        · exact number_flag hflag _
        · subst hg
          simpa [OpField.put_number, hflag] using htop
    · rw [OpField.put_number, if_neg hg]
      exact (h t).2 k g
  refine tonesInRange_set h t (h t).1 fun j g => ?_
  by_cases hj : k = j
  · subst hj
    simpa using hput g
  · have hne : k.val ≠ j.val := fun e => hj (Fin.ext e)
    have hget : (s.x[t].op.set k (OpField.put f v (s.x[t].op[k])))[j] = s.x[t].op[j] := Vector.getElem_set_ne _ _ hne
    dsimp only
    rw [hget]
    exact (h t).2 j g

/-- What an operation does before it makes elementary changes: nothing, or the one thing that only it can do. -/
inductive Begins : Instr → State → State → Prop where
  | ordinary (i : Instr) (s : State) : Begins i s s
  | assigned {i : Instr} (s : State) (x : Vector ToneSlot 16) (hi : i.assignsTone) (hx : AssignsInRange s.x x) :
      Begins i s { s with x := x }
  | enabled (s : State) : Begins .secEnable s { s with sectionMode := true }
  | disabled (s : State) : Begins .secDisable s { s with sectionMode := false, owner := none }
  | disposed (s : State) : Begins .dispose s { s with disposed := true, wbuf := [] }

theorem exec_toneSetInstr_begins (f : ToneField) (t v : Int) (s : State) :
    ∃ u u', exec (toneSetInstr f t v) s = .next u' ∧ Begins (toneSetInstr f t v) s u ∧ Changes u u' := by
  rw [exec_toneSetInstr]
  rcases toneSet_cases t v f (ToneField.put f) s with h | ⟨i, -, h0, htop, h⟩
  · exact ⟨s, _, h, .ordinary _ s, respond_changes _ _ s⟩
  · exact ⟨setSlot i _ s, _, h, .assigned s _ (.inl ⟨f, t, v, rfl⟩) (assignsInRange_setSlot i f (by omega) s),
      respond_changes _ _ _⟩

theorem exec_opSetInstr_begins (f : OpField) (t k v : Int) (s : State) :
    ∃ u u', exec (opSetInstr f t k v) s = .next u' ∧ Begins (opSetInstr f t k v) s u ∧ Changes u u' := by
  by_cases hf : f.isFlag = true
  · rw [exec_opSetInstr_flag hf]
    rcases opSetFlag_cases t k (OpField.put f (v != 0).toNat) s with h | ⟨i, j, -, -, h⟩
    · exact ⟨s, _, h, .ordinary _ s, respond_changes _ _ s⟩
    · exact ⟨setOperator i j _ s, _, h, .assigned s _ (.inr ⟨f, t, k, v, rfl⟩)
        (assignsInRange_setOperator i j f (.inl hf) s), respond_changes _ _ _⟩
  · rw [exec_opSetInstr_number (by simpa using hf)]
    rcases opSetNumber_cases t k v f (OpField.put f) s with h | ⟨i, j, -, -, h0, htop, h⟩
    · exact ⟨s, _, h, .ordinary _ s, respond_changes _ _ s⟩
    · exact ⟨setOperator i j _ s, _, h, .assigned s _ (.inr ⟨f, t, k, v, rfl⟩)
        (assignsInRange_setOperator i j f (.inr (by omega)) s), respond_changes _ _ _⟩

/-- Everything an operation of the command port can do: it is a fault only where the saved target has no entry in the chip
map, and it is never refused. -/
theorem exec_begins {i : Instr} (hi : i.isStream = false) (s : State) :
    (∃ u u', exec i s = .next u' ∧ Begins i s u ∧ Changes u u') ∨
      ∃ f, exec i s = .fault f ∧ (s.savedTarget.any fun chip => (mapLookup s.csmap chip).isNone) = true := by
  by_cases hassign : i.assignsTone
  · rcases hassign with ⟨f, t, v, rfl⟩ | ⟨f, t, k, v, rfl⟩
    · exact .inl (exec_toneSetInstr_begins f t v s)
    · exact .inl (exec_opSetInstr_begins f t k v s)
  by_cases henable : i = .secEnable
  · subst henable; exact .inl ⟨_, _, rfl, .enabled s, respond_changes _ _ _⟩
  by_cases hdisable : i = .secDisable
  · subst hdisable; exact .inl ⟨_, _, rfl, .disabled s, respond_changes _ _ _⟩
  by_cases hdispose : i = .dispose
  · subst hdispose; exact .inl ⟨_, _, rfl, .disposed s, respond_changes _ _ _⟩
  have h := exec_reaches ⟨hi, hassign, henable, hdisable, hdispose⟩ s
  cases hexec : exec i s with
  | next u => rw [hexec] at h; exact .inl ⟨s, u, rfl, .ordinary i s, h⟩
  | fault f => rw [hexec] at h; exact .inr ⟨f, rfl, h⟩
  | refused r => rw [hexec] at h; exact h.elim

theorem changes_of_advance {s t : State} (h : advance s = .next t) : Changes s t := by
  have hreach := advance_reaches s
  rwa [h] at hreach

/-! ### What the elementary changes keep -/

/-- What no elementary change touches, and what one can only add to. -/
structure Keeps (s t : State) : Prop where
  cfg : t.cfg = s.cfg
  fnumTable : t.fnumTable = s.fnumTable
  csmap : t.csmap = s.csmap
  cur : t.cur = s.cur
  length : t.reqs.length = s.reqs.length
  others : ∀ p, p ≠ s.cur → t.reqs[p]? = s.reqs[p]?
  entered : s.entered ≤ t.entered
  events : ∃ events, t.trace = s.trace ++ events ∧
    t.bridge = { s.bridge with stream := s.bridge.stream ++ events.flatMap Event.payload }

theorem Keeps.refl (s : State) : Keeps s s where
  cfg := rfl
  fnumTable := rfl
  csmap := rfl
  cur := rfl
  length := rfl
  others _ _ := rfl
  entered := le_rfl
  events := ⟨[], by simp⟩

theorem Keeps.trans {s t u : State} (h : Keeps s t) (h' : Keeps t u) : Keeps s u where
  cfg := h'.cfg.trans h.cfg
  fnumTable := h'.fnumTable.trans h.fnumTable
  csmap := h'.csmap.trans h.csmap
  cur := h'.cur.trans h.cur
  length := h'.length.trans h.length
  others p hp := (h'.others p (h.cur ▸ hp)).trans (h.others p hp)
  entered := h.entered.trans h'.entered
  events := by
    obtain ⟨ev, htrace, hbridge⟩ := h.events
    obtain ⟨ev', htrace', hbridge'⟩ := h'.events
    exact ⟨ev ++ ev', by simp [htrace', htrace], by simp [hbridge', hbridge]⟩

/-- A change that records the events `events` and delivers their payloads keeps the rest. -/
theorem Keeps.of_events {s t : State} (events : List Event) (hcfg : t.cfg = s.cfg) (htable : t.fnumTable = s.fnumTable)
    (hmap : t.csmap = s.csmap) (hcur : t.cur = s.cur) (hreqs : t.reqs = s.reqs) (hentered : s.entered ≤ t.entered)
    (htrace : t.trace = s.trace ++ events)
    (hbridge : t.bridge = { s.bridge with stream := s.bridge.stream ++ events.flatMap Event.payload }) : Keeps s t where
  cfg := hcfg
  fnumTable := htable
  csmap := hmap
  cur := hcur
  length := by rw [hreqs]
  others _ _ := by rw [hreqs]
  entered := hentered
  events := ⟨events, htrace, hbridge⟩

/-- A change that records nothing and delivers nothing. -/
theorem Keeps.of_silent {s t : State} (hcfg : t.cfg = s.cfg) (htable : t.fnumTable = s.fnumTable) (hmap : t.csmap = s.csmap)
    (hcur : t.cur = s.cur) (hreqs : t.reqs = s.reqs) (hentered : s.entered ≤ t.entered) (htrace : t.trace = s.trace)
    (hbridge : t.bridge = s.bridge) : Keeps s t :=
  .of_events [] hcfg htable hmap hcur hreqs hentered (by simp [htrace]) (by simp [hbridge])

theorem keeps_updateMe (f : Requester → Requester) (s : State) : Keeps s (updateMe f s) where
  cfg := rfl
  fnumTable := rfl
  csmap := rfl
  cur := rfl
  length := by simp
  others p hp := by simp [Ne.symm hp]
  entered := le_rfl
  events := ⟨[], by simp⟩

theorem Change.keeps {s t : State} (h : Change s t) : Keeps s t := by
  cases h with
  | requester f => exact keeps_updateMe f s
  | queued bytes _ => exact .of_silent rfl rfl rfl rfl rfl le_rfl rfl rfl
  | sent => exact .of_events [.tx s.wbuf] rfl rfl rfl rfl rfl le_rfl rfl (by simp [Event.payload])
  | delayed ms => exact .of_events [.delay ms] rfl rfl rfl rfl rfl le_rfl rfl (by simp [Event.payload])
  | purged => exact .of_events [.rxPurge] rfl rfl rfl rfl rfl le_rfl rfl (by simp [Event.payload])
  | took b0 b1 rest _ => exact .of_events [.rxTake b0 b1] rfl rfl rfl rfl rfl le_rfl rfl (by simp [Event.payload])
  | saved => exact .of_silent rfl rfl rfl rfl rfl le_rfl rfl rfl
  | restored => exact .of_silent rfl rfl rfl rfl rfl le_rfl rfl rfl
  | targeted chip pins _ => exact .of_silent rfl rfl rfl rfl rfl le_rfl rfl rfl
  | locked _ => exact .of_silent rfl rfl rfl rfl rfl (Nat.le_succ _) rfl rfl
  | unlocked => exact .of_silent rfl rfl rfl rfl rfl le_rfl rfl rfl

theorem Changes.keeps {s t : State} (h : Changes s t) : Keeps s t := by
  induction h with
  | refl => exact .refl s
  | tail _ hlast ih => exact ih.trans hlast.keeps

/-- What only TONE_SET, OP_SET, SEC_ENABLE, SEC_DISABLE and DISPOSE write (R24, R33, R38). -/
def SameSwitches (s t : State) : Prop := t.x = s.x ∧ t.sectionMode = s.sectionMode ∧ t.disposed = s.disposed

theorem Changes.sameSwitches {s t : State} (h : Changes s t) : SameSwitches s t := by
  induction h with
  | refl => exact ⟨rfl, rfl, rfl⟩
  | tail _ hlast ih =>
    obtain ⟨hx, hm, hd⟩ := ih
    cases hlast <;> exact ⟨hx, hm, hd⟩

theorem Begins.keeps {i : Instr} {s t : State} (h : Begins i s t) : Keeps s t := by
  cases h with
  | ordinary => exact .refl s
  | assigned x _ _ => exact .of_silent rfl rfl rfl rfl rfl le_rfl rfl rfl
  | enabled => exact .of_silent rfl rfl rfl rfl rfl le_rfl rfl rfl
  | disabled => exact .of_silent rfl rfl rfl rfl rfl le_rfl rfl rfl
  | disposed => exact .of_silent rfl rfl rfl rfl rfl le_rfl rfl rfl

theorem Begins.disposed_mono {i : Instr} {s t : State} (h : Begins i s t) (hd : s.disposed = true) : t.disposed = true := by
  cases h with
  | disposed => rfl
  | _ => exact hd

/-- Settles O17: an operation begins with the one thing that only it can do, and no elementary change does any of them. -/
theorem onlyTheirWritersWrite : Obligations.OnlyTheirWritersWrite := by
  unfold Obligations.OnlyTheirWritersWrite
  refine ⟨fun i s t hexec => ?_, fun s t hadvance => (changes_of_advance hadvance).sameSwitches⟩
  by_cases hi : i.isStream = true
  · obtain ⟨u, hu, bridge, reply, -, rfl⟩ := bridgeEffect_of_exec hi s
    rw [hu] at hexec
    cases hexec
    exact ⟨fun _ => rfl, fun _ _ => rfl, fun _ => rfl⟩
  · rcases exec_begins (by simpa using hi) s with ⟨u, u', hu, hbegins, hchanges⟩ | ⟨f, hf, -⟩
    · rw [hu] at hexec
      cases hexec
      obtain ⟨hx, hm, hd⟩ := hchanges.sameSwitches
      rw [hx, hm, hd]
      cases hbegins with
      | ordinary => exact ⟨fun _ => rfl, fun _ _ => rfl, fun _ => rfl⟩
      | assigned _ x htone _ => exact ⟨fun hnot => absurd htone hnot, fun _ _ => rfl, fun _ => rfl⟩
      | enabled => exact ⟨fun _ => rfl, fun hne _ => absurd rfl hne, fun _ => rfl⟩
      | disabled => exact ⟨fun _ => rfl, fun _ hne => absurd rfl hne, fun _ => rfl⟩
      | disposed => exact ⟨fun _ => rfl, fun _ _ => rfl, fun hne => absurd rfl hne⟩
    · rw [hf] at hexec; cases hexec

/-! ### Turns -/

/-- A requester's turn that answers a next state: whatever it is, the rest of the machine keeps its history. -/
theorem requesterTurn_next {s t : State} (h : requesterTurn s = .next t) :
    t = s ∨ s.cur < s.reqs.length ∧ ∃ i u v, Changes s u ∧ Begins i u v ∧ Changes v t := by
  rcases requesterTurn_cases s with hnone | ⟨hcur, hadv⟩ | ⟨c, r, i, hcur, hdecode, hexec⟩ | ⟨hd, hrefused⟩
  · rw [hnone] at h; cases h; exact .inl rfl
  · rw [hadv] at h
    obtain ⟨u, hu, rfl⟩ := afterOperation_eq_next h
    exact .inr ⟨hcur, .flush, u, u, changes_of_advance hu, .ordinary _ u, (Change.requester u _).one⟩
  · rw [hexec] at h
    obtain ⟨u', hu', rfl⟩ := afterOperation_eq_next h
    rcases exec_begins (isStream_of_decodeCommand hdecode) (present r s) with ⟨v, w, hw, hbegins, hchanges⟩ | ⟨f, hf, -⟩
    · rw [hw] at hu'
      cases hu'
      exact .inr ⟨hcur, i, present r s, v, (Change.requester s _).one, hbegins, hchanges.trans (Change.requester _ _).one⟩
    · rw [hf] at hu'; cases hu'
  · rw [hrefused] at h; cases h

theorem keeps_of_requesterTurn {s t : State} (h : requesterTurn s = .next t) : Keeps s t := by
  rcases requesterTurn_next h with rfl | ⟨-, i, u, v, hsu, huv, hvt⟩
  · exact .refl t
  · exact (hsu.keeps.trans huv.keeps).trans hvt.keeps

theorem disposed_of_requesterTurn {s t : State} (h : requesterTurn s = .next t) (hd : s.disposed = true) :
    t.disposed = true := by
  rcases requesterTurn_next h with rfl | ⟨-, i, u, v, hsu, huv, hvt⟩
  · exact hd
  · obtain ⟨-, -, hsu'⟩ := hsu.sameSwitches
    obtain ⟨-, -, hvt'⟩ := hvt.sameSwitches
    rw [hvt']
    exact huv.disposed_mono (hsu'.trans hd)

/-- The bridge's turn: nothing, or a command of the stream (R44). -/
theorem bridgeTurn_next {s t : State} (h : bridgeTurn s = .next t) :
    t = s ∨ ∃ i rest, decodeStream s.bridge.stream = .ok (i, rest) ∧ BridgeEffect (consumeStream rest s) t := by
  unfold bridgeTurn at h
  split at h
  · next i rest hdecode =>
    obtain ⟨u, hu, heffect⟩ := bridgeEffect_of_exec (isStream_of_decodeStream hdecode) (consumeStream rest s)
    rw [hu] at h
    cases h
    exact .inr ⟨i, rest, hdecode, heffect⟩
  · cases h
  · cases h; exact .inl rfl

/-- A turn of the bridge changes the bridge and the receive queue alone. -/
theorem bridgeTurn_frame {s t : State} (h : bridgeTurn s = .next t) : ∃ bridge rxq, t = { s with bridge := bridge, rxq := rxq } := by
  rcases bridgeTurn_next h with rfl | ⟨i, rest, -, bridge, reply, -, rfl⟩
  · exact ⟨t.bridge, t.rxq, rfl⟩
  · exact ⟨bridge, _, rfl⟩

/-- Settles O14: a requester's turn is a run of changes that keep the history, and the other two agents touch none of it. -/
theorem historyOnlyGrows : Obligations.HistoryOnlyGrows := by
  unfold Obligations.HistoryOnlyGrows
  intro s t h
  unfold step at h
  split at h
  · cases h; exact ⟨⟨[], by simp⟩, id, le_rfl, rfl, rfl, rfl, rfl⟩
  · have hkeeps := keeps_of_requesterTurn h
    have hdisposed := disposed_of_requesterTurn h
    obtain ⟨events, htrace, -⟩ := hkeeps.events
    exact ⟨⟨events, htrace⟩, hdisposed, hkeeps.entered, hkeeps.fnumTable, hkeeps.csmap, hkeeps.cfg,
      hkeeps.length⟩
  · obtain ⟨bridge, rxq, rfl⟩ := bridgeTurn_frame h
    exact ⟨⟨[], by simp⟩, id, le_rfl, rfl, rfl, rfl, rfl⟩
  · cases h; exact ⟨⟨[], by simp⟩, id, le_rfl, rfl, rfl, rfl, rfl⟩

theorem requesterTurn_of_step {s t : State} {q : Nat} {accept : Bool} {rest : List Turn}
    (hturn : s.turns = .requester q accept :: rest) (h : step s = .next t) :
    requesterTurn { s with turns := rest, cur := q, accept := accept } = .next t := by
  simpa only [step, hturn] using h

theorem bridgeTurn_of_step {s t : State} {reply : List Byte} {rest : List Turn} (hturn : s.turns = .bridge reply :: rest)
    (h : step s = .next t) : bridgeTurn { s with turns := rest, reply := reply } = .next t := by
  simpa only [step, hturn] using h

/-- Settles O15: the requester of the turn is the only one that an elementary change touches. -/
theorem statusGoesToTheIssuer : Obligations.StatusGoesToTheIssuer := by
  unfold Obligations.StatusGoesToTheIssuer
  refine ⟨fun s t q accept rest hturn h p hp => ?_, fun s t reply rest hturn h => ?_, fun s t bytes rest hturn h => ?_⟩
  · exact (keeps_of_requesterTurn (requesterTurn_of_step hturn h)).others p hp
  · obtain ⟨bridge, rxq, rfl⟩ := bridgeTurn_frame (bridgeTurn_of_step hturn h)
    exact ⟨rfl, rfl⟩
  · rw [step_of_environment hturn] at h
    cases h
    exact ⟨rfl, rfl⟩

/-- Settles O16: each elementary change delivers the payloads of the events it records. -/
theorem bridgeStreamFollowsTrace : Obligations.BridgeStreamFollowsTrace := by
  unfold Obligations.BridgeStreamFollowsTrace
  intro s t q accept rest hturn h
  exact (keeps_of_requesterTurn (requesterTurn_of_step hturn h)).events

end Sys2Proof.Machine
end

section
/-!
PROOFS. The chip map of spec/43_transport.md R230 as a sorted map, the state after reset (spec/10_state.md R46), and the invariants
of R45 along every step.
-/
namespace Sys2Proof

/-! ### The chip map -/

/-- A map whose keys rise (R230). -/
def RisingKeys (m : List (Chip × Byte)) : Prop := m.Pairwise fun a b => a.1 < b.1

theorem mem_mapInsert {k : Chip} {v : Byte} {m : List (Chip × Byte)} {e : Chip × Byte} (h : e ∈ mapInsert k v m) :
    e = (k, v) ∨ e ∈ m := by
  induction m with
  | nil => exact .inl (by simpa [mapInsert] using h)
  | cons a m ih =>
    simp only [mapInsert] at h
    split_ifs at h
    · exact (List.mem_cons.mp h)
    · exact .inr h
    · rcases List.mem_cons.mp h with rfl | h
      · exact .inr (by simp)
      · exact (ih h).imp_right (List.mem_cons_of_mem _)

theorem RisingKeys.mapInsert {m : List (Chip × Byte)} (h : RisingKeys m) (k : Chip) (v : Byte) :
    RisingKeys (mapInsert k v m) := by
  induction m with
  | nil => exact List.pairwise_singleton _ _
  | cons a m ih =>
    obtain ⟨ha, hm⟩ := List.pairwise_cons.mp h
    simp only [Sys2Proof.mapInsert]
    split_ifs with hlt heq
    · refine List.pairwise_cons.mpr ⟨fun b hb => ?_, h⟩
      rcases List.mem_cons.mp hb with rfl | hb
      · exact hlt
      · exact BitVec.lt_trans hlt (ha b hb)
    · exact h
    · refine List.pairwise_cons.mpr ⟨fun b hb => ?_, ih hm⟩
      rcases mem_mapInsert hb with rfl | hb
      · show a.1 < k
        bv_omega
      · exact ha b hb

theorem mapLookup_cons (a : Chip × Byte) (m : List (Chip × Byte)) (k : Chip) :
    mapLookup (a :: m) k = if a.1 = k then some a.2 else mapLookup m k := by
  by_cases h : a.1 = k <;> simp [mapLookup, h]

theorem mapLookup_eq_none_of_lt {m : List (Chip × Byte)} {k : Chip} (h : ∀ e ∈ m, k < e.1) : mapLookup m k = none := by
  have hne : ∀ e ∈ m, e.1 ≠ k := fun e he heq => absurd (h e he) (by bv_omega)
  simpa [mapLookup] using fun a b hab => hne (a, b) hab

/-- An insertion adds its entry where none of that key is there (R230). -/
theorem mapLookup_mapInsert {m : List (Chip × Byte)} (h : RisingKeys m) (k k' : Chip) (v : Byte) :
    mapLookup (mapInsert k v m) k' = (mapLookup m k').or (if k = k' then some v else none) := by
  induction m with
  | nil => simp [mapInsert, mapLookup]
  | cons a m ih =>
    obtain ⟨ha, hm⟩ := List.pairwise_cons.mp h
    rw [mapInsert]
    by_cases hlt : k < a.1
    · have hnone : mapLookup (a :: m) k = none := by
        refine mapLookup_eq_none_of_lt fun e he => ?_
        rcases List.mem_cons.mp he with rfl | he
        · exact hlt
        · exact BitVec.lt_trans hlt (ha e he)
      rw [if_pos hlt, mapLookup_cons]
      by_cases hkey : k = k'
      · subst hkey
        rw [if_pos rfl, if_pos rfl, hnone, Option.none_or]
      · rw [if_neg hkey, if_neg hkey, Option.or_none]
    · rw [if_neg hlt]
      by_cases heq : a.1 = k
      · rw [if_pos heq, mapLookup_cons]
        by_cases hkey : k = k' <;> simp [heq, hkey]
      · rw [if_neg heq, mapLookup_cons, mapLookup_cons, ih hm]
        by_cases hkey : a.1 = k' <;> simp [hkey]

section
variable {α : Type} (key : α → Chip) (value : α → Byte)

theorem risingKeys_foldl_mapInsert (l : List α) {m : List (Chip × Byte)} (h : RisingKeys m) :
    RisingKeys (l.foldl (fun m a => mapInsert (key a) (value a) m) m) := by
  induction l generalizing m with
  | nil => exact h
  | cons a l ih => exact ih (h.mapInsert _ _)

/-- Of several insertions of one key the first counts. -/
theorem mapLookup_foldl_mapInsert (l : List α) {m : List (Chip × Byte)} (h : RisingKeys m) (k : Chip) :
    mapLookup (l.foldl (fun m a => mapInsert (key a) (value a) m) m) k =
      (mapLookup m k).or ((l.find? fun a => key a == k).map value) := by
  induction l generalizing m with
  | nil => simp
  | cons a l ih =>
    rw [List.foldl_cons, ih (h.mapInsert _ _), mapLookup_mapInsert h, Option.or_assoc, List.find?_cons]
    by_cases hk : key a = k
    · simp [hk]
    · rw [if_neg hk, Option.none_or, beq_eq_false_iff_ne.mpr hk]

end

/-- A pin with its chip's number, for two chips. -/
abbrev ChipPair := (Nat × Nat) × (Nat × Nat)

/-- The TargetChip value of two chips, or of one chip given twice (R31, R230). -/
def chipKey (i j : Nat) : Chip := BitVec.ofNat 5 (2 ^ i) ||| BitVec.ofNat 5 (2 ^ j)

/-- The pins of two chips, or of one chip given twice (R230). -/
def pinPair (p p' : Nat) : Byte := BitVec.ofNat 8 (2 ^ p) ||| BitVec.ofNat 8 (2 ^ p')

/-- All pairs of chips, each with its pin. -/
def chipPairs (pins : Byte) : List ChipPair :=
  (pinsOf pins).zipIdx.flatMap fun a => (pinsOf pins).zipIdx.map fun b => (a, b)

theorem mem_chipPairs {pins : Byte} {p i p' j : Nat} : ((p, i), (p', j)) ∈ chipPairs pins ↔
    (pinsOf pins)[i]? = some p ∧ (pinsOf pins)[j]? = some p' := by
  simp [chipPairs, List.mem_zipIdx_iff_getElem?]

theorem buildCsmap_eq_foldl (pins : Byte) : buildCsmap pins = (chipPairs pins).foldl
    (fun m ab => mapInsert (chipKey ab.1.2 ab.2.2) (pinPair ab.1.1 ab.2.1) m) [(0, 0)] := by
  simp only [chipKey, pinPair, ← Nat.one_shiftLeft]
  rfl

theorem risingKeys_singleton (a : Chip × Byte) : RisingKeys [a] := List.pairwise_singleton _ _

theorem risingKeys_buildCsmap (pins : Byte) : RisingKeys (buildCsmap pins) := by
  rw [buildCsmap_eq_foldl]
  exact risingKeys_foldl_mapInsert (fun ab : ChipPair => chipKey ab.1.2 ab.2.2) (fun ab => pinPair ab.1.1 ab.2.1) _
    (risingKeys_singleton _)

theorem mapLookup_buildCsmap (pins : Byte) (k : Chip) : mapLookup (buildCsmap pins) k =
    (if 0 = k then some 0 else none).or
      (((chipPairs pins).find? fun ab => chipKey ab.1.2 ab.2.2 == k).map fun ab => pinPair ab.1.1 ab.2.1) := by
  rw [buildCsmap_eq_foldl, mapLookup_foldl_mapInsert (fun ab : ChipPair => chipKey ab.1.2 ab.2.2)
    (fun ab => pinPair ab.1.1 ab.2.1) _ (risingKeys_singleton _), mapLookup_cons]
  rfl

theorem mapLookup_buildCsmap_zero (pins : Byte) : mapLookup (buildCsmap pins) 0 = some 0 := by
  rw [mapLookup_buildCsmap, if_pos rfl, Option.some_or]

/-- Two values of chips are equal only where they name the same chips. -/
theorem chipKey_inj : ∀ i j i' j' : Fin 5, chipKey i j = chipKey i' j' → i = i' ∧ j = j' ∨ i = j' ∧ j = i' := by decide

theorem chipKey_ne_zero : ∀ i j : Fin 5, chipKey i j ≠ 0 := by decide

theorem pinPair_comm (p p' : Nat) : pinPair p p' = pinPair p' p := BitVec.or_comm _ _

section
variable {pins : Byte} (hpins : popcount pins ≤ 5)
include hpins

theorem lt_five_of_getElem? {i p : Nat} (h : (pinsOf pins)[i]? = some p) : i < 5 :=
  (List.getElem?_eq_some_iff.mp h).1.trans_le hpins

/-- The entry of two chips is the union of their pins (R230). -/
theorem mapLookup_buildCsmap_chipKey {i j p p' : Nat} (hi : (pinsOf pins)[i]? = some p)
    (hj : (pinsOf pins)[j]? = some p') : mapLookup (buildCsmap pins) (chipKey i j) = some (pinPair p p') := by
  have hi5 := lt_five_of_getElem? hpins hi
  have hj5 := lt_five_of_getElem? hpins hj
  rw [mapLookup_buildCsmap, if_neg (chipKey_ne_zero ⟨i, hi5⟩ ⟨j, hj5⟩).symm, Option.none_or]
  cases hfind : (chipPairs pins).find? fun ab => chipKey ab.1.2 ab.2.2 == chipKey i j with
  | none =>
    have := List.find?_eq_none.mp hfind ((p, i), (p', j)) (mem_chipPairs.mpr ⟨hi, hj⟩)
    simp at this
  | some ab =>
    obtain ⟨⟨q, a⟩, ⟨q', b⟩⟩ := ab
    obtain ⟨ha, hb⟩ := mem_chipPairs.mp (List.mem_of_find?_eq_some hfind)
    have hkey : chipKey a b = chipKey i j := by simpa using List.find?_some hfind
    rcases chipKey_inj ⟨a, lt_five_of_getElem? hpins ha⟩ ⟨b, lt_five_of_getElem? hpins hb⟩ ⟨i, hi5⟩ ⟨j, hj5⟩ hkey with
      ⟨hai, hbj⟩ | ⟨haj, hbi⟩
    · obtain rfl : a = i := congrArg Fin.val hai
      obtain rfl : b = j := congrArg Fin.val hbj
      simp_all
    · obtain rfl : a = j := congrArg Fin.val haj
      obtain rfl : b = i := congrArg Fin.val hbi
      rw [hi] at hb
      rw [hj] at ha
      cases ha
      cases hb
      exact congrArg some (pinPair_comm _ _)

omit hpins in
theorem exists_of_mapLookup_buildCsmap {chip : Chip} {v : Byte} (h : mapLookup (buildCsmap pins) chip = some v) :
    chip = 0 ∨ ∃ i j, i < (pinsOf pins).length ∧ j < (pinsOf pins).length ∧ chip = chipKey i j := by
  by_cases hchip : chip = 0
  · exact .inl hchip
  · rw [mapLookup_buildCsmap, if_neg (Ne.symm hchip), Option.none_or, Option.map_eq_some_iff] at h
    obtain ⟨⟨⟨p, i⟩, ⟨p', j⟩⟩, hfind, -⟩ := h
    obtain ⟨hi, hj⟩ := mem_chipPairs.mp (List.mem_of_find?_eq_some hfind)
    have hkey : chipKey i j = chip := by simpa using List.find?_some hfind
    exact .inr ⟨i, j, (List.getElem?_eq_some_iff.mp hi).1, (List.getElem?_eq_some_iff.mp hj).1, hkey.symm⟩

theorem mem_keys_buildCsmap_iff (chip : Chip) : chip ∈ (buildCsmap pins).map Prod.fst ↔
    chip = 0 ∨ ∃ i j, i < (pinsOf pins).length ∧ j < (pinsOf pins).length ∧ chip = chipKey i j := by
  have hlookup : chip ∈ (buildCsmap pins).map Prod.fst ↔ ∃ v, mapLookup (buildCsmap pins) chip = some v := by
    rw [← Option.isSome_iff_exists, mapLookup, Option.isSome_map, List.find?_isSome]
    simp
  rw [hlookup]
  refine ⟨fun ⟨v, hv⟩ => exists_of_mapLookup_buildCsmap hv, ?_⟩
  rintro (rfl | ⟨i, j, hi, hj, rfl⟩)
  · exact ⟨0, mapLookup_buildCsmap_zero pins⟩
  · exact ⟨_, mapLookup_buildCsmap_chipKey hpins (List.getElem?_eq_getElem hi) (List.getElem?_eq_getElem hj)⟩

omit hpins in
/-- How many values `None`, the chips and the pairs of `n` chips are (R234). -/
theorem card_chipKeys : ∀ n : Fin 6,
    (insert 0 ((Finset.range n ×ˢ Finset.range n).image fun ij => chipKey ij.1 ij.2)).card = 1 + n.val + n * (n - 1) / 2 := by
  decide

theorem length_buildCsmap : (buildCsmap pins).length =
    1 + (pinsOf pins).length + (pinsOf pins).length * ((pinsOf pins).length - 1) / 2 := by
  have hnodup : ((buildCsmap pins).map Prod.fst).Nodup := by
    refine List.pairwise_map.mpr ((risingKeys_buildCsmap pins).imp fun h heq => ?_)
    exact absurd h (by rw [heq]; exact BitVec.lt_irrefl _)
  have hset : ((buildCsmap pins).map Prod.fst).toFinset = insert 0
      ((Finset.range (pinsOf pins).length ×ˢ Finset.range (pinsOf pins).length).image fun ij => chipKey ij.1 ij.2) := by
    ext chip
    rw [List.mem_toFinset, mem_keys_buildCsmap_iff hpins]
    simp only [Finset.mem_insert, Finset.mem_image, Finset.mem_product, Finset.mem_range, Prod.exists, and_assoc,
      @eq_comm _ chip]
  rw [← List.length_map (f := Prod.fst), ← List.toFinset_card_of_nodup hnodup, hset]
  exact card_chipKeys ⟨_, Nat.lt_succ_of_le hpins⟩

end

namespace Machine

/-- Settles O11: the chip map is a sorted map built from `None` and the pairs of chips, in which two pairs have one key only
where they are the same chips. -/
theorem chipMap : Obligations.ChipMap := by
  unfold Obligations.ChipMap
  exact fun pins hpins => ⟨mapLookup_buildCsmap_zero pins, fun i j p p' hi hj => mapLookup_buildCsmap_chipKey hpins hi hj,
    fun chip v h => exists_of_mapLookup_buildCsmap h, length_buildCsmap hpins⟩

/-! ### Reset -/

/-- Settles O8: the fields of `State.resetWith`; those of the tone file by field. -/
theorem resetValues : Obligations.ResetValues := by
  unfold Obligations.ResetValues
  refine fun c => ⟨fun t => ⟨fun f => ?_, fun k f => ?_⟩, rfl, rfl, rfl, rfl, rfl, rfl, rfl, rfl, rfl, rfl, rfl⟩
  · cases f <;> simp [State.resetWith, ToneSlot.number]
  · cases f <;> simp [State.resetWith, Operator.number]

theorem tonesInRange_reset (c : Config) : TonesInRange (State.resetWith c).x := by
  intro t
  obtain ⟨htones, -⟩ := resetValues c
  refine ⟨fun f => ?_, fun k f => ?_⟩
  · rw [(htones t).1]; cases f <;> decide
  · rw [(htones t).2]; cases f <;> decide

theorem inv_resetWith (c : Config) : Inv (State.resetWith c) where
  tones := tonesInRange_reset c
  table := rfl
  map := rfl
  target := mapLookup_buildCsmap_zero _
  saved _ h := by cases h
  lock _ := rfl
  requesters := List.length_replicate
  holder _ h := by cases h
  buffer := .nil
  stream := .nil

/-- Settles O9: field by field; the chip map holds `None` on every board. -/
theorem resetMeetsInv : Obligations.ResetMeetsInv := by
  unfold Obligations.ResetMeetsInv
  exact ⟨inv_resetWith, inv_resetWith _⟩

/-! ### The invariants along a step -/

theorem Change.keeps_inv {s t : State} (h : Change s t) (hcur : s.cur < s.cfg.nreq) (hi : Inv s) : Inv t := by
  cases h with
  | requester f => exact { hi with requesters := by simpa using hi.requesters }
  | queued bytes hbytes => exact { hi with buffer := hi.buffer.append hbytes }
  | sent => exact { hi with buffer := .nil, stream := hi.stream.append hi.buffer }
  | delayed | purged | took => exact { hi with }
  | saved => exact { hi with saved := fun chip hchip => by cases hchip; exact Option.isSome_iff_exists.mpr ⟨_, hi.target⟩ }
  | restored => exact { hi with saved := fun chip hchip => by cases hchip }
  | targeted chip pins hpins => exact { hi with target := hpins }
  | locked hmode =>
    exact { hi with lock := fun hoff => by simp [hmode] at hoff, holder := fun q hq => by cases hq; exact hcur }
  | unlocked => exact { hi with lock := fun _ => rfl, holder := fun q hq => by cases hq }

theorem Changes.keeps_inv {s t : State} (h : Changes s t) (hcur : s.cur < s.cfg.nreq) (hi : Inv s) : Inv t := by
  induction h with
  | refl => exact hi
  | tail hfirst hlast ih =>
    have hkeeps := Changes.keeps hfirst
    exact hlast.keeps_inv (by rw [hkeeps.cur, hkeeps.cfg]; exact hcur) ih

theorem Begins.keeps_inv {i : Instr} {s t : State} (h : Begins i s t) (hi : Inv s) : Inv t := by
  cases h with
  | ordinary => exact hi
  | assigned _ x _ hx => exact { hi with tones := hx hi.tones }
  | enabled => exact { hi with lock := fun hoff => by cases hoff }
  | disabled => exact { hi with lock := fun _ => rfl, holder := fun q hq => by cases hq }
  | disposed => exact { hi with buffer := .nil }

theorem requesterTurn_keeps_inv {s t : State} (h : requesterTurn s = .next t) (hi : Inv s) : Inv t := by
  rcases requesterTurn_next h with rfl | ⟨hcur, i, u, v, hsu, huv, hvt⟩
  · exact hi
  · rw [hi.requesters] at hcur
    have hkeeps := hsu.keeps.trans huv.keeps
    exact hvt.keeps_inv (by rw [hkeeps.cur, hkeeps.cfg]; exact hcur) (huv.keeps_inv (hsu.keeps_inv hcur hi))

/-- What the decoder leaves of a byte string made of whole commands is one again (R45(d)). -/
theorem wholeCommands_of_decodeStream {bytes rest : List Byte} {i : Instr} (h : WholeCommands bytes)
    (hdecode : decodeStream bytes = .ok (i, rest)) : WholeCommands rest := by
  obtain ⟨commands, hcommands, rfl⟩ := h
  cases commands with
  | nil => cases hdecode
  | cons a commands =>
    obtain ⟨ha, hmore⟩ := List.forall_mem_cons.mp hcommands
    have htrip := Laws.encodeThenDecode a ha.2
    have hbytes := ha.1
    rw [List.flatMap_cons] at hdecode
    simp only [Instr.isStream, Instr.streamBytes] at hbytes hdecode
    cases hencode : encode a with
    | command c => simp [hencode] at hbytes
    | stream bytes =>
      rw [hencode] at htrip
      simp only [hencode] at hdecode
      rw [htrip] at hdecode
      cases hdecode
      exact ⟨commands, hmore, rfl⟩

theorem bridgeTurn_keeps_inv {s t : State} (h : bridgeTurn s = .next t) (hi : Inv s) : Inv t := by
  rcases bridgeTurn_next h with rfl | ⟨i, rest, hdecode, bridge, reply, hstream, rfl⟩
  · exact hi
  · refine { hi with stream := ?_ }
    change WholeCommands bridge.stream
    rw [hstream]
    exact wholeCommands_of_decodeStream hi.stream hdecode

/-- Settles O12: a requester's turn is a run of elementary changes, each of which keeps the invariants; the bridge takes a whole
command from a stream of whole commands. -/
theorem stepKeepsInv : Obligations.StepKeepsInv := by
  unfold Obligations.StepKeepsInv
  intro s t hi h
  unfold step at h
  split at h
  · cases h; exact hi
  · exact requesterTurn_keeps_inv h { hi with }
  · exact bridgeTurn_keeps_inv h { hi with }
  · cases h; exact { hi with }

/-- Where the invariants hold, the saved target has an entry in the chip map (R305). -/
theorem Inv.not_any_isNone {s : State} (hi : Inv s) :
    ¬ (s.savedTarget.any fun chip => (mapLookup s.csmap chip).isNone) = true := by
  cases hsaved : s.savedTarget with
  | none => simp
  | some chip =>
    have := hi.saved chip hsaved
    simpa [Option.ne_none_iff_isSome] using this

theorem requesterTurn_ne_fault {s : State} (hi : Inv s) (f : Fault) : requesterTurn s ≠ .fault f := by
  intro h
  rcases requesterTurn_cases s with hnone | ⟨-, hadvance⟩ | ⟨c, r, i, -, hdecode, hexec⟩ | ⟨hd, hrefused⟩
  · rw [hnone] at h; cases h
  · rw [hadvance] at h
    have hreach := advance_reaches s
    rw [afterOperation_eq_fault h] at hreach
    exact hi.not_any_isNone hreach
  · rw [hexec] at h
    have hfault := afterOperation_eq_fault h
    rcases exec_begins (isStream_of_decodeCommand hdecode) (present r s) with ⟨u, v, hnext, -, -⟩ | ⟨g, -, hnone⟩
    · rw [hnext] at hfault; cases hfault
    · exact hi.not_any_isNone hnone
  · rw [hrefused] at h; cases h

theorem bridgeTurn_ne_fault (s : State) (f : Fault) : bridgeTurn s ≠ .fault f := by
  intro h
  unfold bridgeTurn at h
  split at h
  · next i rest hdecode =>
    obtain ⟨u, hu, -⟩ := bridgeEffect_of_exec (isStream_of_decodeStream hdecode) (consumeStream rest s)
    rw [hu] at h
    cases h
  · cases h
  · cases h

/-- Settles O13: the one fault is a saved target without an entry, which the invariants exclude. -/
theorem stepNeverFaults : Obligations.StepNeverFaults := by
  unfold Obligations.StepNeverFaults
  intro s f hi h
  unfold step at h
  split at h
  · cases h
  · next q accept rest _ =>
    exact requesterTurn_ne_fault (s := { s with turns := rest, cur := q, accept := accept }) { hi with } f h
  · exact bridgeTurn_ne_fault _ f h
  · cases h

end Machine

end Sys2Proof
end

section
/-!
PROOFS. The operations that are one atomic step: the Transport's queue, FLUSH, SET_TARGET and DISPOSE (spec/43_transport.md), the
Register Driver's writes (spec/44_register.md), section mode (spec/45_section.md), the bridge's commands (spec/30_encoding.md).
-/
namespace Sys2Proof.Machine

/-! ### What an operation leaves before it is answered -/

/-- `t` differs from `s` in the block, which is `b`, and in the bytes `sent` that have reached the bridge. -/
structure Leaves (s t : State) (b : Block) (sent : List Byte) : Prop where
  block : t.block = b
  bridge : t.bridge = { s.bridge with stream := s.bridge.stream ++ sent }
  cfg : t.cfg = s.cfg
  turns : t.turns = s.turns
  cur : t.cur = s.cur
  accept : t.accept = s.accept
  reply : t.reply = s.reply
  reqs : t.reqs = s.reqs

theorem Leaves.ends {s t : State} {b : Block} {sent : List Byte} (h : Leaves s t b sent) (e : Status) (values : List Value) :
    Ends s (respond e values t) e (if e = .ok then values else []) b sent :=
  ends_respond e values h.block h.bridge h.cfg h.turns h.cur h.accept h.reply h.reqs

theorem Leaves.congr {s t : State} {b b' : Block} {sent sent' : List Byte} (h : Leaves s t b sent) (hb : b = b')
    (hs : sent = sent') : Leaves s t b' sent' := hb ▸ hs ▸ h

theorem leaves_refl (s : State) : Leaves s s s.block [] := ⟨rfl, by simp, rfl, rfl, rfl, rfl, rfl, rfl⟩

theorem leaves_emit (bytes : List Byte) (s : State) : Leaves s (emit bytes s) { s.block with wbuf := s.wbuf ++ bytes } [] :=
  ⟨rfl, by simp, rfl, rfl, rfl, rfl, rfl, rfl⟩

theorem leaves_flushed (s : State) : Leaves s (flushed s)
    { s.block with wbuf := [], trace := s.trace ++ [.tx (s.wbuf ++ [0x87])] } (s.wbuf ++ [0x87]) :=
  ⟨rfl, rfl, rfl, rfl, rfl, rfl, rfl, rfl⟩

theorem leaves_wrote (addr : Byte) (data : List Byte) (s : State) : Leaves s (wrote addr data s)
    (written (writeFrame addr data s) s) (sentBy (writeFrame addr data s) s) := by
  obtain ⟨hcfg, hturns, hcur, haccept, hreply, hreqs⟩ := wrote_rest addr data s
  exact ⟨wrote_block addr data s, wrote_bridge addr data s, hcfg, hturns, hcur, haccept, hreply, hreqs⟩

section
variable {i : Instr} {s t : State} {b : Block} {sent : List Byte}

theorem endsAtOnce_of_next {e : Status} (h : exec i s = .next (respond e [] t)) (hleaves : Leaves s t b sent) :
    EndsAtOnce i s e [] b sent := ⟨_, h, by simpa using hleaves.ends e []⟩

theorem endsAtOnce_of_done {r : Run} (h : exec i s = complete s r) (hr : r = .done t) (hleaves : Leaves s t b sent) :
    EndsAtOnce i s .ok [] b sent := endsAtOnce_of_next (by rw [h, hr]; rfl) hleaves

theorem endsAtOnce_of_raise {r : Run} {e : Status} (h : exec i s = complete s r) (hr : r = .raise e t)
    (hleaves : Leaves s t b sent) : EndsAtOnce i s e [] b sent := endsAtOnce_of_next (by rw [h, hr]; rfl) hleaves

/-- An operation whose one step is refused changes nothing. -/
theorem endsAtOnce_of_refused {r : Run} {e : Status} (h : exec i s = complete s r) (hr : r = .raise e s) :
    EndsAtOnce i s e [] s.block [] := endsAtOnce_of_raise h hr (leaves_refl s)

end

/-! ### Queueing -/

theorem burstOk_eq_true {bytes : List Byte} {offset count : Int} (h1 : 1 ≤ count) (h2 : count ≤ 65535) (h3 : 0 ≤ offset)
    (h4 : offset + count ≤ bytes.length) : burstOk bytes offset count = true := by
  simp [burstOk, inRange, h1, h2, h3, h4]

theorem burstOk_eq_false {bytes : List Byte} {offset count : Int}
    (h : count ≤ 0 ∨ 65535 < count ∨ offset < 0 ∨ bytes.length < offset + count) : burstOk bytes offset count = false := by
  rw [← Bool.not_eq_true]
  simp only [burstOk, inRange, Bool.and_eq_true, decide_eq_true_eq]
  omega

/-- Settles O39: the checks of `queueBurst` and `queueWrite` in their order, then `emit`. -/
theorem queueSpi : Obligations.QueueSpi := by
  unfold Obligations.QueueSpi
  refine ⟨fun s addr data => ⟨fun live selected => ?_, fun refused => ?_⟩, fun s addr bytes offset count =>
    ⟨fun h1 h2 h3 h4 => ?_, fun illegal => ?_⟩⟩
  · exact endsAtOnce_of_done rfl (queueWrite_done live selected addr [data]) (leaves_emit _ s)
  · exact endsAtOnce_of_refused rfl (queueWrite_refused refused addr [data])
  · have hlegal := queueBurst_legal (burstOk_eq_true h1 h2 h3 h4) addr s
    refine ⟨fun live selected => ?_, fun refused => ?_⟩
    · exact endsAtOnce_of_done rfl (hlegal.trans (queueWrite_done live selected addr _)) (leaves_emit _ s)
    · exact endsAtOnce_of_refused rfl (hlegal.trans (queueWrite_refused refused addr _))
  · exact endsAtOnce_of_refused rfl (queueBurst_illegal (burstOk_eq_false illegal) addr s)

/-- Settles O40: the three ends of `flush`. -/
theorem Settled.flush : Obligations.Flush := by
  unfold Obligations.Flush
  refine fun s => ⟨fun live accepted => ?_, fun live failed => ?_, fun disposed => ?_⟩
  · exact endsAtOnce_of_done rfl (flush_done live accepted) (leaves_flushed s)
  · exact endsAtOnce_of_raise rfl (flush_failed live failed) (leaves_emit [0x87] s)
  · exact endsAtOnce_of_refused rfl (flush_disposed disposed)

/-- Settles O41: the chip map is looked up before `disposed` is tested. -/
theorem setTarget : Obligations.SetTarget := by
  unfold Obligations.SetTarget
  refine fun s chip => ⟨⟨_, rfl⟩, fun pins hpins => ⟨fun live => ?_, fun disposed => ?_⟩, fun hnone => ?_⟩
  · exact endsAtOnce_of_done (t := switchTarget chip pins s) rfl (by simp [hpins, live])
      ⟨rfl, by simp, rfl, rfl, rfl, rfl, rfl, rfl⟩
  · exact endsAtOnce_of_refused rfl (by simp [hpins, disposed])
  · exact endsAtOnce_of_refused rfl (by simp [hnone])

/-- Settles O42: DISPOSE is answered from the one state it makes. -/
theorem dispose : Obligations.Dispose := by
  unfold Obligations.Dispose
  exact fun s => endsAtOnce_of_next rfl ⟨rfl, by simp, rfl, rfl, rfl, rfl, rfl, rfl⟩

/-- Settles O54: each switch is answered from the one state it makes. -/
theorem sectionMode : Obligations.SectionMode := by
  unfold Obligations.SectionMode
  exact fun s => ⟨endsAtOnce_of_next rfl ⟨rfl, by simp, rfl, rfl, rfl, rfl, rfl, rfl⟩,
    endsAtOnce_of_next rfl ⟨rfl, by simp, rfl, rfl, rfl, rfl, rfl, rfl⟩⟩

/-- Settles O60: the bridge's updates, command by command. -/
theorem bridgeCommands : Obligations.BridgeCommands := by
  unfold Obligations.BridgeCommands
  exact fun s => ⟨fun _ _ => rfl, fun _ _ => rfl, fun _ _ => rfl, fun _ _ => rfl, rfl⟩

/-! ### Register writes -/

/-- Settles O46: `drv_write` and `drv_burst` where they can take place, and the slice that is checked first. -/
theorem registerWrites : Obligations.RegisterWrites := by
  unfold Obligations.RegisterWrites
  refine fun s => ⟨fun hw => ⟨fun addr data => ?_, fun addr bytes offset count h1 h2 h3 h4 => ?_⟩,
    fun addr bytes offset count illegal => ?_⟩
  · exact endsAtOnce_of_done rfl (drvWrite_done hw addr data) (leaves_wrote addr [data] s)
  · exact endsAtOnce_of_done rfl (drvBurst_done hw (burstOk_eq_true h1 h2 h3 h4) addr) (leaves_wrote addr _ s)
  · exact endsAtOnce_of_refused rfl (drvBurst_illegal (burstOk_eq_false illegal) addr s)

theorem slotIndex_val (i : Fin 16) : slotIndex (i.val : Int) = some i := by
  have := i.isLt
  rw [slotIndex, dif_pos ⟨by omega, by omega⟩]
  simp

theorem slotIndex_eq_none {t : Int} (h : t < 0 ∨ 15 < t) : slotIndex t = none := by
  rw [slotIndex, dif_neg (by omega)]

theorem opIndex_val (k : Fin 4) : opIndex (k.val : Int) = some k := by
  have := k.isLt
  rw [opIndex, dif_pos ⟨by omega, by omega⟩]
  simp

theorem opIndex_eq_none {k : Int} (h : k < 0 ∨ 3 < k) : opIndex k = none := by
  rw [opIndex, dif_neg (by omega)]

/-! ### The bytes of the tone file -/

theorem operatorBytes_length (c : Config) (o : Operator) : (operatorBytes c o).length = 7 := by simp [operatorBytes]

theorem toneBytes_length (c : Config) (t : ToneSlot) : (toneBytes c t).length = 30 := by
  simp [toneBytes, operatorBytes_length]

theorem flatMap_toneBytes_length (c : Config) (l : List ToneSlot) : (l.flatMap (toneBytes c)).length = 30 * l.length := by
  simp [List.length_flatMap, toneBytes_length, mul_comm]

theorem slotBytes_length (c : Config) (x : Vector ToneSlot 16) (tone : Fin 16) :
    ((x.toList.take (tone.val + 1)).flatMap (toneBytes c)).length = 30 * (tone.val + 1) := by
  have := tone.isLt
  rw [flatMap_toneBytes_length, List.length_take, Vector.length_toList]
  omega

theorem toneBlob_length (c : Config) (x : Vector ToneSlot 16) (tone : Fin 16) :
    (toneBlob c x tone.val).length = 1 + 30 * (tone.val + 1) + 4 := by
  rw [toneBlob, List.length_append, List.length_append, slotBytes_length]
  rfl

/-- The block of one element in a list of equally long blocks. -/
theorem take_drop_flatMap {α β : Type} (f : α → List β) {n : Nat} (hf : ∀ a, (f a).length = n) (l : List α) {i : Nat}
    (hi : i < l.length) : ((l.flatMap f).drop (n * i)).take n = f l[i] := by
  induction l generalizing i with
  | nil => simp at hi
  | cons a l ih =>
    cases i with
    | zero => simp [hf]
    | succ i =>
      have hdrop : n * (i + 1) = (f a).length + n * i := by rw [hf]; ring
      rw [List.flatMap_cons, hdrop, ← List.drop_drop, List.drop_left]
      exact ih (by simpa using hi)

/-- The 30 bytes of slot `i` in the blob of slots 0 to `tone` (R112). -/
theorem toneBlob_slot (c : Config) (x : Vector ToneSlot 16) {i tone : Fin 16} (h : i ≤ tone) :
    ((toneBlob c x tone.val).drop (1 + 30 * i.val)).take 30 = toneBytes c x[i] := by
  have hle : i.val ≤ tone.val := h
  have hlen := slotBytes_length c x tone
  rw [toneBlob, List.append_assoc, ← List.drop_drop, List.singleton_append, List.drop_one, List.tail_cons,
    List.drop_append_of_le_length (by omega), List.take_append_of_le_length (by rw [List.length_drop]; omega),
    take_drop_flatMap (toneBytes c) (toneBytes_length c) _ (by simp; omega)]
  simp

theorem toneBlob_footer (c : Config) (x : Vector ToneSlot 16) (tone : Fin 16) :
    (toneBlob c x tone.val).drop (1 + 30 * (tone.val + 1)) = blobFooter := by
  rw [toneBlob]
  exact List.drop_left' (by rw [List.length_append, slotBytes_length]; rfl)

/-- Settles O37: the blocks of the slots are equally long, so that each is found at its place. -/
theorem Settled.toneBlob : Obligations.ToneBlob := by
  unfold Obligations.ToneBlob
  exact fun c x tone => ⟨toneBlob_length c x tone, rfl, fun i hi => ⟨toneBlob_slot c x hi, toneBytes_length c _⟩,
    toneBlob_footer c x tone⟩

/-! ### Composite writes -/

theorem drvBurst_whole {s : State} (hw : CanWrite s) {bytes : List Byte} (h1 : 1 ≤ bytes.length)
    (h2 : bytes.length ≤ 65535) (addr : Byte) : drvBurst addr bytes 0 bytes.length s = .done (wrote addr bytes s) := by
  rw [drvBurst_done hw (burstOk_whole h1 h2), sliceOf_whole]

theorem drvBurst_whole_refused {s : State} (h : s.disposed = true ∨ s.targetPins = 0) {bytes : List Byte}
    (h1 : 1 ≤ bytes.length) (h2 : bytes.length ≤ 65535) (addr : Byte) :
    drvBurst addr bytes 0 bytes.length s = .raise .communicationError s :=
  drvBurst_refused h (burstOk_whole h1 h2) addr

theorem coefBytes_length (w : I32) : (coefBytes w).length = 3 := rfl

theorem encodeCoefs_length {coefs : List XReal} {bytes : List Byte} (h : encodeCoefs coefs = .ok bytes) :
    bytes.length = 3 * coefs.length := by
  induction coefs generalizing bytes with
  | nil => cases h; rfl
  | cons v vs ih =>
    simp only [encodeCoefs] at h
    split at h
    · cases h
    · split at h
      · cases h
      · next more hmore =>
        cases h
        simp [coefBytes_length, ih hmore]
        omega

theorem packBand_length {coefs : List XReal} {block : List Byte} (h : packBand coefs = .ok block) : block.length = 15 := by
  unfold packBand at h
  split at h
  · next hfive => rw [encodeCoefs_length h, hfive]
  · cases h

theorem exec_writeContents (tone : Fin 16) (s : State) : exec (.writeContents tone.val) s =
    complete s (drvBurst 0x07 (toneBlob s.cfg s.x tone.val) 0 (toneBlob s.cfg s.x tone.val).length s) := by
  change execWriteContents tone.val s = _
  simp only [execWriteContents, slotIndex_val]

theorem toneBlob_length_le (c : Config) (x : Vector ToneSlot 16) (tone : Fin 16) :
    1 ≤ (toneBlob c x tone.val).length ∧ (toneBlob c x tone.val).length ≤ 65535 := by
  have := tone.isLt
  rw [toneBlob_length]
  omega

theorem exec_setEq {s : State} {coefs : List XReal} {block : List Byte} (band : Fin 3)
    (h : packBand (coefs.map (realOperand s)) = .ok block) : exec (.setEq band.val coefs) s =
      complete s (drvBurst (BitVec.ofNat 8 (0x20 + band.val)) block 0 block.length s) := by
  have hband : inRange (band.val : Int) 0 2 = true := by
    rw [inRange_eq_true_iff]
    omega
  have haddr : (0x20 : Byte) + BitVec.ofInt 8 band.val = BitVec.ofNat 8 (0x20 + band.val) := by
    rw [BitVec.ofInt_natCast, BitVec.ofNat_add]
    rfl
  have hlen : ((15 : Nat) : Int) = block.length := by rw [packBand_length h]
  change execSetEq band.val coefs s = _
  simp only [execSetEq, hband, if_true, h, haddr, ← hlen]
  rfl

/-- Settles O47: each is one burst of a whole string of legal length. -/
theorem compositeWrites : Obligations.CompositeWrites := by
  unfold Obligations.CompositeWrites
  refine ⟨fun s tone hw => ?_, fun s tone htone => ?_, fun s band coefs block hw hblock => ⟨packBand_length hblock, ?_⟩,
    fun s band coefs h => ?_⟩
  · obtain ⟨h1, h2⟩ := toneBlob_length_le s.cfg s.x tone
    exact endsAtOnce_of_done (exec_writeContents tone s) (drvBurst_whole hw h1 h2 _) (leaves_wrote _ _ s)
  · exact endsAtOnce_of_refused rfl (by simp [slotIndex_eq_none htone])
  · have hlen := packBand_length hblock
    exact endsAtOnce_of_done (exec_setEq band hblock) (drvBurst_whole hw (by omega) (by omega) _) (leaves_wrote _ _ s)
  · refine endsAtOnce_of_refused rfl ?_
    by_cases hband : inRange band 0 2 = true
    · rw [if_pos hband]
      rw [inRange_eq_true_iff] at hband
      rw [(or_assoc.mpr h).resolve_left (by omega)]
    · rw [if_neg hband]

end Sys2Proof.Machine
end

section
/-!
PROOFS. Multi-step operations (spec/45_section.md R310): an operation in progress as the task it stands on, the rule of each kind of
atomic step, and the two-register setters (spec/44_register.md R265, R268, R273, R276).
-/
namespace Sys2Proof.Machine

/-! ### Runs without another agent -/

theorem advances_one (s : State) : advances 1 s = advance s := by
  simp only [advances]
  cases advance s <;> rfl

/-- Two runs, one after the other. -/
theorem advances_add {m n : Nat} {s t : State} (h : advances m s = .next t) : advances (m + n) s = advances n t := by
  induction m generalizing s with
  | zero => cases h; rw [Nat.zero_add]
  | succ m ih =>
    rw [Nat.succ_add]
    simp only [advances] at h ⊢
    cases hadvance : advance s with
    | next u => rw [hadvance] at h; exact ih h
    | fault f => rw [hadvance] at h; cases h
    | refused r => rw [hadvance] at h; cases h

theorem advances_cons {n : Nat} {s t : State} (h : advance s = .next t) : advances (n + 1) s = advances n t := by
  rw [advances, h]

/-- An operation that starts with a task has ended when the task has, the first step being `exec`'s own. -/
theorem endsAfter_of_advances {n : Nat} {i : Instr} {s t : State} {task : Task} {e : Status} {values : List Value} {b : Block}
    {sent : List Byte} (hexec : exec i s = start task s) (hrun : advances (n + 1) (beginTask task s) = .next t)
    (hends : Ends s t e values b sent) : EndsAfter n i s e values b sent := by
  simp only [advances] at hrun
  cases hadvance : advance (beginTask task s) with
  | next u => rw [hadvance] at hrun; exact ⟨u, t, by rw [hexec, start, hadvance], hrun, hends⟩
  | fault f => rw [hadvance] at hrun; cases hrun
  | refused r => rw [hadvance] at hrun; cases hrun

/-! ### Steps that do not look at the task -/

/-- The atomic steps that neither mark the task nor give it values. -/
def Atom.plain : Atom → Bool
  | .drvWrite _ _ | .enterCheck | .leaveFlush _ | .pinLevel _ _ | .readFlush | .readIssue _ => true
  | _ => false

theorem runAtom_beginTask {a : Atom} (ha : a.plain = true) (task : Task) (s : State) :
    runAtom a (beginTask task s) = (runAtom a s).onState (beginTask task) := by
  cases a with
  | drvWrite addr data => exact drvWrite_updateMe _ s addr data
  | enterCheck => exact enterCheck_updateMe _ s
  | leaveFlush ms => exact leaveFlush_updateMe _ s ms
  | pinLevel high ms => exact pinLevel_updateMe _ s high ms
  | readFlush => exact readFlush_updateMe _ s
  | readIssue addr => exact readIssue_updateMe _ s addr
  | _ => cases ha

/-- The requesters stay, and the turn is the same one's. -/
def SameRequesters (s t : State) : Prop := t.cur = s.cur ∧ t.reqs = s.reqs

theorem SameRequesters.cur_lt {s t : State} (h : SameRequesters s t) (hcur : s.cur < s.reqs.length) :
    t.cur < t.reqs.length := by rwa [h.1, h.2]

section
variable {s t : State} (hcur : s.cur < s.reqs.length) {a b : Atom} {rest : List Atom} {task task' : Task}
include hcur

/-- A step that is done, where steps remain. -/
theorem advance_of_done (hsteps : task.steps = a :: b :: rest)
    (hrun : runAtom a (beginTask task s) = .done (beginTask task' t)) :
    advance (beginTask task s) = .next (beginTask { task' with steps := b :: rest } t) := by
  rw [advance_beginTask hcur a (b :: rest) task hsteps, hrun, settle_done]

/-- The last step, done. -/
theorem advance_of_last (hsteps : task.steps = [a]) (hrun : runAtom a (beginTask task s) = .done (beginTask task' t))
    (ht : t.cur < t.reqs.length) : advance (beginTask task s) = .next (respond task'.verdict task'.values t) := by
  rw [advance_beginTask hcur a [] task hsteps, hrun, settle_last ht]

/-- A step that fails: the operation releases first if it has passed its acquire step (R306). -/
theorem advance_of_raise {e : Status} (hsteps : task.steps = a :: rest)
    (hrun : runAtom a (beginTask task s) = .raise e (beginTask task' t)) (ht : t.cur < t.reqs.length) :
    advance (beginTask task s) = .next
      (if task'.acquired then beginTask { task' with steps := [.release], verdict := e } t else respond e [] t) := by
  rw [advance_beginTask hcur a rest task hsteps, hrun, settle_raise ht]

theorem advance_plain (ha : a.plain = true) (hsteps : task.steps = a :: b :: rest) (hrun : runAtom a s = .done t) :
    advance (beginTask task s) = .next (beginTask { task with steps := b :: rest } t) :=
  advance_of_done hcur hsteps (by rw [runAtom_beginTask ha, hrun, Run.onState_done])

theorem advance_plain_last (ha : a.plain = true) (hsteps : task.steps = [a]) (hrun : runAtom a s = .done t)
    (hsame : SameRequesters s t) : advance (beginTask task s) = .next (respond task.verdict task.values t) :=
  advance_of_last hcur hsteps (by rw [runAtom_beginTask ha, hrun, Run.onState_done]) (hsame.cur_lt hcur)

theorem advance_plain_raise {e : Status} (ha : a.plain = true) (hsteps : task.steps = a :: rest)
    (hrun : runAtom a s = .raise e t) (hsame : SameRequesters s t) : advance (beginTask task s) = .next
      (if task.acquired then beginTask { task with steps := [.release], verdict := e } t else respond e [] t) :=
  advance_of_raise hcur hsteps (by rw [runAtom_beginTask ha, hrun, Run.onState_raise]) (hsame.cur_lt hcur)

/-- A multi-step operation that is refused in its first step changes nothing. -/
theorem endsAtOnce_of_start_raise {i : Instr} {e : Status} {b : Block} (ha : a.plain = true) (hsteps : task.steps = a :: rest)
    (hacquired : task.acquired = false) (hexec : exec i s = start task s) (hrun : runAtom a s = .raise e t)
    (hleaves : Leaves s t b []) : EndsAtOnce i s e [] b [] := by
  refine endsAtOnce_of_next ?_ hleaves
  rw [hexec, start, advance_plain_raise hcur ha hsteps hrun ⟨hleaves.cur, hleaves.reqs⟩, if_neg (by simp [hacquired])]

end

/-! ### One operation after another -/

theorem sameRequesters_wrote (addr : Byte) (data : List Byte) (s : State) : SameRequesters s (wrote addr data s) :=
  ⟨(leaves_wrote addr data s).cur, (leaves_wrote addr data s).reqs⟩

/-- What the operation `s` to `t` and then `t` to `u` leave together. -/
theorem Leaves.trans {s t u : State} {b c : Block} {sent sent' : List Byte} (h : Leaves s t b sent) (h' : Leaves t u c sent') :
    Leaves s u c (sent ++ sent') where
  block := h'.block
  bridge := by rw [h'.bridge, h.bridge]; simp
  cfg := h'.cfg.trans h.cfg
  turns := h'.turns.trans h.turns
  cur := h'.cur.trans h.cur
  accept := h'.accept.trans h.accept
  reply := h'.reply.trans h.reply
  reqs := h'.reqs.trans h.reqs

/-- The frame depends on the board and the target only. -/
theorem writeFrame_congr {s t : State} (hcfg : t.cfg = s.cfg) (hpins : t.targetPins = s.targetPins) (addr : Byte)
    (data : List Byte) : writeFrame addr data t = writeFrame addr data s := by
  simp only [writeFrame, csEnable, csDisable, hcfg, hpins]

theorem wrote_sectionMode (addr : Byte) (data : List Byte) (s : State) :
    (wrote addr data s).sectionMode = s.sectionMode := by unfold wrote; split <;> rfl

theorem wrote_targetPins (addr : Byte) (data : List Byte) (s : State) :
    (wrote addr data s).targetPins = s.targetPins := by unfold wrote; split <;> rfl

theorem wrote_disposed (addr : Byte) (data : List Byte) (s : State) :
    (wrote addr data s).disposed = s.disposed := by unfold wrote; split <;> rfl

theorem CanWrite.wrote {s : State} (h : CanWrite s) (addr : Byte) (data : List Byte) : CanWrite (wrote addr data s) := by
  obtain ⟨hdisposed, hpins, haccept⟩ := h
  refine ⟨by rw [wrote_disposed, hdisposed], by rwa [wrote_targetPins], fun hmode => ?_⟩
  rw [wrote_sectionMode] at hmode
  rw [(leaves_wrote addr data s).accept, haccept hmode]

/-! ### Setters of two registers -/

/-- The task of a setter of two registers. -/
def pairTask (addr addr' byte byte' : Byte) : Task := { steps := [.drvWrite addr byte, .drvWrite addr' byte'] }

/-- The block after two writes, and what they send, as claims state them. -/
theorem leaves_wrote_wrote (addr addr' byte byte' : Byte) (s : State) :
    let first := writeFrame addr [byte] s
    let second := writeFrame addr' [byte'] s
    Leaves s (wrote addr' [byte'] (wrote addr [byte] s))
      (if s.sectionMode then { s.block with wbuf := s.wbuf ++ first ++ second }
       else { s.block with
         wbuf := [], trace := s.trace ++ [.tx (s.wbuf ++ first ++ [0x87]), .tx (second ++ [0x87])] })
      (if s.sectionMode then [] else s.wbuf ++ first ++ [0x87] ++ (second ++ [0x87])) := by
  intro first second
  have hsecond : writeFrame addr' [byte'] (wrote addr [byte] s) = second :=
    writeFrame_congr (leaves_wrote addr [byte] s).cfg (wrote_targetPins addr [byte] s) addr' [byte']
  have hleaves := (leaves_wrote addr [byte] s).trans (leaves_wrote addr' [byte'] (wrote addr [byte] s))
  rw [hsecond] at hleaves
  cases hmode : s.sectionMode
  · simpa [written, sentBy, wrote_sectionMode, hmode, wrote, State.block, flushed, first] using hleaves
  · simpa [written, sentBy, wrote_sectionMode, hmode, wrote, State.block, first] using hleaves

section
variable {s : State} (hcur : s.cur < s.reqs.length) (hw : CanWrite s)
include hcur hw

theorem advance_pairTask (addr addr' byte byte' : Byte) : advance (beginTask (pairTask addr addr' byte byte') s) =
    .next (beginTask { steps := [.drvWrite addr' byte'] } (wrote addr [byte] s)) :=
  advance_plain hcur rfl rfl (drvWrite_done hw addr byte)

/-- A setter of two registers writes the first and then the second (R272). -/
theorem setsRegisterPair_of_exec {i : Instr} {addr addr' : Byte} {args : List (RegField × I32)}
    (hexec : exec i s = setRegPair addr addr' args s) :
    SetsRegisterPair i addr (regByte s addr args) addr' (regByte s addr' args) s := by
  refine endsAfter_of_advances (t := respond .ok [] (wrote addr' [regByte s addr' args] (wrote addr [regByte s addr args] s)))
    (task := pairTask addr addr' (regByte s addr args) (regByte s addr' args)) hexec ?_ ?_
  · have hsame := sameRequesters_wrote addr [regByte s addr args] s
    rw [advances_cons (advance_pairTask hcur hw _ _ _ _), advances_one]
    exact advance_plain_last (hsame.cur_lt hcur) rfl rfl (drvWrite_done (hw.wrote _ _) addr' _)
      (sameRequesters_wrote _ _ _)
  · simpa using (leaves_wrote_wrote addr addr' _ _ s).ends .ok []

end

/-! ### Fields of the default layout -/

/-- What a slice contributes to its byte, of an operand (R116). -/
def sliceByte (sl : Slice RegField) (v : I32) : Byte :=
  ((v >>> sl.src &&& BitVec.ofNat 32 (2 ^ sl.width - 1)) <<< sl.pos).setWidth 8

/-- The operand of a field. -/
def operandOf (args : List (RegField × I32)) (f : RegField) : I32 :=
  match args.find? fun a => a.1 == f with
  | some a => a.2
  | none => 0

theorem fieldOperand_eq_toNat (args : List (RegField × I32)) (f : RegField) :
    fieldOperand args f = (operandOf args f).toNat := by
  unfold fieldOperand operandOf
  cases args.find? fun a => a.1 == f <;> rfl

theorem regLayout_widths_le : ∀ sl ∈ fixedRegLayout ++ defaultRegLayout, sl.width ≤ 32 := by decide

/-- The data byte of a register under the default layout: its slices' bits, in the layout's order. -/
theorem regByte_default {s : State} (h : s.cfg.regLayout = defaultRegLayout) (addr : Byte) (args : List (RegField × I32)) :
    regByte s addr args = (((fixedRegLayout ++ defaultRegLayout).filter fun sl => sl.byte = addr.toNat).foldl
      (fun b sl => b ||| sliceByte sl (operandOf args sl.field)) 0) := by
  rw [regByte, packByte_eq_foldl_filter, regLayout, h]
  refine List.foldl_ext _ _ _ fun b sl hsl => ?_
  rw [fieldOperand_eq_toNat, Slice.bits_toNat (regLayout_widths_le sl (List.mem_of_mem_filter hsl)), sliceByte]

theorem setsRegister_default {i : Instr} {s : State} (hw : CanWrite s) (h : s.cfg.regLayout = defaultRegLayout) {addr : Byte}
    {args : List (RegField × I32)} (hexec : exec i s = setReg addr args s) {byte : Byte}
    (hbyte : (((fixedRegLayout ++ defaultRegLayout).filter fun sl => sl.byte = addr.toNat).foldl
      (fun b sl => b ||| sliceByte sl (operandOf args sl.field)) 0) = byte) : SetsRegister i addr byte s := by
  rw [← hbyte, ← regByte_default h]
  exact setsRegister_of_exec hw hexec

/-- A flag is a field of one bit. -/
theorem sliceByte_flag (f : RegField) (a p : Nat) (e : Bool) (hp : p < 8) :
    sliceByte ⟨f, 0, 1, a, p⟩ (flagBit e) = if e then BitVec.ofNat 8 (2 ^ p) else 0 := by
  cases e
  · simp [sliceByte, flagBit]
  · simp only [sliceByte, flagBit]
    interval_cases p <;> decide

/-- Settles O49: the slices of each register are found in the default layout, and each is masked, then shifted. -/
theorem defaultSetters : Obligations.DefaultSetters := by
  unfold Obligations.DefaultSetters
  intro s hw hlayout
  and_intros <;> intros <;> refine setsRegister_default hw hlayout rfl ?_
  all_goals simp only [fixedRegLayout, defaultRegLayout, List.cons_append, List.nil_append]
  all_goals simp [operandOf, sliceByte_flag]
  all_goals simp [sliceByte, BitVec.or_assoc]

theorem setsRegisterPair_default {i : Instr} {s : State} (hcur : s.cur < s.reqs.length) (hw : CanWrite s)
    (h : s.cfg.regLayout = defaultRegLayout) {addr addr' : Byte} {args : List (RegField × I32)}
    (hexec : exec i s = setRegPair addr addr' args s) {byte byte' : Byte}
    (hbyte : (((fixedRegLayout ++ defaultRegLayout).filter fun sl => sl.byte = addr.toNat).foldl
      (fun b sl => b ||| sliceByte sl (operandOf args sl.field)) 0) = byte)
    (hbyte' : (((fixedRegLayout ++ defaultRegLayout).filter fun sl => sl.byte = addr'.toNat).foldl
      (fun b sl => b ||| sliceByte sl (operandOf args sl.field)) 0) = byte') :
    SetsRegisterPair i addr byte addr' byte' s := by
  rw [← hbyte, ← hbyte', ← regByte_default h, ← regByte_default h]
  exact setsRegisterPair_of_exec hcur hw hexec

/-- The upper slice of FNUM, cut out before or after the shift (R268). -/
theorem fnumUpper_eq (v : I32) :
    (BitVec.setWidth 8 (v >>> 7) &&& 7#8) <<< 3 = BitVec.setWidth 8 ((v &&& 896#32) >>> 4) := by
  ext i hi
  interval_cases i <;> simp

/-- Settles O50: likewise; a field of more than 8 bits has one slice in each of the two registers. -/
theorem pairSetters : Obligations.PairSetters := by
  unfold Obligations.PairSetters
  intro s hcur hw hlayout
  and_intros <;> intros <;> refine setsRegisterPair_default hcur hw hlayout rfl ?_ ?_
  all_goals simp only [fixedRegLayout, defaultRegLayout, List.cons_append, List.nil_append]
  all_goals simp [operandOf, sliceByte_flag]
  all_goals simp [sliceByte, BitVec.or_assoc, fnumUpper_eq]

end Sys2Proof.Machine
end

section
/-!
PROOFS. The multi-step operations of the Transport, T_READ (R228) and HW_RESET (R229), transfers that fail (R227, R328), writes that
are refused (R220, R221), and the steps that hold (R311).
-/
namespace Sys2Proof.Machine

/-! ### Levels of the reset pin -/

/-- The GPIO command that sets the reset pin (R229). -/
def pinCommand (high : Bool) (s : State) : List Byte :=
  [gpioOp s.cfg.board.icBankHigh, if high then s.cfg.board.icValueHigh else s.cfg.board.icValueLow, s.cfg.board.icDir]

/-- A level of the reset pin where its transfer succeeds. -/
def pinned (high : Bool) (ms : Nat) (s : State) : State := recordDelay ms (flushed (emit (pinCommand high s) s))

theorem pinLevel_done {s : State} (live : s.disposed = false) (accepted : s.accept = true) (high : Bool) (ms : Nat) :
    pinLevel high ms s = .done (pinned high ms s) := by
  change (flush (emit (pinCommand high s) s)).andThen _ = _
  rw [flush_done (s := emit (pinCommand high s) s) live accepted]
  rfl

theorem pinLevel_failed {s : State} (live : s.disposed = false) (failed : s.accept = false) (high : Bool) (ms : Nat) :
    pinLevel high ms s = .raise .communicationError (emit [0x87] (emit (pinCommand high s) s)) := by
  change (flush (emit (pinCommand high s) s)).andThen _ = _
  rw [flush_failed (s := emit (pinCommand high s) s) live failed]
  rfl

theorem leaves_recordDelay (ms : Nat) (s : State) :
    Leaves s (recordDelay ms s) { s.block with trace := s.trace ++ delayEvents ms } [] := by
  constructor <;> simp [State.block, delayEvents]

theorem leaves_pinned (high : Bool) (ms : Nat) (s : State) : Leaves s (pinned high ms s)
    { s.block with wbuf := [], trace := s.trace ++ (.tx (s.wbuf ++ pinCommand high s ++ [0x87]) :: delayEvents ms) }
    (s.wbuf ++ pinCommand high s ++ [0x87]) :=
  (((leaves_emit (pinCommand high s) s).trans (leaves_flushed _)).trans (leaves_recordDelay ms _)).congr
    (by simp [State.block, flushed]) (by simp)

theorem leaves_pinFailed (high : Bool) (s : State) : Leaves s (emit [0x87] (emit (pinCommand high s) s))
    { s.block with wbuf := s.wbuf ++ pinCommand high s ++ [0x87] } [] :=
  (leaves_emit (pinCommand high s) s).trans (leaves_emit [0x87] _)

theorem pinned_disposed (high : Bool) (ms : Nat) (s : State) : (pinned high ms s).disposed = s.disposed := by
  simp [pinned, flushed]

theorem Leaves.sameRequesters {s t : State} {b : Block} {sent : List Byte} (h : Leaves s t b sent) : SameRequesters s t :=
  ⟨h.cur, h.reqs⟩

theorem sameRequesters_pinned (high : Bool) (ms : Nat) (s : State) : SameRequesters s (pinned high ms s) :=
  (leaves_pinned high ms s).sameRequesters

theorem exec_hwReset {s : State} (live : s.disposed = false) : exec .hwReset s =
    start { steps := [.pinLevel false 2, .pinLevel true 2, .pinLevel false 0] } s := by
  change execHwReset s = _
  simp [execHwReset, live]

/-- A level with another level to come. -/
theorem advance_pinLevel {s : State} (hcur : s.cur < s.reqs.length) (live : s.disposed = false) (accepted : s.accept = true)
    {high : Bool} {ms : Nat} {a : Atom} {rest : List Atom} :
    advance (beginTask { steps := .pinLevel high ms :: a :: rest } s) =
      .next (beginTask { steps := a :: rest } (pinned high ms s)) :=
  advance_plain hcur rfl rfl (pinLevel_done live accepted high ms)

/-- A level whose transfer fails. -/
theorem advance_pinLevel_failed {s : State} (hcur : s.cur < s.reqs.length) (live : s.disposed = false)
    (failed : s.accept = false) {high : Bool} {ms : Nat} {rest : List Atom} :
    advance (beginTask { steps := .pinLevel high ms :: rest } s) =
      .next (respond .communicationError [] (emit [0x87] (emit (pinCommand high s) s))) :=
  advance_plain_raise hcur rfl rfl (pinLevel_failed live failed high ms) (leaves_pinFailed high s).sameRequesters

/-- Settles O44: three levels, each a GPIO command with its flush and its delay. -/
theorem hardwareReset : Obligations.HardwareReset := by
  unfold Obligations.HardwareReset
  refine fun s hcur => ⟨fun live accepted => ?_, fun disposed => ?_⟩
  · let low := pinned false 2 s
    let high := pinned true 2 low
    have hlow := leaves_pinned false 2 s
    have hhigh := hlow.trans (leaves_pinned true 2 low)
    have hall := hhigh.trans (leaves_pinned false 0 high)
    have hcur1 := hlow.sameRequesters.cur_lt hcur
    have hcur2 := hhigh.sameRequesters.cur_lt hcur
    have live1 : low.disposed = false := (pinned_disposed _ _ _).trans live
    have live2 : high.disposed = false := (pinned_disposed _ _ _).trans live1
    refine endsAfter_of_advances (t := respond .ok [] (pinned false 0 high)) (exec_hwReset live) ?_ ?_
    · rw [advances_cons (advance_pinLevel hcur live accepted),
        advances_cons (advance_pinLevel hcur1 live1 (hlow.accept.trans accepted)), advances_one]
      exact advance_plain_last hcur2 rfl rfl (pinLevel_done live2 (hhigh.accept.trans accepted) false 0)
        (sameRequesters_pinned false 0 high)
    · refine (hall.congr ?_ ?_).ends .ok []
      · simp [low, high, pinCommand, pinned, flushed, State.block, delayEvents, gpioOp]
      · simp [low, high, pinCommand, pinned, flushed, gpioOp]
  · exact endsAtOnce_of_next (by change execHwReset s = _; simp [execHwReset, disposed]) (leaves_refl s)

/-! ### The read sequence -/

theorem targetPins_ne_zero {s : State} (h : popcount s.targetPins = 1) : s.targetPins ≠ 0 := by
  intro hzero
  rw [hzero] at h
  exact absurd h (by decide)

theorem oneChipSelected_true {s : State} (h : popcount s.targetPins = 1) : oneChipSelected s = true := by
  simp [oneChipSelected, h]

theorem readFlush_eq_flush {s : State} (live : s.disposed = false) (hone : popcount s.targetPins = 1) :
    readFlush s = flush s := by
  simp [readFlush, live, noTarget_false (targetPins_ne_zero hone), oneChipSelected_true hone]

theorem readFlush_refused {s : State} (h : s.disposed = true ∨ s.targetPins = 0) :
    readFlush s = .raise .communicationError s := by
  rcases Bool.eq_false_or_eq_true s.disposed with disposed | live
  · simp [readFlush, disposed]
  · rcases h with h | h
    · rw [live] at h; cases h
    · simp [readFlush, live, noTarget_true h]

theorem readFlush_not_one {s : State} (live : s.disposed = false) (hpins : s.targetPins ≠ 0)
    (hmany : popcount s.targetPins ≠ 1) : readFlush s = .raise .invalidOperation s := by
  simp [readFlush, live, noTarget_false hpins, oneChipSelected, hmany]

/-- The queue purged and the read frame queued (R228). -/
def readQueued (addr : Byte) (s : State) : State := emit (readFrame addr s) (record .rxPurge { s with rxq := [] })

theorem leaves_readQueued (addr : Byte) (s : State) : Leaves s (readQueued addr s)
    { s.block with wbuf := s.wbuf ++ readFrame addr s, rxq := [], trace := s.trace ++ [.rxPurge] } [] :=
  ⟨rfl, by simp [readQueued], rfl, rfl, rfl, rfl, rfl, rfl⟩

/-- The read frame sent (R228). -/
def readIssued (addr : Byte) (s : State) : State := flushed (readQueued addr s)

theorem readIssue_done {s : State} (live : s.disposed = false) (accepted : s.accept = true) (addr : Byte) :
    readIssue addr s = .done (readIssued addr s) := flush_done (s := readQueued addr s) live accepted

theorem leaves_readIssued (addr : Byte) (s : State) : Leaves s (readIssued addr s)
    { s.block with
      wbuf := [], rxq := [], trace := s.trace ++ [.rxPurge, .tx (s.wbuf ++ readFrame addr s ++ [0x87])] }
    (s.wbuf ++ readFrame addr s ++ [0x87]) :=
  ((leaves_readQueued addr s).trans (leaves_flushed _)).congr (by simp [readQueued, State.block]) (by simp [readQueued])

/-- The first two bytes of the receive queue taken (R228). -/
def tookBytes (b0 b1 : Byte) (rest : List Byte) (s : State) : State := record (.rxTake b0 b1) { s with rxq := rest }

/-- What the take step makes of the second byte: T_READ's one value, REGGET's two (R228, R258). -/
def takeValues (s : State) : Atom → Byte → List Value
  | .regTake sub, b => [.byte b, .fields (unpackReg s sub b)]
  | _, b => [.byte b]

/-- The take steps of T_READ and REGGET. -/
def Atom.isTake : Atom → Bool
  | .readTake | .regTake _ => true
  | _ => false

theorem runAtom_take {a : Atom} (ha : a.isTake = true) (task : Task) {s : State} {b0 b1 : Byte} {rest : List Byte}
    (hrxq : s.rxq = b0 :: b1 :: rest) : runAtom a (beginTask task s) =
      .done (beginTask { task with values := takeValues s a b1 } (tookBytes b0 b1 rest s)) := by
  cases a with
  | readTake =>
    simp only [runAtom, readTake, beginTask_rxq, hrxq]
    exact congrArg Run.done (updateTask_beginTask _ task (tookBytes b0 b1 rest s))
  | regTake sub =>
    simp only [runAtom, readTake, beginTask_rxq, hrxq]
    exact congrArg Run.done (updateTask_beginTask _ task (tookBytes b0 b1 rest s))
  | _ => cases ha

theorem runAtom_take_holds {a : Atom} (ha : a.isTake = true) {s : State} (hrxq : s.rxq.length < 2) :
    runAtom a s = .hold := by
  have hhold : ∀ result, readTake result s = .hold := by
    intro result
    unfold readTake
    split
    · next h => simp [h] at hrxq
    · rfl
  cases a with
  | readTake => exact hhold _
  | regTake sub => exact hhold _
  | _ => cases ha

theorem advance_of_hold {s : State} {task : Task} {a : Atom} {rest : List Atom} (htask : myTask s = some task)
    (hsteps : task.steps = a :: rest) (hrun : runAtom a s = .hold) : advance s = .next s := by
  simp only [advance, htask, hsteps, hrun, settle]

/-- Settles O56: the guards of the two steps. -/
theorem heldSteps : Obligations.HeldSteps := by
  unfold Obligations.HeldSteps
  refine ⟨fun s task chip rest p htask hsteps hmode howner => ?_, fun s task rest sub htask hsteps hrxq => ?_⟩
  · exact advance_of_hold htask hsteps (by simp [runAtom, acquire, lockFree, hmode, howner])
  · rcases hsteps with hsteps | hsteps
    · exact advance_of_hold htask hsteps (runAtom_take_holds rfl hrxq)
    · exact advance_of_hold htask hsteps (runAtom_take_holds rfl hrxq)

/-- An operation that waits for its reply holds while fewer than two bytes are there. -/
theorem advance_take_holds {s : State} (hcur : s.cur < s.reqs.length) {a : Atom} (ha : a.isTake = true) {task : Task}
    {rest : List Atom} (hsteps : task.steps = a :: rest) (hrxq : s.rxq.length < 2) :
    advance (beginTask task s) = .next (beginTask task s) :=
  advance_of_hold (myTask_beginTask hcur task) hsteps (runAtom_take_holds ha hrxq)

/-- The steps of T_READ (R228). -/
def readTask (addr : Byte) : Task := { steps := readSteps addr .readTake }

section
variable {s : State} (hcur : s.cur < s.reqs.length) (live : s.disposed = false) (hone : popcount s.targetPins = 1)
include hcur live hone

theorem advance_readTask (accepted : s.accept = true) (addr : Byte) : advance (beginTask (readTask addr) s) =
    .next (beginTask { steps := [.readIssue addr, .readTake] } (flushed s)) :=
  advance_plain hcur rfl rfl ((readFlush_eq_flush live hone).trans (flush_done live accepted))

omit hone in
theorem advance_readIssue (accepted : s.accept = true) (addr : Byte) :
    advance (beginTask { steps := [.readIssue addr, .readTake] } (flushed s)) =
      .next (beginTask { steps := [.readTake] } (readIssued addr (flushed s))) :=
  advance_plain ((leaves_flushed s).sameRequesters.cur_lt hcur) rfl rfl
    (readIssue_done (s := flushed s) live accepted addr)

end

theorem leaves_flushed_readIssued (addr : Byte) (s : State) : Leaves s (readIssued addr (flushed s))
    { s.block with
      wbuf := [], rxq := [],
      trace := s.trace ++ [.tx (s.wbuf ++ [0x87]), .rxPurge, .tx (readFrame addr s ++ [0x87])] }
    (s.wbuf ++ [0x87] ++ (readFrame addr s ++ [0x87])) := by
  have hframe : readFrame addr (flushed s) = readFrame addr s := rfl
  refine ((leaves_flushed s).trans (leaves_readIssued addr (flushed s))).congr ?_ ?_ <;> rw [hframe]
  · simp [flushed, State.block]
  · rfl

/-- The reply received and its first two bytes taken. -/
theorem leaves_tookBytes (b0 b1 : Byte) (rest : List Byte) (s : State) :
    Leaves s (tookBytes b0 b1 rest (receive (b0 :: b1 :: rest) s))
      { s.block with rxq := rest, trace := s.trace ++ [.rxTake b0 b1] } [] :=
  ⟨rfl, by simp [tookBytes], rfl, rfl, rfl, rfl, rfl, rfl⟩

theorem advance_take_receive {s : State} (hcur : s.cur < s.reqs.length) (hrxq : s.rxq = []) {a : Atom} (ha : a.isTake = true)
    {task : Task} {more : Atom} {steps : List Atom} (hsteps : task.steps = a :: more :: steps) (b0 b1 : Byte)
    (rest : List Byte) : advance (receive (b0 :: b1 :: rest) (beginTask task s)) =
      .next (beginTask { task with values := takeValues s a b1, steps := more :: steps }
        (tookBytes b0 b1 rest (receive (b0 :: b1 :: rest) s))) :=
  advance_of_done (s := receive (b0 :: b1 :: rest) s) hcur hsteps
    (runAtom_take ha task (s := receive (b0 :: b1 :: rest) s) (by simp [hrxq]))

theorem advance_last_take_receive {s : State} (hcur : s.cur < s.reqs.length) (hrxq : s.rxq = []) {a : Atom}
    (ha : a.isTake = true) {task : Task} (hsteps : task.steps = [a]) (b0 b1 : Byte) (rest : List Byte) :
    advance (receive (b0 :: b1 :: rest) (beginTask task s)) = .next (respond task.verdict (takeValues s a b1)
      (tookBytes b0 b1 rest (receive (b0 :: b1 :: rest) s))) :=
  advance_of_last (s := receive (b0 :: b1 :: rest) s) hcur hsteps
    (runAtom_take ha task (s := receive (b0 :: b1 :: rest) s) (by simp [hrxq])) hcur

/-- Settles O43: the three steps of T_READ; the reply reaches the receive queue while the third holds. -/
theorem transportRead : Obligations.TransportRead := by
  unfold Obligations.TransportRead
  refine fun s addr hcur => ⟨fun live accepted hone => ?_, fun refused => ?_, fun live hpins hmany => ?_⟩
  · let u := readIssued addr (flushed s)
    have hleaves : Leaves s u _ _ := leaves_flushed_readIssued addr s
    have hwait := hleaves.sameRequesters.cur_lt hcur
    have hrxq : u.rxq = [] := congrArg Block.rxq hleaves.block
    refine ⟨_, beginTask { steps := [.readTake] } u, advance_readTask hcur live hone accepted addr,
      (advances_one _).trans (advance_readIssue hcur live accepted addr), hrxq, ?_, fun b => ?_, fun b0 b1 rest => ?_⟩
    · exact advance_take_holds hwait rfl rfl (by simp [hrxq])
    · exact advance_take_holds (s := receive [b] u) hwait rfl rfl (by simp [hrxq])
    · refine ⟨_, (advances_one _).trans (advance_last_take_receive hwait hrxq rfl rfl b0 b1 rest), ?_⟩
      have htrace : u.trace = _ := congrArg Block.trace hleaves.block
      refine ((hleaves.trans (leaves_tookBytes b0 b1 rest u)).congr ?_ (by simp)).ends .ok [.byte b1]
      rw [hleaves.block, htrace]
      simp
  · exact endsAtOnce_of_start_raise (task := readTask addr) hcur rfl rfl rfl rfl (readFlush_refused refused) (leaves_refl s)
  · exact endsAtOnce_of_start_raise (task := readTask addr) hcur rfl rfl rfl rfl (readFlush_not_one live hpins hmany)
      (leaves_refl s)

/-! ### Transfers that fail -/

/-- A register write whose transfer fails: the frame stays queued with the 87 behind it (R227, R328). -/
theorem drvWrite_failed {s : State} (live : s.disposed = false) (hpins : s.targetPins ≠ 0) (hmode : s.sectionMode = false)
    (failed : s.accept = false) (addr data : Byte) :
    drvWrite addr data s = .raise .communicationError (emit [0x87] (emit (writeFrame addr [data] s) s)) := by
  rw [drvWrite, queueWrite_done live hpins, Run.andThen_done, autoFlush, if_neg (by simp [hmode]),
    flush_failed (s := emit _ s) live failed]
  rfl

theorem leaves_writeFailed (addr data : Byte) (s : State) : Leaves s (emit [0x87] (emit (writeFrame addr [data] s) s))
    { s.block with wbuf := s.wbuf ++ writeFrame addr [data] s ++ [0x87] } [] :=
  (leaves_emit _ s).trans (leaves_emit [0x87] _)

/-- A write that is flushed at once, followed by a turn in which the environment refuses transfers. -/
theorem wrote_of_not_sectionMode {s : State} (hmode : s.sectionMode = false) (addr : Byte) (data : List Byte) :
    wrote addr data s = flushed (emit (writeFrame addr data s) s) := by simp [wrote, hmode]

/-- The setters of two registers are the ones that begin with `setRegPair` at those addresses (R272). -/
theorem exec_registerPair {i : Instr} {addr addr' : Byte} (h : i.registerPair = some (addr, addr')) :
    ∃ args, ∀ s, exec i s = setRegPair addr addr' args s := by
  cases i with
  | setSeqvolSize | setFnumBlock | setFmult | setSeqTime => cases h; exact ⟨_, fun _ => rfl⟩
  | _ => cases h

/-- What the operation left before the environment refuses transfers is left after it, too. -/
theorem Leaves.refuse {s t : State} {b : Block} {sent : List Byte} (h : Leaves s t b sent) :
    Leaves { s with accept := false } { t with accept := false } b sent :=
  ⟨h.block, h.bridge, h.cfg, h.turns, h.cur, rfl, h.reply, h.reqs⟩

theorem failedWrite (s : State) (addr data : Byte) (live : s.disposed = false) (hpins : s.targetPins ≠ 0)
    (hmode : s.sectionMode = false) (failed : s.accept = false) : EndsAtOnce (.write addr data) s .communicationError []
      { s.block with wbuf := s.wbuf ++ writeFrame addr [data] s ++ [0x87] } [] :=
  endsAtOnce_of_raise rfl (drvWrite_failed live hpins hmode failed addr data) (leaves_writeFailed addr data s)

theorem failedFlushThenFlush (s : State) (live : s.disposed = false) (failed : s.accept = false) :
    ∃ t, exec .flush s = .next t ∧ EndsAtOnce .flush { t with accept := true } .ok []
      { s.block with wbuf := [], trace := s.trace ++ [.tx (s.wbuf ++ [0x87, 0x87])] } (s.wbuf ++ [0x87, 0x87]) := by
  refine ⟨respond .communicationError [] (emit [0x87] s), ?_, ?_⟩
  · change complete s (flush s) = _
    rw [flush_failed live failed]
    rfl
  · have h := leaves_flushed { respond .communicationError [] (emit [0x87] s) with accept := true }
    exact endsAtOnce_of_done rfl (flush_done live rfl) (by simpa [State.block] using h)

theorem failedSecondWrite (s : State) (i : Instr) (addr addr' : Byte) (hpair : i.registerPair = some (addr, addr'))
    (hcur : s.cur < s.reqs.length) (live : s.disposed = false) (hpins : s.targetPins ≠ 0) (hmode : s.sectionMode = false)
    (accepted : s.accept = true) : ∃ byte byte', SetsRegisterPair i addr byte addr' byte' s ∧
      let first := s.wbuf ++ writeFrame addr [byte] s ++ [0x87]
      ∃ t t', exec i s = .next t ∧ advance { t with accept := false } = .next t' ∧
        Ends { s with accept := false } t' .communicationError []
          { s.block with wbuf := writeFrame addr' [byte'] s ++ [0x87], trace := s.trace ++ [.tx first] } first := by
  obtain ⟨args, hexec⟩ := exec_registerPair hpair
  have hw : CanWrite s := ⟨live, hpins, fun _ => accepted⟩
  refine ⟨regByte s addr args, regByte s addr' args, setsRegisterPair_of_exec hcur hw (hexec s), ?_⟩
  let u := flushed (emit (writeFrame addr [regByte s addr args] s) s)
  have hu : wrote addr [regByte s addr args] s = u := wrote_of_not_sectionMode hmode addr _
  have hleaves : Leaves s u _ _ := (leaves_emit (writeFrame addr [regByte s addr args] s) s).trans (leaves_flushed _)
  have hfirst := advance_pairTask hcur hw addr addr' (regByte s addr args) (regByte s addr' args)
  rw [hu] at hfirst
  refine ⟨_, _, (hexec s).trans hfirst, advance_plain_raise (s := { u with accept := false })
    (hleaves.sameRequesters.cur_lt hcur) rfl rfl
    (drvWrite_failed (s := { u with accept := false }) live hpins hmode rfl addr' (regByte s addr' args))
    (leaves_writeFailed addr' _ _).sameRequesters, ?_⟩
  refine ((hleaves.refuse.trans (leaves_writeFailed addr' (regByte s addr' args) { u with accept := false })).congr
    ?_ (by simp)).ends .communicationError []
  simp [u, flushed, State.block, writeFrame, csEnable, csDisable]

theorem failedHwReset (s : State) (hcur : s.cur < s.reqs.length) (live : s.disposed = false) :
    let b := s.cfg.board
    let g : Byte := if b.icBankHigh then 0x82 else 0x80
    let low := [g, b.icValueLow, b.icDir, 0x87]
    let high := [g, b.icValueHigh, b.icDir, 0x87]
    (s.accept = false → EndsAtOnce .hwReset s .communicationError [] { s.block with wbuf := s.wbuf ++ low } []) ∧
    (s.accept = true → ∃ t, exec .hwReset s = .next t ∧
      (∃ t', advance { t with accept := false } = .next t' ∧ Ends { s with accept := false } t' .communicationError []
        { s.block with wbuf := high, trace := s.trace ++ [.tx (s.wbuf ++ low), .delay 2] } (s.wbuf ++ low)) ∧
      ∃ t' t'', advance t = .next t' ∧ advance { t' with accept := false } = .next t'' ∧
        Ends { s with accept := false } t'' .communicationError []
          { s.block with
            wbuf := low, trace := s.trace ++ [.tx (s.wbuf ++ low), .delay 2, .tx high, .delay 2] }
          (s.wbuf ++ low ++ high)) := by
  intro b g low high
  refine ⟨fun failed => ?_, fun accepted => ?_⟩
  · exact endsAtOnce_of_start_raise (a := .pinLevel false 2) hcur rfl rfl rfl (exec_hwReset live)
      (pinLevel_failed live failed false 2) ((leaves_pinFailed false s).congr (by simp [pinCommand, gpioOp, low, g, b]) rfl)
  · let first := pinned false 2 s
    let second := pinned true 2 first
    have hfirst := leaves_pinned false 2 s
    have hsecond := hfirst.trans (leaves_pinned true 2 first)
    have hcur1 := hfirst.sameRequesters.cur_lt hcur
    have live1 : first.disposed = false := (pinned_disposed _ _ _).trans live
    have live2 : second.disposed = false := (pinned_disposed _ _ _).trans live1
    refine ⟨beginTask { steps := [.pinLevel true 2, .pinLevel false 0] } first,
      (exec_hwReset live).trans (advance_pinLevel hcur live accepted), ⟨_, advance_pinLevel_failed
        (s := { first with accept := false }) hcur1 live1 rfl, ?_⟩, beginTask { steps := [.pinLevel false 0] } second, _,
      advance_pinLevel hcur1 live1 (hfirst.accept.trans accepted), advance_pinLevel_failed
        (s := { second with accept := false }) (hsecond.sameRequesters.cur_lt hcur) live2 rfl, ?_⟩
    · refine ((hfirst.refuse.trans (leaves_pinFailed true { first with accept := false })).congr ?_ ?_).ends
        .communicationError []
      · simp [first, pinCommand, pinned, flushed, State.block, gpioOp, low, high, g, b]
      · simp [pinCommand, gpioOp, low, g, b]
    · refine ((hsecond.refuse.trans (leaves_pinFailed false { second with accept := false })).congr ?_ ?_).ends
        .communicationError []
      · simp [first, second, pinCommand, pinned, flushed, State.block, gpioOp, low, high, g, b]
      · simp [first, pinCommand, pinned, flushed, gpioOp, low, high, g, b]

theorem failedTRead (s : State) (addr : Byte) (hcur : s.cur < s.reqs.length) (live : s.disposed = false)
    (hone : popcount s.targetPins = 1) :
    (s.accept = false → EndsAtOnce (.tRead addr) s .communicationError []
      { s.block with wbuf := s.wbuf ++ [0x87] } []) ∧
    (s.accept = true → ∃ t t', exec (.tRead addr) s = .next t ∧ advance { t with accept := false } = .next t' ∧
      Ends { s with accept := false } t' .communicationError []
        { s.block with
          wbuf := readFrame addr s ++ [0x87], rxq := [], trace := s.trace ++ [.tx (s.wbuf ++ [0x87]), .rxPurge] }
        (s.wbuf ++ [0x87])) := by
  refine ⟨fun failed => ?_, fun accepted => ?_⟩
  · exact endsAtOnce_of_start_raise (task := readTask addr) hcur rfl rfl rfl rfl
      ((readFlush_eq_flush live hone).trans (flush_failed live failed)) (leaves_emit [0x87] s)
  · let u : State := { flushed s with accept := false }
    have hleaves := ((leaves_flushed s).refuse.trans (leaves_readQueued addr u)).trans (leaves_emit [0x87] _)
    refine ⟨_, _, advance_readTask hcur live hone accepted addr, advance_plain_raise (s := u)
      ((leaves_flushed s).sameRequesters.cur_lt hcur) rfl rfl (flush_failed (s := readQueued addr u) live rfl)
      ((leaves_readQueued addr u).trans (leaves_emit [0x87] _)).sameRequesters, ?_⟩
    exact (hleaves.congr (by simp [u, flushed, readQueued, State.block, readFrame, csEnable, csDisable]) (by simp)).ends
      .communicationError []

/-- Settles O45: the failing steps of each form, one lemma each. -/
theorem failedTransfer : Obligations.FailedTransfer := by
  unfold Obligations.FailedTransfer
  exact ⟨failedWrite, failedFlushThenFlush, failedSecondWrite, failedHwReset, failedTRead⟩

/-! ### Writes that are refused -/

/-- A register setter is one write or two (R284). -/
theorem exec_setter {i : Instr} {c : Command} (hencode : encode i = .command c)
    (hheader : c.header.extractLsb' 8 8 = 0x68#8) :
    (∃ addr args, ∀ s, exec i s = setReg addr args s) ∨ ∃ addr addr' args, ∀ s, exec i s = setRegPair addr addr' args s := by
  have hregget : ∀ sub : Byte, ((0x6900 : Header) ||| sub.setWidth 16).extractLsb' 8 8 ≠ 0x68#8 := by decide
  cases i with
  | setClke | setAlrst | setApd | setGain | setSeq | setVoiceNum | setVoiceVol | setToneCtrl | setChVol | setVib
  | setMuteItp | setMasterVol | setSoftreset | setVolItp | setLfoRst | setDrvSel | setTest => exact .inl ⟨_, _, fun _ => rfl⟩
  | setSeqvolSize | setFnumBlock | setFmult | setSeqTime => exact .inr ⟨_, _, _, fun _ => rfl⟩
  | regget sub target => cases hencode; exact absurd hheader (hregget sub)
  | gpioLow | gpioHigh | spiWrite | spiRead | streamFlush => cases hencode
  | _ => cases hencode; exact absurd hheader (by dsimp only; decide)

/-- Settles O59: every one of these operations queues its first frame by `queueWrite`. -/
theorem refusedWrites : Obligations.RefusedWrites := by
  unfold Obligations.RefusedWrites
  refine fun s refused hcur => ⟨fun addr data => ⟨?_, ?_⟩, fun addr bytes offset count h1 h2 h3 h4 => ?_, fun tone => ?_,
    fun band coefs block hblock => ?_, fun i c hencode hheader => ?_⟩
  · exact endsAtOnce_of_refused rfl (queueWrite_refused refused addr _)
  · exact endsAtOnce_of_refused rfl (drvWrite_refused refused addr data)
  · have hlegal := burstOk_eq_true h1 h2 h3 h4
    exact ⟨endsAtOnce_of_refused rfl ((queueBurst_legal hlegal addr s).trans (queueWrite_refused refused addr _)),
      endsAtOnce_of_refused rfl (drvBurst_refused refused hlegal addr)⟩
  · obtain ⟨h1, h2⟩ := toneBlob_length_le s.cfg s.x tone
    exact endsAtOnce_of_refused (exec_writeContents tone s) (drvBurst_whole_refused refused h1 h2 _)
  · have hlen := packBand_length hblock
    exact endsAtOnce_of_refused (exec_setEq band hblock) (drvBurst_whole_refused refused (by omega) (by omega) _)
  · rcases exec_setter hencode hheader with ⟨addr, args, hexec⟩ | ⟨addr, addr', args, hexec⟩
    · exact endsAtOnce_of_refused (hexec s) (drvWrite_refused refused addr _)
    · exact endsAtOnce_of_start_raise (a := .drvWrite addr (regByte s addr args)) hcur rfl rfl rfl (hexec s)
        (drvWrite_refused refused addr _) (leaves_refl s)

end Sys2Proof.Machine
end

section
/-!
PROOFS. The section lock (spec/45_section.md): SEC_BEGIN (R303), SEC_END (R304), `release` (R305), SECTION as one unit (R125, R306).
-/
namespace Sys2Proof.Machine

/-! ### The steps that mark the task -/

/-- The lock is free for the caller to take (R303). -/
def LockIsFree (s : State) : Prop := s.sectionMode = true → s.owner = none

theorem lockFree_true {s : State} (h : LockIsFree s) : lockFree s = true := by
  cases hmode : s.sectionMode
  · simp [lockFree, hmode]
  · simp [lockFree, hmode, h hmode]

theorem callerOwns_false {s : State} (h : s.sectionMode = true → s.owner ≠ some s.cur) : callerOwns s = false := by
  cases hmode : s.sectionMode
  · simp [callerOwns, hmode]
  · simp [callerOwns, hmode, h hmode]

theorem LockIsFree.not_mine {s : State} (h : LockIsFree s) : s.sectionMode = true → s.owner ≠ some s.cur := by
  intro hmode
  simp [h hmode]

theorem enterCheck_done {s : State} (h : s.sectionMode = true → s.owner ≠ some s.cur) : enterCheck s = .done s := by
  simp [enterCheck, callerOwns_false h]

theorem enterCheck_refused {s : State} (hmode : s.sectionMode = true) (howner : s.owner = some s.cur) :
    enterCheck s = .raise .invalidOperation s := by
  simp [enterCheck, callerOwns, hmode, howner]

theorem takeLock_beginTask (task : Task) (s : State) : takeLock (beginTask task s) = beginTask task (takeLock s) := by
  unfold takeLock
  rw [beginTask_sectionMode]
  split <;> rfl

theorem dropLock_beginTask (task : Task) (s : State) : dropLock (beginTask task s) = beginTask task (dropLock s) := by
  unfold dropLock
  rw [beginTask_sectionMode]
  split <;> rfl

/-- The SECTION a requester is inside notes that its SEC_BEGIN has passed its acquire step (R306). -/
def markUnit (s : State) : State := updateMe (fun r => { r with unit := r.unit.map fun u => { u with acquired := true } }) s

theorem runAtom_acquire_guarded {s : State} (hfree : LockIsFree s) {task : Task} (hguarded : task.guarded = true)
    (chip : Chip) : runAtom (.acquire chip) (beginTask task s) =
      (enterTarget chip (takeLock s)).onState (beginTask { task with acquired := true }) := by
  change acquire chip (beginTask task s) = _
  have hlock : lockFree (beginTask task s) = true := lockFree_true hfree
  rw [acquire, if_pos hlock, takeLock_beginTask, markAcquired_guarded hguarded]
  exact enterTarget_updateMe _ _ chip

theorem runAtom_acquire_plain {s : State} (hfree : LockIsFree s) {task : Task} (hguarded : task.guarded = false)
    (chip : Chip) : runAtom (.acquire chip) (beginTask task s) =
      (enterTarget chip (takeLock s)).onState fun u => beginTask task (markUnit u) := by
  change acquire chip (beginTask task s) = _
  have hlock : lockFree (beginTask task s) = true := lockFree_true hfree
  rw [acquire, if_pos hlock, takeLock_beginTask, markAcquired_plain hguarded]
  have h1 := enterTarget_updateMe (fun r => { r with task := some task, response := none }) (markUnit (takeLock s)) chip
  have h2 : enterTarget chip (markUnit (takeLock s)) = _ := enterTarget_updateMe _ (takeLock s) chip
  rw [h2] at h1
  refine h1.trans ?_
  cases enterTarget chip (takeLock s) <;> rfl

theorem runAtom_release {s t : State} (hrestore : restoreTarget s = .done t) (task : Task) :
    runAtom .release (beginTask task s) = .done (beginTask { task with acquired := false } (dropLock t)) := by
  have h : restoreTarget (beginTask task s) = .done (beginTask task t) := by
    have := restoreTarget_updateMe (fun r => { r with task := some task, response := none }) s
    rwa [hrestore] at this
  change (restoreTarget (beginTask task s)).andThen _ = _
  rw [h, Run.andThen_done, dropLock_beginTask, updateTask_beginTask]

theorem sameRequesters_takeLock (s : State) : SameRequesters s (takeLock s) := ⟨takeLock_cur s, takeLock_reqs s⟩

theorem sameRequesters_dropLock (s : State) : SameRequesters s (dropLock s) := ⟨dropLock_cur s, dropLock_reqs s⟩

theorem leaves_takeLock (s : State) : Leaves s (takeLock s)
    { s.block with
      entered := if s.sectionMode then s.entered + 1 else s.entered
      owner := if s.sectionMode then some s.cur else s.owner } [] := by
  constructor <;> simp [State.block]

theorem leaves_dropLock (s : State) :
    Leaves s (dropLock s) { s.block with owner := if s.sectionMode then none else s.owner } [] := by
  constructor <;> simp [State.block]

/-! ### Entering and restoring a target -/

/-- The target of a section entered: the former one saved, the new one selected (R303). -/
def enteredTarget (chip : Chip) (pins : Byte) (s : State) : State :=
  switchTarget chip pins { s with savedTarget := some s.target }

theorem enterTarget_none (s : State) : enterTarget 0 s = .done s := by simp [enterTarget]

theorem enterTarget_done {s : State} {chip : Chip} {pins : Byte} (hchip : chip ≠ 0)
    (hpins : mapLookup s.csmap chip = some pins) : enterTarget chip s = .done (enteredTarget chip pins s) := by
  simp only [enterTarget, if_neg hchip, hpins, enteredTarget]

theorem enterTarget_refused {s : State} {chip : Chip} (hchip : chip ≠ 0) (hnone : mapLookup s.csmap chip = none) :
    enterTarget chip s = .raise .rangeError { s with savedTarget := some s.target } := by
  simp only [enterTarget, if_neg hchip, hnone]

theorem leaves_enteredTarget (chip : Chip) (pins : Byte) (s : State) : Leaves s (enteredTarget chip pins s)
    { s.block with savedTarget := some s.target, target := chip, targetPins := pins } [] :=
  ⟨rfl, by simp [enteredTarget], rfl, rfl, rfl, rfl, rfl, rfl⟩

theorem leaves_savedTarget (s : State) : Leaves s { s with savedTarget := some s.target }
    { s.block with savedTarget := some s.target } [] := ⟨rfl, by simp, rfl, rfl, rfl, rfl, rfl, rfl⟩

/-- The target that `release` leaves selected (R305). -/
def restored (back : Chip) (pins : Byte) (s : State) : State :=
  { s with target := back, targetPins := pins, savedTarget := none }

theorem restoreTarget_none {s : State} (h : s.savedTarget = none) : restoreTarget s = .done s := by
  simp [restoreTarget, h]

/-- The saved target comes back; with none saved the target stays, which is to say that it comes back itself. -/
theorem restoreTarget_done {s : State} {back : Chip} {pins : Byte} (hback : back = s.savedTarget.getD s.target)
    (hpins : mapLookup s.csmap back = some pins) (htarget : mapLookup s.csmap s.target = some s.targetPins) :
    restoreTarget s = .done (restored back pins s) := by
  cases hsaved : s.savedTarget with
  | none =>
    obtain rfl : back = s.target := by simpa [hsaved] using hback
    obtain rfl : s.targetPins = pins := by simpa [htarget] using hpins
    have hsame : restored s.target s.targetPins s = s := by rw [restored, ← hsaved]
    rw [restoreTarget_none hsaved, hsame]
  | some chip =>
    obtain rfl : back = chip := by simpa [hsaved] using hback
    simp only [restoreTarget, hsaved, hpins]
    rfl

theorem leaves_restored (back : Chip) (pins : Byte) (s : State) : Leaves s (restored back pins s)
    { s.block with target := back, targetPins := pins, savedTarget := none } [] :=
  ⟨rfl, by simp [restored], rfl, rfl, rfl, rfl, rfl, rfl⟩

/-! ### SEC_BEGIN -/

/-- SEC_BEGIN's task (R303). -/
def beginSection (chip : Chip) : Task := { steps := [.enterCheck, .acquire chip] }

theorem advance_beginSection {s : State} (hcur : s.cur < s.reqs.length)
    (h : s.sectionMode = true → s.owner ≠ some s.cur) (chip : Chip) :
    advance (beginTask (beginSection chip) s) = .next (beginTask { steps := [.acquire chip] } s) :=
  advance_plain hcur rfl rfl (enterCheck_done h)

/-- An operation that ends after its SECTION has been marked. -/
theorem Leaves.ends_markUnit {s t : State} {b : Block} {sent : List Byte} (h : Leaves s t b sent) (e : Status) :
    Ends s (respond e [] (markUnit t)) e [] b sent := by
  have hends := ends_respond_of (s := s) (s' := markUnit t) e []
    (fun r => { r with unit := r.unit.map fun u => { u with acquired := true } }) h.block h.bridge h.cfg h.turns h.cur
    h.accept h.reply (by simp [markUnit, h.reqs, h.cur]) fun r => ⟨rfl, by cases r.unit <;> rfl⟩
  simpa using hends

theorem markUnit_cur_lt {t : State} (h : t.cur < t.reqs.length) : (markUnit t).cur < (markUnit t).reqs.length := by
  simpa [markUnit] using h

section
variable {s t : State} (hcur : s.cur < s.reqs.length) (hfree : LockIsFree s) {chip : Chip}
include hcur hfree

/-- SEC_BEGIN's acquire step where the target switch is done. -/
theorem advance_acquire_done (hrun : enterTarget chip (takeLock s) = .done t) (hsame : SameRequesters s t) :
    advance (beginTask { steps := [.acquire chip] } s) = .next (respond .ok [] (markUnit t)) :=
  advance_of_last (task := { steps := [.acquire chip] }) hcur rfl
    (by rw [runAtom_acquire_plain hfree rfl, hrun, Run.onState_done]) (markUnit_cur_lt (hsame.cur_lt hcur))

theorem advance_acquire_raise {e : Status} (hrun : enterTarget chip (takeLock s) = .raise e t)
    (hsame : SameRequesters s t) : advance (beginTask { steps := [.acquire chip] } s) = .next (respond e [] (markUnit t)) :=
  advance_of_raise (task := { steps := [.acquire chip] }) (task' := { steps := [.acquire chip] }) hcur rfl
    (by rw [runAtom_acquire_plain hfree rfl, hrun, Run.onState_raise]) (markUnit_cur_lt (hsame.cur_lt hcur))

/-- SEC_BEGIN ends with its acquire step. -/
theorem endsAfter_secBegin {e : Status} {b : Block} (hleaves : Leaves (takeLock s) t b [])
    (hadvance : SameRequesters s t →
      advance (beginTask { steps := [.acquire chip] } s) = .next (respond e [] (markUnit t))) :
    EndsAfter 1 (.secBegin chip) s e [] b [] := by
  have hall := (leaves_takeLock s).trans hleaves
  refine endsAfter_of_advances (task := beginSection chip) rfl ?_ (hall.ends_markUnit e)
  rw [advances_cons (advance_beginSection hcur hfree.not_mine chip), advances_one, hadvance hall.sameRequesters]

end

/-- The block with the lock taken, as the claim about SEC_BEGIN states it. -/
theorem takeLock_block (s : State) : (takeLock s).block =
    if s.sectionMode then { s.block with entered := s.entered + 1, owner := some s.cur } else s.block := by
  unfold takeLock
  split <;> rfl

theorem secBegin_refused {s : State} (hcur : s.cur < s.reqs.length) (hmode : s.sectionMode = true)
    (howner : s.owner = some s.cur) (chip : Chip) : EndsAtOnce (.secBegin chip) s .invalidOperation [] s.block [] :=
  endsAtOnce_of_start_raise (task := beginSection chip) hcur rfl rfl rfl rfl (enterCheck_refused hmode howner) (leaves_refl s)

/-- Settles O55: the check, then the three ends of the target switch. -/
theorem sectionBegin : Obligations.SectionBegin := by
  unfold Obligations.SectionBegin
  refine fun s chip hcur => ⟨fun hfree => ?_, fun hmode howner => secBegin_refused hcur hmode howner chip⟩
  intro locked
  have hlocked : (takeLock s).block = locked := takeLock_block s
  have htarget : (takeLock s).target = s.target := takeLock_target s
  refine ⟨fun hchip => ?_, fun pins hchip hpins => ?_, fun hchip hnone => ?_⟩
  · subst hchip
    exact endsAfter_secBegin hcur hfree (hlocked ▸ leaves_refl _) (advance_acquire_done hcur hfree (enterTarget_none _))
  · rw [← takeLock_csmap] at hpins
    exact endsAfter_secBegin hcur hfree (hlocked ▸ htarget ▸ leaves_enteredTarget chip pins _)
      (advance_acquire_done hcur hfree (enterTarget_done hchip hpins))
  · rw [← takeLock_csmap] at hnone
    exact endsAfter_secBegin hcur hfree (hlocked ▸ htarget ▸ leaves_savedTarget _)
      (advance_acquire_raise hcur hfree (enterTarget_refused hchip hnone))

/-! ### SEC_END -/

/-- SEC_END's task (R304). -/
def endSection (ms : Nat) : Task := { steps := [.leaveFlush ms, .release] }

theorem callerNotOwner_false {s : State} (h : s.sectionMode = true → s.owner = some s.cur) : callerNotOwner s = false := by
  cases hmode : s.sectionMode
  · simp [callerNotOwner, hmode]
  · simp [callerNotOwner, hmode, h hmode]

section
variable {s : State} (howner : s.sectionMode = true → s.owner = some s.cur)
include howner

theorem leaveFlush_done (live : s.disposed = false) (accepted : s.accept = true) (ms : Nat) :
    leaveFlush ms s = .done (recordDelay ms (flushed s)) := by
  rw [leaveFlush, if_neg (by simp [callerNotOwner_false howner]), flush_done live accepted, Run.andThen_done]

theorem leaveFlush_raise {e : Status} {t : State} (hflush : flush s = .raise e t) (ms : Nat) :
    leaveFlush ms s = .raise e t := by
  rw [leaveFlush, if_neg (by simp [callerNotOwner_false howner]), hflush, Run.andThen_raise]

end

theorem leaveFlush_refused {s : State} (hmode : s.sectionMode = true) (howner : s.owner ≠ some s.cur) (ms : Nat) :
    leaveFlush ms s = .raise .invalidOperation s := by
  simp [leaveFlush, callerNotOwner, hmode, howner]

/-- What the flush of a section and its delay leave. -/
theorem leaves_sectionFlush (ms : Nat) (s : State) : Leaves s (recordDelay ms (flushed s))
    { s.block with wbuf := [], trace := s.trace ++ (.tx (s.wbuf ++ [0x87]) :: delayEvents ms) } (s.wbuf ++ [0x87]) :=
  ((leaves_flushed s).trans (leaves_recordDelay ms _)).congr (by simp [flushed, State.block]) (by simp)

theorem endsAfter_secEnd {s t : State} (hcur : s.cur < s.reqs.length)
    (howner : s.sectionMode = true → s.owner = some s.cur) (live : s.disposed = false) (accepted : s.accept = true)
    {ms : Nat} (hrestore : restoreTarget (recordDelay ms (flushed s)) = .done t) {b : Block}
    (hleaves : Leaves (recordDelay ms (flushed s)) t b []) : EndsAfter 1 (.secEnd ms) s .ok []
      { b with owner := if t.sectionMode then none else t.owner } (s.wbuf ++ [0x87]) := by
  have hflush := leaves_sectionFlush ms s
  have hcur1 := hflush.sameRequesters.cur_lt hcur
  have hall := (hflush.trans hleaves).trans (leaves_dropLock t)
  refine endsAfter_of_advances (task := endSection ms) (t := respond .ok [] (dropLock t)) rfl ?_
    ((hall.congr (by rw [hleaves.block]) (by simp)).ends .ok [])
  rw [advances_cons (advance_plain (a := .leaveFlush ms) hcur rfl rfl (leaveFlush_done howner live accepted ms)),
    advances_one]
  exact advance_of_last hcur1 rfl (runAtom_release hrestore _) (hall.sameRequesters.cur_lt hcur)

/-- Settles O57: the flush with its delay, then `release`; and the three refusals of the first step. -/
theorem sectionEnd : Obligations.SectionEnd := by
  unfold Obligations.SectionEnd
  refine fun s ms hcur => ⟨fun howner => ?_, fun hmode hother => ?_⟩
  · intro sent closed
    have hblock := (leaves_sectionFlush ms s).block
    refine ⟨fun live accepted => ⟨fun hsaved => ?_, fun chip pins hsaved hpins => ?_⟩, fun disposed => ?_,
      fun live failed => ?_⟩
    · have h := endsAfter_secEnd (ms := ms) hcur howner live accepted
        (restoreTarget_none (by simpa [flushed] using hsaved)) (leaves_refl _)
      rw [hblock] at h
      simpa [flushed, closed, sent] using h
    · have hrestore : restoreTarget (recordDelay ms (flushed s)) = .done (restored chip pins (recordDelay ms (flushed s))) := by
        simp only [restoreTarget, recordDelay_savedTarget, recordDelay_csmap, flushed, deliver_savedTarget,
          record_savedTarget, deliver_csmap, record_csmap, hsaved, hpins]
        rfl
      have h := endsAfter_secEnd (ms := ms) hcur howner live accepted hrestore (leaves_restored chip pins _)
      rw [hblock] at h
      simpa [flushed, closed, sent, restored] using h
    · exact endsAtOnce_of_start_raise (task := endSection ms) hcur rfl rfl rfl rfl
        (leaveFlush_raise howner (flush_disposed disposed) ms) (leaves_refl s)
    · exact endsAtOnce_of_start_raise (task := endSection ms) hcur rfl rfl rfl rfl
        (leaveFlush_raise howner (flush_failed live failed) ms) (leaves_emit [0x87] s)
  · exact endsAtOnce_of_start_raise (task := endSection ms) hcur rfl rfl rfl rfl (leaveFlush_refused hmode hother ms)
      (leaves_refl s)

/-! ### SECTION as one unit -/

theorem unit_beginTask {s : State} {r : Requester} (h : s.reqs[s.cur]? = some r) (task : Task) :
    ∃ r', (beginTask task s).reqs[s.cur]? = some r' ∧ r'.unit = r.unit :=
  ⟨{ r with task := some task, response := none }, by simp [h], rfl⟩

theorem unit_markUnit {s : State} {r : Requester} (h : s.reqs[s.cur]? = some r) :
    ∃ r', (markUnit s).reqs[s.cur]? = some r' ∧ r'.unit = r.unit.map fun u => { u with acquired := true } :=
  ⟨{ r with unit := r.unit.map fun u => { u with acquired := true } }, by simp [markUnit, h], rfl⟩

theorem unit_respond {s : State} {r : Requester} (h : s.reqs[s.cur]? = some r) (e : Status) (values : List Value) :
    ∃ r', (respond e values s).reqs[s.cur]? = some r' ∧ r'.unit = r.unit :=
  ⟨{ r with task := none, response := some ⟨e, if e = .ok then values else []⟩ }, by simp [h], rfl⟩

/-- The target switch, done or not, touches no requester. -/
theorem enterTarget_cases (chip : Chip) (s : State) : ∃ t, SameRequesters s t ∧
    (enterTarget chip s = .done t ∨ ∃ e, enterTarget chip s = .raise e t) := by
  by_cases hchip : chip = 0
  · exact ⟨s, ⟨rfl, rfl⟩, .inl (hchip ▸ enterTarget_none s)⟩
  · cases hlookup : mapLookup s.csmap chip with
    | none => exact ⟨_, (leaves_savedTarget s).sameRequesters, .inr ⟨_, enterTarget_refused hchip hlookup⟩⟩
    | some pins => exact ⟨_, (leaves_enteredTarget chip pins s).sameRequesters, .inl (enterTarget_done hchip hlookup)⟩

/-- The acquire step of SEC_BEGIN marks the SECTION, whether or not its target switch fails (R306). -/
theorem acquire_marks_unit {s : State} {r : Requester} (h : s.reqs[s.cur]? = some r) (hfree : LockIsFree s) (chip : Chip) :
    ∃ t r', advance (beginTask { steps := [.acquire chip] } s) = .next t ∧ t.reqs[s.cur]? = some r' ∧
      r'.unit = r.unit.map fun u => { u with acquired := true } := by
  have hcur : s.cur < s.reqs.length := (List.getElem?_eq_some_iff.mp h).1
  obtain ⟨t, hsame, hend⟩ := enterTarget_cases chip (takeLock s)
  have hall : SameRequesters s t := ⟨hsame.1.trans (takeLock_cur s), hsame.2.trans (takeLock_reqs s)⟩
  have ht : t.reqs[t.cur]? = some r := by rw [hall.1, hall.2, h]
  obtain ⟨r', hr', hunit⟩ := unit_markUnit ht
  obtain ⟨e, hadvance⟩ : ∃ e, advance (beginTask { steps := [.acquire chip] } s) = .next (respond e [] (markUnit t)) := by
    rcases hend with hdone | ⟨e, hraise⟩
    · exact ⟨.ok, advance_acquire_done hcur hfree hdone hall⟩
    · exact ⟨e, advance_acquire_raise hcur hfree hraise hall⟩
  obtain ⟨r'', hr'', hunit'⟩ := unit_respond (s := markUnit t) hr' e []
  exact ⟨_, r'', hadvance, hall.1 ▸ hr'', hunit'.trans hunit⟩

/-- What closing a SECTION does once one of its operations has ended (R306). -/
theorem closeUnit_of_response {r : Requester} {u : SectionUnit} {e : Status} {values : List Value} (hunit : r.unit = some u)
    (htask : r.task = none) (hresponse : r.response = some ⟨e, values⟩) : closeUnit r =
      if e = .ok then (if u.rest = [] then { r with unit := none } else r)
      else if u.acquired then
        { r with unit := none, response := none, task := some { steps := [.release], verdict := e } }
      else { r with unit := none } := by
  simp only [closeUnit, hunit, htask, hresponse]

/-- Settles O58: `fetch` and `closeUnit` by their equations, the mark by the two steps of SEC_BEGIN. -/
theorem sectionUnits : Obligations.SectionUnits := by
  unfold Obligations.SectionUnits
  refine ⟨fun r target ms body more hunit hinbox => ?_, fun r u c cs hunit hrest => ?_, fun target ms => ⟨?_, ?_⟩,
    fun r u e values hunit htask hresponse => ?_, fun s r u chip hr hunit => ⟨fun hother => ?_, fun hmode howner => ?_⟩⟩
  · simp only [fetch, hunit, hinbox]
  · simp only [fetch, hunit, hrest]
  · exact Laws.RoundTrip.secBegin target rfl
  · exact Laws.RoundTrip.secEnd ms rfl
  · rw [closeUnit_of_response hunit htask hresponse]
    refine ⟨fun he hacquired => ?_, fun he hacquired => ?_, fun he hrest => ?_, fun he hrest => ?_⟩ <;> simp [*]
  · have hcur : s.cur < s.reqs.length := (List.getElem?_eq_some_iff.mp hr).1
    obtain ⟨r', hr', hunit'⟩ := unit_beginTask hr { steps := [.acquire chip] }
    refine ⟨_, r', advance_beginSection hcur hother chip, hr', hunit'.trans hunit, fun hfree => ?_⟩
    obtain ⟨t, r'', hadvance, hr'', hunit''⟩ := acquire_marks_unit hr hfree chip
    exact ⟨t, r'', hadvance, hr'', by rw [hunit'', hunit]; rfl⟩
  · have hcur : s.cur < s.reqs.length := (List.getElem?_eq_some_iff.mp hr).1
    obtain ⟨r', hr', hunit'⟩ := unit_respond hr .invalidOperation []
    exact ⟨_, r', advance_plain_raise (task := beginSection chip) hcur rfl rfl (enterCheck_refused hmode howner) ⟨rfl, rfl⟩,
      hr', hunit'.trans hunit⟩

end Sys2Proof.Machine
end

section
/-!
PROOFS. The operations that guard a section of their own (spec/45_section.md R306): READ and REGGET (R253, R258) and SW_RESET (R257).
-/
namespace Sys2Proof.Machine

/-! ### What one more step leaves -/

section
variable {s t : State} {b : Block} {sent : List Byte} (h : Leaves s t b sent)
include h

theorem Leaves.thenFlushed : Leaves s (flushed t)
    { b with wbuf := [], trace := b.trace ++ [.tx (b.wbuf ++ [0x87])] } (sent ++ (b.wbuf ++ [0x87])) := by
  obtain rfl := h.block
  exact h.trans (leaves_flushed t)

theorem Leaves.thenSectionFlush (ms : Nat) : Leaves s (recordDelay ms (flushed t))
    { b with wbuf := [], trace := b.trace ++ (.tx (b.wbuf ++ [0x87]) :: delayEvents ms) } (sent ++ (b.wbuf ++ [0x87])) := by
  obtain rfl := h.block
  exact h.trans (leaves_sectionFlush ms t)

theorem Leaves.thenRead (addr : Byte) : Leaves s (readIssued addr (flushed t))
    { b with
      wbuf := [], rxq := [],
      trace := b.trace ++ [.tx (b.wbuf ++ [0x87]), .rxPurge, .tx (readFrame addr t ++ [0x87])] }
    (sent ++ (b.wbuf ++ [0x87] ++ (readFrame addr t ++ [0x87]))) := by
  obtain rfl := h.block
  exact h.trans (leaves_flushed_readIssued addr t)

theorem Leaves.thenTook (b0 b1 : Byte) (rest : List Byte) : Leaves s (tookBytes b0 b1 rest (receive (b0 :: b1 :: rest) t))
    { b with rxq := rest, trace := b.trace ++ [.rxTake b0 b1] } sent := by
  obtain rfl := h.block
  exact (h.trans (leaves_tookBytes b0 b1 rest t)).congr rfl (List.append_nil sent)

/-- What `release` leaves: the target that comes back, and the lock given back (R305). -/
theorem Leaves.thenReleased (back : Chip) (pins : Byte) : Leaves s (dropLock (restored back pins t))
    { b with
      target := back, targetPins := pins, savedTarget := none, owner := if b.sectionMode then none else b.owner } sent := by
  obtain rfl := h.block
  exact ((h.trans (leaves_restored back pins t)).trans (leaves_dropLock _)).congr rfl (by simp)

end

/-! ### The steps of a guarded operation -/

section
variable {s t : State} (hcur : s.cur < s.reqs.length) {a : Atom} {rest : List Atom} {task : Task} {chip : Chip}
include hcur

theorem advance_acquire_guarded (hfree : LockIsFree s) (hguarded : task.guarded = true)
    (hsteps : task.steps = .acquire chip :: a :: rest) (hrun : enterTarget chip (takeLock s) = .done t) :
    advance (beginTask task s) = .next (beginTask { task with acquired := true, steps := a :: rest } t) :=
  advance_of_done hcur hsteps (by rw [runAtom_acquire_guarded hfree hguarded, hrun, Run.onState_done])

theorem advance_acquire_guarded_raise {e : Status} (hfree : LockIsFree s) (hguarded : task.guarded = true)
    (hsteps : task.steps = .acquire chip :: rest) (hrun : enterTarget chip (takeLock s) = .raise e t)
    (ht : t.cur < t.reqs.length) : advance (beginTask task s) =
      .next (beginTask { task with acquired := true, steps := [.release], verdict := e } t) :=
  advance_of_raise (task' := { task with acquired := true }) hcur hsteps
    (by rw [runAtom_acquire_guarded hfree hguarded, hrun, Run.onState_raise]) ht

theorem advance_release_last (hsteps : task.steps = [.release]) (hrestore : restoreTarget s = .done t)
    (hsame : SameRequesters s t) : advance (beginTask task s) = .next (respond task.verdict task.values (dropLock t)) :=
  advance_of_last (task' := { task with acquired := false }) hcur hsteps (runAtom_release hrestore task)
    ((sameRequesters_dropLock t).cur_lt (hsame.cur_lt hcur))

theorem advance_release (hsteps : task.steps = .release :: a :: rest) (hrestore : restoreTarget s = .done t) :
    advance (beginTask task s) = .next (beginTask { task with acquired := false, steps := a :: rest } (dropLock t)) :=
  advance_of_done (task' := { task with acquired := false }) hcur hsteps (runAtom_release hrestore task)

end

theorem sameRequesters_restored (back : Chip) (pins : Byte) (s : State) : SameRequesters s (restored back pins s) :=
  ⟨rfl, rfl⟩

/-- The count of entered sections after one more (R34). -/
def enteredOnce (s : State) : Nat := if s.sectionMode then s.entered + 1 else s.entered

/-- A section with a free lock entered and left: the lock is taken and given back again. -/
theorem Leaves.thenLeft {s t : State} {b : Block} {sent : List Byte} (h : Leaves s t b sent) (hfree : LockIsFree s)
    (hmode : b.sectionMode = s.sectionMode) (howner : b.owner = if s.sectionMode then some s.cur else s.owner) (back : Chip)
    (pins : Byte) : Leaves s (dropLock (restored back pins t))
      { b with target := back, targetPins := pins, savedTarget := none, owner := s.owner } sent := by
  have hgiven : (if b.sectionMode then none else b.owner) = s.owner := by
    rw [howner, hmode]
    cases hm : s.sectionMode
    · rfl
    · exact (hfree hm).symm
  exact (h.thenReleased back pins).congr (by rw [hgiven]) rfl

/-- A section entered and left at once. -/
theorem leaves_sectionLeft {s : State} (hfree : LockIsFree s) (back : Chip) (pins : Byte) :
    Leaves s (dropLock (restored back pins (takeLock s)))
      { s.block with entered := enteredOnce s, target := back, targetPins := pins, savedTarget := none } [] :=
  (leaves_takeLock s).thenLeft hfree rfl rfl back pins

/-- A guarded operation refused in its first step after the acquire step has left its section when it reports (R306). -/
theorem endsAfter_of_guarded_raise {s : State} (hcur : s.cur < s.reqs.length) (hfree : LockIsFree s)
    (htarget : mapLookup s.csmap s.target = some s.targetPins) {back : Chip} {pins : Byte}
    (hback : back = s.savedTarget.getD s.target) (hpins : mapLookup s.csmap back = some pins) {i : Instr} {a : Atom}
    {rest : List Atom} (ha : a.plain = true)
    (hexec : exec i s = start { steps := .enterCheck :: .acquire 0 :: a :: rest, guarded := true } s) {e : Status}
    (hrun : runAtom a (takeLock s) = .raise e (takeLock s)) : EndsAfter 3 i s e []
      { s.block with entered := enteredOnce s, target := back, targetPins := pins, savedTarget := none } [] := by
  have hlock := (sameRequesters_takeLock s).cur_lt hcur
  have hrestore : restoreTarget (takeLock s) = .done (restored back pins (takeLock s)) :=
    restoreTarget_done (by simpa using hback) (by simpa using hpins) (by simpa using htarget)
  refine endsAfter_of_advances hexec (t := respond e [] (dropLock (restored back pins (takeLock s)))) ?_
    (by simpa using (leaves_sectionLeft hfree back pins).ends e [])
  rw [advances_cons (advance_plain (a := .enterCheck) hcur rfl rfl (enterCheck_done hfree.not_mine)),
    advances_cons (advance_acquire_guarded hcur hfree rfl rfl (enterTarget_none _)),
    advances_cons (advance_plain_raise hlock ha rfl hrun ⟨rfl, rfl⟩), if_pos rfl, advances_one]
  exact advance_release_last hlock rfl hrestore (sameRequesters_restored _ _ _)

/-! ### READ and REGGET refused -/

/-- READ, or REGGET where `get` is set. -/
def readInstr (get : Bool) (addr : Byte) (chip : Chip) : Instr := if get then .regget addr chip else .read addr chip

/-- Their take step. -/
def takeAtom (get : Bool) (addr : Byte) : Atom := if get then .regTake addr else .readTake

theorem takeAtom_isTake (get : Bool) (addr : Byte) : (takeAtom get addr).isTake = true := by cases get <;> rfl

theorem exec_readInstr (get : Bool) (addr : Byte) (chip : Chip) (s : State) :
    exec (readInstr get addr chip) s = start (readSection addr chip (takeAtom get addr)) s := by cases get <;> rfl

/-- A target outside the chip map: the section is left, and the former target is selected again. -/
theorem endsAfter_readInstr_unmapped {s : State} (hcur : s.cur < s.reqs.length) (hfree : LockIsFree s)
    (htarget : mapLookup s.csmap s.target = some s.targetPins) (get : Bool) (addr : Byte) {chip : Chip} (hchip : chip ≠ 0)
    (hnone : mapLookup s.csmap chip = none) : EndsAfter 2 (readInstr get addr chip) s .rangeError []
      { s.block with entered := enteredOnce s, savedTarget := none } [] := by
  let u : State := { takeLock s with savedTarget := some (takeLock s).target }
  have hu : SameRequesters s u := ⟨takeLock_cur s, takeLock_reqs s⟩
  have hlookup : mapLookup (takeLock s).csmap (takeLock s).target = some (takeLock s).targetPins := by simpa using htarget
  have hrestore : restoreTarget u = .done (restored (takeLock s).target (takeLock s).targetPins u) :=
    restoreTarget_done (by simp [u]) hlookup hlookup
  have hleaves := ((leaves_takeLock s).trans (leaves_savedTarget _)).thenLeft hfree (takeLock_sectionMode s) (takeLock_owner s)
    (takeLock s).target (takeLock s).targetPins
  refine endsAfter_of_advances (exec_readInstr get addr chip s)
    (t := respond .rangeError [] (dropLock (restored (takeLock s).target (takeLock s).targetPins u))) ?_
    ((hleaves.congr (by simp [State.block, enteredOnce]) rfl).ends .rangeError [])
  rw [advances_cons (advance_plain (a := .enterCheck) hcur rfl rfl (enterCheck_done hfree.not_mine)),
    advances_cons (advance_acquire_guarded_raise hcur hfree rfl rfl
      (enterTarget_refused hchip (by simpa using hnone)) (hu.cur_lt hcur)), advances_one]
  exact advance_release_last (hu.cur_lt hcur) rfl hrestore (sameRequesters_restored _ _ _)

theorem readFlush_takeLock_refused {s : State} (h : s.disposed = true ∨ s.targetPins = 0) :
    readFlush (takeLock s) = .raise .communicationError (takeLock s) := readFlush_refused (by simpa using h)

/-! ### SW_RESET's steps -/

/-- A section's steps after the acquire step. -/
def sectionBody (writes : List (Byte × Byte)) (ms : Nat) : List Atom :=
  writes.map (fun w => .drvWrite w.1 w.2) ++ [.leaveFlush ms, .release]

theorem resetSection_eq (writes : List (Byte × Byte)) (ms : Nat) :
    resetSection writes ms = .enterCheck :: .acquire 0 :: sectionBody writes ms := by simp [resetSection, sectionBody]

/-- The five sections with their delays (R257). -/
def resetParts (s : State) : List (List (Byte × Byte) × Nat) := s.cfg.resetSeq.toList.zip [1, 1, 30, 21, 0]

theorem resetParts_cons (s : State) : ∃ more, resetParts s = (s.cfg.resetSeq[0], 1) :: more ∧ more.length = 4 := by
  simp only [resetParts]
  generalize s.cfg.resetSeq = parts
  obtain ⟨⟨l⟩, hl⟩ := parts
  match l, hl with
  | [a, b, c, d, e], _ => exact ⟨_, rfl, rfl⟩

/-- The steps of SW_RESET's task after a number of its sections. -/
def resetTask (parts : List (List (Byte × Byte) × Nat)) : Task :=
  { steps := parts.flatMap fun p => resetSection p.1 p.2, guarded := true }

theorem exec_swReset (s : State) : exec .swReset s = start (resetTask (resetParts s)) s := rfl

theorem exec_swReset_cons (s : State) : ∃ rest, exec .swReset s =
    start { steps := .enterCheck :: .acquire 0 :: (sectionBody s.cfg.resetSeq[0] 1 ++ rest), guarded := true } s := by
  obtain ⟨more, hparts, -⟩ := resetParts_cons s
  refine ⟨more.flatMap fun p => resetSection p.1 p.2, ?_⟩
  rw [exec_swReset, hparts, resetTask, List.flatMap_cons, resetSection_eq]
  rfl

theorem swReset_refused_for_owner {s : State} (hcur : s.cur < s.reqs.length) (hmode : s.sectionMode = true)
    (howner : s.owner = some s.cur) : EndsAtOnce .swReset s .invalidOperation [] s.block [] := by
  obtain ⟨rest, hexec⟩ := exec_swReset_cons s
  exact endsAtOnce_of_start_raise (a := .enterCheck) hcur rfl rfl rfl hexec (enterCheck_refused hmode howner) (leaves_refl s)

/-- SW_RESET fails at its first write, or at the flush where its first section has none. -/
theorem endsAfter_swReset_refused {s : State} (hcur : s.cur < s.reqs.length) (hfree : LockIsFree s)
    (htarget : mapLookup s.csmap s.target = some s.targetPins) {back : Chip} {pins : Byte}
    (hback : back = s.savedTarget.getD s.target) (hpins : mapLookup s.csmap back = some pins)
    (hrefused : s.disposed = true ∨ s.targetPins = 0) (hfirst : s.disposed = true ∨ s.cfg.resetSeq[0] ≠ []) :
    EndsAfter 3 .swReset s .communicationError []
      { s.block with entered := enteredOnce s, target := back, targetPins := pins, savedTarget := none } [] := by
  obtain ⟨rest, hexec⟩ := exec_swReset_cons s
  cases hwrites : s.cfg.resetSeq[0] with
  | nil =>
    rw [hwrites] at hexec
    have hdisposed : s.disposed = true := hfirst.resolve_right fun hne => hne hwrites
    have howner : (takeLock s).sectionMode = true → (takeLock s).owner = some (takeLock s).cur := by
      intro hmode
      rw [takeLock_sectionMode] at hmode
      simp [hmode]
    exact endsAfter_of_guarded_raise hcur hfree htarget hback hpins (a := .leaveFlush 1) rfl hexec
      (leaveFlush_raise howner (flush_disposed (by simpa using hdisposed)) 1)
  | cons w ws =>
    rw [hwrites] at hexec
    exact endsAfter_of_guarded_raise hcur hfree htarget hback hpins (a := .drvWrite w.1 w.2) rfl hexec
      (drvWrite_refused (by simpa using hrefused) w.1 w.2)

theorem readInstr_refused_for_owner {s : State} (hcur : s.cur < s.reqs.length) (hmode : s.sectionMode = true)
    (howner : s.owner = some s.cur) (get : Bool) (addr : Byte) (chip : Chip) :
    EndsAtOnce (readInstr get addr chip) s .invalidOperation [] s.block [] :=
  endsAtOnce_of_start_raise (a := .enterCheck) hcur rfl rfl rfl (exec_readInstr get addr chip s) (enterCheck_refused hmode howner) (leaves_refl s)

/-- Settles O52: each refusal at its step, after which the guarded operation releases. -/
theorem readRefusals : Obligations.ReadRefusals := by
  unfold Obligations.ReadRefusals
  refine ⟨fun s addr chip hmode howner hcur => ⟨readInstr_refused_for_owner hcur hmode howner false addr chip,
    readInstr_refused_for_owner hcur hmode howner true addr chip, swReset_refused_for_owner hcur hmode howner⟩,
    fun s addr hcur hfree htarget => ⟨fun chip hchip hnone =>
      ⟨endsAfter_readInstr_unmapped hcur hfree htarget false addr hchip hnone,
        endsAfter_readInstr_unmapped hcur hfree htarget true addr hchip hnone⟩,
    fun back pins hback hpins => ⟨fun live hne hmany => ?_, fun hrefused => ?_⟩⟩⟩
  · have h := fun get => endsAfter_of_guarded_raise hcur hfree htarget hback hpins (a := .readFlush) rfl
      (exec_readInstr get addr 0 s) (readFlush_not_one (s := takeLock s) (by simpa using live) (by simpa using hne)
        (by simpa using hmany))
    exact ⟨h false, h true⟩
  · have h := fun get => endsAfter_of_guarded_raise hcur hfree htarget hback hpins (a := .readFlush) rfl
      (exec_readInstr get addr 0 s) (readFlush_takeLock_refused hrefused)
    exact ⟨h false, h true, endsAfter_swReset_refused hcur hfree htarget hback hpins hrefused⟩

end Sys2Proof.Machine
end

section
/-!
PROOFS. READ and REGGET (R253, R258), and SW_RESET (R257), run to their end.
-/
namespace Sys2Proof.Machine

/-! ### READ and REGGET -/

/-- The section's target: the one asked for, or the current one; and the one that comes back after it (R303, R305). -/
theorem enterTarget_selects {s : State} {chip : Chip} {pins : Byte} (htarget : mapLookup s.csmap s.target = some s.targetPins)
    (hpins : if chip = 0 then pins = s.targetPins else mapLookup s.csmap chip = some pins) : ∃ t saved target,
      enterTarget chip s = .done t ∧
      Leaves s t { s.block with savedTarget := saved, target := target, targetPins := pins } [] ∧
      saved.getD target = (if chip = 0 then s.savedTarget.getD s.target else s.target) ∧
      mapLookup s.csmap target = some pins := by
  by_cases hchip : chip = 0
  · obtain rfl : pins = s.targetPins := by simpa [hchip] using hpins
    exact ⟨s, s.savedTarget, s.target, hchip ▸ enterTarget_none s, leaves_refl s, by simp [hchip], htarget⟩
  · rw [if_neg hchip] at hpins
    exact ⟨_, some s.target, chip, enterTarget_done hchip hpins, leaves_enteredTarget chip pins s, by rw [if_neg hchip, Option.getD_some], hpins⟩

/-- What the acquire step of a guarded read leaves. -/
theorem takeLock_enterTarget {s : State} {chip : Chip} {pins : Byte} (htarget : mapLookup s.csmap s.target = some s.targetPins)
    (hpins : if chip = 0 then pins = s.targetPins else mapLookup s.csmap chip = some pins) : ∃ t saved target,
      enterTarget chip (takeLock s) = .done t ∧
      Leaves s t { s.block with
        entered := enteredOnce s, owner := if s.sectionMode then some s.cur else s.owner
        savedTarget := saved, target := target, targetPins := pins } [] ∧
      saved.getD target = (if chip = 0 then s.savedTarget.getD s.target else s.target) ∧
      mapLookup s.csmap target = some pins := by
  obtain ⟨t, saved, target, henter, hleaves, hback, hlookup⟩ :=
    enterTarget_selects (s := takeLock s) (chip := chip) (pins := pins) (by simpa using htarget) (by simpa using hpins)
  refine ⟨t, saved, target, henter, ((leaves_takeLock s).trans hleaves).congr ?_ rfl, by simpa using hback, by simpa using hlookup⟩
  rw [(leaves_takeLock s).block]
  rfl

/-- The frame depends on the board and the target only. -/
theorem readFrame_congr {s t : State} (hcfg : t.cfg = s.cfg) (hpins : t.targetPins = s.targetPins) (addr : Byte) :
    readFrame addr t = readFrame addr s := by
  simp only [readFrame, csEnable, csDisable, hcfg, hpins]

theorem takeValues_takeAtom {s t : State} (hcfg : t.cfg = s.cfg) (get : Bool) (addr b : Byte) :
    takeValues t (takeAtom get addr) b = if get then [.byte b, .fields (unpackReg s addr b)] else [.byte b] := by
  cases get
  · rfl
  · simp [takeAtom, takeValues, unpackReg, regLayout, hcfg]

/-- The steps of READ and REGGET from the take step on. -/
def readRest (get : Bool) (addr : Byte) : Task :=
  { steps := [takeAtom get addr, .leaveFlush 0, .release], guarded := true, acquired := true }

/-- READ and REGGET up to the wait. -/
theorem advances_readInstr {s u : State} (hcur : s.cur < s.reqs.length) (hfree : LockIsFree s) {chip : Chip}
    (henter : enterTarget chip (takeLock s) = .done u) (hsame : SameRequesters s u) (live : u.disposed = false)
    (accepted : u.accept = true) (hone : popcount u.targetPins = 1) (get : Bool) (addr : Byte) :
    advances (3 + 1) (beginTask (readSection addr chip (takeAtom get addr)) s) =
      .next (beginTask (readRest get addr) (readIssued addr (flushed u))) := by
  rw [advances_cons (advance_plain (a := .enterCheck) hcur rfl rfl (enterCheck_done hfree.not_mine)),
    advances_cons (advance_acquire_guarded hcur hfree rfl rfl henter),
    advances_cons (advance_plain (a := .readFlush) (hsame.cur_lt hcur) rfl rfl
      ((readFlush_eq_flush live hone).trans (flush_done live accepted))), advances_one]
  exact advance_plain (a := .readIssue addr) (s := flushed u) (hsame.cur_lt hcur) rfl rfl (readIssue_done (s := flushed u) live accepted addr)

/-- READ and REGGET as they wait for the reply. -/
theorem advances_to_wait {s : State} (hcur : s.cur < s.reqs.length) (live : s.disposed = false) (accepted : s.accept = true)
    (hfree : LockIsFree s) {chip : Chip} {pins : Byte} (htarget : mapLookup s.csmap s.target = some s.targetPins)
    (hpins : if chip = 0 then pins = s.targetPins else mapLookup s.csmap chip = some pins) (hone : popcount pins = 1)
    (get : Bool) (addr : Byte) : ∃ w saved target,
      advances (3 + 1) (beginTask (readSection addr chip (takeAtom get addr)) s) = .next (beginTask (readRest get addr) w) ∧
      Leaves s w { s.block with
        entered := enteredOnce s, owner := if s.sectionMode then some s.cur else s.owner
        savedTarget := saved, target := target, targetPins := pins, wbuf := [], rxq := []
        trace := s.trace ++ [.tx (s.wbuf ++ [0x87]), .rxPurge, .tx (readFrame addr { s with targetPins := pins } ++ [0x87])] }
        (s.wbuf ++ [0x87] ++ (readFrame addr { s with targetPins := pins } ++ [0x87])) ∧
      saved.getD target = (if chip = 0 then s.savedTarget.getD s.target else s.target) ∧
      mapLookup s.csmap target = some pins := by
  obtain ⟨u, saved, target, henter, hu, hsaved, hlookup⟩ := takeLock_enterTarget htarget hpins
  have hpinned : u.targetPins = pins := congrArg Block.targetPins hu.block
  have hlive : u.disposed = false := (congrArg Block.disposed hu.block).trans live
  have hframe : readFrame addr u = readFrame addr { s with targetPins := pins } :=
    readFrame_congr (s := { s with targetPins := pins }) hu.cfg hpinned addr
  exact ⟨_, saved, target, advances_readInstr hcur hfree henter hu.sameRequesters hlive (hu.accept.trans accepted)
    (hpinned ▸ hone) get addr, hframe ▸ hu.thenRead addr, hsaved, hlookup⟩

/-- READ and REGGET from the wait on, with the reply received. -/
theorem advances_readRest {w : State} (hcur : w.cur < w.reqs.length) (hrxq : w.rxq = [])
    (howner : w.sectionMode = true → w.owner = some w.cur) (live : w.disposed = false) (accepted : w.accept = true)
    {back : Chip} {pins : Byte} (hback : back = w.savedTarget.getD w.target) (hpins : mapLookup w.csmap back = some pins)
    (htarget : mapLookup w.csmap w.target = some w.targetPins) (get : Bool) (addr b0 b1 : Byte) (rest : List Byte) :
    advances 3 (receive (b0 :: b1 :: rest) (beginTask (readRest get addr) w)) =
      .next (respond .ok (takeValues w (takeAtom get addr) b1) (dropLock (restored back pins
        (recordDelay 0 (flushed (tookBytes b0 b1 rest (receive (b0 :: b1 :: rest) w))))))) := by
  let u := tookBytes b0 b1 rest (receive (b0 :: b1 :: rest) w)
  rw [advances_cons (advance_take_receive hcur hrxq (takeAtom_isTake get addr) rfl b0 b1 rest),
    advances_cons (advance_plain (a := .leaveFlush 0) (s := u) hcur rfl rfl (leaveFlush_done (s := u) howner live accepted 0)),
    advances_one]
  exact advance_release_last (s := recordDelay 0 (flushed u)) hcur rfl
    (restoreTarget_done (s := recordDelay 0 (flushed u)) hback hpins htarget) (sameRequesters_restored _ _ _)

/-- The first step of an operation and the steps after it. -/
theorem exec_next_of_advances {n : Nat} {i : Instr} {s t : State} {task : Task} (hexec : exec i s = start task s)
    (hrun : advances (n + 1) (beginTask task s) = .next t) : ∃ u, exec i s = .next u ∧ advances n u = .next t := by
  simp only [advances] at hrun
  cases hadvance : advance (beginTask task s) with
  | next u => rw [hadvance] at hrun; exact ⟨u, by rw [hexec, start, hadvance], hrun⟩
  | fault f => rw [hadvance] at hrun; cases hrun
  | refused r => rw [hadvance] at hrun; cases hrun

/-- A field of a register, as R258 writes it. -/
theorem field_eq (v : Byte) (pos width : Nat) :
    (v.toNat >>> pos) % 2 ^ width = ((v >>> pos) &&& (BitVec.ofNat 8 (2 ^ width) - 1)).toNat := by
  have hlt : v.toNat >>> pos < 2 ^ 8 := (Nat.shiftRight_le _ _).trans_lt v.isLt
  have hmask : (BitVec.ofNat 8 (2 ^ width) - 1).toNat = (2 ^ width - 1) % 2 ^ 8 := by
    obtain ⟨m, hm⟩ : ∃ m, 2 ^ width = m + 1 := ⟨2 ^ width - 1, (Nat.sub_add_cancel Nat.one_le_two_pow).symm⟩
    rw [hm]
    simp [BitVec.toNat_sub]
    omega
  calc (v.toNat >>> pos) % 2 ^ width = ((v.toNat >>> pos) % 2 ^ width) % 2 ^ 8 :=
        (Nat.mod_eq_of_lt ((Nat.mod_le _ _).trans_lt hlt)).symm
    _ = ((v.toNat >>> pos) &&& (2 ^ width - 1)) % 2 ^ 8 := by rw [Nat.and_two_pow_sub_one_eq_mod]
    _ = (v.toNat >>> pos) &&& ((2 ^ width - 1) % 2 ^ 8) := by rw [Nat.and_mod_two_pow, Nat.mod_eq_of_lt hlt]
    _ = _ := by rw [BitVec.toNat_and, hmask, BitVec.toNat_ushiftRight]

/-- Settles O51: the steps before the wait, then those after it; the reply reaches the receive queue in between. -/
theorem registerRead : Obligations.RegisterRead := by
  unfold Obligations.RegisterRead
  refine ⟨fun s addr chip pins get back backPins hcur live accepted hfree htarget hpins hone hback hbackPins => ?_,
    fun s addr v => ?_⟩
  · obtain ⟨w, saved, target, hrun, hw, hsaved, htgt⟩ :=
      advances_to_wait hcur live accepted hfree htarget hpins hone get addr
    obtain ⟨t, hexec, hadvances⟩ := exec_next_of_advances (exec_readInstr get addr chip s) hrun
    have hblock := hw.block
    have hrxq : w.rxq = [] := congrArg Block.rxq hblock
    have hmode : w.sectionMode = s.sectionMode := congrArg Block.sectionMode hblock
    have howner : w.owner = if s.sectionMode then some s.cur else s.owner := congrArg Block.owner hblock
    have hlive : w.disposed = false := (congrArg Block.disposed hblock).trans live
    have hpinned : w.targetPins = pins := congrArg Block.targetPins hblock
    have htarget' : w.target = target := congrArg Block.target hblock
    have hcsmap : w.csmap = s.csmap := congrArg Block.csmap hblock
    have hrestore : back = w.savedTarget.getD w.target := by
      rw [show w.savedTarget = saved from congrArg Block.savedTarget hblock, htarget', hsaved, hback]
    have hselected : mapLookup w.csmap w.target = some w.targetPins := by rw [hcsmap, hpinned, htarget', htgt]
    have hmine : w.sectionMode = true → w.owner = some w.cur := fun h => by rw [howner, if_pos (hmode ▸ h), hw.cur]
    refine ⟨t, _, hexec, hadvances, hpinned, fun h => howner.trans (if_pos h), fun b0 b1 rest => ?_⟩
    refine ⟨_, advances_readRest (hw.sameRequesters.cur_lt hcur) hrxq hmine hlive (hw.accept.trans accepted) hrestore
      (by rw [hcsmap]; exact hbackPins) hselected get addr b0 b1 rest, ?_⟩
    have htook := (hw.thenTook b0 b1 rest).thenSectionFlush 0
    have hleft := htook.thenLeft hfree rfl rfl back backPins
    rw [takeValues_takeAtom hw.cfg]
    refine (hleft.congr ?_ ?_).ends .ok _
    · simp [delayEvents, State.block, enteredOnce]
    · simp
  · simp only [unpackReg, unpackByte, regLayout, field_eq]

/-! ### SW_RESET: what it leaves -/

/-- The writes of a section, one after another. -/
def wroteAll (writes : List (Byte × Byte)) (s : State) : State := writes.foldl (fun t w => wrote w.1 [w.2] t) s

/-- A section of SW_RESET entered, run and left (R257). -/
def afterSection (writes : List (Byte × Byte)) (ms : Nat) (s : State) : State :=
  dropLock (recordDelay ms (flushed (wroteAll writes (takeLock s))))

/-- The events of a section depend on the board, the target and section mode only. -/
theorem sectionEvents_congr {s t : State} (hcfg : t.cfg = s.cfg) (hpins : t.targetPins = s.targetPins)
    (hmode : t.sectionMode = s.sectionMode) (pending : List Byte) (writes : List (Byte × Byte)) :
    sectionEvents t pending writes = sectionEvents s pending writes := by
  induction writes generalizing pending with
  | nil => rfl
  | cons w ws ih =>
    simp only [sectionEvents, frames, hmode, ih, writeFrame_congr hcfg hpins]

theorem resetEvents_congr {s t : State} (hcfg : t.cfg = s.cfg) (hpins : t.targetPins = s.targetPins)
    (hmode : t.sectionMode = s.sectionMode) (pending : List Byte) (parts : List (List (Byte × Byte) × Nat)) :
    resetEvents t pending parts = resetEvents s pending parts := by
  induction parts generalizing pending with
  | nil => rfl
  | cons p more ih => simp only [resetEvents, ih, sectionEvents_congr hcfg hpins hmode]

/-- Under section mode the writes of a section only queue their frames. -/
theorem leaves_wroteAll_queued {s : State} (hmode : s.sectionMode = true) (writes : List (Byte × Byte)) :
    Leaves s (wroteAll writes s) { s.block with wbuf := s.wbuf ++ frames s writes } [] := by
  induction writes generalizing s with
  | nil => exact (leaves_refl s).congr (by simp [frames, State.block]) rfl
  | cons w ws ih =>
    have hone := leaves_wrote w.1 [w.2] s
    rw [written, sentBy, if_pos hmode, if_pos hmode] at hone
    have hmode' : (wrote w.1 [w.2] s).sectionMode = true := by rw [wrote_sectionMode, hmode]
    have hbuf : (wrote w.1 [w.2] s).wbuf = s.wbuf ++ writeFrame w.1 [w.2] s := congrArg Block.wbuf hone.block
    have hframes : frames (wrote w.1 [w.2] s) ws = frames s ws := by
      simp only [frames, writeFrame_congr hone.cfg (wrote_targetPins w.1 [w.2] s)]
    refine (hone.trans (ih hmode')).congr ?_ rfl
    rw [hone.block, hbuf, hframes, List.append_assoc]
    rfl

/-- What the writes of a section and its flush leave. -/
theorem leaves_wroteAll_flushed (writes : List (Byte × Byte)) (s : State) : Leaves s (flushed (wroteAll writes s))
    { s.block with wbuf := [], trace := s.trace ++ sectionEvents s s.wbuf writes }
    ((sectionEvents s s.wbuf writes).flatMap Event.payload) := by
  induction writes generalizing s with
  | nil => exact (leaves_flushed s).congr rfl (by simp [sectionEvents, Event.payload])
  | cons w ws ih =>
    cases hmode : s.sectionMode with
    | true =>
      exact (leaves_wroteAll_queued hmode (w :: ws)).thenFlushed.congr (by simp [sectionEvents, hmode, State.block])
        (by simp [sectionEvents, hmode, Event.payload])
    | false =>
      have hone := leaves_wrote w.1 [w.2] s
      rw [written, sentBy, if_neg (by simp [hmode]), if_neg (by simp [hmode])] at hone
      have hbuf : (wrote w.1 [w.2] s).wbuf = [] := congrArg Block.wbuf hone.block
      have htrace : (wrote w.1 [w.2] s).trace = _ := congrArg Block.trace hone.block
      have hevents : sectionEvents (wrote w.1 [w.2] s) (wrote w.1 [w.2] s).wbuf ws = sectionEvents s [] ws := by
        rw [hbuf, sectionEvents_congr hone.cfg (wrote_targetPins w.1 [w.2] s) (wrote_sectionMode w.1 [w.2] s)]
      refine (hone.trans (ih (wrote w.1 [w.2] s))).congr ?_ ?_
      · rw [hevents, htrace, hone.block]
        simp [sectionEvents, hmode]
      · rw [hevents]
        simp [sectionEvents, hmode, Event.payload]

theorem delayEvents_payload (ms : Nat) : (delayEvents ms).flatMap Event.payload = [] := by
  unfold delayEvents
  split <;> rfl

section
variable {s t : State} {b : Block} {sent : List Byte} (h : Leaves s t b sent)
include h

theorem Leaves.thenDelay (ms : Nat) :
    Leaves s (recordDelay ms t) { b with trace := b.trace ++ delayEvents ms } sent := by
  obtain rfl := h.block
  exact (h.trans (leaves_recordDelay ms t)).congr rfl (List.append_nil sent)

theorem Leaves.thenWrites (writes : List (Byte × Byte)) : Leaves s (flushed (wroteAll writes t))
    { b with wbuf := [], trace := b.trace ++ sectionEvents t b.wbuf writes }
    (sent ++ (sectionEvents t b.wbuf writes).flatMap Event.payload) := by
  obtain rfl := h.block
  exact h.trans (leaves_wroteAll_flushed writes t)

theorem Leaves.thenDropped : Leaves s (dropLock t) { b with owner := if b.sectionMode then none else b.owner } sent := by
  obtain rfl := h.block
  exact (h.trans (leaves_dropLock t)).congr rfl (List.append_nil sent)

end

/-- What a section of SW_RESET leaves: the lock is given back. -/
theorem leaves_afterSection {s : State} (hfree : LockIsFree s) (writes : List (Byte × Byte)) (ms : Nat) :
    Leaves s (afterSection writes ms s)
      { s.block with
        wbuf := [], entered := enteredOnce s, trace := s.trace ++ (sectionEvents s s.wbuf writes ++ delayEvents ms) }
      ((sectionEvents s s.wbuf writes ++ delayEvents ms).flatMap Event.payload) := by
  have hevents := sectionEvents_congr (takeLock_cfg s) (takeLock_targetPins s) (takeLock_sectionMode s) s.wbuf writes
  have howner : (if s.sectionMode then none else if s.sectionMode then some s.cur else s.owner) = s.owner := by
    cases hmode : s.sectionMode
    · rfl
    · exact (hfree hmode).symm
  refine ((((leaves_takeLock s).thenWrites writes).thenDelay ms).thenDropped).congr ?_ ?_
  · simp only [State.block, hevents, enteredOnce, List.append_assoc]
    congr 1
  · simp only [State.block, hevents, List.flatMap_append, delayEvents_payload, List.nil_append, List.append_nil]

/-- SW_RESET's sections, one after another. -/
def afterSections (parts : List (List (Byte × Byte) × Nat)) (s : State) : State :=
  parts.foldl (fun t p => afterSection p.1 p.2 t) s

theorem leaves_afterSections {s : State} (hfree : LockIsFree s) (p : List (Byte × Byte) × Nat)
    (more : List (List (Byte × Byte) × Nat)) : Leaves s (afterSections (p :: more) s)
      { s.block with
        wbuf := [], trace := s.trace ++ resetEvents s s.wbuf (p :: more)
        entered := if s.sectionMode then s.entered + (p :: more).length else s.entered }
      ((resetEvents s s.wbuf (p :: more)).flatMap Event.payload) := by
  induction more generalizing p s with
  | nil =>
    exact (leaves_afterSection hfree p.1 p.2).congr (by simp [resetEvents, enteredOnce]) (by simp [resetEvents])
  | cons q more ih =>
    have hone := leaves_afterSection hfree p.1 p.2
    have hblock := hone.block
    have hmode : (afterSection p.1 p.2 s).sectionMode = s.sectionMode := congrArg Block.sectionMode hblock
    have hpins : (afterSection p.1 p.2 s).targetPins = s.targetPins := congrArg Block.targetPins hblock
    have hbuf : (afterSection p.1 p.2 s).wbuf = [] := congrArg Block.wbuf hblock
    have htrace : (afterSection p.1 p.2 s).trace = _ := congrArg Block.trace hblock
    have hentered : (afterSection p.1 p.2 s).entered = enteredOnce s := congrArg Block.entered hblock
    have hfree' : LockIsFree (afterSection p.1 p.2 s) := fun h =>
      (congrArg Block.owner hblock).trans (hfree (hmode.symm.trans h))
    have hevents : resetEvents (afterSection p.1 p.2 s) (afterSection p.1 p.2 s).wbuf (q :: more) =
        resetEvents s [] (q :: more) := by rw [hbuf, resetEvents_congr hone.cfg hpins hmode]
    have hcount : (if (afterSection p.1 p.2 s).sectionMode then (afterSection p.1 p.2 s).entered + (q :: more).length
        else (afterSection p.1 p.2 s).entered) = if s.sectionMode then s.entered + (p :: q :: more).length else s.entered := by
      rw [hmode, hentered, enteredOnce]
      split
      · rw [List.length_cons (a := p)]
        omega
      · rfl
    refine (hone.trans (ih hfree' q)).congr ?_ ?_
    · rw [hcount, hevents, htrace, hblock, List.append_assoc]
      rfl
    · rw [hevents, ← List.flatMap_append]
      rfl

/-! ### SW_RESET: its steps -/

/-- The states SW_RESET's sections run through, each to its end. -/
structure CanReset (s : State) : Prop where
  live : s.disposed = false
  selected : s.targetPins ≠ 0
  accepted : s.accept = true
  cur_lt : s.cur < s.reqs.length
  free : LockIsFree s
  unsaved : s.savedTarget = none

theorem CanReset.afterSection {s : State} (h : CanReset s) (writes : List (Byte × Byte)) (ms : Nat) :
    CanReset (afterSection writes ms s) := by
  have hleaves := leaves_afterSection h.free writes ms
  have hblock := hleaves.block
  refine ⟨(congrArg Block.disposed hblock).trans h.live, fun hpins => ?_, hleaves.accept.trans h.accepted,
    hleaves.sameRequesters.cur_lt h.cur_lt, fun hmode => ?_, (congrArg Block.savedTarget hblock).trans h.unsaved⟩
  · exact h.selected ((congrArg Block.targetPins hblock).symm.trans hpins)
  · exact (congrArg Block.owner hblock).trans (h.free ((congrArg Block.sectionMode hblock).symm.trans hmode))

/-- Writes change the buffer and the trace only. -/
theorem leaves_wroteAll (writes : List (Byte × Byte)) (s : State) : ∃ buffer events sent,
    Leaves s (wroteAll writes s) { s.block with wbuf := buffer, trace := events } sent := by
  induction writes generalizing s with
  | nil => exact ⟨_, _, _, leaves_refl s⟩
  | cons w ws ih =>
    obtain ⟨buffer, events, sent, hrest⟩ := ih (wrote w.1 [w.2] s)
    refine ⟨buffer, events, _, ((leaves_wrote w.1 [w.2] s).trans hrest).congr ?_ rfl⟩
    rw [(leaves_wrote w.1 [w.2] s).block, written]
    split <;> rfl

section
variable {s : State} (hcur : s.cur < s.reqs.length) (hwrite : CanWrite s)
include hcur hwrite

theorem advances_writes {task : Task} {writes : List (Byte × Byte)} {a : Atom} {rest : List Atom}
    (hsteps : task.steps = writes.map (fun w => .drvWrite w.1 w.2) ++ a :: rest) :
    advances writes.length (beginTask task s) = .next (beginTask { task with steps := a :: rest } (wroteAll writes s)) := by
  induction writes generalizing s task with
  | nil =>
    rw [← show task.steps = a :: rest from hsteps]
    rfl
  | cons w ws ih =>
    obtain ⟨b, l, hl⟩ : ∃ b l, ws.map (fun w => Atom.drvWrite w.1 w.2) ++ a :: rest = b :: l := by cases ws <;> simp
    rw [List.map_cons, List.cons_append, hl] at hsteps
    rw [List.length_cons, advances_cons (advance_plain (a := .drvWrite w.1 w.2) hcur rfl hsteps
      (drvWrite_done hwrite w.1 w.2))]
    exact ih ((sameRequesters_wrote w.1 [w.2] s).cur_lt hcur) (hwrite.wrote w.1 [w.2]) hl.symm

theorem advances_sectionBody (howner : s.sectionMode = true → s.owner = some s.cur) (accepted : s.accept = true)
    {task : Task} {writes : List (Byte × Byte)} {ms : Nat} {rest : List Atom} (hsteps : task.steps = sectionBody writes ms ++ rest) :
    advances (writes.length + 1) (beginTask task s) =
      .next (beginTask { task with steps := .release :: rest } (recordDelay ms (flushed (wroteAll writes s)))) := by
  obtain ⟨buffer, events, sent, hleaves⟩ := leaves_wroteAll writes s
  have hblock := hleaves.block
  have live : (wroteAll writes s).disposed = false := (congrArg Block.disposed hblock).trans hwrite.1
  have howner' : (wroteAll writes s).sectionMode = true → (wroteAll writes s).owner = some (wroteAll writes s).cur :=
    fun h => (congrArg Block.owner hblock).trans
      ((howner ((congrArg Block.sectionMode hblock).symm.trans h)).trans (congrArg some hleaves.cur.symm))
  rw [advances_add (advances_writes hcur hwrite (by simpa [sectionBody] using hsteps)), advances_one]
  exact advance_plain (a := .leaveFlush ms) (hleaves.sameRequesters.cur_lt hcur) rfl rfl
    (leaveFlush_done howner' live (hleaves.accept.trans accepted) ms)

end

/-- A section of SW_RESET up to its `release`. -/
theorem advances_resetSection {s : State} (h : CanReset s) (writes : List (Byte × Byte)) (ms : Nat) (rest : List Atom) :
    advances (writes.length + 1 + 1 + 1) (beginTask { steps := resetSection writes ms ++ rest, guarded := true } s) =
      .next (beginTask { steps := .release :: rest, guarded := true, acquired := true }
        (recordDelay ms (flushed (wroteAll writes (takeLock s))))) := by
  have hwrite : CanWrite (takeLock s) := ⟨by simpa using h.live, by simpa using h.selected, fun _ => by simpa using h.accepted⟩
  have howner : (takeLock s).sectionMode = true → (takeLock s).owner = some (takeLock s).cur := fun hmode => by
    rw [takeLock_sectionMode] at hmode
    simp [hmode]
  obtain ⟨a, l, hbody⟩ : ∃ a l, sectionBody writes ms ++ rest = a :: l := by cases writes <;> simp [sectionBody]
  rw [resetSection_eq, List.cons_append, List.cons_append, hbody,
    advances_cons (advance_plain (a := .enterCheck) h.cur_lt rfl rfl (enterCheck_done h.free.not_mine)),
    advances_cons (advance_acquire_guarded h.cur_lt h.free rfl rfl (enterTarget_none _))]
  exact advances_sectionBody ((sameRequesters_takeLock s).cur_lt h.cur_lt) hwrite howner (by simpa using h.accepted) hbody.symm

/-- After a section's flush, no target has to come back. -/
theorem restoreTarget_sectionFlushed {s : State} (h : CanReset s) (writes : List (Byte × Byte)) (ms : Nat) :
    SameRequesters s (recordDelay ms (flushed (wroteAll writes (takeLock s)))) ∧
    restoreTarget (recordDelay ms (flushed (wroteAll writes (takeLock s)))) =
      .done (recordDelay ms (flushed (wroteAll writes (takeLock s)))) := by
  have hleaves := ((leaves_takeLock s).trans (leaves_wroteAll_flushed writes (takeLock s))).trans (leaves_recordDelay ms _)
  refine ⟨hleaves.sameRequesters, restoreTarget_none ?_⟩
  have hsaved := congrArg Block.savedTarget ((leaves_takeLock s).trans (leaves_wroteAll_flushed writes (takeLock s))).block
  rw [recordDelay_savedTarget]
  exact hsaved.trans ((takeLock_savedTarget s).trans h.unsaved)

theorem resetTask_cons (p : List (Byte × Byte) × Nat) (more : List (List (Byte × Byte) × Nat)) : resetTask (p :: more) =
    { steps := resetSection p.1 p.2 ++ (resetTask more).steps, guarded := true } := rfl

theorem advances_resetTask (more : List (List (Byte × Byte) × Nat)) (p : List (Byte × Byte) × Nat) {s : State}
    (h : CanReset s) : ∃ n, advances (n + 1) (beginTask (resetTask (p :: more)) s) =
      .next (respond .ok [] (afterSections (p :: more) s)) := by
  obtain ⟨hsame, hrestore⟩ := restoreTarget_sectionFlushed h p.1 p.2
  have hcur := hsame.cur_lt h.cur_lt
  induction more generalizing p s with
  | nil =>
    refine ⟨p.1.length + 1 + 1 + 1, ?_⟩
    rw [resetTask_cons, advances_add (advances_resetSection h p.1 p.2 _), advances_one]
    exact advance_release_last hcur rfl hrestore ⟨rfl, rfl⟩
  | cons q more ih =>
    have h' := h.afterSection p.1 p.2
    obtain ⟨n, hn⟩ := ih q h' (restoreTarget_sectionFlushed h' q.1 q.2).1 (restoreTarget_sectionFlushed h' q.1 q.2).2
      ((restoreTarget_sectionFlushed h' q.1 q.2).1.cur_lt h'.cur_lt)
    refine ⟨p.1.length + 1 + 1 + 1 + (n + 1), ?_⟩
    rw [Nat.add_assoc, resetTask_cons, advances_add (advances_resetSection h p.1 p.2 _),
      advances_cons (advance_release (a := .enterCheck) hcur rfl hrestore)]
    exact hn

/-- Settles O53: the five sections run one after another. -/
theorem softwareReset : Obligations.SoftwareReset := by
  unfold Obligations.SoftwareReset
  intro s hcur live hpins accepted hsaved hfree
  have h : CanReset s := ⟨live, hpins, accepted, hcur, hfree, hsaved⟩
  obtain ⟨more, hparts, hlength⟩ := resetParts_cons s
  obtain ⟨n, hrun⟩ := advances_resetTask more (s.cfg.resetSeq[0], 1) h
  have hleaves := leaves_afterSections hfree (s.cfg.resetSeq[0], 1) more
  rw [← hparts] at hrun hleaves
  have hcount : (resetParts s).length = 5 := by rw [hparts, List.length_cons, hlength]
  rw [hcount] at hleaves
  exact ⟨n, endsAfter_of_advances (exec_swReset s) hrun (hleaves.ends .ok [])⟩

end Sys2Proof.Machine
end

section
/-!
PROOFS. The TONE unit (spec/42_tone.md): assignments, reads, exports and the default layouts; and what the operations that only
compute depend on.
-/
namespace Sys2Proof.Machine

/-! ### Assignments -/

theorem leaves_setSlot (i : Fin 16) (f : ToneSlot → ToneSlot) (s : State) :
    Leaves s (setSlot i f s) { s.block with x := s.x.set i (f s.x[i]) } [] := ⟨rfl, by simp, rfl, rfl, rfl, rfl, rfl, rfl⟩

theorem endsAtOnce_rangeError {i : Instr} {s : State} (h : exec i s = .next (respond .rangeError [] s)) :
    EndsAtOnce i s .rangeError [] s.block [] := endsAtOnce_of_next h (leaves_refl s)

theorem slot_set_same (x : Vector ToneSlot 16) (i : Fin 16) (slot : ToneSlot) : (x.set i slot)[i] = slot := by simp

theorem slot_set_other (x : Vector ToneSlot 16) {i j : Fin 16} (h : j ≠ i) (slot : ToneSlot) : (x.set i slot)[j] = x[j] := by
  simpa using Vector.getElem_set_ne i.isLt j.isLt fun he => h (Fin.ext he.symm)

theorem operator_set_same (x : Vector Operator 4) (i : Fin 4) (o : Operator) : (x.set i o)[i] = o := by simp

theorem operator_set_other (x : Vector Operator 4) {i j : Fin 4} (h : j ≠ i) (o : Operator) : (x.set i o)[j] = x[j] := by
  simpa using Vector.getElem_set_ne i.isLt j.isLt fun he => h (Fin.ext he.symm)

theorem toneSet_done (i : Fin 16) {value : Int} {f : ToneField} (h0 : 0 ≤ value) (htop : value ≤ ToneField.top f)
    (put : Nat → ToneSlot → ToneSlot) (s : State) :
    toneSet i.val value f put s = .next (respond .ok [] (setSlot i (put value.toNat) s)) := by
  simp only [toneSet, slotIndex_val, if_pos ((inRange_eq_true_iff value 0 _).mpr ⟨h0, htop⟩)]

theorem toneSet_rangeError {t value : Int} {f : ToneField} (h : t < 0 ∨ 15 < t ∨ value < 0 ∨ ToneField.top f < value)
    (put : Nat → ToneSlot → ToneSlot) (s : State) : toneSet t value f put s = .next (respond .rangeError [] s) := by
  obtain herror | ⟨i, hi, h0, htop, -⟩ := toneSet_cases t value f put s
  · exact herror
  · have ht : ¬ (t < 0 ∨ 15 < t) := fun ht => by simp [slotIndex_eq_none ht] at hi
    omega

/-- Settles O32: the one slot is written, and `ToneField.put_number` says what of it changes. -/
theorem Settled.toneSet : Obligations.ToneSet := by
  unfold Obligations.ToneSet
  refine fun s f t value => ⟨fun i ht h0 htop => ?_, fun h => ?_⟩
  · subst ht
    refine ⟨s.x.set i (ToneField.put f value.toNat s.x[i]), endsAtOnce_of_next
      ((exec_toneSetInstr f _ value s).trans (toneSet_done i h0 htop _ s)) (leaves_setSlot i _ s), ?_, fun g hg => ?_, ?_,
      fun j hj => slot_set_other s.x hj _⟩ <;> rw [slot_set_same]
    · rw [ToneField.put_number, if_pos rfl, Int.toNat_of_nonneg h0]
    · rw [ToneField.put_number, if_neg hg]
    · exact ToneField.put_op f _ _
  · exact endsAtOnce_rangeError ((exec_toneSetInstr f t value s).trans (toneSet_rangeError h _ s))

theorem opSetNumber_done (i : Fin 16) (j : Fin 4) {value : Int} {f : OpField} (h0 : 0 ≤ value) (htop : value ≤ OpField.top f)
    (put : Nat → Operator → Operator) (s : State) :
    opSetNumber i.val j.val value f put s = .next (respond .ok [] (setOperator i j (put value.toNat) s)) := by
  simp only [opSetNumber, slotIndex_val, opIndex_val, if_pos ((inRange_eq_true_iff value 0 _).mpr ⟨h0, htop⟩)]

theorem opSetFlag_done (i : Fin 16) (j : Fin 4) (put : Operator → Operator) (s : State) :
    opSetFlag i.val j.val put s = .next (respond .ok [] (setOperator i j put s)) := by
  simp only [opSetFlag, slotIndex_val, opIndex_val]

/-- OP_SET out of range: an index, or the value of a numeric field. -/
theorem exec_opSetInstr_rangeError {f : OpField} {t k value : Int} {s : State}
    (h : t < 0 ∨ 15 < t ∨ k < 0 ∨ 3 < k ∨ (f.isFlag = false ∧ (value < 0 ∨ OpField.top f < value))) :
    exec (opSetInstr f t k value) s = .next (respond .rangeError [] s) := by
  have hslot : ∀ i, slotIndex t = some i → ¬ (t < 0 ∨ 15 < t) := fun i hi ht => by simp [slotIndex_eq_none ht] at hi
  have hop : ∀ j, opIndex k = some j → ¬ (k < 0 ∨ 3 < k) := fun j hj hk => by simp [opIndex_eq_none hk] at hj
  cases hflag : f.isFlag with
  | true =>
    rw [exec_opSetInstr_flag hflag]
    obtain herror | ⟨i, j, hi, hj, -⟩ := opSetFlag_cases t k (OpField.put f (value != 0).toNat) s
    · exact herror
    · have := hslot i hi
      have := hop j hj
      have : t < 0 ∨ 15 < t ∨ k < 0 ∨ 3 < k := by simpa [hflag] using h
      omega
  | false =>
    rw [exec_opSetInstr_number hflag]
    obtain herror | ⟨i, j, hi, hj, h0, htop, -⟩ := opSetNumber_cases t k value f (OpField.put f) s
    · exact herror
    · have := hslot i hi
      have := hop j hj
      omega

/-- The number OP_SET stores in a field (R192). -/
def storedNumber (f : OpField) (value : Int) : Nat := if f.isFlag then (value != 0).toNat else value.toNat

theorem exec_opSetInstr_done (i : Fin 16) (j : Fin 4) {f : OpField} {value : Int}
    (h : f.isFlag = true ∨ 0 ≤ value ∧ value ≤ OpField.top f) (s : State) : exec (opSetInstr f i.val j.val value) s =
      .next (respond .ok [] (setOperator i j (OpField.put f (storedNumber f value)) s)) := by
  cases hflag : f.isFlag with
  | true => rw [exec_opSetInstr_flag hflag, opSetFlag_done, storedNumber, if_pos hflag]
  | false =>
    obtain ⟨h0, htop⟩ := h.resolve_left (by simp [hflag])
    rw [exec_opSetInstr_number hflag, opSetNumber_done i j h0 htop, storedNumber, if_neg (by simp [hflag])]

theorem OpField.put_storedNumber (f : OpField) {value : Int} (h : f.isFlag = true ∨ 0 ≤ value) (o : Operator) :
    ((OpField.put f (storedNumber f value) o).number f : Int) = if f.isFlag then (if value = 0 then 0 else 1) else value := by
  rw [OpField.put_number, if_pos rfl, storedNumber]
  cases hflag : f.isFlag with
  | true => by_cases hv : value = 0 <;> simp [hv]
  | false => simpa using h.resolve_left (by simp [hflag])

/-- Settles O33: the one operator is written, and `OpField.put_number` says what of it changes. -/
theorem operatorSet : Obligations.OperatorSet := by
  unfold Obligations.OperatorSet
  refine fun s f t k value => ⟨fun i j ht hk h => ?_, fun h => endsAtOnce_rangeError (exec_opSetInstr_rangeError h)⟩
  subst ht hk
  let slot : ToneSlot := { s.x[i] with op := s.x[i].op.set j (OpField.put f (storedNumber f value) s.x[i].op[j]) }
  have hslot : (s.x.set i slot)[i] = slot := slot_set_same s.x i slot
  have hop : slot.op[j] = OpField.put f (storedNumber f value) s.x[i].op[j] := operator_set_same _ j _
  refine ⟨s.x.set i slot, endsAtOnce_of_next (exec_opSetInstr_done i j h s) (leaves_setSlot i _ s), ?_, fun g hg => ?_,
    fun j' hj' => ?_, fun g => ?_, fun i' hi' => slot_set_other s.x hi' _⟩ <;> rw [hslot]
  · rw [hop, OpField.put_storedNumber f (h.imp_right And.left)]
  · rw [hop, OpField.put_number, if_neg hg]
  · exact operator_set_other _ hj' _
  · cases g <;> rfl

/-! ### Reads -/

theorem exec_toneGetInstr (f : ToneField) (t : Int) (s : State) :
    exec (toneGetInstr f t) s = toneGet t (fun slot => slot.number f) s := by cases f <;> rfl

theorem exec_opGetInstr (f : OpField) (t k : Int) (s : State) :
    exec (opGetInstr f t k) s = opGet t k (fun o => o.reading f) s := by
  have hflag (b : Bool) : (b.toNat != 0) = b := by cases b <;> rfl
  cases f <;> simp [opGetInstr, exec, Operator.reading, OpField.isFlag, Operator.number, hflag] <;> rfl

theorem endsAtOnce_value {i : Instr} {s : State} {values : List Value} (h : exec i s = .next (respond .ok values s)) :
    EndsAtOnce i s .ok values s.block [] := endsAtOnce_answer_ok h

/-- Settles O34: the two reads by their indices. -/
theorem toneReads : Obligations.ToneReads := by
  unfold Obligations.ToneReads
  refine ⟨fun s f t => ⟨fun i ht => endsAtOnce_value ?_, fun h => endsAtOnce_rangeError ?_⟩,
    fun s f t k => ⟨fun i j ht hk => endsAtOnce_value ?_, fun h => endsAtOnce_rangeError ?_⟩⟩
  · rw [exec_toneGetInstr, ht, toneGet, slotIndex_val]
  · rw [exec_toneGetInstr, toneGet, slotIndex_eq_none h]
  · rw [exec_opGetInstr, ht, hk, opGet, slotIndex_val, opIndex_val]
  · rw [exec_opGetInstr, opGet]
    obtain h | h : (t < 0 ∨ 15 < t) ∨ k < 0 ∨ 3 < k := by omega
    · rw [slotIndex_eq_none h]
    · rw [opIndex_eq_none h]
      cases slotIndex t <;> rfl

/-! ### Exports -/

theorem overwritten_overwrite {buffer run : List Byte} {offset : Nat} (h : offset + run.length ≤ buffer.length) :
    Overwritten buffer (overwrite buffer offset run) offset run := by
  have htake : (buffer.take offset).length = offset := by simp; omega
  refine ⟨by simp [overwrite]; omega, fun j hj => ?_, fun j hj => ?_⟩ <;> unfold overwrite
  · rw [List.append_assoc, List.getElem?_append_right (by omega), htake, Nat.add_sub_cancel_left,
      List.getElem?_append_left hj]
  · rcases hj with hj | hj
    · rw [List.append_assoc, List.getElem?_append_left (by omega), List.getElem?_take_of_lt hj]
    · rw [List.getElem?_append_right (by simp; omega), List.getElem?_drop]
      congr 1
      simp
      omega

theorem endsAtOnce_writeRun {i : Instr} {s : State} {buffer run : List Byte} {offset : Int}
    (hexec : exec i s = writeRun buffer offset run s) (h0 : 0 ≤ offset) (hfits : offset + run.length ≤ buffer.length) :
    ∃ buffer', EndsAtOnce i s .ok [.bytes buffer'] s.block [] ∧ Overwritten buffer buffer' offset.toNat run := by
  refine ⟨_, endsAtOnce_value ?_, overwritten_overwrite (by omega)⟩
  rw [hexec, writeRun, if_pos (by simp [runFits, h0, hfits])]

theorem writeRun_rangeError {buffer run : List Byte} {offset : Int} (h : offset < 0 ∨ buffer.length < offset + run.length)
    (s : State) : writeRun buffer offset run s = .next (respond .rangeError [] s) := by
  rw [writeRun, if_neg]
  simp only [runFits, Bool.and_eq_true, decide_eq_true_iff]
  omega

theorem slotIndex_cases (t : Int) :
    (∃ i : Fin 16, t = i.val ∧ slotIndex t = some i) ∨ (t < 0 ∨ 15 < t) ∧ slotIndex t = none := by
  by_cases h : t < 0 ∨ 15 < t
  · exact .inr ⟨h, slotIndex_eq_none h⟩
  · have ht : t = (⟨t.toNat, by omega⟩ : Fin 16).val := by simp; omega
    exact .inl ⟨_, ht, (congrArg slotIndex ht).trans (slotIndex_val _)⟩

theorem opIndex_cases (k : Int) :
    (∃ j : Fin 4, k = j.val ∧ opIndex k = some j) ∨ (k < 0 ∨ 3 < k) ∧ opIndex k = none := by
  by_cases h : k < 0 ∨ 3 < k
  · exact .inr ⟨h, opIndex_eq_none h⟩
  · have hk : k = (⟨k.toNat, by omega⟩ : Fin 4).val := by simp; omega
    exact .inl ⟨_, hk, (congrArg opIndex hk).trans (opIndex_val _)⟩

theorem opExport_rangeError {t k offset : Int} {buffer : List Byte}
    (h : t < 0 ∨ 15 < t ∨ k < 0 ∨ 3 < k ∨ offset < 0 ∨ buffer.length < offset + 7) (s : State) :
    execOpExport t k buffer offset s = .next (respond .rangeError [] s) := by
  obtain ⟨i, ht, hi⟩ | ⟨-, hi⟩ := slotIndex_cases t
  · obtain ⟨j, hk, hj⟩ | ⟨-, hj⟩ := opIndex_cases k
    · simp only [execOpExport, hi, hj]
      exact writeRun_rangeError (by rw [operatorBytes_length]; omega) s
    · simp only [execOpExport, hi, hj]
  · simp only [execOpExport, hi]

theorem toneExport_rangeError {t offset : Int} {buffer : List Byte}
    (h : t < 0 ∨ 15 < t ∨ offset < 0 ∨ buffer.length < offset + 30) (s : State) :
    execToneExport t buffer offset s = .next (respond .rangeError [] s) := by
  obtain ⟨i, ht, hi⟩ | ⟨-, hi⟩ := slotIndex_cases t
  · simp only [execToneExport, hi]
    exact writeRun_rangeError (by rw [toneBytes_length]; omega) s
  · simp only [execToneExport, hi]

theorem collExport_rangeError {tone offset : Int} {buffer : List Byte}
    (h : tone < 0 ∨ 15 < tone ∨ offset < 0 ∨ buffer.length < offset + (1 + 30 * (tone + 1) + 4)) (s : State) :
    execCollExport buffer offset tone s = .next (respond .rangeError [] s) := by
  obtain ⟨i, ht, hi⟩ | ⟨-, hi⟩ := slotIndex_cases tone
  · simp only [execCollExport, hi]
    exact writeRun_rangeError (by rw [toneBlob_length]; push_cast; omega) s
  · simp only [execCollExport, hi]

/-- Settles O35: the run fits or not, once the index is found. -/
theorem exports : Obligations.Exports := by
  unfold Obligations.Exports
  refine ⟨fun s t k buffer offset =>
      ⟨fun i j ht hk h0 hfits => ?_, fun h => endsAtOnce_rangeError (opExport_rangeError h s)⟩,
    fun s t buffer offset => ⟨fun i ht h0 hfits => ?_, fun h => endsAtOnce_rangeError (toneExport_rangeError h s)⟩,
    fun s buffer offset tone => ⟨fun h0 h15 hoffset hfits => ?_, fun h => endsAtOnce_rangeError (collExport_rangeError h s)⟩⟩
  · refine endsAtOnce_writeRun ?_ h0 (by rw [operatorBytes_length]; exact hfits)
    rw [exec, execOpExport, ht, hk, slotIndex_val, opIndex_val]
  · refine endsAtOnce_writeRun ?_ h0 (by rw [toneBytes_length]; exact hfits)
    rw [exec, execToneExport, ht, slotIndex_val]
  · obtain ⟨i, rfl, -⟩ | ⟨htone, -⟩ := slotIndex_cases tone
    · refine endsAtOnce_writeRun (run := toneBlob s.cfg s.x i.val) ?_ hoffset (by rw [toneBlob_length]; push_cast; exact hfits)
      rw [exec, execCollExport, slotIndex_val]
    · omega

/-! ### The default layouts -/

/-- A field in range that starts at bit 0 is only shifted. -/
theorem Slice.bits_of_lt {α : Type} (f : α) {width : Nat} (a p : Nat) {v : Nat} (h : v < 2 ^ width) :
    Slice.bits ⟨f, 0, width, a, p⟩ v = BitVec.ofNat 8 (v <<< p) := by
  simp [Slice.bits, Nat.mod_eq_of_lt h]

theorem operator_field_lt {o : Operator} (h : ∀ f, (o.number f : Int) ≤ OpField.top f) :
    ∀ sl ∈ defaultOpLayout, o.number sl.field < 2 ^ sl.width := by
  intro sl hsl
  have htop : OpField.top sl.field < 2 ^ sl.width := by
    revert sl
    decide
  exact_mod_cast (h sl.field).trans_lt htop

theorem tone_field_lt {t : ToneSlot} (h : ∀ f, (t.number f : Int) ≤ ToneField.top f) :
    ∀ sl ∈ defaultToneHdr, t.number sl.field < 2 ^ sl.width := by
  intro sl hsl
  have htop : ToneField.top sl.field < 2 ^ sl.width := by
    revert sl
    decide
  exact_mod_cast (h sl.field).trans_lt htop

/-- A byte of a layout whose fields start at bit 0 and are in range: the fields shifted into place, in the layout's order. -/
theorem packByte_of_lt {α : Type} {layout : List (Slice α)} {value : α → Nat} (hsrc : ∀ sl ∈ layout, sl.src = 0)
    (hlt : ∀ sl ∈ layout, value sl.field < 2 ^ sl.width) (j : Nat) : packByte layout value j = BitVec.ofNat 8
      ((layout.filter fun sl => sl.byte = j).foldl (fun n sl => n ||| value sl.field <<< sl.pos) 0) := by
  have hbits : ∀ sl ∈ layout.filter fun sl => sl.byte = j, ∀ b : Byte,
      b ||| sl.bits (value sl.field) = b ||| BitVec.ofNat 8 (value sl.field <<< sl.pos) := fun sl hsl b => by
    obtain ⟨field, src, width, byte, pos⟩ := sl
    obtain rfl : src = 0 := hsrc _ (List.mem_of_mem_filter hsl)
    rw [Slice.bits_of_lt field byte pos (hlt _ (List.mem_of_mem_filter hsl))]
  rw [packByte_eq_foldl_filter, List.foldl_ext _ _ _ fun b sl hsl => hbits sl hsl b]
  exact List.foldl_hom (BitVec.ofNat 8) fun n sl => BitVec.ofNat_or.symm

/-- Settles O36: the slices of each byte are found in the default layout, and fields in range are only shifted. -/
theorem defaultToneBytes : Obligations.DefaultToneBytes := by
  unfold Obligations.DefaultToneBytes
  refine ⟨fun c o hlayout hrange => ?_, fun c t hlayout hrange => ?_⟩
  · have hbyte := packByte_of_lt (layout := defaultOpLayout) (value := o.number) (by decide) (operator_field_lt hrange)
    simp only [operatorBytes, hlayout, funext hbyte]
    simp [List.range_succ, defaultOpLayout, Operator.number]
  · have hbyte := packByte_of_lt (layout := defaultToneHdr) (value := t.number) (by decide) (tone_field_lt hrange)
    have hop : t.op.toList = [t.op[0], t.op[1], t.op[2], t.op[3]] := by
      obtain ⟨⟨l⟩, hl⟩ := t.op
      match l, hl with
      | [a, b, c, d], _ => rfl
    simp only [toneBytes, hlayout, funext hbyte, hop]
    simp [List.range_succ, defaultToneHdr, ToneSlot.number]

/-! ### Operations that only compute -/

/-- `u` with the parameters, the tables and the tone file of `s`. -/
def withOperandsOf (s u : State) : State := { u with cfg := s.cfg, x := s.x, fnumTable := s.fnumTable }

theorem eq_withOperandsOf {s u : State} (hcfg : s.cfg = u.cfg) (hx : s.x = u.x) (htable : s.fnumTable = u.fnumTable) :
    u = withOperandsOf s u := by rw [withOperandsOf, hcfg, hx, htable]

/-- Two runs end the same way, and change the tone file at most, likewise. -/
def EndAlike (o o' : Host.Outcome State Fault Refusal) (s s' : State) : Prop :=
  ∃ e values x', (∃ t, o = .next t ∧ Ends s t e values { s.block with x := x' } []) ∧
    ∃ t, o' = .next t ∧ Ends s' t e values { s'.block with x := x' } []

theorem endAlike_of_next {s s' t t' : State} {x' : Vector ToneSlot 16} (h : Leaves s t { s.block with x := x' } [])
    (h' : Leaves s' t' { s'.block with x := x' } []) (e : Status) (values : List Value) :
    EndAlike (.next (respond e values t)) (.next (respond e values t')) s s' :=
  ⟨e, _, x', ⟨_, rfl, h.ends e values⟩, _, rfl, h'.ends e values⟩

section
variable (s u : State)

theorem endAlike_respond (e : Status) (values : List Value) : EndAlike (.next (respond e values s))
    (.next (respond e values (withOperandsOf s u))) s (withOperandsOf s u) :=
  endAlike_of_next (leaves_refl s) (leaves_refl (withOperandsOf s u)) e values

theorem endAlike_answer (r : Except Status (List Value)) :
    EndAlike (answer r s) (answer r (withOperandsOf s u)) s (withOperandsOf s u) := by
  cases r <;> exact endAlike_respond s u _ _

theorem endAlike_setSlot (i : Fin 16) (f : ToneSlot → ToneSlot) : EndAlike (.next (respond .ok [] (setSlot i f s)))
    (.next (respond .ok [] (setSlot i f (withOperandsOf s u)))) s (withOperandsOf s u) :=
  endAlike_of_next (leaves_setSlot i f s) (leaves_setSlot i f (withOperandsOf s u)) .ok []

theorem endAlike_toneSet (t value : Int) (f : ToneField) (put : Nat → ToneSlot → ToneSlot) :
    EndAlike (toneSet t value f put s) (toneSet t value f put (withOperandsOf s u)) s (withOperandsOf s u) := by
  unfold toneSet
  cases slotIndex t with
  | none => exact endAlike_respond s u _ _
  | some i =>
    cases hrange : inRange value 0 (ToneField.top f)
    · exact endAlike_respond s u _ _
    · exact endAlike_setSlot s u i _

theorem endAlike_opSetNumber (t k value : Int) (f : OpField) (put : Nat → Operator → Operator) :
    EndAlike (opSetNumber t k value f put s) (opSetNumber t k value f put (withOperandsOf s u)) s (withOperandsOf s u) := by
  unfold opSetNumber
  cases slotIndex t with
  | none => exact endAlike_respond s u _ _
  | some i =>
    cases opIndex k with
    | none => exact endAlike_respond s u _ _
    | some j =>
      cases hrange : inRange value 0 (OpField.top f)
      · exact endAlike_respond s u _ _
      · exact endAlike_setSlot s u i _

theorem endAlike_opSetFlag (t k : Int) (put : Operator → Operator) :
    EndAlike (opSetFlag t k put s) (opSetFlag t k put (withOperandsOf s u)) s (withOperandsOf s u) := by
  unfold opSetFlag
  cases slotIndex t with
  | none => exact endAlike_respond s u _ _
  | some i =>
    cases opIndex k with
    | none => exact endAlike_respond s u _ _
    | some j => exact endAlike_setSlot s u i _

theorem endAlike_toneGet (t : Int) (get : ToneSlot → Nat) :
    EndAlike (toneGet t get s) (toneGet t get (withOperandsOf s u)) s (withOperandsOf s u) := by
  unfold toneGet
  cases slotIndex t <;> exact endAlike_respond s u _ _

theorem endAlike_opGet (t k : Int) (get : Operator → Value) :
    EndAlike (opGet t k get s) (opGet t k get (withOperandsOf s u)) s (withOperandsOf s u) := by
  unfold opGet
  cases slotIndex t <;> cases opIndex k <;> exact endAlike_respond s u _ _

theorem endAlike_writeRun (buffer : List Byte) (offset : Int) (run : List Byte) :
    EndAlike (writeRun buffer offset run s) (writeRun buffer offset run (withOperandsOf s u)) s (withOperandsOf s u) := by
  unfold writeRun
  split <;> exact endAlike_respond s u _ _

theorem endAlike_opExport (t k : Int) (buffer : List Byte) (offset : Int) : EndAlike (execOpExport t k buffer offset s)
    (execOpExport t k buffer offset (withOperandsOf s u)) s (withOperandsOf s u) := by
  unfold execOpExport
  cases slotIndex t with
  | none => exact endAlike_respond s u _ _
  | some i =>
    cases opIndex k with
    | none => exact endAlike_respond s u _ _
    | some j => exact endAlike_writeRun s u buffer offset _

theorem endAlike_toneExport (t : Int) (buffer : List Byte) (offset : Int) : EndAlike (execToneExport t buffer offset s)
    (execToneExport t buffer offset (withOperandsOf s u)) s (withOperandsOf s u) := by
  unfold execToneExport
  cases slotIndex t with
  | none => exact endAlike_respond s u _ _
  | some i => exact endAlike_writeRun s u buffer offset _

theorem endAlike_collExport (buffer : List Byte) (offset tone : Int) : EndAlike (execCollExport buffer offset tone s)
    (execCollExport buffer offset tone (withOperandsOf s u)) s (withOperandsOf s u) := by
  unfold execCollExport
  cases slotIndex tone with
  | none => exact endAlike_respond s u _ _
  | some i => exact endAlike_writeRun s u buffer offset _

end

/-- The operations below 50 compute on what `withOperandsOf` keeps, or work on the tone file. -/
theorem exec_endAlike {i : Instr} {c : Command} (hencode : encode i = .command c) (hheader : c.header.toNat < 0x5000)
    (s u : State) : EndAlike (exec i s) (exec i (withOperandsOf s u)) s (withOperandsOf s u) := by
  cases i with
  | calcFnum | calcFreq | key2fnum | convFmult | calcRof | atkTime | envTime =>
    simp only [exec, execCalcFnum, execCalcFreq, execKey2fnum, execConvFmult, execCalcRof, execAtkTime, execEnvTime]
    exact endAlike_answer s u _
  | ceqEnc | ceqDec | ceqPack =>
    simp only [exec, execCeqEnc, execCeqDec, execCeqPack]
    exact endAlike_answer s u _
  | fltLowpass | fltHighpass | fltBandpass | fltBandstop | fltLowshelf | fltHighshelf | fltPeaking | fltAllpass =>
    exact endAlike_answer s u _
  | toneSetBo | toneSetLfo | toneSetAlg =>
    simp only [exec, execToneSetBo, execToneSetLfo, execToneSetAlg]
    exact endAlike_toneSet s u _ _ _ _
  | opSetSr | opSetRr | opSetDr | opSetAr | opSetSl | opSetTl | opSetKsl | opSetDam | opSetDvb | opSetMulti | opSetDt
  | opSetWs | opSetFb =>
    simp only [exec, execOpSetSr, execOpSetRr, execOpSetDr, execOpSetAr, execOpSetSl, execOpSetTl, execOpSetKsl,
      execOpSetDam, execOpSetDvb, execOpSetMulti, execOpSetDt, execOpSetWs, execOpSetFb]
    exact endAlike_opSetNumber s u _ _ _ _ _
  | opSetXof | opSetKsr | opSetEam | opSetEvb =>
    simp only [exec, execOpSetXof, execOpSetKsr, execOpSetEam, execOpSetEvb]
    exact endAlike_opSetFlag s u _ _ _
  | toneGetBo | toneGetLfo | toneGetAlg =>
    simp only [exec, execToneGetBo, execToneGetLfo, execToneGetAlg]
    exact endAlike_toneGet s u _ _
  | opGetSr | opGetRr | opGetDr | opGetAr | opGetSl | opGetTl | opGetKsl | opGetDam | opGetDvb | opGetMulti | opGetDt
  | opGetWs | opGetFb | opGetXof | opGetKsr | opGetEam | opGetEvb =>
    simp only [exec, execOpGetSr, execOpGetRr, execOpGetDr, execOpGetAr, execOpGetSl, execOpGetTl, execOpGetKsl,
      execOpGetDam, execOpGetDvb, execOpGetMulti, execOpGetDt, execOpGetWs, execOpGetFb, execOpGetXof, execOpGetKsr,
      execOpGetEam, execOpGetEvb]
    exact endAlike_opGet s u _ _ _
  | opExport => exact endAlike_opExport s u _ _ _ _
  | toneExport => exact endAlike_toneExport s u _ _ _
  | collExport => exact endAlike_collExport s u _ _ _
  | gpioLow | gpioHigh | spiWrite | spiRead | streamFlush => cases hencode
  | regget sub =>
    cases hencode
    have hle : 0x6900 ≤ ((0x6900 : BitVec 16) ||| sub.setWidth 16).toNat := by
      rw [BitVec.toNat_or]
      exact Nat.left_le_or
    exact absurd hheader (Nat.not_lt.mpr (le_trans (by decide) hle))
  | _ =>
    cases hencode
    simp at hheader

/-- Settles O18: `s'` is `withOperandsOf s s'`. -/
theorem computationsIgnoreTransport : Obligations.ComputationsIgnoreTransport := by
  unfold Obligations.ComputationsIgnoreTransport
  intro i c s s' hencode hheader hcfg hx htable
  have h := exec_endAlike hencode hheader s s'
  rw [← eq_withOperandsOf hcfg hx htable] at h
  exact h

end Sys2Proof.Machine
end

section
/-!
PROOFS. The real numbers (spec/00_scope.md R12): rounding to binary64, directed rounding, floors and comparisons.
-/
namespace Sys2Proof

/-! ### Units in the last place -/

theorem zpow_two_pos (z : ℤ) : (0 : ℝ) < 2 ^ z := by positivity

/-- A magnitude of `m` units, with a sign. -/
def signedUnits (negative : Bool) (m : Nat) : ℤ := if negative then -m else m

theorem fromUnits_of_lt {m : Nat} {u : ℤ} (h : (m : ℝ) * 2 ^ u < 2 ^ (1024 : ℤ)) (negative : Bool) :
    fromUnits negative m u = .ofRat ((signedUnits negative m : Rat) * ratTwoPow u) := by
  have hlt : ¬ ratTwoPow 1024 ≤ (m : Rat) * ratTwoPow u := by
    rw [not_le, ← Rat.cast_lt (K := ℝ)]
    push_cast
    rwa [value_ratTwoPow, value_ratTwoPow]
  simp only [fromUnits, if_neg hlt]
  cases negative <;> simp [signedUnits]

theorem fromUnits_of_le {m : Nat} {u : ℤ} (h : (2 : ℝ) ^ (1024 : ℤ) ≤ m * 2 ^ u) (negative : Bool) :
    fromUnits negative m u = .inf negative := by
  have hle : ratTwoPow 1024 ≤ (m : Rat) * ratTwoPow u := by
    rw [← Rat.cast_le (K := ℝ)]
    push_cast
    rwa [value_ratTwoPow, value_ratTwoPow]
  simp only [fromUnits, if_pos hle]

theorem abs_signedUnits_sub {x : ℝ} {negative : Bool} (hneg : negative = true ↔ x < 0) (m : Nat) (u : ℤ) :
    |(signedUnits negative m : ℝ) * 2 ^ u - x| = abs (m * 2 ^ u - |x|) := by
  cases negative with
  | true =>
    have hx : x < 0 := hneg.mp rfl
    rw [abs_of_neg hx, ← abs_neg]
    congr 1
    simp [signedUnits]
    ring
  | false =>
    have hx : 0 ≤ x := not_lt.mp fun h => by simpa using hneg.mpr h
    rw [abs_of_nonneg hx]
    simp [signedUnits]

theorem abs_signedUnits (negative : Bool) (m : Nat) (u : ℤ) : |(signedUnits negative m : ℝ) * 2 ^ u| = m * 2 ^ u := by
  cases negative <;> simp [signedUnits, abs_mul]

theorem inf_eq {x : ℝ} {negative : Bool} (hneg : negative = true ↔ x < 0) :
    XReal.inf negative = if x < 0 then .negInf else .posInf := by
  cases negative with
  | true => rw [if_pos (hneg.mp rfl)]; rfl
  | false => rw [if_neg fun h => by simpa using hneg.mpr h]; rfl

/-- The magnitude of `x` in units of `2^(e - 52)`. -/
noncomputable def inUnits (x : ℝ) (e : ℤ) : ℝ := |x| * 2 ^ (-(e - 52))

theorem inUnits_mul (x : ℝ) (e : ℤ) : inUnits x e * 2 ^ (e - 52) = |x| := by
  rw [inUnits, mul_assoc, ← zpow_add₀ two_ne_zero, neg_add_cancel, zpow_zero, mul_one]

/-- A distance in units is one in the value. -/
theorem abs_units_sub (x : ℝ) (m : Nat) (e : ℤ) :
    abs (m * 2 ^ (e - 52) - |x|) = |inUnits x e - m| * (2 : ℝ) ^ (e - 52) := by
  rw [← inUnits_mul x e, ← sub_mul, abs_mul, abs_sub_comm, abs_of_pos (zpow_two_pos (e - 52))]

theorem le_inUnits {x : ℝ} {e : ℤ} {y : ℝ} (h : y * 2 ^ (e - 52) ≤ |x|) : y ≤ inUnits x e := by
  rw [← inUnits_mul x e] at h
  exact le_of_mul_le_mul_right h (zpow_two_pos _)

theorem inUnits_lt {x : ℝ} {e : ℤ} {y : ℝ} (h : |x| < y * 2 ^ (e - 52)) : inUnits x e < y := by
  rw [← inUnits_mul x e] at h
  exact lt_of_mul_lt_mul_right h (zpow_two_pos _).le

/-! ### The exponent of a magnitude -/

/-- `e` is the exponent of `x`, or the least one of binary64. -/
structure ExponentOf (x : ℝ) (e : ℤ) : Prop where
  least : -1022 ≤ e
  below : (2 : ℝ) ^ e ≤ |x| ∨ e = -1022
  above : |x| < (2 : ℝ) ^ (e + 1)

section
variable {x : ℝ} {e : ℤ} (h : ExponentOf x e)
include h

theorem ExponentOf.ge {k : ℤ} (hk : (2 : ℝ) ^ k ≤ |x|) : k ≤ e := by
  have := (zpow_lt_zpow_iff_right₀ (one_lt_two (α := ℝ))).mp (hk.trans_lt h.above)
  omega

theorem ExponentOf.le {k : ℤ} (hk : -1022 ≤ k) (hx : |x| < (2 : ℝ) ^ (k + 1)) : e ≤ k := by
  obtain hlo | rfl := h.below
  · have := (zpow_lt_zpow_iff_right₀ (one_lt_two (α := ℝ))).mp (hlo.trans_lt hx)
    omega
  · exact hk

theorem ExponentOf.inUnits_lt : inUnits x e < 2 ^ 53 := by
  refine Sys2Proof.inUnits_lt (h.above.trans_eq ?_)
  rw [← zpow_natCast, ← zpow_add₀ two_ne_zero]
  congr 1
  push_cast
  ring

theorem ExponentOf.le_inUnits (he : e ≠ -1022) : 2 ^ 52 ≤ inUnits x e := by
  refine Sys2Proof.le_inUnits (le_of_eq_of_le ?_ (h.below.resolve_right he))
  rw [← zpow_natCast, ← zpow_add₀ two_ne_zero]
  congr 1
  push_cast
  ring

end

theorem two_zpow_units (k : Nat) (e : ℤ) : ((2 ^ k : Nat) : ℝ) * 2 ^ (e - 52) = 2 ^ (e + (k - 52)) := by
  push_cast
  rw [← zpow_natCast, ← zpow_add₀ two_ne_zero]
  congr 1
  ring

/-- A number of units from `2^52` on, with so large a unit, is no binary64 number. -/
theorem overflow_of_le {e : ℤ} (he : 1024 ≤ e) {m : Nat} (hm : 2 ^ 52 ≤ m) : (2 : ℝ) ^ (1024 : ℤ) ≤ m * 2 ^ (e - 52) :=
  calc (2 : ℝ) ^ (1024 : ℤ) ≤ 2 ^ (e + ((52 : Nat) - 52)) := zpow_le_zpow_right₀ one_le_two (by push_cast; omega)
    _ = ((2 ^ 52 : Nat) : ℝ) * 2 ^ (e - 52) := (two_zpow_units 52 e).symm
    _ ≤ m * 2 ^ (e - 52) := by gcongr

/-- Up to `2^53` units, with a smaller unit, are a binary64 number. -/
theorem units_le {e k : ℤ} (he : e ≤ k) {m : Nat} (hm : m ≤ 2 ^ 53) : (m : ℝ) * 2 ^ (e - 52) ≤ 2 ^ (k + 1) :=
  calc (m : ℝ) * 2 ^ (e - 52) ≤ ((2 ^ 53 : Nat) : ℝ) * 2 ^ (e - 52) := by gcongr
    _ = 2 ^ (e + ((53 : Nat) - 52)) := two_zpow_units 53 e
    _ ≤ 2 ^ (k + 1) := zpow_le_zpow_right₀ one_le_two (by push_cast; omega)

/-! ### The nearest value -/

/-- A nearest integer, the even one of two. -/
def NearestEven (y : ℝ) (m : Nat) : Prop := |y - m| < 1 / 2 ∨ (|y - m| = 1 / 2 ∧ m % 2 = 0)

theorem NearestEven.le_half {y : ℝ} {m : Nat} (h : NearestEven y m) : |y - m| ≤ 1 / 2 := h.elim le_of_lt fun h => h.1.le

theorem NearestEven.even {y : ℝ} {m : Nat} (h : NearestEven y m) (hy : |y - m| = 1 / 2) : Even m := by
  obtain hlt | ⟨-, heven⟩ := h
  · exact absurd hy hlt.ne
  · exact Nat.even_iff.mpr heven

/-- A nearest integer is not below an integer that is not above. -/
theorem NearestEven.ge {y : ℝ} {m n : Nat} (h : NearestEven y m) (hn : (n : ℝ) ≤ y) : n ≤ m := by
  have := abs_le.mp h.le_half
  have hlt : (n : ℝ) < m + 1 := by linarith
  exact_mod_cast Nat.lt_succ_iff.mp (by exact_mod_cast hlt)

theorem NearestEven.le {y : ℝ} {m n : Nat} (h : NearestEven y m) (hn : y < n) : m ≤ n := by
  have := abs_le.mp h.le_half
  have hlt : (m : ℝ) < n + 1 := by linarith
  exact_mod_cast Nat.lt_succ_iff.mp (by exact_mod_cast hlt)

/-- Half a unit below an even number or above, the nearest integer is that number or more. -/
theorem NearestEven.ge_of_half {y : ℝ} {m n : Nat} (h : NearestEven y m) (hn : Even n) (hy : (n : ℝ) - 1 / 2 ≤ y) :
    n ≤ m := by
  by_contra hlt
  have hle : (m : ℝ) + 1 ≤ n := by exact_mod_cast Nat.lt_of_not_le hlt
  have hhalf := abs_le.mp h.le_half
  have heq : (m : ℝ) + 1 = n := by linarith
  have hm : Even m := h.even (by rw [abs_of_nonneg] <;> linarith)
  have heq' : m + 1 = n := by exact_mod_cast heq
  exact absurd (heq' ▸ hn) (by simpa [Nat.even_add_one] using hm)

theorem NearestEven.lt_of_half {y : ℝ} {m n : Nat} (h : NearestEven y m) (hy : y < n - 1 / 2) : m < n := by
  have hhalf := abs_le.mp h.le_half
  have hlt : (m : ℝ) < n := by linarith
  exact_mod_cast hlt

theorem half_zpow (e : ℤ) : 1 / 2 * (2 : ℝ) ^ (e - 52) = 2 ^ (e - 53) := by
  rw [show e - 52 = e - 53 + 1 by ring, zpow_add_one₀ two_ne_zero]
  ring

/-- The bound of overflow is at least half of `2^1024`. -/
theorem half_le_overflow : (2 : ℝ) ^ (1023 : ℤ) ≤ 2 ^ (1024 : ℤ) - 2 ^ (970 : ℤ) := by
  have h970 : (2 : ℝ) ^ (970 : ℤ) ≤ 2 ^ (1023 : ℤ) := zpow_le_zpow_right₀ one_le_two (by norm_num)
  have h1024 : (2 : ℝ) ^ (1024 : ℤ) = 2 ^ (1023 : ℤ) * 2 := zpow_add_one₀ two_ne_zero 1023
  rw [h1024, mul_two]
  exact le_sub_iff_add_le.mpr (by gcongr)

/-- A number of units nearest `x`, as a binary64 value, is the one nearest `x`. -/
theorem nearestBinary64_fromUnits {x : ℝ} (hx : x ≠ 0) {e : ℤ} (he : ExponentOf x e) {m : Nat}
    (hm : NearestEven (inUnits x e) m) {negative : Bool} (hneg : negative = true ↔ x < 0) :
    NearestBinary64 x (fromUnits negative m (e - 52)) := by
  have hmax : ((2 : ℝ) ^ (1024 : ℤ) - 2 ^ (970 : ℤ)) = (((2 ^ 53 : Nat) : ℝ) - 1 / 2) * 2 ^ ((1023 : ℤ) - 52) := by
    rw [sub_mul, two_zpow_units, half_zpow]
    norm_num
  refine ⟨fun h => absurd h hx, fun h => ?_, fun _ h => ?_⟩
  · have hge : (1023 : ℤ) ≤ e := he.ge (half_le_overflow.trans h)
    rw [← inf_eq hneg]
    refine fromUnits_of_le ?_ negative
    obtain hlt | rfl := hge.lt_or_eq
    · exact overflow_of_le (by omega) (hm.ge (by exact_mod_cast he.le_inUnits (by omega)))
    · have hm' : 2 ^ 53 ≤ m := hm.ge_of_half (by decide) (le_inUnits (hmax ▸ h))
      calc (2 : ℝ) ^ (1024 : ℤ) = ((2 ^ 53 : Nat) : ℝ) * 2 ^ ((1023 : ℤ) - 52) := by rw [two_zpow_units]; norm_num
        _ ≤ m * 2 ^ ((1023 : ℤ) - 52) := by gcongr
  · have hle : e ≤ 1023 := he.le (by norm_num) (h.trans (by norm_num))
    have hfits : (m : ℝ) * 2 ^ (e - 52) < 2 ^ (1024 : ℤ) := by
      obtain hlt | rfl := hle.lt_or_eq
      · exact (units_le (k := 1022) (by omega) (hm.le (by exact_mod_cast he.inUnits_lt))).trans_lt
          (zpow_lt_zpow_right₀ one_lt_two (by norm_num))
      · have hm' : m < 2 ^ 53 := hm.lt_of_half (inUnits_lt (hmax ▸ h))
        calc (m : ℝ) * 2 ^ ((1023 : ℤ) - 52) < ((2 ^ 53 : Nat) : ℝ) * 2 ^ ((1023 : ℤ) - 52) := by gcongr
          _ = (2 : ℝ) ^ (1024 : ℤ) := by rw [two_zpow_units]; norm_num
    have hdistance := (abs_signedUnits_sub hneg m (e - 52)).trans (abs_units_sub x m e)
    refine ⟨e, signedUnits negative m, he.least, he.below, he.above, fromUnits_of_lt hfits negative, ?_, fun heq => ?_⟩
    · rw [hdistance, ← half_zpow]
      gcongr
      exact hm.le_half
    · rw [hdistance, ← half_zpow] at heq
      have heven : Even (m : ℤ) := by
        exact_mod_cast hm.even (mul_right_cancel₀ (zpow_two_pos _).ne' heq)
      cases negative
      · exact heven
      · exact heven.neg

theorem exponentOf_unitExponent {v : XReal} (h : v.isFinite = true) (h0 : v.value ≠ 0) :
    ∃ e, v.unitExponent = e - 52 ∧ ExponentOf v.value e := by
  obtain ⟨e, he, hleast, hbelow, habove⟩ := unit_spec h h0
  exact ⟨e, he, hleast, hbelow, habove⟩

/-- Rounding to binary64 (R9, D2). -/
theorem nearestBinary64_round64 {v : XReal} (h : v.isFinite = true) : NearestBinary64 v.value (round64 v) := by
  by_cases h0 : v.value = 0
  · rw [round64, if_pos ((isZero_iff h).mpr h0), h0]
    refine ⟨fun _ => rfl, fun hle => ?_, fun hne => absurd rfl hne⟩
    rw [abs_zero] at hle
    exact absurd hle ((zpow_two_pos 1023).trans_le half_le_overflow).not_ge
  · obtain ⟨e, hunit, he⟩ := exponentOf_unitExponent h h0
    rw [round64, if_neg (fun hz => h0 ((isZero_iff h).mp hz)), hunit]
    refine nearestBinary64_fromUnits h0 he ?_ (isNeg_iff h)
    have hm := rneMag_finite h (ratTwoPow_pos (-(e - 52))).le
    rw [value_ratTwoPow] at hm
    exact hm

theorem rnd_exact (v : XReal) : NumMode.exact.rnd v = v := by simp [NumMode.rnd]

theorem rnd_binary64 {v : XReal} (h : v.isFinite = true) : NumMode.binary64.rnd v = round64 v := by simp [NumMode.rnd, h]

theorem rnd_infinite (m : NumMode) {v : XReal} (h : v.isFinite = false) : m.rnd v = v := by simp [NumMode.rnd, h]

/-- What a finite result becomes in the chosen domain (R9, D2). -/
theorem represents_rnd (m : NumMode) {v : XReal} (h : v.isFinite = true) : Represents m v.value (m.rnd v) := by
  cases m with
  | exact => exact ⟨by rw [rnd_exact, h], by rw [rnd_exact]⟩
  | binary64 =>
    rw [rnd_binary64 h]
    exact nearestBinary64_round64 h

end Sys2Proof

namespace Sys2Proof.Machine

/-- Settles O19: `nearestBinary64_round64` is the binary64 clause. -/
theorem binaryRounding : Obligations.BinaryRounding := by
  unfold Obligations.BinaryRounding
  exact ⟨fun v h => rnd_binary64 h ▸ nearestBinary64_round64 h, fun v h => rnd_infinite .binary64 h, rnd_exact⟩

/-- An entry of FNUM_TABLE is the equal-tempered interval of its formula, as the domain holds it (R29). -/
theorem represents_fnumEntry (m : NumMode) (i : Nat) :
    Represents m (1024 * 440 * (2 : ℝ) ^ (((i : ℝ) - 21) / 12) / 375) (fnumEntry m i) := by
  have hvalue : (XReal.temper (1024 * 440 / 375) ((i : ℤ) - 21)).value =
      1024 * 440 * (2 : ℝ) ^ (((i : ℝ) - 21) / 12) / 375 := by
    rw [value_temper]
    push_cast
    ring
  rw [← hvalue]
  exact represents_rnd m (isFinite_mk12 _ _)

/-- Settles O10: the table is made of these entries. -/
theorem fnumTableValues : Obligations.FnumTableValues := by
  unfold Obligations.FnumTableValues
  intro c i
  have hentry : (State.resetWith c).fnumTable[i] = fnumEntry c.num i.val := by simp [State.resetWith, buildFnumTable]
  exact hentry ▸ represents_fnumEntry c.num i.val

end Sys2Proof.Machine

namespace Sys2Proof

/-! ### Values next to the exact one -/

/-- The nearest value is next to the exact one. -/
theorem NearestBinary64.neighbour {x : ℝ} {w : XReal} (h : NearestBinary64 x w) : NeighbourBinary64 x w := by
  obtain ⟨hzero, hover, hnear⟩ := h
  refine ⟨hzero, fun hx => hover ((sub_le_self _ (zpow_two_pos 970).le).trans hx), fun hne hx => ?_⟩
  obtain hbig | hsmall := le_or_gt ((2 : ℝ) ^ (1024 : ℤ) - 2 ^ (970 : ℤ)) |x|
  · have hsign : ((if x < 0 then true else false) = true ↔ x < 0) := by split <;> simp_all
    have hwhole : (2 : ℝ) ^ (1024 : ℤ) = ((2 ^ 53 : Nat) : ℝ) * 2 ^ ((1023 : ℤ) - 52) := by
      rw [two_zpow_units]
      norm_num
    have hdistance := abs_signedUnits_sub hsign (2 ^ 53) ((1023 : ℤ) - 52)
    rw [← hwhole, abs_of_nonneg (sub_nonneg.mpr hx.le)] at hdistance
    refine ⟨1023, signedUnits (if x < 0 then true else false) (2 ^ 53), by norm_num, .inl (half_le_overflow.trans hbig),
      hx.trans_eq (by norm_num), ?_, .inr ⟨?_, hover hbig⟩⟩
    · rw [hdistance]
      exact (sub_le_comm.mp hbig).trans_lt (zpow_lt_zpow_right₀ one_lt_two (by norm_num))
    · rw [abs_signedUnits, hwhole]
  · obtain ⟨e, m, hleast, hbelow, habove, hw, hdistance, -⟩ := hnear hne hsmall
    exact ⟨e, m, hleast, hbelow, habove,
      hdistance.trans_lt (zpow_lt_zpow_right₀ one_lt_two (by omega)), .inl hw⟩

/-- A number of units next to `x`, as a binary64 value, is a value next to `x`. -/
theorem neighbourBinary64_fromUnits {x : ℝ} (hx : x ≠ 0) {e : ℤ} (he : ExponentOf x e) {m : Nat}
    (hdistance : |inUnits x e - m| < 1) (hge : ∀ n : Nat, (n : ℝ) ≤ inUnits x e → n ≤ m)
    (hle : ∀ n : Nat, inUnits x e < n → m ≤ n) {negative : Bool} (hneg : negative = true ↔ x < 0) :
    NeighbourBinary64 x (fromUnits negative m (e - 52)) := by
  refine ⟨fun h => absurd h hx, fun h => ?_, fun _ h => ?_⟩
  · have hexponent : 1024 ≤ e := he.ge h
    rw [← inf_eq hneg]
    exact fromUnits_of_le (overflow_of_le hexponent (hge _ (by exact_mod_cast he.le_inUnits (by omega)))) negative
  · have hexponent : e ≤ 1023 := he.le (by norm_num) (h.trans_eq (by norm_num))
    have hunits : (m : ℝ) * 2 ^ (e - 52) ≤ 2 ^ (1024 : ℤ) :=
      (units_le (k := 1023) hexponent (hle _ (by exact_mod_cast he.inUnits_lt))).trans_eq (by norm_num)
    refine ⟨e, signedUnits negative m, he.least, he.below, he.above, ?_, ?_⟩
    · rw [abs_signedUnits_sub hneg, abs_units_sub]
      exact mul_lt_of_lt_one_left (zpow_two_pos _) hdistance
    · obtain hlt | heq := hunits.lt_or_eq
      · exact .inl (fromUnits_of_lt hlt negative)
      · exact .inr ⟨(abs_signedUnits negative m (e - 52)).trans heq, by rw [fromUnits_of_le heq.ge, inf_eq hneg]⟩

/-- The directed roundings (U21). -/
theorem neighbourBinary64_directed64 (up : Bool) (e : RealExpr) : NeighbourBinary64 e.value (directed64 up e) := by
  have hfinite : (XReal.expr e).isFinite = true := rfl
  by_cases h0 : e.value = 0
  · simp only [directed64, if_pos ((isZero_iff hfinite).mpr h0), h0]
    refine ⟨fun _ => rfl, fun hle => ?_, fun hne => absurd rfl hne⟩
    rw [abs_zero] at hle
    exact absurd hle (zpow_two_pos 1024).not_ge
  · obtain ⟨k, hunit, hk⟩ := exponentOf_unitExponent hfinite h0
    have hfloor := floorMag_finite hfinite (ratTwoPow_pos (-(k - 52))).le
    have hceil := ceilMag_eq e (ratTwoPow (-(k - 52)))
    rw [value_ratTwoPow] at hfloor hceil
    have hnonneg : 0 ≤ inUnits e.value k := mul_nonneg (abs_nonneg _) (zpow_two_pos _).le
    simp only [directed64, if_neg (fun hz => h0 ((isZero_iff hfinite).mp hz)), hunit]
    split
    · rw [hfloor]
      refine neighbourBinary64_fromUnits h0 hk ?_ (fun n hn => Nat.le_floor hn)
        (fun n hn => ((Nat.floor_lt hnonneg).mpr hn).le) (isNeg_iff hfinite)
      have h1 := Nat.floor_le hnonneg
      have h2 := Nat.lt_floor_add_one (inUnits e.value k)
      exact abs_sub_lt_iff.mpr ⟨sub_lt_iff_lt_add'.mpr h2, by linarith⟩
    · rw [hceil]
      refine neighbourBinary64_fromUnits h0 hk ?_ (fun n hn => by exact_mod_cast hn.trans (Nat.le_ceil _))
        (fun n hn => Nat.ceil_le.mpr hn.le) (isNeg_iff hfinite)
      have h1 := Nat.le_ceil (inUnits e.value k)
      have h2 := Nat.ceil_lt_add_one hnonneg
      exact abs_sub_lt_iff.mpr ⟨by linarith, by linarith⟩

/-- `<=` on finite values is that of the real numbers (R12). -/
theorem le_iff {x y : XReal} (hx : x.isFinite = true) (hy : y.isFinite = true) : XReal.le x y = true ↔ x.value ≤ y.value := by
  have hx' : x ≠ .nan := by rintro rfl; cases hx
  have hy' : y ≠ .nan := by rintro rfl; cases hy
  simp only [XReal.le, Bool.and_eq_true, bne_iff_ne, ne_eq, hx', hy', not_false_eq_true, true_and, Bool.not_eq_true',
    ← not_lt, ← lt_iff hy hx, Bool.not_eq_true]

/-- An elementary function of a finite real in binary64. -/
theorem neighbourBinary64_elementary64 (choice : Fin 3) (f : Elementary) {x : XReal} (h : x.isFinite = true) :
    NeighbourBinary64 (f.value x.value) (elementary64 choice f x) := by
  obtain ⟨hfinite, hvalue⟩ := value_applyExact f h
  rw [← hvalue]
  simp only [elementary64]
  split
  · exact value_toExpr hfinite ▸ neighbourBinary64_directed64 false _
  · exact (nearestBinary64_round64 hfinite).neighbour
  · exact value_toExpr hfinite ▸ neighbourBinary64_directed64 true _

/-- The square root of a finite real in binary64. -/
theorem nearestBinary64_sqrt (choice : Fin 3) {x : XReal} (h : x.isFinite = true) :
    NearestBinary64 √x.value (elementary64 choice .sqrt x) := by
  obtain ⟨hfinite, hvalue⟩ := value_applyExact .sqrt h
  have hnearest := nearestBinary64_round64 hfinite
  rw [hvalue] at hnearest
  exact hnearest

theorem operand_regular {f : Elementary} {x : XReal} (h : x.isFinite = true) (hsqrt : f = .sqrt → 0 ≤ x.value) :
    ¬ (x.isFinite = false ∨ (f = .sqrt ∧ x.isNeg = true)) := by
  rintro (hx | ⟨hf, hn⟩)
  · rw [h] at hx
    cases hx
  · exact ((isNeg_iff h).mp hn).not_ge (hsqrt hf)

theorem apply_exact {f : Elementary} {x : XReal} (h : x.isFinite = true) (hsqrt : f = .sqrt → 0 ≤ x.value) :
    NumMode.exact.apply f x = applyExact f x := by simp only [NumMode.apply, if_neg (operand_regular h hsqrt)]

theorem apply_binary64 {f : Elementary} {x : XReal} (h : x.isFinite = true) (hsqrt : f = .sqrt → 0 ≤ x.value) :
    NumMode.binary64.apply f x = elementary64 (Config.nearby f x.number) f x := by
  simp only [NumMode.apply, if_neg (operand_regular h hsqrt)]

end Sys2Proof

namespace Sys2Proof.Machine

/-- Settles O20: floors and comparisons by the support lemmas about them; the directed roundings by their units. -/
theorem enclosuresHold : Obligations.EnclosuresHold := by
  unfold Obligations.EnclosuresHold
  refine ⟨enclose_has, floorMul_eq, fun x y hx hy => ⟨lt_iff hx hy, le_iff hx hy, isZero_iff hx, isNeg_iff hx⟩,
    fun f q hf => ?_, fun q hq => ?_⟩
  · rw [apply_binary64 (x := .ofRat q) rfl fun h => absurd h hf, ← value_ofRat q]
    exact neighbourBinary64_elementary64 _ f rfl
  · have hnonneg : 0 ≤ (XReal.ofRat q).value := by
      rw [value_ofRat]
      exact_mod_cast hq
    rw [apply_binary64 (x := .ofRat q) rfl fun _ => hnonneg, ← value_ofRat q]
    exact nearestBinary64_sqrt _ rfl

end Sys2Proof.Machine
end

section
/-!
PROOFS. The FREQ operations that only compare and round (R135, R136), and the fixed-point coefficients of CEQ (R161 to R164).
-/
namespace Sys2Proof.Machine

theorem one_of_infinite {x : XReal} (h : x.isFinite = false) : x = .nan ∨ x = .posInf ∨ x = .negInf := by
  cases x with
  | nan => exact .inl rfl
  | posInf => exact .inr (.inl rfl)
  | negInf => exact .inr (.inr rfl)
  | fin r k => cases h
  | expr e => cases h

/-! ### CALC_ROF -/

/-- Settles O25: the comparison with 512 is on the real value. -/
theorem rateOffset : Obligations.RateOffset := by
  unfold Obligations.RateOffset
  refine fun s ksr block octave fnum => ⟨if XReal.le (.ofRat 512) (realOperand s fnum) then 1 else 0,
    endsAtOnce_answer_ok (by simp [exec, execCalcRof, calcRof]), fun h => ?_, fun h => by rw [h]; rfl,
    fun h => by rw [h]; rfl, fun h => by rw [h]; rfl⟩
  have hle : XReal.le (.ofRat 512) (realOperand s fnum) = true ↔ (512 : ℝ) ≤ (realOperand s fnum).value := by
    rw [le_iff rfl h, value_ofRat]
    norm_num
  simp only [hle]

/-! ### CONV_FMULT -/

theorem multiplier_legal_iff {x : XReal} (h : x.isFinite = true) :
    (XReal.le (.ofRat 0) x && XReal.lt x (.ofRat 4)) = true ↔ 0 ≤ x.value ∧ x.value < 4 := by
  rw [Bool.and_eq_true, le_iff rfl h, (lt_rat_iff h 4).1, value_ofRat]
  norm_num

theorem multiplier_infinite {x : XReal} (h : x.isFinite = false) :
    (XReal.le (.ofRat 0) x && XReal.lt x (.ofRat 4)) = false := by
  obtain rfl | rfl | rfl := one_of_infinite h <;> rfl

/-- The nearest step, saturated. -/
theorem multSteps_spec {x : XReal} (h : x.isFinite = true) (h0 : 0 ≤ x.value) : multSteps x ≤ 2047 ∧
    (|512 * x.value - multSteps x| < 1 / 2 ∨ (|512 * x.value - multSteps x| = 1 / 2 ∧ multSteps x % 2 = 0) ∨
      (multSteps x = 2047 ∧ 2047.5 ≤ 512 * x.value)) := by
  have hnearest : NearestEven (512 * x.value) (x.rneMag 512) := by
    have hround := rneMag_finite h (c := 512) (by norm_num)
    rw [abs_of_nonneg h0, mul_comm] at hround
    exact_mod_cast hround
  refine ⟨min_le_right _ _, ?_⟩
  by_cases hmax : x.rneMag 512 ≤ 2047
  · rw [multSteps, min_eq_left hmax]
    exact hnearest.imp_right .inl
  · rw [multSteps, min_eq_right (by omega)]
    have hge : (2048 : ℝ) ≤ x.rneMag 512 := by exact_mod_cast Nat.lt_of_not_le hmax
    have := abs_le.mp hnearest.le_half
    exact .inr (.inr ⟨rfl, by norm_num; linarith⟩)

theorem convFmult_refused {x : XReal} (h : (XReal.le (.ofRat 0) x && XReal.lt x (.ofRat 4)) = false) :
    convFmult x = .error .rangeError := by rw [convFmult, if_neg (by simp [h])]

/-- Settles O24: in range the nearest step of 1/512, saturated; else the refusal. -/
theorem frequencyMultiplier : Obligations.FrequencyMultiplier := by
  unfold Obligations.FrequencyMultiplier
  intro s m
  have hexec : exec (.convFmult m) s = answer (convFmult (realOperand s m)) s := rfl
  refine ⟨fun h => ⟨fun h0 h4 => ?_, fun hout => ?_⟩, fun h => ?_⟩
  · obtain ⟨hle, hspec⟩ := multSteps_spec h h0
    refine ⟨multSteps (realOperand s m), hle, endsAtOnce_answer_ok ?_, hspec⟩
    rw [hexec, convFmult, if_pos ((multiplier_legal_iff h).mpr ⟨h0, h4⟩)]
  · refine endsAtOnce_answer_error (hexec.trans ?_)
    rw [convFmult_refused (Bool.eq_false_iff.mpr fun hlegal => ?_)]
    obtain ⟨h0, h4⟩ := (multiplier_legal_iff h).mp hlegal
    exact hout.elim h0.not_gt h4.not_ge
  · exact endsAtOnce_answer_error (hexec.trans (by rw [convFmult_refused (multiplier_infinite h)]))

/-! ### Coefficient words -/

/-- The word of a coefficient: the magnitude, and the sign of one that is not zero (R161). -/
def coefWord (negative : Bool) (m : Nat) : I32 := BitVec.ofNat 32 (m + if negative = true ∧ 0 < m then 2 ^ 23 else 0)

theorem coefWord_toNat {m : Nat} (h : m < 2 ^ 23) (negative : Bool) :
    (coefWord negative m).toNat = m + if negative = true ∧ 0 < m then 2 ^ 23 else 0 := by
  rw [coefWord, BitVec.toNat_ofNat, Nat.mod_eq_of_lt]
  split <;> omega

theorem coefWord_lt {m : Nat} (h : m < 2 ^ 23) (negative : Bool) : (coefWord negative m).toNat < 2 ^ 24 := by
  rw [coefWord_toNat h]
  split <;> omega

theorem coefWord_mod {m : Nat} (h : m < 2 ^ 23) (negative : Bool) : (coefWord negative m).toNat % 2 ^ 23 = m := by
  rw [coefWord_toNat h]
  split <;> omega

/-- The sign bit of a word. -/
theorem signBit_iff (w : I32) : w.getLsbD 23 = true ↔ w.toNat / 2 ^ 23 % 2 = 1 := by
  rw [BitVec.getLsbD, Nat.testBit_eq_decide_div_mod_eq, decide_eq_true_iff]

theorem coefWord_sign {m : Nat} (h : m < 2 ^ 23) (negative : Bool) :
    (coefWord negative m).getLsbD 23 = true ↔ negative = true ∧ 0 < m := by
  rw [signBit_iff, coefWord_toNat h]
  split
  · next hneg => simp only [hneg, and_self, iff_true]; omega
  · next hneg => simp only [hneg, iff_false]; omega

/-- A word of 24 bits is that of its sign and magnitude, but for the negative zero. -/
theorem coefWord_of_word {w : I32} (h : w.toNat < 2 ^ 24) (hzero : w ≠ 0x800000) :
    coefWord (w.getLsbD 23) (w.toNat % 2 ^ 23) = w := by
  have hne : w.toNat ≠ 2 ^ 23 := fun heq => hzero (BitVec.eq_of_toNat_eq heq)
  apply BitVec.eq_of_toNat_eq
  rw [coefWord_toNat (Nat.mod_lt _ (by decide))]
  simp only [signBit_iff]
  split <;> omega

/-! ### CEQ_ENC -/

theorem coefficient_legal_iff {v : XReal} (h : v.isFinite = true) :
    (XReal.lt (.ofRat (-8)) v && XReal.lt v (.ofRat 8)) = true ↔ -8 < v.value ∧ v.value < 8 := by
  rw [Bool.and_eq_true, (lt_rat_iff h (-8)).2, (lt_rat_iff h 8).1]
  norm_num

theorem coefficient_infinite {v : XReal} (h : v.isFinite = false) :
    (XReal.lt (.ofRat (-8)) v && XReal.lt v (.ofRat 8)) = false := by
  obtain rfl | rfl | rfl := one_of_infinite h <;> rfl

theorem coefMagnitude_eq {v : XReal} (h : v.isFinite = true) : coefMagnitude v = ⌊|v.value| * 2 ^ 20⌋₊ := by
  rw [coefMagnitude, floorMag_finite h (by norm_num)]
  norm_num

theorem coefMagnitude_lt {x : ℝ} (h : -8 < x) (h' : x < 8) : ⌊|x| * 2 ^ 20⌋₊ < 2 ^ 23 := by
  have habs : |x| < 8 := abs_lt.mpr ⟨h, h'⟩
  rw [Nat.floor_lt (by positivity)]
  push_cast
  linarith

theorem encodeCoef_eq {v : XReal} (h : v.isFinite = true) (hlo : -8 < v.value) (hhi : v.value < 8) :
    encodeCoef v = .ok (coefWord v.isNeg ⌊|v.value| * 2 ^ 20⌋₊) := by
  rw [encodeCoef, if_pos ((coefficient_legal_iff h).mpr ⟨hlo, hhi⟩), coefMagnitude_eq h]
  rfl

theorem encodeCoef_refused {v : XReal} (h : (XReal.lt (.ofRat (-8)) v && XReal.lt v (.ofRat 8)) = false) :
    encodeCoef v = .error .rangeError := by rw [encodeCoef, if_neg (by simp [h])]

theorem encodeCoef_out {v : XReal} (h : v.isFinite = true) (hout : v.value ≤ -8 ∨ 8 ≤ v.value) :
    encodeCoef v = .error .rangeError :=
  encodeCoef_refused (Bool.eq_false_iff.mpr fun hlegal => by
    obtain ⟨hlo, hhi⟩ := (coefficient_legal_iff h).mp hlegal
    exact hout.elim hlo.not_ge hhi.not_ge)

theorem encodeCoef_cases (v : XReal) : (∃ w, encodeCoef v = .ok w) ∨ encodeCoef v = .error .rangeError := by
  cases hlegal : (XReal.lt (.ofRat (-8)) v && XReal.lt v (.ofRat 8))
  · exact .inr (encodeCoef_refused hlegal)
  · exact .inl ⟨_, by rw [encodeCoef, if_pos hlegal]⟩

/-! ### CEQ_DEC -/

/-- The number of a coefficient word (R162). -/
def coefNumber (w : I32) : Rat := (if w.getLsbD 23 then -1 else 1) * ((w.toNat % 2 ^ 23 : Nat) : Rat) / 2 ^ 20

theorem decodeCoef_eq (w : I32) : decodeCoef w = .ofRat (coefNumber w) := by
  have hmag (n : Nat) : mkRat n 1048576 = (n : Rat) / 2 ^ 20 := by
    rw [Rat.mkRat_eq_div]
    norm_num
  rw [decodeCoef, coefNumber, hmag]
  cases w.getLsbD 23
  · simp
  · simp [neg_div]

theorem decodeCoef_value (w : I32) : (decodeCoef w).value =
    (if w.getLsbD 23 then -1 else 1) * ((w.toNat % 2 ^ 23 : Nat) : ℝ) / 2 ^ 20 := by
  rw [decodeCoef_eq, value_ofRat, coefNumber]
  cases w.getLsbD 23 <;> simp

/-- Settles O27: sign and magnitude of the word that `encodeCoef_eq` gives, and `decodeCoef_eq`. -/
theorem coefficientCodec : Obligations.CoefficientCodec := by
  unfold Obligations.CoefficientCodec
  refine ⟨fun s v => ?_, fun s w => ⟨coefNumber w, endsAtOnce_answer_ok ?_, rfl⟩⟩
  · have hexec : exec (.ceqEnc v) s = answer ((encodeCoef (realOperand s v)).map fun w => [.word w]) s := rfl
    refine ⟨fun h => ⟨fun hlo hhi => ?_, fun hout => ?_⟩, fun h => ?_⟩
    · have hlt := coefMagnitude_lt hlo hhi
      refine ⟨_, endsAtOnce_answer_ok (hexec.trans ?_), coefWord_lt hlt (realOperand s v).isNeg, coefWord_mod hlt _, ?_⟩
      · rw [encodeCoef_eq h hlo hhi, Except.map]
      · rw [coefWord_sign hlt, isNeg_iff h]
    · exact endsAtOnce_answer_error (hexec.trans (by rw [encodeCoef_out h hout, Except.map]))
    · exact endsAtOnce_answer_error (hexec.trans (by rw [encodeCoef_refused (coefficient_infinite h), Except.map]))
  · rw [← decodeCoef_eq]
    rfl

/-! ### The round trip -/

theorem abs_coef (b : Bool) (m : Nat) : |(if b then -1 else 1) * (m : ℝ) / 2 ^ 20| = (m : ℝ) / 2 ^ 20 := by
  have hpos : 0 ≤ (m : ℝ) / 2 ^ 20 := by positivity
  cases b
  · rw [if_neg (by decide), one_mul, abs_of_nonneg hpos]
  · rw [if_pos rfl, neg_one_mul, neg_div, abs_neg, abs_of_nonneg hpos]

theorem abs_decodeCoef (w : I32) : |(decodeCoef w).value| = ((w.toNat % 2 ^ 23 : Nat) : ℝ) / 2 ^ 20 := by
  rw [decodeCoef_value, abs_coef]

/-- The sign matters where the magnitude is not zero. -/
theorem coefWord_congr {a b : Bool} {m : Nat} (h : 0 < m → (a = true ↔ b = true)) : coefWord a m = coefWord b m := by
  have hiff : (a = true ∧ 0 < m) ↔ (b = true ∧ 0 < m) := and_congr_left h
  simp only [coefWord, hiff]

theorem decodeCoef_neg_iff {w : I32} (h : 0 < w.toNat % 2 ^ 23) : (decodeCoef w).value < 0 ↔ w.getLsbD 23 = true := by
  have hpos : (0 : ℝ) < ((w.toNat % 2 ^ 23 : Nat) : ℝ) / 2 ^ 20 := by
    have : (0 : ℝ) < ((w.toNat % 2 ^ 23 : Nat) : ℝ) := by exact_mod_cast h
    positivity
  rw [decodeCoef_value, mul_div_assoc]
  cases w.getLsbD 23
  · simp only [Bool.false_eq_true, if_false, one_mul, iff_false]
    exact hpos.le.not_gt
  · simp only [if_true, neg_one_mul, iff_true]
    linarith

/-- What CEQ_ENC makes of a decoded word. -/
theorem encodeCoef_decodeCoef (w : I32) : encodeCoef (decodeCoef w) = .ok (coefWord (w.getLsbD 23) (w.toNat % 2 ^ 23)) := by
  have hfinite : (decodeCoef w).isFinite = true := by rw [decodeCoef_eq]; rfl
  have habs := abs_decodeCoef w
  have hlt : |(decodeCoef w).value| < 8 := by
    have : ((w.toNat % 2 ^ 23 : Nat) : ℝ) < 2 ^ 23 := by exact_mod_cast Nat.mod_lt _ (by decide)
    rw [habs, div_lt_iff₀ (by positivity)]
    linarith
  have hmag : ⌊|(decodeCoef w).value| * 2 ^ 20⌋₊ = w.toNat % 2 ^ 23 := by
    rw [habs, div_mul_cancel₀ _ (by positivity), Nat.floor_natCast]
  rw [encodeCoef_eq hfinite (abs_lt.mp hlt).1 (abs_lt.mp hlt).2, hmag,
    coefWord_congr fun hpos => (isNeg_iff hfinite).trans (decodeCoef_neg_iff hpos)]

/-- Settles O28: in both directions the word keeps the sign and the magnitude. -/
theorem coefficientRoundTrip : Obligations.CoefficientRoundTrip := by
  unfold Obligations.CoefficientRoundTrip
  refine ⟨fun w hw hzero => ?_, ?_, fun v h hlo hhi => ?_⟩
  · rw [encodeCoef_decodeCoef, coefWord_of_word hw hzero]
  · rw [encodeCoef_decodeCoef]
    rfl
  · have hlt := coefMagnitude_lt hlo hhi
    refine ⟨_, encodeCoef_eq h hlo hhi, ?_, ?_⟩
    · rw [decodeCoef_value, coefWord_mod hlt]
      rcases Nat.eq_zero_or_pos ⌊|v.value| * 2 ^ 20⌋₊ with hzero | hpos
      · simp [hzero]
      · simp only [coefWord_sign hlt, hpos, and_true, isNeg_iff h]
    · rw [abs_decodeCoef, coefWord_mod hlt]
      have h1 := Nat.floor_le (a := |v.value| * 2 ^ 20) (by positivity)
      have h2 := Nat.lt_floor_add_one (|v.value| * 2 ^ 20)
      refine ⟨sub_nonneg.mpr ((div_le_iff₀ (by positivity)).mpr h1), ?_⟩
      rw [sub_lt_iff_lt_add', ← add_div, lt_div_iff₀ (by positivity)]
      exact h2

/-! ### CEQ_PACK -/

theorem encodeCoefs_ok {coefs : List XReal} {words : List I32} (h : coefs.map encodeCoef = words.map .ok) :
    encodeCoefs coefs = .ok (words.flatMap coefBytes) := by
  induction coefs generalizing words with
  | nil =>
    obtain rfl : words = [] := by simpa using h.symm
    rfl
  | cons v vs ih =>
    cases words with
    | nil => simp at h
    | cons w ws =>
      obtain ⟨hv, hvs⟩ : encodeCoef v = .ok w ∧ vs.map encodeCoef = ws.map .ok := by simpa using h
      simp only [encodeCoefs, hv, ih hvs, List.flatMap_cons]

theorem encodeCoefs_refused {coefs : List XReal} {v : XReal} (hv : v ∈ coefs) (h : encodeCoef v = .error .rangeError) :
    encodeCoefs coefs = .error .rangeError := by
  induction coefs with
  | nil => cases hv
  | cons u us ih =>
    obtain ⟨w, hu⟩ | hu := encodeCoef_cases u
    · have hus : v ∈ us := (List.mem_cons.mp hv).resolve_left fun heq => by simp [← heq, h] at hu
      simp only [encodeCoefs, hu, ih hus]
    · simp only [encodeCoefs, hu]

/-- Settles O29: each coefficient by `encodeCoef`, or the refusal of the first that is illegal. -/
theorem coefficientPack : Obligations.CoefficientPack := by
  unfold Obligations.CoefficientPack
  intro s coefs
  have hexec : exec (.ceqPack coefs) s = answer ((packBand (coefs.map (realOperand s))).map fun b => [.bytes b]) s := rfl
  refine ⟨fun words hlength hwords => endsAtOnce_answer_ok (hexec.trans ?_), fun h => endsAtOnce_answer_error (hexec.trans ?_)⟩
  · rw [packBand, if_pos (by simpa using hlength), encodeCoefs_ok (by rw [List.map_map]; exact hwords), Except.map]
    rfl
  · by_cases hlength : coefs.length = 5
    · obtain ⟨v, hv, herror⟩ := h.resolve_left (not_not_intro hlength)
      rw [packBand, if_pos (by simpa using hlength), encodeCoefs_refused (List.mem_map_of_mem hv) herror, Except.map]
    · rw [packBand, if_neg (by simpa using hlength), Except.map]

end Sys2Proof.Machine
end

section
/-!
PROOFS. The FREQ formulas: CALC_FNUM and CALC_FREQ (R131, R132), KEY2FNUM (R133) and its pitch (R134).
-/
namespace Sys2Proof

/-! ### Products and quotients in the chosen domain -/

theorem inf_isFinite (n : Bool) : (XReal.inf n).isFinite = false := by cases n <;> rfl

theorem inf_sign (n : Bool) : (XReal.inf n == .negInf) = n := by cases n <;> rfl

theorem inf_ne_nan (n : Bool) : XReal.inf n ≠ .nan := by cases n <;> simp [XReal.inf]

/-- An infinity times a finite value (R12). -/
theorem infTimes_spec (m : NumMode) (n : Bool) {x : XReal} (h : x.isFinite = true) :
    (x.value = 0 → m.rnd (infTimes n x) = .nan) ∧ (0 < x.value → m.rnd (infTimes n x) = .inf n) ∧
      (x.value < 0 → m.rnd (infTimes n x) = .inf !n) := by
  have hzero := isZero_iff h
  have hneg := isNeg_iff h
  refine ⟨fun hx => ?_, fun hx => ?_, fun hx => ?_⟩
  · rw [infTimes, if_pos (hzero.mpr hx)]
    exact rnd_infinite m rfl
  · rw [infTimes, if_neg (fun h0 => hx.ne' (hzero.mp h0)), Bool.eq_false_iff.mpr fun hn => hx.not_gt (hneg.mp hn),
      Bool.bne_false]
    exact rnd_infinite m (inf_isFinite n)
  · rw [infTimes, if_neg (fun h0 => hx.ne (hzero.mp h0)), hneg.mpr hx, Bool.bne_true]
    exact rnd_infinite m (inf_isFinite _)

theorem mul_inf_finite (m : NumMode) (n : Bool) {x : XReal} (h : x.isFinite = true) :
    m.mul (.inf n) x = m.rnd (infTimes n x) ∧ m.mul x (.inf n) = m.rnd (infTimes n x) := by
  obtain ⟨hleft, hright⟩ := mul_infinite (inf_isFinite n) h
  rw [if_neg (inf_ne_nan n), inf_sign] at hleft hright
  exact ⟨congrArg m.rnd hleft, congrArg m.rnd hright⟩

theorem mul_nan (m : NumMode) {a b : XReal} (h : a = .nan ∨ b = .nan) : m.mul a b = .nan := by
  have hnan : a.mul b = .nan := by
    obtain rfl | rfl := h
    · rfl
    · cases a <;> rfl
  rw [NumMode.mul, hnan]
  exact rnd_infinite m rfl

theorem mul_inf_inf (m : NumMode) (n n' : Bool) : m.mul (.inf n) (.inf n') = .inf (n != n') := by
  rw [NumMode.mul, show (XReal.inf n).mul (.inf n') = .inf (n != n') by cases n <;> cases n' <;> rfl]
  exact rnd_infinite m (inf_isFinite _)

/-- The product in the chosen domain of finite values. -/
theorem represents_mul (m : NumMode) {a b : XReal} (ha : a.isFinite = true) (hb : b.isFinite = true) :
    Represents m (a.value * b.value) (m.mul a b) := by
  obtain ⟨hfinite, hvalue⟩ := value_mul_finite ha hb
  exact hvalue ▸ represents_rnd m hfinite

theorem represents_div (m : NumMode) {a b : XReal} (ha : a.isFinite = true) (hb : b.isFinite = true) (h0 : b.value ≠ 0) :
    Represents m (a.value / b.value) (m.div a b) := by
  obtain ⟨hfinite, hvalue⟩ := value_div_finite ha hb h0
  exact hvalue ▸ represents_rnd m hfinite

theorem isProduct_mul (m : NumMode) (a b : XReal) : IsProduct m a b (m.mul a b) := by
  refine ⟨mul_nan m, represents_mul m, fun n ha hb => ?_, fun n hb ha => ?_, fun n n' ha hb => ?_⟩
  · rw [ha, (mul_inf_finite m n hb).1]
    exact infTimes_spec m n hb
  · rw [hb, (mul_inf_finite m n ha).2]
    exact infTimes_spec m n ha
  · rw [ha, hb]
    exact mul_inf_inf m n n'

theorem isQuotient_div (m : NumMode) (a : XReal) {q : Rat} (hq : 0 < q) : IsQuotient m a q (m.div a (.ofRat q)) := by
  have hvalue : (XReal.ofRat q).value = q := value_ofRat q
  have hpos : (0 : ℝ) < q := by exact_mod_cast hq
  refine ⟨fun ha => ?_, fun ha => ?_⟩
  · rw [← hvalue]
    exact represents_div m ha rfl (hvalue ▸ hpos.ne')
  · have hzero : ¬ (XReal.ofRat q).isZero = true := fun h => hpos.ne' (hvalue ▸ (isZero_iff rfl).mp h)
    have hneg : (XReal.ofRat q).isNeg = false := Bool.eq_false_iff.mpr fun h => hpos.not_gt (hvalue ▸ (isNeg_iff rfl).mp h)
    have hdiv := (div_infinite ha (x := .ofRat q) rfl).1
    rw [if_neg hzero, hneg, Bool.bne_false] at hdiv
    have hsame : a.div (.ofRat q) = a := by
      rw [hdiv]
      obtain rfl | rfl | rfl := Machine.one_of_infinite ha <;> rfl
    rw [NumMode.div, hsame, rnd_infinite m ha]

theorem represents_twoPow (m : NumMode) (z : ℤ) : Represents m ((2 : ℝ) ^ z) (m.twoPow z) := by
  have hvalue : (XReal.ofRat (ratTwoPow z)).value = (2 : ℝ) ^ z := by rw [value_ofRat, value_ratTwoPow]
  exact hvalue ▸ represents_rnd m (v := .ofRat (ratTwoPow z)) rfl

/-! ### One form for each equal-tempered value -/

/-- An equal-tempered value that is not zero is rational in its one form only. -/
theorem fin_eq_of_value {r r' : Rat} {k k' : Fin 12} (hr : r ≠ 0) (hle : k' ≤ k)
    (h : (XReal.fin r k).value = (XReal.fin r' k').value) : r = r' ∧ k = k' := by
  obtain rfl | hlt := hle.eq_or_lt
  · refine ⟨?_, rfl⟩
    rw [value_fin, value_fin] at h
    exact_mod_cast mul_right_cancel₀ (root_pos k').ne' h
  · exfalso
    have hsub : (k - k').val = k.val - k'.val := Fin.sub_val_of_le hle
    have hcast : (((k - k').val : Nat) : ℝ) = k.val - k'.val := by rw [hsub, Nat.cast_sub (by exact_mod_cast hle)]
    have hroot : (2 : ℝ) ^ ((k.val : ℝ) / 12) = 2 ^ (((k - k').val : ℝ) / 12) * 2 ^ ((k'.val : ℝ) / 12) := by
      rw [← two_rpow_add, hcast]
      congr 1
      ring
    have hratio : (XReal.fin r (k - k')).value = r' := by
      rw [value_fin, value_fin, hroot, ← mul_assoc] at h
      rw [value_fin]
      exact mul_right_cancel₀ (root_pos k').ne' h
    have hmag : mag (r * r'.den) (k - k') = (r'.num.natAbs : ℝ) := by
      have hden : (0 : ℝ) < r'.den := by exact_mod_cast r'.den_pos
      rw [mag_scale _ (by positivity), ← abs_value, hratio, abs_rat, Rat.cast_natCast, div_mul_cancel₀ _ hden.ne']
    have hpos : 0 < r'.num.natAbs := by
      refine Int.natAbs_pos.mpr (Rat.num_ne_zero.mpr ?_)
      rintro rfl
      rw [value_fin, Rat.cast_zero, mul_eq_zero] at hratio
      exact hratio.elim (fun h0 => hr (by exact_mod_cast h0)) (root_pos _).ne'
    have hne : k - k' ≠ 0 := fun h0 => by
      rw [h0] at hsub
      have := Fin.lt_def.mp hlt
      simp at hsub
      omega
    exact mag_ne_half hne (2 * r'.num.natAbs) (by omega) (by rw [hmag]; push_cast; ring)

theorem value_fin_eq_zero {r : Rat} {k : Fin 12} : (XReal.fin r k).value = 0 ↔ r = 0 := by
  rw [value_fin, mul_eq_zero, or_iff_left (root_pos k).ne']
  exact_mod_cast Iff.rfl

/-- A canonical equal-tempered value is determined by the number it stands for. -/
theorem eq_of_canonical {r r' : Rat} {k k' : Fin 12} (hc : (XReal.fin r k).canonical = true)
    (hc' : (XReal.fin r' k').canonical = true) (h : (XReal.fin r k).value = (XReal.fin r' k').value) :
    XReal.fin r k = .fin r' k' := by
  have hiff : r = 0 ↔ r' = 0 := by rw [← value_fin_eq_zero (k := k), h, value_fin_eq_zero]
  by_cases hr : r = 0
  · have hr' := hiff.mp hr
    have hk : k = 0 := by simpa [XReal.canonical, hr] using hc
    have hk' : k' = 0 := by simpa [XReal.canonical, hr'] using hc'
    rw [hr, hr', hk, hk']
  · obtain hle | hle := le_total k' k
    · obtain ⟨rfl, rfl⟩ := fin_eq_of_value hr hle h
      rfl
    · obtain ⟨rfl, rfl⟩ := fin_eq_of_value (mt hiff.mpr hr) hle h.symm
      rfl

theorem mul_fin_canonical (r r' : Rat) (k k' : Fin 12) : ((XReal.fin r k).mul (.fin r' k')).canonical = true := by
  simp only [XReal.mul]
  split <;> exact mk12_canonical _ _

end Sys2Proof
namespace Sys2Proof.Machine

/-! ### CALC_FNUM and CALC_FREQ in the exact domain -/

theorem calcFnum_exact {x : XReal} (h : x.isFinite = true) (block : ℤ) : (calcFnum .exact x block).isFinite = true ∧
    (calcFnum .exact x block).value = (2 : ℝ) ^ (13 - block) * x.value / 375 := by
  obtain ⟨hpower, hpowerValue⟩ := represents_twoPow .exact (13 - block)
  obtain ⟨hproduct, hproductValue⟩ := represents_mul .exact hpower h
  obtain ⟨hfinite, hvalue⟩ := represents_div .exact (b := .ofRat 375) hproduct rfl (by rw [value_ofRat]; norm_num)
  refine ⟨hfinite, hvalue.trans ?_⟩
  rw [hproductValue, hpowerValue, value_ofRat]
  norm_num

theorem calcFreq_exact {x : XReal} (h : x.isFinite = true) (block : ℤ) : (calcFreq .exact x block).isFinite = true ∧
    (calcFreq .exact x block).value = 375 * (2 : ℝ) ^ (block - 13) * x.value := by
  obtain ⟨hpower, hpowerValue⟩ := represents_twoPow .exact (block - 13)
  obtain ⟨hfactor, hfactorValue⟩ := represents_mul .exact (a := .ofRat 375) rfl hpower
  obtain ⟨hfinite, hvalue⟩ := represents_mul .exact hfactor h
  refine ⟨hfinite, hvalue.trans ?_⟩
  rw [hfactorValue, hpowerValue, value_ofRat]
  norm_num

/-- CALC_FREQ undoes CALC_FNUM (R132). -/
theorem calcFreq_calcFnum_exact {x : XReal} (h : x.isFinite = true) (block : ℤ) :
    (calcFreq .exact (calcFnum .exact x block) block).value = x.value := by
  obtain ⟨hfinite, hvalue⟩ := calcFnum_exact h block
  have hone : (2 : ℝ) ^ (block - 13) * 2 ^ (13 - block) = 1 := by
    rw [← zpow_add₀ two_ne_zero]
    simp
  rw [(calcFreq_exact hfinite block).2, hvalue]
  linear_combination x.value * hone

/-- The two formulas, exactly, keep an equal-tempered value in its one form. -/
theorem calcFreq_calcFnum_fin (r : Rat) (k : Fin 12) (block : ℤ) : ∃ r' k',
    calcFreq .exact (calcFnum .exact (.fin r k) block) block = .fin r' k' ∧ (XReal.fin r' k').canonical = true := by
  simp only [calcFreq, calcFnum, NumMode.mul, NumMode.div, NumMode.twoPow, rnd_exact]
  obtain ⟨r1, k1, h1⟩ := mul_fin (ratTwoPow (13 - block)) r 0 k
  obtain ⟨r2, k2, h2⟩ := div_fin r1 k1 0 (r' := 375) (by norm_num)
  obtain ⟨r3, k3, h3⟩ := mul_fin 375 (ratTwoPow (block - 13)) 0 0
  obtain ⟨r4, k4, h4⟩ := mul_fin r3 r2 k3 k2
  refine ⟨r4, k4, ?_, h4 ▸ mul_fin_canonical r3 r2 k3 k2⟩
  rw [XReal.ofRat, XReal.ofRat, XReal.ofRat, h1, h2, h3, h4]

theorem calcFnum_nan (m : NumMode) (block : ℤ) : calcFnum m .nan block = .nan := by
  rw [calcFnum, mul_nan m (.inr rfl)]
  exact rnd_infinite m rfl

/-- Settles O21: each operation of the formulas by itself; in the exact domain they cancel. -/
theorem frequencyFormulas : Obligations.FrequencyFormulas := by
  unfold Obligations.FrequencyFormulas
  intro s v block
  have hnan : v = .nan → realOperand s v = .nan := by
    rintro rfl
    exact rnd_infinite _ rfl
  have hexact : s.cfg.num = .exact → realOperand s v = v := fun hm => by rw [realOperand, hm, rnd_exact]
  have hquotient := isQuotient_div s.cfg.num (s.cfg.num.mul (s.cfg.num.twoPow (13 - block)) (realOperand s v)) (q := 375)
    (by norm_num)
  refine ⟨⟨_, _, calcFnum s.cfg.num (realOperand s v) block, endsAtOnce_answer_ok rfl, represents_twoPow _ _,
      isProduct_mul _ _ _, hquotient, fun h => ?_, fun hm h => ?_⟩,
    ⟨_, _, calcFreq s.cfg.num (realOperand s v) block, endsAtOnce_answer_ok rfl, represents_twoPow _ _,
      isProduct_mul _ _ _, isProduct_mul _ _ _, fun h => ?_, fun hm h => ?_⟩⟩
  · rw [hnan h, calcFnum_nan]
  · rw [hexact hm, hm]
    obtain ⟨hfinite, hvalue⟩ := calcFnum_exact h block
    have hfreq : exec (.calcFreq (calcFnum .exact v block) block) s =
        answer (.ok [.real (calcFreq .exact (calcFnum .exact v block) block)]) s := by
      rw [exec, execCalcFreq, realOperand, hm, rnd_exact]
    refine ⟨hfinite, hvalue, _, endsAtOnce_answer_ok hfreq, calcFreq_calcFnum_exact h block, ?_⟩
    rintro ⟨r, k, rfl⟩ hcanonical
    obtain ⟨r', k', heq, hcanonical'⟩ := calcFreq_calcFnum_fin r k block
    rw [heq]
    exact eq_of_canonical hcanonical' hcanonical (heq ▸ calcFreq_calcFnum_exact h block)
  · rw [hnan h]
    exact mul_nan s.cfg.num (.inr rfl)
  · rw [hexact hm, hm]
    exact calcFreq_exact h block

end Sys2Proof.Machine
end

section
/-!
PROOFS. KEY2FNUM (R133) and the pitch it gives (R134).
-/
namespace Sys2Proof

/-! ### Results of moderate size -/

/-- The error of a rounding below 4096. -/
noncomputable def ulpBound : ℝ := 2 ^ (-42 : ℤ)

/-- Below 4096 a result is finite, and hardly moved by the rounding. -/
theorem Represents.close {m : NumMode} {x : ℝ} {w : XReal} (h : Represents m x w) (hx : |x| < 4096) :
    w.isFinite = true ∧ |w.value - x| ≤ ulpBound := by
  have hpos : 0 ≤ ulpBound := (zpow_two_pos _).le
  cases m with
  | exact =>
    obtain ⟨hfinite, hvalue⟩ := h
    exact ⟨hfinite, by rwa [hvalue, sub_self, abs_zero]⟩
  | binary64 =>
    obtain ⟨hzero, -, hnear⟩ := h
    by_cases h0 : x = 0
    · rw [hzero h0, h0, value_ofRat]
      exact ⟨rfl, by simpa using hpos⟩
    · have h4096 : (4096 : ℝ) < 2 ^ (1023 : ℤ) := by
        rw [show (4096 : ℝ) = 2 ^ (12 : ℤ) by norm_num]
        exact zpow_lt_zpow_right₀ one_lt_two (by norm_num)
      have hsmall : |x| < (2 : ℝ) ^ (1024 : ℤ) - 2 ^ (970 : ℤ) :=
        hx.trans (lt_of_lt_of_le h4096 half_le_overflow)
      obtain ⟨e, n, hleast, hbelow, habove, hw, hdistance, -⟩ := hnear h0 hsmall
      have he : e ≤ 11 := ExponentOf.le ⟨hleast, hbelow, habove⟩ (by norm_num) (hx.trans_eq (by norm_num))
      refine ⟨by rw [hw]; rfl, ?_⟩
      rw [hw, value_ofRat]
      push_cast
      rw [value_ratTwoPow]
      exact hdistance.trans (zpow_le_zpow_right₀ one_le_two (by omega))

/-- Less than a unit away from a power of two, in its units, is that power of two alone. -/
theorem units_of_power {e n : ℤ} (h : |(n : ℝ) * 2 ^ (e - 52) - 2 ^ e| < 2 ^ (e - 52)) : n = 2 ^ 52 := by
  have hunits : (2 : ℝ) ^ e = 2 ^ 52 * 2 ^ (e - 52) := by
    rw [← zpow_natCast, ← zpow_add₀ two_ne_zero]
    congr 1
    push_cast
    ring
  have hpos := zpow_two_pos (e - 52)
  rw [hunits, ← sub_mul, abs_mul, abs_of_pos hpos] at h
  have hlt : |(n : ℝ) - 2 ^ 52| < 1 := lt_of_mul_lt_mul_right (h.trans_eq (one_mul _).symm) hpos.le
  have hlt' : |n - 2 ^ 52| < 1 := by exact_mod_cast hlt
  rw [abs_lt] at hlt'
  omega

theorem power_units (e : ℤ) : XReal.ofRat (((2 ^ 52 : ℤ) : Rat) * ratTwoPow (e - 52)) = .ofRat (ratTwoPow e) := by
  congr 1
  have h : ((((2 ^ 52 : ℤ) : Rat) * ratTwoPow (e - 52) : Rat) : ℝ) = ((ratTwoPow e : Rat) : ℝ) := by
    have hunits := two_zpow_units 52 e
    rw [Rat.cast_mul, value_ratTwoPow, value_ratTwoPow]
    norm_num at hunits ⊢
    exact hunits
  exact_mod_cast h

/-- A power of two in the range of binary64 is a value of either domain. -/
theorem twoPow_exact (m : NumMode) {z : ℤ} (hlo : -1022 ≤ z) (hhi : z ≤ 1022) :
    (m.twoPow z).isFinite = true ∧ (m.twoPow z).value = (2 : ℝ) ^ z := by
  have h := represents_twoPow m z
  cases m with
  | exact => exact h
  | binary64 =>
    have habs : |(2 : ℝ) ^ z| = 2 ^ z := abs_of_pos (zpow_two_pos z)
    have hsmall : |(2 : ℝ) ^ z| < 2 ^ (1024 : ℤ) - 2 ^ (970 : ℤ) := by
      rw [habs]
      exact (zpow_lt_zpow_right₀ one_lt_two (by omega)).trans_le half_le_overflow
    obtain ⟨e, n, hleast, hbelow, habove, hw, hdistance, -⟩ := h.2.2 (zpow_two_pos z).ne' hsmall
    have he : ExponentOf ((2 : ℝ) ^ z) e := ⟨hleast, hbelow, habove⟩
    obtain rfl : e = z := le_antisymm
      (he.le hlo (by rw [habs]; exact zpow_lt_zpow_right₀ one_lt_two (by omega))) (he.ge habs.ge)
    obtain rfl : n = 2 ^ 52 :=
      units_of_power (hdistance.trans_lt (zpow_lt_zpow_right₀ one_lt_two (by omega)))
    rw [hw, power_units, value_ofRat, value_ratTwoPow]
    exact ⟨rfl, rfl⟩

end Sys2Proof
namespace Sys2Proof.Machine

/-! ### The table -/

/-- The exact frequency number of a note (R29). -/
noncomputable def noteFnum (i : Fin 12) : ℝ := 1024 * 440 * (2 : ℝ) ^ (((i.val : ℝ) - 21) / 12) / 375

theorem noteFnum_pow (i : Fin 12) : (4 * noteFnum i) ^ 12 = (1802240 / 375) ^ 12 * 2 ^ i.val / 2 ^ 21 := by
  have hroot : ((2 : ℝ) ^ (((i.val : ℝ) - 21) / 12)) ^ 12 = 2 ^ i.val / 2 ^ 21 := by
    rw [← Real.rpow_natCast, ← Real.rpow_mul (by norm_num)]
    norm_num
    rw [Real.rpow_sub (by norm_num), Real.rpow_natCast]
    norm_num
  rw [noteFnum, show 4 * (1024 * 440 * (2 : ℝ) ^ (((i.val : ℝ) - 21) / 12) / 375) =
    1802240 / 375 * 2 ^ (((i.val : ℝ) - 21) / 12) by ring, mul_pow, hroot]
  ring

theorem noteFnum_pos (i : Fin 12) : 0 < noteFnum i := by
  unfold noteFnum
  positivity

/-- The floors of four times the frequency numbers. -/
def quarterFloor : Fin 12 → Nat := ![1428, 1513, 1603, 1699, 1800, 1907, 2020, 2140, 2268, 2402, 2545, 2697]

/-- No note is near a quarter: so no scaled one is half-way between integers. -/
theorem noteFnum_between (i : Fin 12) :
    quarterFloor i + 1 / 100 < 4 * noteFnum i ∧ 4 * noteFnum i < quarterFloor i + 99 / 100 := by
  have hpow := noteFnum_pow i
  have hpos := noteFnum_pos i
  constructor
  · refine lt_of_pow_lt_pow_left₀ 12 (by positivity) ?_
    rw [hpow]
    fin_cases i <;> norm_num [quarterFloor]
  · refine lt_of_pow_lt_pow_left₀ 12 (by positivity) ?_
    rw [hpow]
    fin_cases i <;> norm_num [quarterFloor]

theorem quarterFloor_ge (i : Fin 12) : 1428 ≤ quarterFloor i := by
  revert i
  decide

theorem quarterFloor_le (i : Fin 12) : quarterFloor i ≤ 2697 := by
  revert i
  decide

theorem noteFnum_bounds (i : Fin 12) : 357 < noteFnum i ∧ noteFnum i < 675 := by
  obtain ⟨hlo, hhi⟩ := noteFnum_between i
  have hge : (1428 : ℝ) ≤ quarterFloor i := by exact_mod_cast quarterFloor_ge i
  have hle : (quarterFloor i : ℝ) ≤ 2697 := by exact_mod_cast quarterFloor_le i
  constructor <;> linarith

theorem ulpBound_lt : ulpBound < 1 / 1000000 := by
  norm_num [ulpBound]

theorem ulpBound_pos : 0 < ulpBound := zpow_two_pos _

/-- The powers of two by which KEY2FNUM compensates the clamp. -/
theorem shift_bounds {d : ℤ} (hlo : -2 ≤ d) (hhi : d ≤ 2) : (1 / 4 : ℝ) ≤ 2 ^ d ∧ (2 : ℝ) ^ d ≤ 4 := by
  constructor
  · calc (1 / 4 : ℝ) = 2 ^ (-2 : ℤ) := by norm_num
      _ ≤ 2 ^ d := zpow_le_zpow_right₀ one_le_two hlo
  · calc (2 : ℝ) ^ d ≤ 2 ^ (2 : ℤ) := zpow_le_zpow_right₀ one_le_two hhi
      _ = 4 := by norm_num

/-- What is near a scaled note and below the ceiling is not half-way between integers. -/
theorem scaled_not_half {y : ℝ} (i : Fin 12) {d : ℤ} (hlo : -2 ≤ d) (hhi : d ≤ 2)
    (hclose : |y - noteFnum i * 2 ^ d| ≤ 5 * ulpBound) (hy : y < 1023) (n : Nat) : |y - n| ≠ 1 / 2 := by
  intro heq
  obtain ⟨k, hk⟩ : ∃ k : ℤ, 2 * y = k := by
    obtain h | h := (abs_eq (by norm_num)).mp heq
    · exact ⟨2 * n + 1, by push_cast; linarith⟩
    · exact ⟨2 * n - 1, by push_cast; linarith⟩
  obtain ⟨hbelow, habove⟩ := noteFnum_between i
  have hbound := ulpBound_lt
  rw [abs_le] at hclose
  obtain ⟨hleft, hright⟩ := hclose
  have hnote := (noteFnum_bounds i).1
  by_cases htop : d = 2
  · rw [htop] at hleft
    norm_num at hleft
    linarith
  · obtain ⟨c, hc⟩ : ∃ c : ℕ, 2 * (2 : ℝ) ^ (-d) = c ∧ (c : ℝ) ≤ 8 := by
      refine ⟨2 ^ (1 - d).toNat, ?_, ?_⟩
      · push_cast
        rw [← zpow_natCast, Int.toNat_of_nonneg (by omega), sub_eq_add_neg, zpow_add₀ two_ne_zero, zpow_one]
      · calc ((2 ^ (1 - d).toNat : ℕ) : ℝ) ≤ ((2 ^ 3 : ℕ) : ℝ) := by
              exact_mod_cast Nat.pow_le_pow_right (by decide) (by omega)
          _ = 8 := by norm_num
    have hinv : (2 : ℝ) ^ d * 2 ^ (-d) = 1 := by rw [← zpow_add₀ two_ne_zero]; simp
    obtain ⟨hc, hc8⟩ := hc
    have hquarter : k * c - 4 * noteFnum i = 2 * c * (y - noteFnum i * 2 ^ d) := by
      rw [← hc, ← hk]
      linear_combination 4 * noteFnum i * hinv
    have hlow : (quarterFloor i : ℝ) < k * c := by nlinarith
    have hhigh : (k * c : ℝ) < quarterFloor i + 1 := by nlinarith
    have hlow' : (quarterFloor i : ℤ) < k * c := by exact_mod_cast hlow
    have hhigh' : k * c < (quarterFloor i : ℤ) + 1 := by exact_mod_cast hhigh
    omega

/-! ### The frequency number of a key -/

/-- The ceiling of R133. -/
theorem ceiling_value {x : XReal} (h : x.isFinite = true) :
    (if XReal.lt (.ofRat 1023) x then .ofRat 1023 else x).isFinite = true ∧
      (if XReal.lt (.ofRat 1023) x then .ofRat 1023 else x).value = min 1023 x.value := by
  have hlt : XReal.lt (.ofRat 1023) x = true ↔ (1023 : ℝ) < x.value := by
    rw [(lt_rat_iff h 1023).2]
    norm_num
  split
  · next hx => exact ⟨rfl, by rw [value_ofRat, min_eq_left (hlt.mp hx).le]; norm_num⟩
  · next hx => exact ⟨h, (min_eq_right (not_lt.mp fun h' => hx (hlt.mpr h'))).symm⟩

/-- `rne` of a value that is not negative. -/
theorem rne_nonneg {x : XReal} (h : x.isFinite = true) (h0 : 0 ≤ x.value) :
    x.rne = .ofRat (x.rneMag 1) ∧ NearestEven x.value (x.rneMag 1) := by
  have hneg : x.isNeg = false := Bool.eq_false_iff.mpr fun hn => ((isNeg_iff h).mp hn).not_ge h0
  have hround := rneMag_finite h (c := 1) (by norm_num)
  rw [abs_of_nonneg h0] at hround
  refine ⟨by simp [XReal.rne, h, XReal.rneInt, hneg], ?_⟩
  rw [Rat.cast_one, mul_one] at hround
  exact hround

section
variable (m : NumMode) (i : Fin 12) {d : ℤ} (hlo : -2 ≤ d) (hhi : d ≤ 2)
include hlo hhi

/-- A note scaled by the power of two that compensates the clamp. -/
theorem scaled_spec : (m.mul (fnumEntry m i.val) (m.twoPow d)).isFinite = true ∧
    Represents m ((fnumEntry m i.val).value * (2 : ℝ) ^ d) (m.mul (fnumEntry m i.val) (m.twoPow d)) ∧
    |(m.mul (fnumEntry m i.val) (m.twoPow d)).value - noteFnum i * 2 ^ d| ≤ 5 * ulpBound := by
  have hentry : Represents m (noteFnum i) (fnumEntry m i.val) := represents_fnumEntry m i.val
  obtain ⟨hnote1, hnote2⟩ := noteFnum_bounds i
  obtain ⟨hshift1, hshift2⟩ := shift_bounds hlo hhi
  have hbound := ulpBound_lt
  obtain ⟨hfinite, hclose⟩ := hentry.close (by rw [abs_of_pos (noteFnum_pos i)]; linarith)
  obtain ⟨hpower, hvalue⟩ := twoPow_exact m (z := d) (by omega) (by omega)
  have hscaled := represents_mul m hfinite hpower
  rw [hvalue] at hscaled
  have hclose' := abs_le.mp hclose
  have hsize : |(fnumEntry m i.val).value * (2 : ℝ) ^ d| < 4096 := by
    rw [abs_of_nonneg (by nlinarith)]
    nlinarith
  obtain ⟨hfinite', hscaledClose⟩ := hscaled.close hsize
  refine ⟨hfinite', hscaled, ?_⟩
  have hsplit : (m.mul (fnumEntry m i.val) (m.twoPow d)).value - noteFnum i * 2 ^ d =
      ((m.mul (fnumEntry m i.val) (m.twoPow d)).value - (fnumEntry m i.val).value * 2 ^ d) +
        ((fnumEntry m i.val).value - noteFnum i) * 2 ^ d := by ring
  have hmoved : |((fnumEntry m i.val).value - noteFnum i) * (2 : ℝ) ^ d| ≤ ulpBound * 4 := by
    rw [abs_mul, abs_of_pos (zpow_two_pos d)]
    exact mul_le_mul hclose hshift2 (zpow_two_pos d).le ulpBound_pos.le
  rw [hsplit]
  linarith [abs_add_le ((m.mul (fnumEntry m i.val) (m.twoPow d)).value - (fnumEntry m i.val).value * 2 ^ d)
    (((fnumEntry m i.val).value - noteFnum i) * 2 ^ d)]

/-- `fnum` of a note: the scaled note under the ceiling, and the integer nearest it. -/
theorem noteKey_spec (fnum : XReal) (hfnum : fnum = if XReal.lt (.ofRat 1023) (m.mul (fnumEntry m i.val) (m.twoPow d))
      then .ofRat 1023 else m.mul (fnumEntry m i.val) (m.twoPow d)) :
    fnum.isFinite = true ∧ fnum.value = min 1023 (m.mul (fnumEntry m i.val) (m.twoPow d)).value ∧
      88 < fnum.value ∧ fnum.value ≤ 1023 ∧
      fnum.rne = .ofRat (fnum.rneMag 1) ∧ 89 ≤ fnum.rneMag 1 ∧ fnum.rneMag 1 ≤ 1023 ∧
      |fnum.value - fnum.rneMag 1| < 1 / 2 := by
  obtain ⟨hfinite, -, hclose⟩ := scaled_spec m i hlo hhi
  set scaled := m.mul (fnumEntry m i.val) (m.twoPow d)
  obtain ⟨hfnumFinite, hvalue⟩ := ceiling_value hfinite
  rw [← hfnum] at hfnumFinite hvalue
  obtain ⟨hshift1, hshift2⟩ := shift_bounds hlo hhi
  obtain ⟨hnote1, hnote2⟩ := noteFnum_bounds i
  have hbound := ulpBound_lt
  have hclose' := abs_le.mp hclose
  have hlow : (89.2 : ℝ) < scaled.value := by nlinarith
  have hge : (89.2 : ℝ) < fnum.value := hvalue ▸ lt_min (by norm_num) hlow
  have hle : fnum.value ≤ 1023 := hvalue ▸ min_le_left _ _
  obtain ⟨hrne, hnearest⟩ := rne_nonneg hfnumFinite (by linarith)
  have hhalf : |fnum.value - fnum.rneMag 1| ≠ 1 / 2 := by
    obtain hlt | htop := lt_or_ge scaled.value 1023
    · rw [hvalue, min_eq_right hlt.le]
      exact scaled_not_half i hlo hhi hclose hlt _
    · rw [hvalue, min_eq_left htop]
      intro heq
      obtain h | h := (abs_eq (by norm_num)).mp heq
      · have : (2046 : ℝ) = 2 * fnum.rneMag 1 + 1 := by linarith
        have : 2046 = 2 * fnum.rneMag 1 + 1 := by exact_mod_cast this
        omega
      · have : (2047 : ℝ) = 2 * fnum.rneMag 1 := by linarith
        have : 2047 = 2 * fnum.rneMag 1 := by exact_mod_cast this
        omega
  have hlt := lt_of_le_of_ne hnearest.le_half hhalf
  have hlt' := abs_lt.mp hlt
  have h89 : (88 : ℝ) < fnum.rneMag 1 := by linarith
  have h1023 : (fnum.rneMag 1 : ℝ) < 1024 := by linarith
  refine ⟨hfnumFinite, hvalue, by linarith, hle, hrne, ?_, ?_, hlt⟩
  · exact_mod_cast h89
  · exact Nat.lt_succ_iff.mp (by exact_mod_cast h1023)

end

/-! ### The correction -/

/-- The correction: the frequency of `fnum` over that of its nearest integer. -/
theorem keyCorrection_spec (m : NumMode) {fnum : XReal} (hfinite : fnum.isFinite = true) (hge : 88 < fnum.value)
    (hle : fnum.value ≤ 1023) {n : Nat} (hrne : fnum.rne = .ofRat n) (hn : 89 ≤ n) (hn' : n ≤ 1023) {block : ℤ}
    (h0 : 0 ≤ block) (h6 : block ≤ 6) : (keyCorrection m fnum block).isFinite = true ∧
      (∃ factor ideal achieved, Represents m (375 * (2 : ℝ) ^ (block - 13)) factor ∧
        Represents m (factor.value * fnum.value) ideal ∧ Represents m (factor.value * n) achieved ∧
        Represents m (ideal.value / achieved.value) (keyCorrection m fnum block)) ∧
      (m = .exact → (keyCorrection m fnum block).value = fnum.value / n) := by
  have hbound := ulpBound_lt
  obtain ⟨hpower, hpowerValue⟩ := twoPow_exact m (z := block - 13) (by omega) (by omega)
  have hfactor := represents_mul m (a := .ofRat 375) rfl hpower
  rw [value_ofRat, hpowerValue] at hfactor
  set factor := m.mul (.ofRat 375) (m.twoPow (block - 13))
  have hpow1 : (1 / 8192 : ℝ) ≤ 2 ^ (block - 13) := by
    calc (1 / 8192 : ℝ) = 2 ^ (-13 : ℤ) := by norm_num
      _ ≤ 2 ^ (block - 13) := zpow_le_zpow_right₀ one_le_two (by omega)
  have hpow2 : (2 : ℝ) ^ (block - 13) ≤ 1 / 128 := by
    calc (2 : ℝ) ^ (block - 13) ≤ 2 ^ (-7 : ℤ) := zpow_le_zpow_right₀ one_le_two (by omega)
      _ = 1 / 128 := by norm_num
  have hfactorValue : ((375 : Rat) : ℝ) * 2 ^ (block - 13) = 375 * 2 ^ (block - 13) := by norm_num
  rw [hfactorValue] at hfactor
  obtain ⟨hfactorFinite, hfactorClose⟩ := hfactor.close (by rw [abs_of_pos (by positivity)]; linarith)
  have hfc := abs_le.mp hfactorClose
  have hf1 : 0.045 < factor.value := by norm_num at hpow1 ⊢; linarith
  have hf2 : factor.value < 2.95 := by norm_num at hpow2 ⊢; linarith
  have hn1 : (89 : ℝ) ≤ n := by exact_mod_cast hn
  have hn2 : (n : ℝ) ≤ 1023 := by exact_mod_cast hn'
  have hideal := represents_mul m hfactorFinite hfinite
  have hachieved := represents_mul m (b := .ofRat n) hfactorFinite rfl
  rw [show (XReal.ofRat n).value = (n : ℝ) by rw [value_ofRat, Rat.cast_natCast]] at hachieved
  set ideal := m.mul factor fnum
  set achieved := m.mul factor (.ofRat n)
  obtain ⟨hidealFinite, hidealClose⟩ := hideal.close (by rw [abs_of_pos (by positivity)]; nlinarith)
  obtain ⟨hachievedFinite, hachievedClose⟩ := hachieved.close (by rw [abs_of_pos (by positivity)]; nlinarith)
  have hic := abs_le.mp hidealClose
  have hac := abs_le.mp hachievedClose
  have hachievedPos : 4 < achieved.value := by nlinarith
  have hidealPos : 0 < ideal.value := by nlinarith
  have hidealLe : ideal.value < 3100 := by nlinarith
  have hcorrection := represents_div m hidealFinite hachievedFinite (by linarith)
  have heq : keyCorrection m fnum block = m.div ideal achieved := by rw [keyCorrection, hrne]; rfl
  rw [heq]
  refine ⟨(hcorrection.close ?_).1, ⟨factor, ideal, achieved, hfactor, hideal, hachieved, hcorrection⟩, ?_⟩
  · rw [abs_of_pos (by positivity), div_lt_iff₀ (by linarith)]
    linarith
  · rintro rfl
    rw [hcorrection.2, hideal.2, hachieved.2, mul_div_mul_left _ _ (by linarith : factor.value ≠ 0)]

/-! ### KEY2FNUM -/

theorem keyFnum_eq (m : NumMode) (key : Nat) : keyFnum m (buildFnumTable m) key =
    if XReal.lt (.ofRat 1023) (m.mul (fnumEntry m (key % 12)) (m.twoPow (rawBlock key - clampBlock (rawBlock key))))
    then .ofRat 1023 else m.mul (fnumEntry m (key % 12)) (m.twoPow (rawBlock key - clampBlock (rawBlock key))) := by
  simp [keyFnum, buildFnumTable]

theorem rawBlock_toNat {key : ℤ} (h : 0 ≤ key) : rawBlock key.toNat = key / 12 - 2 := by
  rw [rawBlock]
  omega

theorem exec_key2fnum {s : State} {key : ℤ} (h0 : 0 ≤ key) (h127 : key ≤ 127) : exec (.key2fnum key) s =
    answer (.ok [.real (keyFnum s.cfg.num s.fnumTable key.toNat), .int (clampBlock (rawBlock key.toNat)),
      .real (keyCorrection s.cfg.num (keyFnum s.cfg.num s.fnumTable key.toNat) (clampBlock (rawBlock key.toNat)))]) s := by
  rw [exec, execKey2fnum, keyToFnum, if_pos ((inRange_eq_true_iff key 0 127).mpr ⟨h0, h127⟩)]

/-- The note of a key. -/
def noteOf (key : ℤ) : Fin 12 := ⟨key.toNat % 12, Nat.mod_lt _ (by decide)⟩

theorem noteFnum_noteOf {key : ℤ} (h : 0 ≤ key) :
    1024 * 440 * (2 : ℝ) ^ ((((key % 12 : ℤ) : ℝ) - 21) / 12) / 375 = noteFnum (noteOf key) := by
  have hcast : ((key % 12 : ℤ) : ℝ) = ((noteOf key).val : ℝ) := by
    have : key % 12 = ((noteOf key).val : ℤ) := by simp only [noteOf]; omega
    rw [this, Int.cast_natCast]
  rw [hcast, noteFnum]

/-- The block of a key, and what the clamp takes off it. -/
theorem block_bounds {key : ℤ} (h0 : 0 ≤ key) (h127 : key ≤ 127) : 0 ≤ clampBlock (key / 12 - 2) ∧
    clampBlock (key / 12 - 2) ≤ 6 ∧ -2 ≤ key / 12 - 2 - clampBlock (key / 12 - 2) ∧
    key / 12 - 2 - clampBlock (key / 12 - 2) ≤ 2 := by
  unfold clampBlock
  omega

/-- Settles O22: `noteKey_spec` for the frequency number, `keyCorrection_spec` for the correction. -/
theorem Settled.keyToFnum : Obligations.KeyToFnum := by
  unfold Obligations.KeyToFnum
  refine fun s key htable => ⟨fun h0 h127 => ?_, fun hout => endsAtOnce_answer_error ?_⟩
  · obtain ⟨hb0, hb6, hd, hd'⟩ := block_bounds h0 h127
    have hexec := exec_key2fnum (s := s) h0 h127
    rw [htable, rawBlock_toNat h0] at hexec
    have hfnum := keyFnum_eq s.cfg.num key.toNat
    rw [rawBlock_toNat h0] at hfnum
    obtain ⟨hscaledFinite, hscaled, -⟩ := scaled_spec s.cfg.num (noteOf key) hd hd'
    obtain ⟨hfinite, hvalue, hge, hle, hrne, hn, hn', hhalf⟩ := noteKey_spec s.cfg.num (noteOf key) hd hd' _ hfnum
    obtain ⟨hcorrection, hformula, hexact⟩ := keyCorrection_spec s.cfg.num hfinite hge hle hrne hn hn' hb0 hb6
    refine ⟨_, _, endsAtOnce_answer_ok hexec, hfinite, hcorrection,
      ⟨fnumEntry s.cfg.num (noteOf key).val, _, ?_, hscaled, hvalue⟩,
      _, hn, hn', hhalf, hformula, hexact⟩
    rw [noteFnum_noteOf h0]
    exact represents_fnumEntry s.cfg.num (noteOf key).val
  · rw [exec, execKey2fnum, Machine.keyToFnum, if_neg]
    rw [inRange_eq_true_iff]
    omega

/-- Below the ceiling: up to key 114. -/
theorem noteFnum_shifted_le {key : ℤ} (h0 : 0 ≤ key) (h114 : key ≤ 114) :
    noteFnum (noteOf key) * 2 ^ (key / 12 - 2 - clampBlock (key / 12 - 2)) ≤ 1023 := by
  have hnote := noteFnum_bounds (noteOf key)
  obtain hle | hgt := le_or_gt key 107
  · have hshift : (2 : ℝ) ^ (key / 12 - 2 - clampBlock (key / 12 - 2)) ≤ 1 :=
      zpow_le_one_of_nonpos₀ one_le_two (by unfold clampBlock; omega)
    nlinarith [zpow_two_pos (key / 12 - 2 - clampBlock (key / 12 - 2))]
  · have hshift : key / 12 - 2 - clampBlock (key / 12 - 2) = 1 := by unfold clampBlock; omega
    have hquarter : quarterFloor (noteOf key) ≤ 2020 := by
      have hle : (noteOf key).val ≤ 6 := by simp only [noteOf]; omega
      revert hle
      generalize noteOf key = i
      revert i
      decide
    have hupper := (noteFnum_between (noteOf key)).2
    have hcast : (quarterFloor (noteOf key) : ℝ) ≤ 2020 := by exact_mod_cast hquarter
    rw [hshift, zpow_one]
    linarith

/-- The frequency of a scaled note is one octave below that of its key. -/
theorem pitch_eq {key : ℤ} (h0 : 0 ≤ key) (block : ℤ) :
    375 * (2 : ℝ) ^ (block - 13) * (noteFnum (noteOf key) * 2 ^ (key / 12 - 2 - block)) =
      440 * (2 : ℝ) ^ (((key : ℝ) - 69) / 12) / 2 := by
  have hkey : (key : ℝ) = 12 * ((key / 12 : ℤ) : ℝ) + ((noteOf key).val : ℝ) := by
    have : key = 12 * (key / 12) + ((noteOf key).val : ℤ) := by simp only [noteOf]; omega
    exact_mod_cast this
  have hexponent : (2 : ℝ) ^ (block - 13) * 2 ^ (key / 12 - 2 - block) = (2 : ℝ) ^ (((key / 12 : ℤ) : ℝ) - 15) := by
    rw [← zpow_add₀ two_ne_zero, ← Real.rpow_intCast]
    congr 1
    push_cast
    ring
  have hsplit : (2 : ℝ) ^ (((key : ℝ) - 69) / 12) = 2 ^ 11 * (2 ^ (((key / 12 : ℤ) : ℝ) - 15) *
      2 ^ ((((noteOf key).val : ℝ) - 21) / 12)) := by
    rw [← Real.rpow_natCast, ← two_rpow_add, ← two_rpow_add, hkey]
    congr 1
    push_cast
    ring
  rw [hsplit, ← hexponent, noteFnum]
  ring

/-- Settles O23: below the ceiling the exact frequency number is the scaled note, and its frequency by `pitch_eq`. -/
theorem pitchIsOneOctaveLow : Obligations.PitchIsOneOctaveLow := by
  unfold Obligations.PitchIsOneOctaveLow
  intro s key htable hm h0 h114
  have h127 : key ≤ 127 := by omega
  obtain ⟨-, -, hd, hd'⟩ := block_bounds h0 h127
  have hexec := exec_key2fnum (s := s) h0 h127
  rw [htable, rawBlock_toNat h0, hm] at hexec
  have hfnum := keyFnum_eq .exact key.toNat
  rw [rawBlock_toNat h0] at hfnum
  obtain ⟨-, ⟨-, hscaled⟩, -⟩ := scaled_spec .exact (noteOf key) hd hd'
  obtain ⟨-, hentry⟩ : Represents .exact (noteFnum (noteOf key)) _ := represents_fnumEntry .exact (noteOf key).val
  obtain ⟨hfinite, hvalue, -⟩ := noteKey_spec .exact (noteOf key) hd hd' _ hfnum
  rw [hscaled, hentry, min_eq_right (noteFnum_shifted_le h0 h114)] at hvalue
  have hfreq : exec (.calcFreq (keyFnum .exact (buildFnumTable .exact) key.toNat) (clampBlock (key / 12 - 2))) s =
      answer (.ok [.real (calcFreq .exact (keyFnum .exact (buildFnumTable .exact) key.toNat)
        (clampBlock (key / 12 - 2)))]) s := by rw [exec, execCalcFreq, realOperand, hm, rnd_exact]
  refine ⟨_, _, _, endsAtOnce_answer_ok hexec, endsAtOnce_answer_ok hfreq, ?_⟩
  rw [(calcFreq_exact hfinite _).2, hvalue, pitch_eq h0]

end Sys2Proof.Machine
end

section
/-!
PROOFS. The filter designers of spec/41_filter.md: validation, normalisation and determinism (R165, R174), and the values of the
default equations in the exact domain (R166 to R173).
-/
namespace Sys2Proof

/-! ### The operations in the chosen domain do not see the form of their operands -/

section
variable (m : NumMode) {a a' b b' : XReal} (ha : a.Same a') (hb : b.Same b')
include ha hb

theorem NumMode.mul_same : (m.mul a b).Same (m.mul a' b') := rnd_same m (Sys2Proof.mul_same ha hb)

theorem NumMode.div_same : (m.div a b).Same (m.div a' b') := rnd_same m (Sys2Proof.div_same ha hb)

theorem NumMode.add_same : (m.add a b).Same (m.add a' b') := rnd_same m (Sys2Proof.add_same ha hb)

theorem NumMode.sub_same : (m.sub a b).Same (m.sub a' b') := rnd_same m (Sys2Proof.add_same ha hb.neg)

end

end Sys2Proof

namespace Sys2Proof.Machine

/-! ### The designs do not see the form of their operands -/

/-- Two designs of the same numbers. -/
structure Design.Same (d d' : Design) : Prop where
  b0 : d.b0.Same d'.b0
  b1 : d.b1.Same d'.b1
  b2 : d.b2.Same d'.b2
  a0 : d.a0.Same d'.a0
  a1 : d.a1.Same d'.a1
  a2 : d.a2.Same d'.a2

section
variable (m : NumMode) {cutoff cutoff' shape shape' gain gain' : XReal} (hc : cutoff.Same cutoff') (hq : shape.Same shape')
  (hg : gain.Same gain')

section
include hc

theorem angle_same : (angle m cutoff).Same (angle m cutoff') := m.div_same (m.mul_same (.refl _) hc) (.refl _)

theorem cosTerm_same : (cosTerm m cutoff).Same (cosTerm m cutoff') := apply_same m .cos (angle_same m hc)

theorem sinTerm_same : (sinTerm m cutoff).Same (sinTerm m cutoff') := apply_same m .sin (angle_same m hc)

include hq

theorem alphaQ_same : (alphaQ m cutoff shape).Same (alphaQ m cutoff' shape') :=
  m.div_same (sinTerm_same m hc) (m.mul_same (.refl _) hq)

theorem alphaBW_same : (alphaBW m cutoff shape).Same (alphaBW m cutoff' shape') :=
  m.mul_same (sinTerm_same m hc) (apply_same m .sinh
    (m.div_same (m.mul_same (m.mul_same (.refl _) hq) (angle_same m hc)) (sinTerm_same m hc)))

end

include hg in
theorem gainFactor_same : (gainFactor m gain).Same (gainFactor m gain') := apply_same m .pow10 (m.div_same hg (.refl _))

theorem shelfTerm_same {a a' alpha alpha' : XReal} (ha : a.Same a') (halpha : alpha.Same alpha') :
    (shelfTerm m a alpha).Same (shelfTerm m a' alpha') :=
  m.mul_same (m.mul_same (.refl _) (apply_same m .sqrt ha)) halpha

theorem resonance_same {c c' alpha alpha' b0 b0' b1 b1' b2 b2' : XReal} (hcos : c.Same c') (halpha : alpha.Same alpha')
    (h0 : b0.Same b0') (h1 : b1.Same b1') (h2 : b2.Same b2') :
    Design.Same (resonance m c alpha b0 b1 b2) (resonance m c' alpha' b0' b1' b2') :=
  ⟨h0, h1, h2, m.add_same (.refl _) halpha, m.mul_same (.refl _) hcos, m.sub_same (.refl _) halpha⟩

theorem shelf_same (up : Bool) {a a' c c' r r' : XReal} (ha : a.Same a') (hcos : c.Same c') (hr : r.Same r') :
    Design.Same (shelf m up a c r) (shelf m up a' c' r') := by
  have hp : (m.add a (.ofRat 1)).Same (m.add a' (.ofRat 1)) := m.add_same ha (.refl _)
  have hn : (m.sub a (.ofRat 1)).Same (m.sub a' (.ofRat 1)) := m.sub_same ha (.refl _)
  have hnc := m.mul_same hn hcos
  have hpc := m.mul_same hp hcos
  have hnear := m.sub_same hp hnc
  have hfar := m.add_same hp hnc
  have hx := m.sub_same hn hpc
  have hy := m.add_same hn hpc
  have h2 (q : Rat) : (XReal.ofRat q).Same (.ofRat q) := .refl _
  cases up with
  | true => exact ⟨m.mul_same ha (m.add_same hfar hr), m.mul_same (m.mul_same (h2 (-2)) ha) hy,
      m.mul_same ha (m.sub_same hfar hr), m.add_same hnear hr, m.mul_same (h2 2) hx, m.sub_same hnear hr⟩
  | false => exact ⟨m.mul_same ha (m.add_same hnear hr), m.mul_same (m.mul_same (h2 2) ha) hx,
      m.mul_same ha (m.sub_same hnear hr), m.add_same hfar hr, m.mul_same (h2 (-2)) hy, m.sub_same hfar hr⟩

include hc hq hg

theorem cookbook_same (f : FilterType) :
    Design.Same (cookbook m f cutoff shape gain) (cookbook m f cutoff' shape' gain') := by
  have hcos := cosTerm_same m hc
  have hQ := alphaQ_same m hc hq
  have hBW := alphaBW_same m hc hq
  have hA := gainFactor_same m hg
  have one : (XReal.ofRat 1).Same (.ofRat 1) := .refl _
  have half : (XReal.ofRat 2).Same (.ofRat 2) := .refl _
  have middle := m.mul_same (XReal.Same.refl (.ofRat (-2))) hcos
  cases f with
  | lowpass =>
    have hup := m.sub_same one hcos
    exact resonance_same m hcos hQ (m.div_same hup half) hup (m.div_same hup half)
  | highpass =>
    have hup := m.add_same one hcos
    exact resonance_same m hcos hQ (m.div_same hup half) hup.neg (m.div_same hup half)
  | bandpass => exact resonance_same m hcos hBW hBW (.refl _) hBW.neg
  | bandstop => exact resonance_same m hcos hBW one middle one
  | lowShelf => exact shelf_same m false hA hcos (shelfTerm_same m hA hQ)
  | highShelf => exact shelf_same m true hA hcos (shelfTerm_same m hA hQ)
  | peaking =>
    have hraised := m.mul_same hBW hA
    exact resonance_same m hcos (m.div_same hBW hA) (m.add_same one hraised) middle (m.sub_same one hraised)
  | allpass => exact resonance_same m hcos hQ (m.sub_same one hQ) middle (m.add_same one hQ)

theorem design_same {cfg : Config} (f : FilterType) : Design.Same (design cfg f cutoff shape gain)
    (design cfg f cutoff' shape' gain') := by
  unfold design
  cases cfg.filters with
  | cookbook => exact cookbook_same cfg.num hc hq hg f
  | other =>
    simp only [hc.number, hq.number, hg.number]
    exact ⟨.refl _, .refl _, .refl _, .refl _, .refl _, .refl _⟩

end

theorem normalise_same (m : NumMode) {d d' : Design} (h : Design.Same d d') :
    List.Forall₂ XReal.Same (normalise m d) (normalise m d') := by
  refine .cons (m.div_same h.b0 h.a0) (.cons (m.div_same h.b1 h.a0) (.cons (m.div_same h.b2 h.a0)
    (.cons (m.div_same h.a1.neg h.a0) (.cons (m.div_same h.a2.neg h.a0) .nil))))

/-! ### The validation -/

theorem cutoff_legal_iff (c : XReal) : (XReal.le (.ofRat 0) c && XReal.le c (.ofRat 24000)) = true ↔
    c.isFinite = true ∧ 0 ≤ c.value ∧ c.value ≤ 24000 := by
  cases h : c.isFinite
  · have hle : (XReal.le (.ofRat 0) c && XReal.le c (.ofRat 24000)) = false := by
      obtain rfl | rfl | rfl := one_of_infinite h <;> rfl
    simp [hle]
  · rw [Bool.and_eq_true, le_iff rfl h, le_iff h rfl, value_ofRat, value_ofRat]
    norm_num

theorem shape_legal_iff (q : XReal) :
    XReal.le (.ofRat 0) q = true ↔ q = .posInf ∨ (q.isFinite = true ∧ 0 ≤ q.value) := by
  cases h : q.isFinite
  · obtain rfl | rfl | rfl := one_of_infinite h <;> simp <;> rfl
  · have hne : q ≠ .posInf := by
      rintro rfl
      cases h
    rw [le_iff rfl h, value_ofRat]
    simp [hne]

theorem filterOk_iff (c q : XReal) : filterOk c q = true ↔ LegalDesign c q := by
  rw [filterOk, Bool.and_eq_true, cutoff_legal_iff, shape_legal_iff, LegalDesign]

theorem legalDesign_same {c c' q q' : XReal} (hc : c.Same c') (hq : q.Same q') (h : LegalDesign c q) : LegalDesign c' q' := by
  obtain ⟨⟨hfinite, hrange⟩, hshape⟩ := h
  refine ⟨⟨hc.isFinite ▸ hfinite, hc.value ▸ hrange⟩, ?_⟩
  obtain rfl | ⟨hqfinite, hnonneg⟩ := hshape
  · exact .inl (hq.eq_of_infinite rfl).symm
  · exact .inr ⟨hq.isFinite ▸ hqfinite, hq.value ▸ hnonneg⟩

theorem exec_filterInstr (f : FilterType) (cutoff shape gain : XReal) (s : State) :
    exec (filterInstr f cutoff shape gain) s =
      answer (runDesign f cutoff shape (if f.hasGain then gain else .ofRat 0) s) s := by cases f <;> rfl

/-- The result of a legal design: its coefficients, normalised. -/
theorem runDesign_ok {s : State} {cutoff shape : XReal} (h : LegalDesign (realOperand s cutoff) (realOperand s shape))
    (f : FilterType) (gain : XReal) : runDesign f cutoff shape gain s = .ok ((normalise s.cfg.num
      (design s.cfg f (realOperand s cutoff) (realOperand s shape) (realOperand s gain))).map .real) := by
  simp only [runDesign, if_pos ((filterOk_iff _ _).mpr h)]

theorem runDesign_refused {s : State} {cutoff shape : XReal} (h : ¬ LegalDesign (realOperand s cutoff) (realOperand s shape))
    (f : FilterType) (gain : XReal) : runDesign f cutoff shape gain s = .error .rangeError := by
  simp only [runDesign, if_neg (mt (filterOk_iff _ _).mp h)]

/-- Settles O30: the validation is `filterOk_iff`, and the results of equal operands are the same by `design_same`. -/
theorem filterDesigners : Obligations.FilterDesigners := by
  unfold Obligations.FilterDesigners
  intro s f cutoff shape gain
  have hexec := exec_filterInstr f cutoff shape gain s
  refine ⟨fun h => ⟨_, rfl, endsAtOnce_answer_ok (hexec.trans (by rw [runDesign_ok h]; rfl))⟩,
    fun h => endsAtOnce_answer_error (hexec.trans (by rw [runDesign_refused h])), ?_⟩
  intro s' cutoff' shape' gain' hcfg hc hq hg
  have hexec' := exec_filterInstr f cutoff' shape' gain' s'
  have hoperand {x x' : XReal} (h : x.Same x') : (realOperand s x).Same (realOperand s' x') := by
    rw [realOperand, realOperand, hcfg]
    exact rnd_same _ h
  have hgain : (if f.hasGain then gain else XReal.ofRat 0).Same (if f.hasGain then gain' else .ofRat 0) := by
    split
    · exact hg
    · exact .refl _
  by_cases h : LegalDesign (realOperand s cutoff) (realOperand s shape)
  · have h' := legalDesign_same (hoperand hc) (hoperand hq) h
    refine ⟨.ok, _, _, endsAtOnce_answer_ok (hexec.trans (by rw [runDesign_ok h])),
      endsAtOnce_answer_ok (hexec'.trans (by rw [runDesign_ok h'])), ?_⟩
    rw [hcfg]
    exact normalise_same _ (design_same (hoperand hc) (hoperand hq) (hoperand hgain) f)
  · have h' : ¬ LegalDesign (realOperand s' cutoff') (realOperand s' shape') :=
      fun h' => h (legalDesign_same (hoperand hc).symm (hoperand hq).symm h')
    exact ⟨.rangeError, [], [], endsAtOnce_answer_error (hexec.trans (by rw [runDesign_refused h])),
      endsAtOnce_answer_error (hexec'.trans (by rw [runDesign_refused h'])), .nil⟩

/-! ### Exact arithmetic -/

section
variable {a b : XReal} {x y : ℝ} (ha : Represents .exact x a) (hb : Represents .exact y b)

theorem exact_ofRat {q : Rat} (h : (q : ℝ) = x) : Represents .exact x (.ofRat q) := ⟨rfl, by rw [value_ofRat, h]⟩

include ha in
theorem exact_neg : Represents .exact (-x) a.neg := by
  obtain ⟨hfinite, hvalue⟩ := value_neg ha.1
  exact ⟨hfinite, by rw [hvalue, ha.2]⟩

include ha in
theorem exact_apply (f : Elementary) (hsqrt : f = .sqrt → 0 ≤ x) :
    Represents .exact (f.value x) (NumMode.exact.apply f a) := by
  obtain ⟨hfinite, hvalue⟩ := value_applyExact f ha.1
  rw [apply_exact ha.1 (ha.2 ▸ hsqrt), ← ha.2]
  exact ⟨hfinite, hvalue⟩

include ha hb

theorem exact_mul : Represents .exact (x * y) (NumMode.exact.mul a b) := by
  have h := represents_mul .exact ha.1 hb.1
  rwa [ha.2, hb.2] at h

theorem exact_add : Represents .exact (x + y) (NumMode.exact.add a b) := by
  obtain ⟨hfinite, hvalue⟩ := value_add_finite ha.1 hb.1
  rw [NumMode.add, rnd_exact]
  exact ⟨hfinite, by rw [hvalue, ha.2, hb.2]⟩

theorem exact_sub : Represents .exact (x - y) (NumMode.exact.sub a b) := by
  have h := exact_add ha (exact_neg hb)
  rwa [← sub_eq_add_neg] at h

theorem exact_div (h0 : y ≠ 0) : Represents .exact (x / y) (NumMode.exact.div a b) := by
  have h := represents_div .exact ha.1 hb.1 (hb.2 ▸ h0)
  rwa [ha.2, hb.2] at h

end

/-! ### The terms of the designs -/

/-- `w0` (R165). -/
noncomputable def angleValue (cutoff : ℝ) : ℝ := 2 * Real.pi * cutoff / 48000

theorem angleValue_bounds {x : ℝ} (h0 : 0 ≤ x) (h : x ≤ 24000) : 0 ≤ angleValue x ∧ angleValue x ≤ Real.pi := by
  have hpi := Real.pi_pos
  unfold angleValue
  constructor
  · positivity
  · nlinarith

theorem sin_angle_pos {x : ℝ} (h0 : 0 < x) (h : x < 24000) : 0 < Real.sin (angleValue x) := by
  have hpi := Real.pi_pos
  refine Real.sin_pos_of_pos_of_lt_pi ?_ ?_ <;> unfold angleValue
  · positivity
  · nlinarith

section
variable {cutoff shape gain : XReal} {x q g : ℝ} (hc : Represents .exact x cutoff)
include hc

theorem exact_angle : Represents .exact (angleValue x) (angle .exact cutoff) := by
  have hpi : Represents .exact Real.pi (NumMode.exact.rnd (.expr .pi)) := ⟨by rw [rnd_exact]; rfl, by rw [rnd_exact]; rfl⟩
  exact exact_div (exact_mul (exact_mul (exact_ofRat (by norm_num)) hpi) hc) (exact_ofRat (by norm_num)) (by norm_num)

theorem exact_cosTerm : Represents .exact (Real.cos (angleValue x)) (cosTerm .exact cutoff) :=
  exact_apply (exact_angle hc) .cos (by simp)

theorem exact_sinTerm : Represents .exact (Real.sin (angleValue x)) (sinTerm .exact cutoff) :=
  exact_apply (exact_angle hc) .sin (by simp)

theorem exact_alphaQ (hq : Represents .exact q shape) (h0 : q ≠ 0) :
    Represents .exact (Real.sin (angleValue x) / (2 * q)) (alphaQ .exact cutoff shape) :=
  exact_div (exact_sinTerm hc) (exact_mul (exact_ofRat (by norm_num)) hq) (mul_ne_zero two_ne_zero h0)

theorem exact_alphaBW (hq : Represents .exact q shape) (h0 : Real.sin (angleValue x) ≠ 0) :
    Represents .exact (Real.sin (angleValue x) *
      Real.sinh (Real.log 2 / 2 * q * angleValue x / Real.sin (angleValue x))) (alphaBW .exact cutoff shape) := by
  have hln2 : Represents .exact (Real.log 2) (NumMode.exact.rnd (.expr .ln2)) :=
    ⟨by rw [rnd_exact]; rfl, by rw [rnd_exact]; rfl⟩
  have hhalf := exact_div hln2 (exact_ofRat (q := 2) (x := 2) (by norm_num)) two_ne_zero
  exact exact_mul (exact_sinTerm hc) (exact_apply (exact_div (exact_mul (exact_mul hhalf hq) (exact_angle hc))
    (exact_sinTerm hc) h0) .sinh (by simp))

end

theorem exact_gainFactor {gain : XReal} {g : ℝ} (hg : Represents .exact g gain) :
    Represents .exact ((10 : ℝ) ^ (g / 40)) (gainFactor .exact gain) :=
  exact_apply (exact_div hg (exact_ofRat (by norm_num)) (by norm_num)) .pow10 (by simp)

theorem exact_shelfTerm {a alpha : XReal} {A x : ℝ} (ha : Represents .exact A a) (hx : Represents .exact x alpha)
    (h0 : 0 ≤ A) : Represents .exact (2 * √A * x) (shelfTerm .exact a alpha) :=
  exact_mul (exact_mul (exact_ofRat (by norm_num)) (exact_apply ha .sqrt fun _ => h0)) hx

/-! ### The designs -/

/-- A design holds six real numbers. -/
structure Design.Holds (d : Design) (e : Vector ℝ 6) : Prop where
  b0 : Represents .exact e[0] d.b0
  b1 : Represents .exact e[1] d.b1
  b2 : Represents .exact e[2] d.b2
  a0 : Represents .exact e[3] d.a0
  a1 : Represents .exact e[4] d.a1
  a2 : Represents .exact e[5] d.a2

theorem exact_resonance {c alpha b0 b1 b2 : XReal} {C x y0 y1 y2 : ℝ} (hc : Represents .exact C c)
    (hx : Represents .exact x alpha) (h0 : Represents .exact y0 b0) (h1 : Represents .exact y1 b1)
    (h2 : Represents .exact y2 b2) :
    Design.Holds (resonance .exact c alpha b0 b1 b2) #v[y0, y1, y2, 1 + x, -2 * C, 1 - x] :=
  ⟨h0, h1, h2, exact_add (exact_ofRat (by norm_num)) hx, exact_mul (exact_ofRat (by norm_num)) hc,
    exact_sub (exact_ofRat (by norm_num)) hx⟩

/-- The terms of the shelves (R170, R171). -/
theorem exact_shelf {a c r : XReal} {A C R : ℝ} (ha : Represents .exact A a) (hc : Represents .exact C c)
    (hr : Represents .exact R r) :
    Design.Holds (shelf .exact false a c r)
      #v[A * ((A + 1) - (A - 1) * C + R), 2 * A * ((A - 1) - (A + 1) * C), A * ((A + 1) - (A - 1) * C - R),
        (A + 1) + (A - 1) * C + R, -2 * ((A - 1) + (A + 1) * C), (A + 1) + (A - 1) * C - R] ∧
    Design.Holds (shelf .exact true a c r)
      #v[A * ((A + 1) + (A - 1) * C + R), -2 * A * ((A - 1) + (A + 1) * C), A * ((A + 1) + (A - 1) * C - R),
        (A + 1) - (A - 1) * C + R, 2 * ((A - 1) - (A + 1) * C), (A + 1) - (A - 1) * C - R] := by
  have one : Represents .exact 1 (.ofRat 1) := exact_ofRat (by norm_num)
  have two : Represents .exact 2 (.ofRat 2) := exact_ofRat (by norm_num)
  have minusTwo : Represents .exact (-2) (.ofRat (-2)) := exact_ofRat (by norm_num)
  have hp := exact_add ha one
  have hn := exact_sub ha one
  have hnear := exact_sub hp (exact_mul hn hc)
  have hfar := exact_add hp (exact_mul hn hc)
  have hx := exact_sub hn (exact_mul hp hc)
  have hy := exact_add hn (exact_mul hp hc)
  exact ⟨⟨exact_mul ha (exact_add hnear hr), exact_mul (exact_mul two ha) hx, exact_mul ha (exact_sub hnear hr),
      exact_add hfar hr, exact_mul minusTwo hy, exact_sub hfar hr⟩,
    ⟨exact_mul ha (exact_add hfar hr), exact_mul (exact_mul minusTwo ha) hy, exact_mul ha (exact_sub hfar hr),
      exact_add hnear hr, exact_mul two hx, exact_sub hnear hr⟩⟩

/-- `alphaQ` or `alphaBW` of a filter type over the reals (R165). -/
noncomputable def alphaValue (f : FilterType) (x q : ℝ) : ℝ :=
  if f.hasBandwidth then Real.sin (angleValue x) * Real.sinh (Real.log 2 / 2 * q * angleValue x / Real.sin (angleValue x))
  else Real.sin (angleValue x) / (2 * q)

/-- Operands that are not degenerate (R175). -/
def Regular (f : FilterType) (x q : ℝ) : Prop := if f.hasBandwidth then 0 < x ∧ x < 24000 else q ≠ 0

theorem exact_cookbook (f : FilterType) {cutoff shape gain : XReal} {x q g : ℝ} (hc : Represents .exact x cutoff)
    (hq : Represents .exact q shape) (hg : Represents .exact g gain) (hregular : Regular f x q) :
    Design.Holds (cookbook .exact f cutoff shape gain)
      (f.equations (Real.cos (angleValue x)) (alphaValue f x q) ((10 : ℝ) ^ (g / 40))) := by
  have hcos := exact_cosTerm hc
  have hA := exact_gainFactor hg
  have hApos : (0 : ℝ) < 10 ^ (g / 40) := by positivity
  have one : Represents .exact 1 (.ofRat 1) := exact_ofRat (by norm_num)
  have two : Represents .exact 2 (.ofRat 2) := exact_ofRat (by norm_num)
  have middle := exact_mul (exact_ofRat (q := -2) (x := -2) (by norm_num)) hcos
  have hQ (h : f.hasBandwidth = false) : Represents .exact (alphaValue f x q) (alphaQ .exact cutoff shape) := by
    rw [Regular, h, if_neg (by simp)] at hregular
    rw [alphaValue, h, if_neg (by simp)]
    exact exact_alphaQ hc hq hregular
  have hBW (h : f.hasBandwidth = true) : Represents .exact (alphaValue f x q) (alphaBW .exact cutoff shape) := by
    rw [Regular, h, if_pos rfl] at hregular
    rw [alphaValue, h, if_pos rfl]
    exact exact_alphaBW hc hq (sin_angle_pos hregular.1 hregular.2).ne'
  cases f with
  | lowpass =>
    have hup := exact_sub one hcos
    exact exact_resonance hcos (hQ rfl) (exact_div hup two two_ne_zero) hup (exact_div hup two two_ne_zero)
  | highpass =>
    have hup := exact_add one hcos
    exact exact_resonance hcos (hQ rfl) (exact_div hup two two_ne_zero) (exact_neg hup) (exact_div hup two two_ne_zero)
  | bandpass => exact exact_resonance hcos (hBW rfl) (hBW rfl) (exact_ofRat (by norm_num)) (exact_neg (hBW rfl))
  | bandstop => exact exact_resonance hcos (hBW rfl) one middle one
  | lowShelf => exact (exact_shelf hA hcos (exact_shelfTerm hA (hQ rfl) hApos.le)).1
  | highShelf => exact (exact_shelf hA hcos (exact_shelfTerm hA (hQ rfl) hApos.le)).2
  | peaking =>
    have hraised := exact_mul (hBW rfl) hA
    exact exact_resonance hcos (exact_div (hBW rfl) hA hApos.ne') (exact_add one hraised) middle (exact_sub one hraised)
  | allpass => exact exact_resonance hcos (hQ rfl) (exact_sub one (hQ rfl)) middle (exact_add one (hQ rfl))

/-! ### The normalised coefficients -/

theorem alphaValue_nonneg (f : FilterType) {x q : ℝ} (h0 : 0 ≤ x) (h : x ≤ 24000) (hq : 0 ≤ q) :
    0 ≤ alphaValue f x q := by
  obtain ⟨hangle, hpi⟩ := angleValue_bounds h0 h
  have hsin := Real.sin_nonneg_of_nonneg_of_le_pi hangle hpi
  have hlog : 0 ≤ Real.log 2 := Real.log_nonneg one_le_two
  unfold alphaValue
  split
  · exact mul_nonneg hsin (Real.sinh_nonneg_iff.mpr (by positivity))
  · positivity

/-- The divisor of the normalisation is positive. -/
theorem equations_divisor_pos (f : FilterType) {c alpha A : ℝ} (hc : -1 ≤ c) (hc' : c ≤ 1) (halpha : 0 ≤ alpha) (hA : 0 < A) :
    (0 : ℝ) < (f.equations c alpha A)[3] := by
  have hshelf : 0 ≤ 2 * √A * alpha := by positivity
  cases f with
  | lowpass | highpass | bandpass | bandstop | allpass =>
    change (0 : ℝ) < 1 + alpha
    linarith
  | peaking =>
    change (0 : ℝ) < 1 + alpha / A
    positivity
  | lowShelf =>
    change (0 : ℝ) < (A + 1) + (A - 1) * c + 2 * √A * alpha
    nlinarith [mul_nonneg hA.le (by linarith : 0 ≤ 1 + c)]
  | highShelf =>
    change (0 : ℝ) < (A + 1) - (A - 1) * c + 2 * √A * alpha
    nlinarith [mul_nonneg hA.le (by linarith : 0 ≤ 1 - c)]

/-- With a gain of 0 a filter is flat: its numerator is its denominator. -/
theorem equations_flat {f : FilterType} (h : f.hasGain = true) (c alpha : ℝ) :
    (f.equations c alpha 1)[0] = (f.equations c alpha 1)[3] ∧ (f.equations c alpha 1)[1] = (f.equations c alpha 1)[4] ∧
      (f.equations c alpha 1)[2] = (f.equations c alpha 1)[5] := by
  cases f with
  | lowpass | highpass | bandpass | bandstop | allpass => cases h
  | lowShelf | highShelf | peaking => refine ⟨?_, ?_, ?_⟩ <;> simp [FilterType.equations]

/-- The numerator of an all-pass is its denominator reversed. -/
theorem equations_allpass (c alpha A : ℝ) : let e := FilterType.allpass.equations c alpha A
    e[2] = e[3] ∧ e[0] = e[5] ∧ e[1] = e[4] := ⟨rfl, rfl, rfl⟩

/-- A design normalised. -/
theorem exact_normalise {d : Design} {e : Vector ℝ 6} (h : Design.Holds d e) (h0 : e[3] ≠ 0) : ∃ b0 b1 b2 a1 a2,
    normalise .exact d = [b0, b1, b2, a1, a2] ∧ Represents .exact (e[0] / e[3]) b0 ∧ Represents .exact (e[1] / e[3]) b1 ∧
      Represents .exact (e[2] / e[3]) b2 ∧ Represents .exact (-e[4] / e[3]) a1 ∧ Represents .exact (-e[5] / e[3]) a2 :=
  ⟨_, _, _, _, _, rfl, exact_div h.b0 h.a0 h0, exact_div h.b1 h.a0 h0, exact_div h.b2 h.a0 h0,
    exact_div (exact_neg h.a1) h.a0 h0, exact_div (exact_neg h.a2) h.a0 h0⟩

/-! ### A gain of 0 -/

/-- The value next to 1 is 1. -/
theorem eq_one_of_neighbour {w : XReal} (h : NeighbourBinary64 1 w) : w = .ofRat 1 := by
  have hsmall : |(1 : ℝ)| < 2 ^ (1024 : ℤ) := by
    rw [abs_one]
    exact one_lt_zpow₀ one_lt_two (by norm_num)
  obtain ⟨e, n, hleast, hbelow, habove, hdistance, hw⟩ := h.2.2 one_ne_zero hsmall
  have he : ExponentOf 1 e := ⟨hleast, hbelow, habove⟩
  obtain rfl : e = 0 := le_antisymm (he.le (by norm_num) (by norm_num)) (he.ge (by norm_num))
  obtain rfl : n = 2 ^ 52 := units_of_power (e := 0) (by simpa using hdistance)
  rw [power_units] at hw
  refine hw.resolve_right fun hbig => ?_
  have hone : ((2 ^ 52 : ℤ) : ℝ) * 2 ^ ((0 : ℤ) - 52) = 1 := by norm_num
  rw [hone] at hbig
  exact hsmall.ne hbig.1

theorem gainFactor_zero (m : NumMode) : gainFactor m (.ofRat 0) = .ofRat 1 := by
  have hzero : m.div (.ofRat 0) (.ofRat 40) = .ofRat 0 := by
    have hexact : (XReal.ofRat 0).div (.ofRat 40) = .ofRat 0 := by simp [XReal.div, XReal.mk12]
    rw [NumMode.div, hexact]
    cases m with
    | exact => exact rnd_exact _
    | binary64 => rfl
  rw [gainFactor, hzero]
  cases m with
  | exact => rw [apply_exact rfl (by simp)]; rfl
  | binary64 =>
    rw [apply_binary64 rfl (by simp)]
    have h := neighbourBinary64_elementary64 (Config.nearby .pow10 (XReal.ofRat 0).number) .pow10 (x := .ofRat 0) rfl
    have hone : Elementary.pow10.value (XReal.ofRat 0).value = 1 := by
      rw [value_ofRat]
      simp [Elementary.value]
    rw [hone] at h
    exact eq_one_of_neighbour h

theorem equations_without_gain {f : FilterType} (h : f.hasGain = false) (c alpha A A' : ℝ) :
    f.equations c alpha A = f.equations c alpha A' := by
  cases f with
  | lowpass | highpass | bandpass | bandstop | allpass => rfl
  | lowShelf | highShelf | peaking => cases h

/-- The results of a filter in the exact domain: the equations' numbers, normalised. -/
theorem runDesign_exact {s : State} (hm : s.cfg.num = .exact) (hfilters : s.cfg.filters = .cookbook) (f : FilterType)
    {cutoff shape gain : XReal} (hc : cutoff.isFinite = true) (hq : shape.isFinite = true) (hg : gain.isFinite = true)
    (hlegal : LegalDesign cutoff shape) (hregular : Regular f cutoff.value shape.value) {e : Vector ℝ 6}
    (he : e = f.equations (Real.cos (angleValue cutoff.value)) (alphaValue f cutoff.value shape.value)
      ((10 : ℝ) ^ (gain.value / 40))) (h0 : e[3] ≠ 0) : ∃ b0 b1 b2 a1 a2,
      runDesign f cutoff shape gain s = .ok [.real b0, .real b1, .real b2, .real a1, .real a2] ∧
        Represents .exact (e[0] / e[3]) b0 ∧ Represents .exact (e[1] / e[3]) b1 ∧
        Represents .exact (e[2] / e[3]) b2 ∧ Represents .exact (-e[4] / e[3]) a1 ∧ Represents .exact (-e[5] / e[3]) a2 := by
  have hoperand (v : XReal) : realOperand s v = v := by rw [realOperand, hm, rnd_exact]
  have hdesign : design s.cfg f cutoff shape gain = cookbook .exact f cutoff shape gain := by
    rw [design, hfilters, hm]
  have hholds := exact_cookbook f ⟨hc, rfl⟩ ⟨hq, rfl⟩ ⟨hg, rfl⟩ hregular
  rw [← he] at hholds
  obtain ⟨b0, b1, b2, a1, a2, hnormal, hvalues⟩ := exact_normalise hholds h0
  refine ⟨b0, b1, b2, a1, a2, ?_, hvalues⟩
  rw [runDesign_ok (by rw [hoperand, hoperand]; exact hlegal), hoperand, hoperand, hoperand, hdesign, hm, hnormal]
  rfl

/-- Settles O31: the design holds the equations' numbers, and the normalisation divides them. -/
theorem filterValues : Obligations.FilterValues := by
  unfold Obligations.FilterValues
  refine ⟨fun s f cutoff shape gain hm hfilters hc hq hg hlegal hregular => ?_, gainFactor_zero⟩
  obtain ⟨⟨-, hcut0, hcut⟩, hshape⟩ := id hlegal
  have hq0 : 0 ≤ shape.value := by
    obtain rfl | ⟨-, h⟩ := hshape
    · exact le_rfl
    · exact h
  let c : ℝ := Real.cos (angleValue cutoff.value)
  let alpha : ℝ := alphaValue f cutoff.value shape.value
  let A : ℝ := (10 : ℝ) ^ (gain.value / 40)
  have hpos : (0 : ℝ) < (f.equations c alpha A)[3] := equations_divisor_pos f (Real.neg_one_le_cos _) (Real.cos_le_one _)
    (alphaValue_nonneg f hcut0 hcut hq0) (Real.rpow_pos_of_pos (by norm_num) _)
  have hgain : (if f.hasGain then gain else XReal.ofRat 0).isFinite = true := by
    split
    · exact hg
    · rfl
  have hequations : f.equations c alpha A =
      f.equations c alpha ((10 : ℝ) ^ ((if f.hasGain then gain else XReal.ofRat 0).value / 40)) := by
    cases h : f.hasGain
    · exact equations_without_gain h c alpha _ _
    · rfl
  obtain ⟨b0, b1, b2, a1, a2, hrun, h0, h1, h2, h4, h5⟩ :=
    runDesign_exact hm hfilters f hc hq hgain hlegal hregular hequations hpos.ne'
  have hfinite : ∀ v ∈ [b0, b1, b2, a1, a2], v.isFinite = true := by
    simp [h0.1, h1.1, h2.1, h4.1, h5.1]
  refine ⟨b0, b1, b2, a1, a2, hfinite, endsAtOnce_answer_ok ((exec_filterInstr f cutoff shape gain s).trans (by rw [hrun])),
    hpos.ne', h0.2, h1.2, h2.2, h4.2, h5.2, fun hhas hzero => ?_, ?_⟩
  · have hA : A = 1 := by simp [A, hzero]
    obtain ⟨e0, e1, e2⟩ := equations_flat hhas c alpha
    rw [← hA] at e0 e1 e2
    rw [h0.2, h1.2, h2.2, h4.2, h5.2, e0, e1, e2, div_self hpos.ne', neg_div, neg_div, neg_neg, neg_neg]
    exact ⟨rfl, rfl, rfl⟩
  · rintro rfl
    obtain ⟨e2, e0, e1⟩ := equations_allpass c alpha A
    rw [h0.2, h1.2, h2.2, h4.2, h5.2, e0, e1, e2, div_self hpos.ne', neg_div, neg_div, neg_neg, neg_neg]
    exact ⟨rfl, rfl, rfl⟩

end Sys2Proof.Machine
end
